-- ==== Sys2Proof/Word.lean ====
section
/-!
DEFINITION. The words the machine computes with and their plainest arithmetic: widths, byte access
of a word, sign and zero extension of an encoded field (R3, R7, R351).
-/

namespace Sys2Proof

/-- A byte of any storage. -/
abbrev Byte := BitVec 8
/-- One lane of a vector register, an instruction word, FMT or a lane mask: 32 bits. -/
abbrev Word := BitVec 32
/-- A uniform register: 64 bits (Table 3-1). -/
abbrev DWord := BitVec 64
/-- A lane mask, bit n for lane n (R23). -/
abbrev Mask := BitVec 32
/-- A program counter: 48 bits (Table 2-1). -/
abbrev PC := BitVec 48

/-- `n`, if it is below the bound: a field whose value must lie in a class's range (R60). -/
def fin? (b n : Nat) : Option (Fin b) := if h : n < b then some ⟨n, h⟩ else none

@[simp] theorem fin?_val (b : Nat) (x : Fin b) : fin? b x.val = some x := by simp [fin?]

/-- A field that must be zero (R306). -/
def zero? (n : Nat) : Option Unit := if n = 0 then some () else none

@[simp] theorem zero?_zero : zero? 0 = some () := rfl

/-- Bits `hi` down to `lo` of a number. -/
def bits (n hi lo : Nat) : Nat := (n >>> lo) % 2 ^ (hi + 1 - lo)

/-- Bit `i` of a number. -/
def bit (n i : Nat) : Bool := n.testBit i

/-- The low `w` bits of a number read as a two's complement integer. -/
def signed (w n : Nat) : Int :=
  let m := n % 2 ^ w
  if m < 2 ^ (w - 1) then (m : Int) else (m : Int) - (2 ^ w : Nat)

end Sys2Proof
end

