-- ==== Sys2Proof/Syntax.lean ====
section
/-!
DEFINITION. The instructions, as syntax: operand classes, modifiers, literals, and `Instr`, one
constructor for each row of the opcode table. 192 are the encoded operations of Table 13-6;
61 are the steps the device takes by itself or at the request of its surroundings, which have
no encoding.
-/

namespace Sys2Proof

/-! ## Operand classes (Table 3-1) -/

/-- A vector register field. -/
abbrev VReg := Fin 128
/-- A uniform register. -/
abbrev XReg := Fin 64
/-- A predicate register. -/
abbrev PReg := Fin 8
/-- A tile register. -/
abbrev TReg := Fin 16
/-- An accumulator. -/
abbrev AReg := Fin 16
/-- A scale register. -/
abbrev SReg := Fin 32
/-- A guard slot. -/
abbrev GReg := Fin 8

/-! ## Modifiers -/

/-- The comparisons of ISCMP, XSCMP and FSCMP (R406, R419, R500). -/
inductive Cmp where
  | eq | ne | lt | le | gt | ge
  deriving DecidableEq, Repr

/-- Rounding modes (Table 3-3, field RM). -/
inductive Rm where
  | rne | rz | ru | rd
  deriving DecidableEq, Repr

/-- Element formats (Table 3-4). -/
inductive Fmt where
  | fp32 | bf16 | fp16 | f8 | l8 | l6
  deriving DecidableEq, Repr

/-- What FCVT converts from or to (Table 19-4). -/
inductive CvtFmt where
  | elem (f : Fmt) | s32 | u32
  deriving DecidableEq, Repr

/-- The operations of XLOP and PLOP (R443, Table 21-8). -/
inductive LogOp where
  | and | or | xor | andn
  deriving DecidableEq, Repr

/-- The forms of VOTE (R492). -/
inductive VoteOp where
  | any | all | bal
  deriving DecidableEq, Repr

/-- The reductions of SRED and SCAN (Table 20-5). -/
inductive RedOp where
  | addU | addS | minU | minS | maxU | maxS | and | or | xor | addF | minF | maxF
  deriving DecidableEq, Repr

/-- The operations of ATOM, RED and PATOM (Table 18-3). -/
inductive AtomOp where
  | add | min | max | and | or | xor | xchg | cas
  deriving DecidableEq, Repr

/-- Scopes (Table 8-1). -/
inductive Scope where
  | core | die | pkg | sys
  deriving DecidableEq, Repr

/-- Access widths (Table 19-10). -/
inductive Width where
  | b8 | b16 | b32 | b64 | b128
  deriving DecidableEq, Repr

/-- The in-flight counters (Table 7-9). -/
inductive CClass where
  | lds | sts | cpy | fet | mat | col
  deriving DecidableEq, Repr

/-- What a barrier instruction names (R360): a shelf object by its address register, or a group slot. -/
inductive BarSel where
  | object (x : XReg) | group (n : Fin 4)
  deriving DecidableEq, Repr

/-! ## Literals and packed operands -/

/-- An address offset of a full access: an immediate of 13 bits, or a vector register. -/
inductive Off where
  | imm (n : Fin 8192) | reg (v : VReg)
  deriving DecidableEq, Repr

/-- The address of a compact load or store (R421). -/
inductive CAddr where
  | reg (x : XReg) (vo : VReg) | imm (x : XReg) (k : Fin 128)
  deriving DecidableEq, Repr

/-- The literal of a full load or store (Table 19-10). `strong` is .ACQ of a load and .REL of a store. -/
structure LdLit where
  xa : XReg
  off : Off
  w : Width
  strong : Bool
  scope : Scope
  rsp : Bool
  deriving DecidableEq, Repr

/-- The literal of ATOM and RED (Table 18-3). -/
structure AtomLit where
  xa : XReg
  off : Off
  op : AtomOp
  sg : Bool
  w64 : Bool
  acq : Bool
  rel : Bool
  scope : Scope
  rsp : Bool
  deriving DecidableEq, Repr

/-- The literal of PLD, PST and PATOM (Table 20-2). -/
structure PeerLit where
  xa : XReg
  off : Off
  op : AtomOp
  sg : Bool
  w : Width
  acq : Bool
  rel : Bool
  deriving DecidableEq, Repr

/-- The literal of a floating-point instruction (Table 19-1); `bf` and `vc` are used by some. -/
structure FpMod where
  bf : Bool
  ftz : Bool
  rm : Option Rm
  vc : VReg
  deriving DecidableEq, Repr

/-- The literal of FCVT (Table 19-4). -/
structure CvtLit where
  ftz : Bool
  rm : Option Rm
  dst : CvtFmt
  src : CvtFmt
  deriving DecidableEq, Repr

/-- The destination and operation of VOTE (R492): `d` is a predicate, or a uniform register for BAL. -/
structure VoteArg where
  d : XReg
  p : PReg
  op : VoteOp
  deriving DecidableEq, Repr

/-! ## What a device step is about -/

/-- One split of one strand: core, strand slot, table entry. -/
structure SplitRef where
  core : Fin 512
  slot : Fin 256
  entry : Fin 4
  deriving DecidableEq, Repr

/-- Why a transfer unit is dropped (R186). -/
inductive DropCause where
  | portEvent | timeout
  deriving DecidableEq, Repr

/-- What a peer request asks of its target (R264, Table 11-1). -/
inductive PeerOp where
  | read (len : Nat)
  | write (data : List Byte)
  | atomic (op : AtomOp) (sg w64 : Bool) (args : List (Nat × Nat))
  deriving DecidableEq, Repr

/-- A request that reaches this package from a peer (R264, R268). -/
structure PeerReq where
  node : Fin 4096
  tag : BitVec 8
  gen : BitVec 4
  ver : BitVec 8
  addr : Nat
  op : PeerOp
  deriving DecidableEq, Repr

/-- PEER_REQUEST: the target's link layer accepts a request of ours, or a peer's request arrives. -/
inductive PeerIn where
  | accepted (req : Nat) | inbound (r : PeerReq)
  deriving DecidableEq, Repr

/-- PEER_REPLY: what comes back for a tag and generation (R266 to R268). -/
structure PeerAnswer where
  node : Fin 4096
  tag : BitVec 8
  gen : BitVec 4
  status : Fin 7
  data : List Byte
  deriving DecidableEq, Repr

/-- A collective chunk that arrives from the ring predecessor (R278, R279). -/
structure ChunkIn where
  comm : Fin 64
  key : BitVec 32
  ver : BitVec 8
  seq : BitVec 16
  idx : Nat
  data : List Byte
  deriving DecidableEq, Repr

/-- A chunk that this package sends: communicator, sequence number, index (R279). -/
structure ChunkId where
  comm : Fin 64
  seq : BitVec 16
  idx : Nat
  deriving DecidableEq, Repr

/-- A NACK for a chunk: stale, with the version that it carries (R279), or refused for its key (R265). -/
structure NackIn where
  id : ChunkId
  ver : BitVec 8
  refused : Bool
  deriving DecidableEq, Repr

/-- What a peer sends in the auth phase: its nonce; its identity key, its node id, and its signature over the nonce that
this package has sent, the identity and the node id (R270). -/
structure AuthAnswer where
  nonce : BitVec 384
  key : List Byte
  node : Fin 4096
  sig : List Byte
  deriving DecidableEq, Repr

/-- A host CXL.mem access (R211, R259): to harbour, or to a partition's far aperture. -/
inductive HostAccess where
  | readHarbour (addr len : Nat)
  | writeHarbour (addr : Nat) (data : List Byte)
  | readFar (part : Fin 16) (va len : Nat)
  | writeFar (part : Fin 16) (va : Nat) (data : List Byte)
  deriving DecidableEq, Repr

/-- Debug levels (R283). -/
inductive DebugLevel where
  | none | observe | invasive | full
  deriving DecidableEq, Repr

/-- Lifecycle states (R282). -/
inductive Lifecycle where
  | open | secured | retired
  deriving DecidableEq, Repr

/-- One setting of a configuration record (R293). -/
inductive ConfigItem where
  | partition (p : Fin 16) (halves : BitVec 16) (depth : Fin 17)
  | depth (p : Fin 16) (depth : Fin 17)
  | linkOwner (p : Fin 16)
  | nodeId (n : Fin 4096)
  | allowedPeers (keys : List (List Byte))
  | debugAuthorities (keys : List (List Byte))
  | lifecycle (l : Lifecycle)
  | edgeGroup (g : Fin 16) (pers : Fin 3)
  deriving DecidableEq, Repr

/-- A configuration record: what it sets, the signed bytes, the signature (R293). -/
structure ConfigRecord where
  items : List ConfigItem
  message : List Byte
  sig : List Byte
  deriving DecidableEq, Repr

/-- A debug token (R286): 48, 1, 1, 14 and 96 bytes. -/
structure DebugToken where
  digest : List Byte
  part : Byte
  level : Byte
  reserved : List Byte
  sig : List Byte
  deriving DecidableEq, Repr

/-- DEBUG_GRANT: a level for a partition, with a token if the host sends one; or a debug halt set
or released under a grant of INVASIVE (R283, R285). -/
inductive DebugRequest where
  | grant (p : Fin 16) (l : DebugLevel) (t : Option DebugToken)
  | halt (p : Fin 16)
  | release (p : Fin 16)
  deriving DecidableEq, Repr

/-- POWER_STATE_REQUEST (R284, R285). -/
inductive PowerRequest where
  | p0 (p : Fin 16) | p1 (p : Fin 16) | p2 (p : Fin 16) | p3 | leaveP3 | p4
  deriving DecidableEq, Repr

/-- POWER_BUDGET_CHANGE: whether power at 2.0 GHz fits the budget, and a core clock in MHz (R16). -/
structure BudgetChange where
  fits : Bool
  mhz : Nat
  deriving DecidableEq, Repr

/-- HOST_DEBUG_ACCESS (R283). -/
inductive DebugAccess where
  | readShelf (core : Fin 512) (addr len : Nat)
  | writeShelf (core : Fin 512) (addr : Nat) (data : List Byte)
  | readHarbour (p : Fin 16) (addr len : Nat)
  | writeHarbour (p : Fin 16) (addr : Nat) (data : List Byte)
  | readCsr (p : Fin 16) (csr : Fin 16384)
  | writeCsr (p : Fin 16) (csr : Fin 16384) (v : BitVec 64)
  | readStrandCsr (core : Fin 512) (slot : Fin 256) (csr : Fin 16384)
  | writeStrandCsr (core : Fin 512) (slot : Fin 256) (csr : Fin 16384) (v : BitVec 64)
  deriving DecidableEq, Repr

/-! ## Instructions and device steps -/

/-- One constructor for each row of the opcode table. Those without operands stand last: Lean's runtime
allows no operands to a constructor beyond the 244th. -/
inductive Instr where
  /-- BRA, opcode 0x001 (R369). Branches the active lanes relative to the PC and may split the strand. -/
  | bra (off : Fin 2097152)
  /-- BRX, opcode 0x002 (R369). Branches the active lanes to the address in Xa[47:2]. -/
  | brx (x : XReg)
  /-- CALL, opcode 0x003 (R369). Writes the next PC to X63 and branches relative to the PC. -/
  | call (off : Fin 2097152)
  /-- LOOPX, opcode 0x007 (R426). Decrements Xa and branches while it is nonzero. -/
  | loopx (x : XReg) (off : Fin 16384)
  /-- WINB, opcode 0x008 (R497). Sets the vector window base of every split. -/
  | winb (base : Fin 16384)
  /-- SHRINK_V, opcode 0x009 (R463). Lowers the vector allotment to n and releases the registers above it. -/
  | shrinkV (n : Fin 16384)
  /-- TRAP, opcode 0x00C (R488). Raises SWTRAP of kind T with the immediate in DETAIL0. -/
  | trap (imm : Fin 16384)
  /-- SETFMT, opcode 0x010 (R459). Sets the issuing split's FMT from Xa[31:0]. -/
  | setfmt (x : XReg)
  /-- SETFMT_F, opcode 0x011 (R460). Clears the FLG bits that are set in Xa. -/
  | setfmtF (x : XReg)
  /-- GANGSET, opcode 0x012 (R408). Tests Xa and writes the strand's gang register. -/
  | gangset (x : XReg)
  /-- MOVS_V, opcode 0x013 (R438). Reads a special source into a vector register. -/
  | movsV (d : VReg) (src : Fin 26)
  /-- MOVS_X, opcode 0x014 (R438). Reads a U-class special source into a uniform register. -/
  | movsX (d : XReg) (src : Fin 26)
  /-- IADD, opcode 0x020 (R415). Adds two vector registers modulo 2^32. -/
  | iadd (d : VReg) (a : VReg) (b : VReg)
  /-- IADD_IMM, opcode 0x021 (R415). Adds a zero-extended immediate to a vector register. -/
  | iaddImm (d : VReg) (a : VReg) (imm : Fin 128)
  /-- ISUB, opcode 0x022 (R415). Subtracts two vector registers modulo 2^32. -/
  | isub (d : VReg) (a : VReg) (b : VReg)
  /-- IMUL, opcode 0x023 (R418). Writes the low 32 bits of the product. -/
  | imul (d : VReg) (a : VReg) (b : VReg)
  /-- IMULH_S32, opcode 0x024 (R418). Writes the high 32 bits of the signed product. -/
  | imulhS32 (d : VReg) (a : VReg) (b : VReg)
  /-- IMULH_U32, opcode 0x025 (R418). Writes the high 32 bits of the unsigned product. -/
  | imulhU32 (d : VReg) (a : VReg) (b : VReg)
  /-- IMAD, opcode 0x026 (R416). Writes Va times Vb plus Vc modulo 2^32. -/
  | imad (d : VReg) (a : VReg) (b : VReg) (c : VReg)
  /-- IABS, opcode 0x027 (R414). Writes the signed magnitude of Va. -/
  | iabs (d : VReg) (a : VReg)
  /-- IMIN_S32, opcode 0x028 (R417). Writes the signed minimum. -/
  | iminS32 (d : VReg) (a : VReg) (b : VReg)
  /-- IMIN_U32, opcode 0x029 (R417). Writes the unsigned minimum. -/
  | iminU32 (d : VReg) (a : VReg) (b : VReg)
  /-- IMAX_S32, opcode 0x02A (R417). Writes the signed maximum. -/
  | imaxS32 (d : VReg) (a : VReg) (b : VReg)
  /-- IMAX_U32, opcode 0x02B (R417). Writes the unsigned maximum. -/
  | imaxU32 (d : VReg) (a : VReg) (b : VReg)
  /-- ISCMP, opcode 0x02C (R419). Compares two vector registers into a predicate. -/
  | iscmp (sg : Bool) (cmp : Cmp) (p : PReg) (a : VReg) (b : VReg)
  /-- SELECT, opcode 0x02D (R458). Selects Va or Vb per lane by a predicate. -/
  | select (d : VReg) (a : VReg) (b : VReg) (p : PReg)
  /-- MOV, opcode 0x02E (R437). Copies a vector register. -/
  | mov (d : VReg) (a : VReg)
  /-- MOVI, opcode 0x02F (R437). Writes a 32-bit literal to a vector register. -/
  | movi (d : VReg) (imm : BitVec 32)
  /-- AND, opcode 0x030 (R355). Bitwise AND of two vector registers. -/
  | and (d : VReg) (a : VReg) (b : VReg)
  /-- AND_IMM, opcode 0x031 (R355). Bitwise AND with an immediate. -/
  | andImm (d : VReg) (a : VReg) (imm : Fin 128)
  /-- OR, opcode 0x032 (R355). Bitwise OR of two vector registers. -/
  | or (d : VReg) (a : VReg) (b : VReg)
  /-- OR_IMM, opcode 0x033 (R355). Bitwise OR with an immediate. -/
  | orImm (d : VReg) (a : VReg) (imm : Fin 128)
  /-- XOR, opcode 0x034 (R355). Bitwise exclusive OR of two vector registers. -/
  | xor (d : VReg) (a : VReg) (b : VReg)
  /-- XOR_IMM, opcode 0x035 (R355). Bitwise exclusive OR with an immediate. -/
  | xorImm (d : VReg) (a : VReg) (imm : Fin 128)
  /-- LUT3, opcode 0x036 (R427). Applies an 8-bit truth table to three inputs bit by bit. -/
  | lut3 (d : VReg) (a : VReg) (b : VReg) (c : VReg) (lut : BitVec 8)
  /-- SHL, opcode 0x038 (R462). Shifts left by a register count. -/
  | shl (d : VReg) (a : VReg) (b : VReg)
  /-- SHL_IMM, opcode 0x039 (R462). Shifts left by an immediate count. -/
  | shlImm (d : VReg) (a : VReg) (imm : Fin 128)
  /-- SHR, opcode 0x03A (R462). Shifts right logically by a register count. -/
  | shr (d : VReg) (a : VReg) (b : VReg)
  /-- SHR_IMM, opcode 0x03B (R462). Shifts right logically by an immediate count. -/
  | shrImm (d : VReg) (a : VReg) (imm : Fin 128)
  /-- SHRA, opcode 0x03C (R462). Shifts right arithmetically by a register count. -/
  | shra (d : VReg) (a : VReg) (b : VReg)
  /-- SHRA_IMM, opcode 0x03D (R462). Shifts right arithmetically by an immediate count. -/
  | shraImm (d : VReg) (a : VReg) (imm : Fin 128)
  /-- FUNS, opcode 0x03E (R407). Funnel-shifts the 64-bit pair Vb:Va right by Vc. -/
  | funs (d : VReg) (a : VReg) (b : VReg) (c : VReg)
  /-- BFX_U, opcode 0x040 (R367). Extracts a bit field, zero-extended. -/
  | bfxU (d : VReg) (a : VReg) (b : VReg)
  /-- BFX_S, opcode 0x041 (R367). Extracts a bit field, sign-extended. -/
  | bfxS (d : VReg) (a : VReg) (b : VReg)
  /-- BFI, opcode 0x042 (R366). Inserts a field of Va into Vb. -/
  | bfi (d : VReg) (a : VReg) (b : VReg) (c : VReg)
  /-- POPC, opcode 0x043 (R370). Counts the one bits. -/
  | popc (d : VReg) (a : VReg)
  /-- CLZ, opcode 0x044 (R370). Counts the leading zero bits. -/
  | clz (d : VReg) (a : VReg)
  /-- BREV, opcode 0x045 (R370). Reverses the bit order. -/
  | brev (d : VReg) (a : VReg)
  /-- XADD, opcode 0x050 (R499). Adds two uniform registers modulo 2^64. -/
  | xadd (d : XReg) (a : XReg) (b : XReg)
  /-- XADD_IMM, opcode 0x051 (R499). Adds an immediate to a uniform register. -/
  | xaddImm (d : XReg) (a : XReg) (imm : Fin 128)
  /-- XSUB, opcode 0x052 (R499). Subtracts two uniform registers. -/
  | xsub (d : XReg) (a : XReg) (b : XReg)
  /-- XMUL, opcode 0x053 (R499). Writes the low 64 bits of the uniform product. -/
  | xmul (d : XReg) (a : XReg) (b : XReg)
  /-- XLOP, opcode 0x054 (R499). Bitwise logic on uniform registers. -/
  | xlop (op : LogOp) (d : XReg) (a : XReg) (b : XReg)
  /-- XSHL, opcode 0x055 (R499). Shifts a uniform register left by a register count. -/
  | xshl (d : XReg) (a : XReg) (b : XReg)
  /-- XSHL_IMM, opcode 0x056 (R499). Shifts a uniform register left by an immediate. -/
  | xshlImm (d : XReg) (a : XReg) (imm : Fin 128)
  /-- XSHR, opcode 0x057 (R499). Shifts a uniform register right logically by a register count. -/
  | xshr (d : XReg) (a : XReg) (b : XReg)
  /-- XSHR_IMM, opcode 0x058 (R499). Shifts a uniform register right logically by an immediate. -/
  | xshrImm (d : XReg) (a : XReg) (imm : Fin 128)
  /-- XMOV, opcode 0x059 (R499). Copies a uniform register. -/
  | xmov (d : XReg) (a : XReg)
  /-- XMOVI, opcode 0x05A (R499). Writes a sign-extended 32-bit literal to a uniform register. -/
  | xmovi (d : XReg) (imm : BitVec 32)
  /-- XSCMP, opcode 0x05B (R500). Compares two uniform registers into a predicate for every lane of the split. -/
  | xscmp (sg : Bool) (cmp : Cmp) (p : PReg) (a : XReg) (b : XReg)
  /-- XLD, opcode 0x05C (R501). Loads 8 harbour bytes into a uniform register. -/
  | xld (d : XReg) (a : XReg) (imm : Fin 128)
  /-- XST, opcode 0x05D (R501). Stores a uniform register to 8 harbour bytes. -/
  | xst (b : XReg) (a : XReg) (imm : Fin 128)
  /-- XGET, opcode 0x05E (R502). Reads a task value from the snapshot. -/
  | xget (d : XReg) (k : Fin 34)
  /-- PLOP, opcode 0x060 (R443). Predicate logic. -/
  | plop (op : LogOp) (p : PReg) (a : PReg) (b : PReg)
  /-- PTOV, opcode 0x061 (R446). Writes 1 or 0 per lane from a predicate. -/
  | ptov (d : VReg) (p : PReg)
  /-- VTOP, opcode 0x062 (R494). Sets a predicate where a vector register is nonzero. -/
  | vtop (p : PReg) (a : VReg)
  /-- FADD, opcode 0x070 (R394). FP32 addition in the effective mode. -/
  | fadd (d : VReg) (a : VReg) (b : VReg)
  /-- FADD_MODIFIED, opcode 0x071 (R394). FP32 addition with a rounding or flush modifier. -/
  | faddM (d : VReg) (a : VReg) (b : VReg) (md : FpMod)
  /-- FSUB, opcode 0x072 (R394). FP32 subtraction. -/
  | fsub (d : VReg) (a : VReg) (b : VReg)
  /-- FSUB_MODIFIED, opcode 0x073 (R394). FP32 subtraction with a modifier. -/
  | fsubM (d : VReg) (a : VReg) (b : VReg) (md : FpMod)
  /-- FMUL, opcode 0x074 (R394). FP32 multiplication. -/
  | fmul (d : VReg) (a : VReg) (b : VReg)
  /-- FMUL_MODIFIED, opcode 0x075 (R394). FP32 multiplication with a modifier. -/
  | fmulM (d : VReg) (a : VReg) (b : VReg) (md : FpMod)
  /-- FFMA, opcode 0x076 (R394). Fused FP32 multiply-add with one rounding. -/
  | ffma (d : VReg) (a : VReg) (b : VReg) (md : FpMod)
  /-- FMIN, opcode 0x078 (R401). FP32 minimum. -/
  | fmin (d : VReg) (a : VReg) (b : VReg)
  /-- FMAX, opcode 0x079 (R401). FP32 maximum. -/
  | fmax (d : VReg) (a : VReg) (b : VReg)
  /-- FSCMP, opcode 0x07A (R406). FP32 comparison into a predicate. -/
  | fscmp (cmp : Cmp) (p : PReg) (a : VReg) (b : VReg)
  /-- FCLASS, opcode 0x07B (R395). Writes the class mask of an FP32 encoding. -/
  | fclass (d : VReg) (a : VReg)
  /-- FCVT, opcode 0x07C (R397). Converts between number formats. -/
  | fcvt (d : VReg) (a : VReg) (cv : CvtLit)
  /-- FRND, opcode 0x07D (R405). Rounds FP32 to an integral value. -/
  | frnd (d : VReg) (a : VReg) (rm : Option Rm)
  /-- FRCP, opcode 0x080 (R403). Correctly rounded reciprocal. -/
  | frcp (d : VReg) (a : VReg)
  /-- FRSQ, opcode 0x081 (R403). Correctly rounded reciprocal square root. -/
  | frsq (d : VReg) (a : VReg)
  /-- FEX2, opcode 0x082 (R403). Correctly rounded 2^x. -/
  | fex2 (d : VReg) (a : VReg)
  /-- FLG2, opcode 0x083 (R403). Correctly rounded log2 x. -/
  | flg2 (d : VReg) (a : VReg)
  /-- FSIN, opcode 0x084 (R403). Correctly rounded sine. -/
  | fsin (d : VReg) (a : VReg)
  /-- FCOS, opcode 0x085 (R403). Correctly rounded cosine. -/
  | fcos (d : VReg) (a : VReg)
  /-- HADD2, opcode 0x088 (R413). Adds two pairs of 16-bit elements. -/
  | hadd2 (d : VReg) (a : VReg) (bf : Bool) (b : Fin 64)
  /-- HADD2_MODIFIED, opcode 0x089 (R413). Paired 16-bit addition with a modifier. -/
  | hadd2M (d : VReg) (a : VReg) (b : VReg) (md : FpMod)
  /-- HMUL2, opcode 0x08A (R413). Multiplies two pairs of 16-bit elements. -/
  | hmul2 (d : VReg) (a : VReg) (bf : Bool) (b : Fin 64)
  /-- HMUL2_MODIFIED, opcode 0x08B (R413). Paired 16-bit multiplication with a modifier. -/
  | hmul2M (d : VReg) (a : VReg) (b : VReg) (md : FpMod)
  /-- HFMA2, opcode 0x08C (R413). Fused multiply-add per 16-bit half. -/
  | hfma2 (d : VReg) (a : VReg) (b : VReg) (md : FpMod)
  /-- VOTE, opcode 0x090 (R493). Votes a predicate over the active lanes. -/
  | vote (w : VoteArg)
  /-- VOTE_MASK, opcode 0x091 (R493). Votes a predicate over the members named in a mask. -/
  | voteMask (w : VoteArg) (m : XReg)
  /-- SRED, opcode 0x092 (R454). Reduces a vector register over the active lanes into Xd. -/
  | sred (d : XReg) (a : VReg) (op : RedOp)
  /-- SRED_MASK, opcode 0x093 (R454). Reduces over the members named in a mask. -/
  | sredMask (d : XReg) (a : VReg) (op : RedOp) (m : PReg)
  /-- MATCH, opcode 0x094 (R428). Writes the mask of active lanes holding equal values. -/
  | matchLanes (d : VReg) (a : VReg)
  /-- MATCH_MASK, opcode 0x095 (R428). Writes the mask of members holding equal values. -/
  | matchMask (d : VReg) (a : VReg) (m : XReg)
  /-- SCAN, opcode 0x096 (R455). Inclusive prefix over the active lanes. -/
  | scan (d : VReg) (a : VReg) (op : RedOp)
  /-- SHFL, opcode 0x098 (R461). Takes Va from the lane named in Vb. -/
  | shfl (d : VReg) (a : VReg) (b : VReg)
  /-- SHFLP, opcode 0x099 (R461). Takes Va from the lane named by a pattern table. -/
  | shflp (d : VReg) (a : VReg) (t : Fin 16)
  /-- PTLD, opcode 0x09A (R445). Loads a 32-byte pattern table from the shelf. -/
  | ptld (t : Fin 16) (x : XReg)
  /-- LD_S, opcode 0x0A0 (R424). Compact 32-bit shelf load. -/
  | ldS (d : VReg) (ad : CAddr)
  /-- LD_S_FULL, opcode 0x0A1 (R424). Shelf load with width, ordering and scope in a literal. -/
  | ldSFull (d : VReg) (l : LdLit)
  /-- LD_H, opcode 0x0A2 (R424). Compact 32-bit harbour load. -/
  | ldH (d : VReg) (ad : CAddr)
  /-- LD_H_FULL, opcode 0x0A3 (R424). Harbour load with width, ordering, scope and RSP in a literal. -/
  | ldHFull (d : VReg) (l : LdLit)
  /-- ST_S, opcode 0x0A4 (R466). Compact 32-bit shelf store. -/
  | stS (v : VReg) (ad : CAddr)
  /-- ST_S_FULL, opcode 0x0A5 (R466). Shelf store with width, ordering and scope in a literal. -/
  | stSFull (v : VReg) (l : LdLit)
  /-- ST_H, opcode 0x0A6 (R466). Compact 32-bit harbour store. -/
  | stH (v : VReg) (ad : CAddr)
  /-- ST_H_FULL, opcode 0x0A7 (R466). Harbour store with width, ordering and scope in a literal. -/
  | stHFull (v : VReg) (l : LdLit)
  /-- ATOM, opcode 0x0A8 (R358). Harbour atomic that returns the old value. -/
  | atom (d : VReg) (b : VReg) (c : VReg) (l : AtomLit)
  /-- RED, opcode 0x0A9 (R450). Harbour atomic with no result. -/
  | red (b : VReg) (l : AtomLit)
  /-- FENCE, opcode 0x0AA (R400). Orders the strand's accesses at a scope. -/
  | fence (scope : Scope) (acq : Bool) (rel : Bool)
  /-- CFLUSH, opcode 0x0AB (R372). Writes back an L1 line and keeps it clean. -/
  | cflush (x : XReg)
  /-- CINV, opcode 0x0AC (R372). Writes back an L1 line and drops it. -/
  | cinv (x : XReg)
  /-- PLD, opcode 0x0B0 (R441). Peer load from another node's harbour. -/
  | pld (d : VReg) (l : PeerLit)
  /-- PST, opcode 0x0B1 (R441). Peer store to another node's harbour. -/
  | pst (b : VReg) (l : PeerLit)
  /-- PATOM, opcode 0x0B2 (R441). Peer atomic at another node's harbour. -/
  | patom (d : VReg) (b : VReg) (c : VReg) (l : PeerLit)
  /-- COPY, opcode 0x0C0 (R375). Posts a shelf copy within the cohort by descriptor. -/
  | copy (x : XReg) (g : Option GReg)
  /-- PUTS, opcode 0x0C1 (R448). Posts a put of the active lanes' words to a cohort shelf. -/
  | puts (x : XReg) (g : Option GReg) (b : VReg)
  /-- TFETCH, opcode 0x0C2 (R477). Posts a tensor fetch from far memory into a shelf slot. -/
  | tfetch (x : XReg) (g : Option GReg)
  /-- TSTORE, opcode 0x0C3 (R478). Posts a tensor store from a shelf slot to far memory. -/
  | tstore (x : XReg) (g : Option GReg)
  /-- MCOPY, opcode 0x0C4 (R431). Posts a module copy command. -/
  | mcopy (x : XReg) (g : Option GReg)
  /-- MFILL, opcode 0x0C5 (R431). Posts a module fill command. -/
  | mfill (x : XReg) (g : Option GReg)
  /-- MREDUCE, opcode 0x0C6 (R431). Posts a module reduce command. -/
  | mreduce (x : XReg) (g : Option GReg)
  /-- COLL, opcode 0x0C7 (R373). Posts a collective to the collective engine. -/
  | coll (x : XReg) (g : Option GReg)
  /-- BARINIT, opcode 0x0C8 (R363). Writes a barrier object. -/
  | barinit (a : XReg) (b : XReg)
  /-- BAREXP, opcode 0x0C9 (R363). Expects bytes on a barrier object. -/
  | barexp (a : XReg) (b : XReg)
  /-- BARARR, opcode 0x0CA (R363). Releases and arrives on a barrier object or group barrier. -/
  | bararr (sel : BarSel)
  /-- BARDROP, opcode 0x0CB (R363). Arrives and drops from a barrier. -/
  | bardrop (sel : BarSel)
  /-- BARWAIT, opcode 0x0CC (R363). Waits for a barrier phase change and acquires. -/
  | barwait (sel : BarSel) (b : XReg)
  /-- BARTEST, opcode 0x0CD (R363). Tests a barrier phase into a predicate. -/
  | bartest (p : PReg) (sel : BarSel) (x : XReg)
  /-- WAITC, opcode 0x0CE (R496). Waits until an in-flight counter falls to a threshold. -/
  | waitc (c : CClass) (n : XReg)
  /-- GRES_OPEN, opcode 0x0D0 (R410). Opens a guard slot to UNRESOLVED. -/
  | gresOpen (g : GReg)
  /-- GRES_X, opcode 0x0D1 (R410). Resolves a guard from a uniform condition. -/
  | gresX (g : GReg) (x : XReg)
  /-- GRES_ANY, opcode 0x0D2 (R410). Resolves a guard TRUE when a predicate holds in some active lane. -/
  | gresAny (g : GReg) (p : PReg)
  /-- GRES_ALL, opcode 0x0D3 (R410). Resolves a guard TRUE when a predicate holds in every active lane. -/
  | gresAll (g : GReg) (p : PReg)
  /-- TLD, opcode 0x0E0 (R484). Loads a tile from the shelf with a shape operand. -/
  | tld (t : TReg) (a : XReg) (b : XReg)
  /-- TLD_ZB, opcode 0x0E1 (R484). Loads a tile and computes its zero bitmap. -/
  | tldZb (t : TReg) (a : XReg) (b : XReg)
  /-- TLD_SC, opcode 0x0E2 (R485). Loads a tile and its scales and binds them. -/
  | tldSc (t : TReg) (m : SReg) (a : XReg) (b : XReg)
  /-- TLD_SC_ZB, opcode 0x0E3 (R485). Loads a tile and scales, binds them and computes the zero bitmap. -/
  | tldScZb (t : TReg) (m : SReg) (a : XReg) (b : XReg)
  /-- TSTR, opcode 0x0E4 (R490). Stores tile data to the shelf. -/
  | tstr (x : XReg) (t : TReg)
  /-- TZERO, opcode 0x0E5 (R491). Zeroes a tile's data and marks every element valid. -/
  | tzero (t : TReg)
  /-- TCVT, opcode 0x0E6 (R474). Converts a tile's elements to another format. -/
  | tcvt (n : TReg) (m : TReg) (f : Fmt)
  /-- TCVT_ZB, opcode 0x0E7 (R474). Converts a tile and computes its zero bitmap. -/
  | tcvtZb (n : TReg) (m : TReg) (f : Fmt)
  /-- TQNT_L6, opcode 0x0E8 (R150). Quantises an accumulator pair to an L6 tile with scales. -/
  | tqntL6 (t : TReg) (k : PReg) (sx : SReg) (x : XReg)
  /-- TQNT_L6_ZB, opcode 0x0E9 (R150). Quantises to L6 and computes the zero bitmap. -/
  | tqntL6Zb (t : TReg) (k : PReg) (sx : SReg) (x : XReg)
  /-- TQNT_L8, opcode 0x0EA (R150). Quantises an accumulator pair to an L8 tile with scales. -/
  | tqntL8 (t : TReg) (k : PReg) (sx : SReg) (x : XReg)
  /-- TQNT_L8_ZB, opcode 0x0EB (R150). Quantises to L8 and computes the zero bitmap. -/
  | tqntL8Zb (t : TReg) (k : PReg) (sx : SReg) (x : XReg)
  /-- TQNT_F8, opcode 0x0EC (R150). Quantises an accumulator pair to an F8 tile with scales. -/
  | tqntF8 (t : TReg) (k : PReg) (sx : SReg) (x : XReg)
  /-- TQNT_F8_ZB, opcode 0x0ED (R150). Quantises to F8 and computes the zero bitmap. -/
  | tqntF8Zb (t : TReg) (k : PReg) (sx : SReg) (x : XReg)
  /-- MMA, opcode 0x0F0 (R136). Issues one matrix step from vector registers and a tile into an accumulator. -/
  | mma (k : Bool) (d : AReg) (a : VReg) (t : TReg)
  /-- MMX, opcode 0x0F1 (R435). Issues a matrix sequence streamed from shelf rings. -/
  | mmx (d : AReg) (a : XReg) (b : XReg)
  /-- MMX_GUARD, opcode 0x0F2 (R436). Issues a matrix sequence held on a guard slot. -/
  | mmxGuard (d : AReg) (g : GReg) (a : XReg) (b : XReg)
  /-- MMX_SPEC, opcode 0x0F3 (R436). Issues a speculative matrix sequence into a shadow accumulator. -/
  | mmxSpec (d : AReg) (g : GReg) (a : XReg) (b : XReg)
  /-- ACCZ, opcode 0x0F4 (R354). Zeroes an accumulator. -/
  | accz (d : AReg)
  /-- ACCRD, opcode 0x0F5 (R354). Converts accumulator rows into vector registers. -/
  | accrd (d : VReg) (a : AReg)
  /-- ACCWR, opcode 0x0F6 (R354). Writes accumulator rows from vector registers. -/
  | accwr (d : AReg) (a : VReg)
  /-- ACCLD, opcode 0x0F7 (R354). Loads an accumulator from 4,096 shelf bytes. -/
  | accld (d : AReg) (x : XReg) (imm : Fin 128)
  /-- ACCST, opcode 0x0F8 (R354). Stores an accumulator to 4,096 shelf bytes. -/
  | accst (d : AReg) (x : XReg) (imm : Fin 128)
  /-- SLD, opcode 0x100 (R457). Loads 128 bytes of scales from the shelf into a fresh entry. -/
  | sld (d : SReg) (x : XReg) (imm : Fin 128)
  /-- SST, opcode 0x101 (R457). Stores a scale register's 128 bytes to the shelf. -/
  | sst (a : SReg) (x : XReg) (imm : Fin 128)
  /-- SBIND_S, opcode 0x102 (R119). Binds a tile to the entry a scale register maps. -/
  | sbindS (t : TReg) (m : SReg)
  /-- SBIND_X, opcode 0x103 (R119). Binds a tile by a tag held in a uniform register. -/
  | sbindX (t : TReg) (m : XReg)
  /-- SBIND_U, opcode 0x104 (R119). Unbinds a tile. -/
  | sbindU (t : TReg)
  /-- SREL, opcode 0x105 (R121). Releases the entry a scale register maps. -/
  | srel (m : SReg)
  /-- SQRY, opcode 0x106 (R120). Reports a tile's binding and format. -/
  | sqry (d : XReg) (t : TReg)
  /-- SMOV_S, opcode 0x108 (R457). Copies a scale register into a fresh entry. -/
  | smovS (d : SReg) (a : SReg)
  /-- SMOV_X, opcode 0x109 (R457). Fills a fresh scale entry with Xa[15:0]. -/
  | smovX (d : SReg) (a : XReg)
  /-- SMUL, opcode 0x10A (R457). Multiplies two scale registers element by element. -/
  | smul (d : SReg) (a : SReg) (b : SReg)
  /-- SMAX, opcode 0x10B (R457). Takes the element maximum of two scale registers. -/
  | smax (d : SReg) (a : SReg) (b : SReg)
  /-- SCVT_TO_S, opcode 0x10C (R457). Converts a vector register pair into scales. -/
  | scvtToS (d : SReg) (a : VReg)
  /-- SCVT_TO_V, opcode 0x10D (R457). Widens scales into a vector register pair. -/
  | scvtToV (d : VReg) (a : SReg)
  /-- LAUNCH, opcode 0x120 (R222). Starts a graph of tasks. -/
  | launch (p : PReg) (x : XReg)
  /-- TASKARM, opcode 0x121 (R225). Adds to a task's pending count. -/
  | taskarm (a : XReg) (b : XReg)
  /-- TASKSIG, opcode 0x122 (R225). Subtracts from a task's pending count. -/
  | tasksig (a : XReg) (b : XReg)
  /-- TASKRETRY, opcode 0x123 (R235). Makes a FAULTED task READY with a new snapshot. -/
  | taskretry (a : XReg)
  /-- TASKABORT, opcode 0x124 (R236). Aborts a task and every task reachable from it. -/
  | taskabort (a : XReg)
  /-- CSRR, opcode 0x130 (R378). Reads a CSR into a uniform register. -/
  | csrr (d : XReg) (csr : Fin 16384)
  /-- CSRW, opcode 0x131 (R378). Writes a CSR that has no behaviour of its own. -/
  | csrw (a : XReg) (csr : Fin 16384)
  /-- DTLOAD, opcode 0x132 (R310). Loads and installs the partition's decode table. -/
  | dtload (x : XReg)
  /-- TLBINV, opcode 0x133 (R481). Invalidates translations by address, size and partition. -/
  | tlbinv (x : XReg)
  /-- CTXST, opcode 0x134 (R380). Writes a strand or tile image to harbour. -/
  | ctxst (a : XReg) (b : XReg)
  /-- CTXLD, opcode 0x135 (R382). Restores a strand or tile image from harbour. -/
  | ctxld (a : XReg) (b : XReg)
  /-- EGMODE, opcode 0x136 (R388). Starts a personality change of an edge group. -/
  | egmode (x : XReg)
  /-- EVPOP, opcode 0x137 (R389). Takes the record at EVHEAD into the shelf. -/
  | evpop (d : XReg) (x : XReg)
  /-- TOPOCMT_WRITE, a device step (R263). A write to TOPOCMT commits the inactive route bank under a new topology version. -/
  | topocmtWrite (part : Fin 16) (v : BitVec 16)
  /-- SPLIT_PROMOTION, a device step (R57). A split ready for 768 issue cycles without issuing is promoted. -/
  | splitPromotion (w : SplitRef)
  /-- STALL_END, a device step (R23). A split waiting on a stall becomes ready again when its condition is met. -/
  | stallEnd (w : SplitRef)
  /-- WORKGROUP_PLACEMENT, a device step (R36). The dispatcher places the next workgroup on a core that passes the resource check. -/
  | workgroupPlacement (part : Fin 16)
  /-- COHORT_PLACEMENT, a device step (R40). A cohort is placed on a rectangle all at once. -/
  | cohortPlacement (part : Fin 16)
  /-- COHORT_WAIT_TIMEOUT, a device step (R40). A cohort that has waited 100,000 clocks reserves its first rectangle. -/
  | cohortWaitTimeout (run : Nat)
  /-- MATRIX_STEP, a device step (R138). At a step boundary the engine starts the next step of the oldest ready operation. -/
  | matrixStep (core : Fin 512)
  /-- MATRIX_COMPLETION, a device step (R139). A matrix operation completes, releasing locks and lowering MAT. -/
  | matrixCompletion (core : Fin 512)
  /-- MATRIX_ENGINE_STOP, a device step (R145). The engine stops after completing rounds in progress on a halt. -/
  | matrixEngineStop (core : Fin 512)
  /-- COMMAND_ADMISSION, a device step (R173). A waiting fetch command is admitted, charged and its bytes expected. -/
  | commandAdmission (die : Fin 8)
  /-- FETCH_RELEASE_PHASE, a device step (R175). The release barrier of a slot reaches its phase and the fetch moves bytes. -/
  | fetchReleasePhase (cmd : Nat)
  /-- TRANSFER_UNIT_LANDED, a device step (R176). A transfer unit lands in the shelf and on its barrier. -/
  | transferUnitLanded (cmd : Nat) (unit : Nat)
  /-- UNIT_ACKNOWLEDGED, a device step (R183). A module controller acknowledges a written unit and its bytes land. -/
  | unitAcknowledged (cmd : Nat) (unit : Nat)
  /-- TRANSFER_UNIT_DROPPED, a device step (R186). A unit held 100 µs by a port event or past FETCHTO is dropped. -/
  | transferUnitDropped (cmd : Nat) (unit : Nat) (cause : DropCause)
  /-- COPY_EXECUTION, a device step (R375). The tensor copy engines move a COPY unit by unit and arrive on its barrier. -/
  | copyExecution (cmd : Nat)
  /-- PUTS_DELIVERY, a device step (R448). A PUTS writes its words in the target shelf and arrives on its barrier. -/
  | putsDelivery (cmd : Nat)
  /-- WAVELENGTH_FAILURE, a device step (R19). A laser fails and its spare is tuned or the wavelength is lost. -/
  | wavelengthFailure (port : Fin 64) (lam : Fin 16)
  /-- SPARE_WARMED, a device step (R185). A tuned spare laser has warmed and carries the wavelength. -/
  | spareWarmed (port : Fin 64) (spare : Fin 4)
  /-- LASER_AGEING, a device step (R185). A laser's drive is raised for ageing. -/
  | laserAgeing (port : Fin 64) (lam : Fin 16)
  /-- LINK_RETRAINING, a device step (R185). An optical port goes down to retrain. -/
  | linkRetraining (port : Fin 64)
  /-- PORT_RECOVERY, a device step (R185). A port recovers and replays its retransmit buffer. -/
  | portRecovery (port : Fin 64)
  /-- RELEASE_NOTICE, a device step (R202). A release notice reaches a harbour slice and updates its records. -/
  | releaseNotice (core : Fin 512) (slice : Fin 512)
  /-- PROMOTION_REQUEST, a device step (R203). A core receiving a promotion request writes back its L1 and acknowledges. -/
  | promotionRequest (core : Fin 512)
  /-- PROMOTION_ACKNOWLEDGEMENT, a device step (R203). The slice receives the acknowledgement and performs the waiting acquire. -/
  | promotionAcknowledgement (id : Nat)
  /-- TASK_EDGE_BEGIN, a device step (R219). A task whose last strand ended with counters at zero enters EDGE. -/
  | taskEdgeBegin (run : Nat)
  /-- EDGE_LINE_WRITEBACK, a device step (R229). Every core has written back one line of a write record and LINE advances. -/
  | edgeLineWriteback (run : Nat)
  /-- DRAIN_REPORT, a device step (R229). Modules report that a far write record is in DRAM. -/
  | drainReport (run : Nat)
  /-- EDGE_DECREMENT, a device step (R337). Stage 2 decrements up to 16 successors in one clock. -/
  | edgeDecrement (run : Nat)
  /-- HALT_REQUEST, a device step (R252). The management core begins halting a partition. -/
  | haltRequest (part : Fin 16)
  /-- HALTED, a device step (R252). Every split is stopped and commands frozen; PSTAT becomes 2. -/
  | halted (part : Fin 16)
  /-- CONTEXT_EXCHANGE, a device step (R255). Each core completes the exchange with its context shadow; PSTAT becomes 3. -/
  | contextExchange (part : Fin 16)
  /-- RESUME_REQUEST, a device step (R256). A resume request starts the exchange back from the shadows. -/
  | resumeRequest (part : Fin 16)
  /-- RESUME_COMPLETE, a device step (R256). Held completions are applied, frozen commands re-dispatch and strands resume. -/
  | resumeComplete (part : Fin 16)
  /-- EBB_END, a device step (R270). The group's accepted requests are answered and ebb ends. -/
  | ebbEnd (g : Fin 16)
  /-- EBB_DEADLINE, a device step (R270). Ebb reaches its 50 µs deadline and the change proceeds. -/
  | ebbDeadline (g : Fin 16)
  /-- SLACK_END, a device step (R270). The PHY locks in the new personality or slack fails. -/
  | slackEnd (g : Fin 16) (ok : Bool)
  /-- AUTH_END, a device step (R270). Authentication passes or fails, quarantining the group on failure. -/
  | authEnd (g : Fin 16) (a : Option AuthAnswer)
  /-- FLOOD, a device step (R270). Flood commits, sets EGSTAT.VER and returns the group to PHASE 0. -/
  | flood (g : Fin 16)
  /-- LOSS_OF_LOCK, a device step (R273). A UAL or UET group loses lock and retrains by itself. -/
  | lossOfLock (g : Fin 16)
  /-- PEER_REQUEST, a device step (R268). A target accepts, refuses or performs a peer request. -/
  | peerRequest (r : PeerIn)
  /-- PEER_REPLY, a device step (R266). A peer reply completes its lanes at the requester. -/
  | peerReply (r : PeerAnswer)
  /-- PEER_TIMEOUT, a device step (R266). A peer request unaccepted after PEERTO fails its lanes. -/
  | peerTimeout (req : Nat)
  /-- REPLAY_RECORD_EXPIRY, a device step (R266). A target's replay record expires after 2 × PEERTO. -/
  | replayRecordExpiry (node : Fin 4096) (tag : BitVec 8) (gen : BitVec 4)
  /-- CHUNK_SEND, a device step (R278). At a link's chunk boundary the engine sends the next chunk by priority. -/
  | chunkSend (node : Fin 4096)
  /-- CHUNK_RECEIVE, a device step (R279). A receiver accepts or refuses a chunk by its first packet. -/
  | chunkReceive (ch : ChunkIn)
  /-- STALE_NACK, a device step (R279). A sender receives a stale NACK and schedules a resend. -/
  | staleNack (n : NackIn)
  /-- CHUNK_ACCEPTED, a device step (R280). The ring successor's acceptance of a sent chunk reaches the sender. -/
  | chunkAccepted (k : ChunkId)
  /-- CHUNK_RESEND, a device step (R279). A chunk refused by a receiver behind the sender is resent every 20 µs. -/
  | chunkResend (k : ChunkId)
  /-- CHUNK_TIMEOUT, a device step (R279). A chunk unaccepted after PEERTO fails its operation. -/
  | chunkTimeout (k : ChunkId)
  /-- CREDIT_RETURN, a device step (R278). A drained receive buffer returns credit to the ring predecessor; `inbound`: the successor's credit reaches this package. -/
  | creditReturn (comm : Fin 64) (inbound : Bool)
  /-- COLL_COMPLETION, a device step (R280). A COLL completes, writes STATUS and arrives on its barrier. -/
  | collCompletion (comm : Fin 64)
  /-- HOST_CXL_MEM_ACCESS, a device step (R211). A host CXL.mem access is performed at the home slice or far module. -/
  | hostCxlMemAccess (h : HostAccess)
  /-- ATTESTATION_REPORT, a device step (R291). The management core signs an attestation report on host request. -/
  | attestationReport (nonce : BitVec 384)
  /-- FIRMWARE_IMAGE, a device step (R292). A supplied firmware image is verified by the boot ROM. -/
  | firmwareImage (img : List (BitVec 8))
  /-- CONFIGURATION_RECORD, a device step (R293). A signed configuration record is verified and applied. -/
  | configurationRecord (r : ConfigRecord)
  /-- DEBUG_GRANT, a device step (R283). The host requests a debug level for a partition, with a token if secured. -/
  | debugGrant (d : DebugRequest)
  /-- POWER_STATE_REQUEST, a device step (R284). A partition or the package moves to another power state. -/
  | powerStateRequest (p : PowerRequest)
  /-- POWER_BUDGET_CHANGE, a device step (R16). Measured power moves P0 partitions to P1 or back, or changes the clock. -/
  | powerBudgetChange (b : BudgetChange)
  /-- HOST_DEBUG_ACCESS, a device step (R283). Under a FULL debug grant, a host read or write of the partition's shelf, harbour or CSRs is carried out through the management core. -/
  | hostDebugAccess (d : DebugAccess)
  /-- CORE_CLOCKS, a device step (R289). Each core clock advances the partition's clock-counted event counters, such as core clocks, idle issue cycles and BARWAIT or allowance-wait clocks, which wrap at 48 bits. -/
  | coreClocks (n : Nat)
  /-- NOP, opcode 0x000 (R439). Passes its decode checks and then does nothing. -/
  | nop
  /-- RET, opcode 0x004 (R369). Branches to the address in X63. -/
  | ret
  /-- EXIT, opcode 0x005 (R391). Removes the active lanes from the strand; in supervisor mode it ends the strand and faults its task. -/
  | exit
  /-- SYNCS, opcode 0x006 (R468). Puts the split into WAIT 1 at a reconvergence point. -/
  | syncs
  /-- SHRINK_L, opcode 0x00A (R463). Releases every held lane slice whose lanes have all exited. -/
  | shrinkL
  /-- YIELD, opcode 0x00B (R503). Makes the issuing split yield. -/
  | yield
  /-- TRET, opcode 0x00D (R245). Restores the strand from its control area and returns to user mode. -/
  | tret
  /-- BRK, opcode 0x00E (R371). Raises BRKPT with DETAIL0 0. -/
  | brk
  /-- RESET, a device step (R295). The package leaves reset and runs bring-up. -/
  | resetPackage
  deriving DecidableEq, Repr

end Sys2Proof
end

