-- ==== Sys2Proof/Machine/Numbers.lean ====
section
/-!
DEFINITION. Number formats and arithmetic (file 04): the exact value of every encoding, one rounding to
every format, the log tables, conversions, and the flags each of them sets. An operation computes
exactly on `Num` and rounds once at the end.
-/

namespace Sys2Proof

/-- FLG bits (Table 3-5). -/
abbrev Flags := BitVec 16

/-- Invalid. -/
def flagIV : Flags := 1#16
/-- Division by zero. -/
def flagDZ : Flags := 2#16
/-- Overflow. -/
def flagOF : Flags := 4#16
/-- Underflow. -/
def flagUF : Flags := 8#16
/-- Inexact. -/
def flagIX : Flags := 16#16
/-- A block scale saturated. -/
def flagSC : Flags := 32#16

/-- The value of an encoding: a NaN, an infinity, or exactly (−1)^neg · m · 2^e. -/
inductive Num where
  | nan (signalling : Bool)
  | inf (neg : Bool)
  | fin (neg : Bool) (m : Nat) (e : Int)
  deriving DecidableEq, Repr

/-- A zero of a sign. -/
def Num.zero (neg : Bool) : Num := .fin neg 0 0
/-- One. -/
def Num.one : Num := .fin false 1 0
/-- A NaN. -/
def Num.isNan : Num → Bool
  | .nan _ => true
  | _ => false
/-- A signalling NaN. -/
def Num.isSnan : Num → Bool
  | .nan g => g
  | _ => false
/-- A zero of either sign. -/
def Num.isZero : Num → Bool
  | .fin _ m _ => m == 0
  | _ => false
/-- Neither infinite nor a NaN. -/
def Num.isFinite : Num → Bool
  | .fin .. => true
  | _ => false
/-- The sign bit. -/
def Num.sign : Num → Bool
  | .nan _ => false
  | .inf s => s
  | .fin s _ _ => s
/-- The opposite. -/
def Num.neg : Num → Num
  | .nan g => .nan g
  | .inf s => .inf (!s)
  | .fin s m e => .fin (!s) m e
/-- The signed integer a finite value holds in units of 2^q, for a q not above its exponent. -/
def Num.unitsAt (q : Int) : Num → Int
  | .fin s m e => let k : Int := (m <<< (e - q).toNat : Nat); if s then -k else k
  | _ => 0
/-- The exponent of a finite value. -/
def Num.exponent : Num → Int
  | .fin _ _ e => e
  | _ => 0
/-- `k` · 2^q as a number; `z` is the sign of zero. -/
def Num.ofUnits (k q : Int) (z : Bool) : Num :=
  if k = 0 then .fin z 0 q else .fin (k < 0) k.natAbs q

/-- Exact product, with the flags of IEEE 754 (R86, R96): a NaN operand or an infinity times zero gives
a NaN. -/
def Num.mul (a b : Num) : Num × Flags :=
  let iv := if a.isSnan || b.isSnan then flagIV else 0
  match a, b with
  | .nan _, _ | _, .nan _ => (.nan false, iv)
  | .inf s, y => if y.isZero then (.nan false, flagIV) else (.inf (s != y.sign), 0)
  | x, .inf s => if x.isZero then (.nan false, flagIV) else (.inf (s != x.sign), 0)
  | .fin s m e, .fin t n f => (.fin (s != t) (m * n) (e + f), 0)

/-- Exact sum (R394): opposite infinities are invalid; an exact zero sum of operands of opposite sign
is +0, or −0 when rounding down. -/
def Num.add (rm : Rm) (a b : Num) : Num × Flags :=
  let iv := if a.isSnan || b.isSnan then flagIV else 0
  match a, b with
  | .nan _, _ | _, .nan _ => (.nan false, iv)
  | .inf s, .inf t => if s = t then (.inf s, 0) else (.nan false, flagIV)
  | .inf s, _ => (.inf s, 0)
  | _, .inf t => (.inf t, 0)
  | .fin s m e, .fin t n f =>
    let q := min e f
    let k := (Num.fin s m e).unitsAt q + (Num.fin t n f).unitsAt q
    let z := if s = t && m == 0 && n == 0 then s else rm == .rd
    (Num.ofUnits k q z, 0)

/-- Exact sum of several values, with special values under IEEE 754 (R454): a NaN or opposite
infinities give a NaN. The sign of an exact zero is that of the terms when all agree (log 12). -/
def Num.sum (rm : Rm) (xs : List Num) : Num × Flags :=
  let iv := if xs.any Num.isSnan then flagIV else 0
  let pinf := xs.any (· == .inf false)
  let ninf := xs.any (· == .inf true)
  if pinf && ninf then (.nan false, flagIV)
  else if xs.any Num.isNan then (.nan false, iv)
  else if pinf then (.inf false, 0)
  else if ninf then (.inf true, 0)
  else
    let q := xs.foldl (fun q x => min q x.exponent) 0
    let k := xs.foldl (fun t x => t + x.unitsAt q) 0
    let z := !xs.isEmpty && xs.all (fun x => x.isZero) &&
      (xs.all (fun x => x.sign) || (xs.any (fun x => x.sign) && rm == .rd)) ||
      (k = 0 && xs.any (fun x => !x.isZero) && rm == .rd)
    (Num.ofUnits k q z, 0)

/-- Comparison of two values that are not NaNs; zeros are equal. -/
def Num.lt (a b : Num) : Bool :=
  match a, b with
  | .nan _, _ | _, .nan _ => false
  | .inf s, .inf t => s && !t
  | .inf s, _ => s
  | _, .inf t => !t
  | x, y => let q := min x.exponent y.exponent; x.unitsAt q < y.unitsAt q

/-- Equality of two values that are not NaNs; zeros are equal. -/
def Num.eqv (a b : Num) : Bool :=
  !a.isNan && !b.isNan && !a.lt b && !b.lt a

/-- Magnitude order: |a| < |b|. -/
def Num.magLt (a b : Num) : Bool :=
  let p (x : Num) : Num := if x.sign then x.neg else x
  (p a).lt (p b)


/-! ## Formats -/

/-- The layout of a format with an exponent: exponent and fraction bits, the exponent of its least
unit, and the first magnitude code that is no finite value (Table 4-2, R87). -/
structure Layout where
  eb : Nat
  fb : Nat
  qmin : Int
  top : Nat
  deriving DecidableEq, Repr

/-- The layouts; the log formats have none and take FP32's (unused). -/
def Fmt.layout : Fmt → Layout
  | .bf16 => ⟨8, 7, -133, 0x7F80⟩
  | .fp16 => ⟨5, 10, -24, 0x7C00⟩
  | .f8 => ⟨4, 3, -10, 0x7F⟩
  | _ => ⟨8, 23, -149, 0x7F800000⟩

/-- Bits of an element (Table 4-1). -/
def Fmt.bits : Fmt → Nat
  | .fp32 => 32 | .bf16 => 16 | .fp16 => 16 | .f8 => 8 | .l8 => 8 | .l6 => 6

/-- A log format. -/
def Fmt.isLog : Fmt → Bool
  | .l8 => true | .l6 => true | _ => false

/-- The 16-bit width class of tiles (R109). -/
def Fmt.wide : Fmt → Bool
  | .bf16 => true | .fp16 => true | _ => false

/-- The canonical quiet NaN (R86); a log format has none. -/
def Fmt.canonNan : Fmt → Nat
  | .fp32 => 0x7FC00000 | .bf16 => 0x7FC0 | .fp16 => 0x7E00 | .f8 => 0x7F | _ => 0

/-- T6 (Table 4-3). -/
def t6 : Nat → Nat
  | 0 => 0x10000 | 1 => 0x13070 | 2 => 0x16A0A | _ => 0x1AE8A

/-- T8 (Table 4-3). -/
def t8 : Nat → Nat
  | 0 => 0x10000 | 1 => 0x1172C | 2 => 0x13070 | 3 => 0x14BFE
  | 4 => 0x16A0A | 5 => 0x18ACE | 6 => 0x1AE8A | _ => 0x1D582

/-- The table value of a log quantity with unbiased exponent `e`: mantissa and power of two (R90). -/
def tableValue (l6 : Bool) (e : Int) : Nat × Int :=
  if l6 then (t6 (e % 4).toNat, e / 4 - 16) else (t8 (e % 8).toNat, e / 8 - 16)

/-- Steps per doubling, code of 1.0, largest code and sign bit of a log format (R88, R89). -/
def logShape (l6 : Bool) : Nat × Int × Nat × Nat :=
  if l6 then (4, 16, 31, 0x20) else (8, 64, 127, 0x80)

/-- The table value of a log code's magnitude bits (R90). -/
def codeValue (l6 : Bool) (c : Nat) : Nat × Int :=
  tableValue l6 ((c : Int) - (logShape l6).2.1)

/-- The value of an IEEE or F8 encoding (R86, R87). -/
def Layout.decode (L : Layout) (f8 : Bool) (x : Nat) : Num :=
  let s := x.testBit (L.eb + L.fb)
  let mag := x % 2 ^ (L.eb + L.fb)
  let ex := mag / 2 ^ L.fb
  let fr := mag % 2 ^ L.fb
  if L.top ≤ mag then
    if mag = L.top && !f8 then .inf s else .nan (!f8 && !fr.testBit (L.fb - 1))
  else if ex = 0 then .fin s fr L.qmin
  else .fin s (fr + 2 ^ L.fb) (L.qmin + (ex - 1 : Nat))

/-- The value of an element, and IV for an invalid log code (R88, R89). -/
def Fmt.decode (f : Fmt) (x : Nat) : Num × Flags :=
  match f with
  | .l6 =>
    let c := x % 32
    if c = 0 then (Num.zero false, if x.testBit 5 then flagIV else 0)
    else let (m, e) := codeValue true c; (.fin (x.testBit 5) m e, 0)
  | .l8 =>
    let c := x % 128
    if c = 0 then (Num.zero false, if x.testBit 7 then flagIV else 0)
    else let (m, e) := codeValue false c; (.fin (x.testBit 7) m e, 0)
  | .f8 => (f.layout.decode true (x % 256), 0)
  | _ => (f.layout.decode false (x % 2 ^ f.bits), 0)

/-- A subnormal encoding: no log code is one (R104). -/
def Fmt.isSubnormal (f : Fmt) (x : Nat) : Bool :=
  !f.isLog &&
    (let L := f.layout
     let mag := x % 2 ^ (L.eb + L.fb)
     mag != 0 && mag < 2 ^ L.fb)

/-- An operand's value, with the source flushing of R104 when `ftz` (R386). -/
def Fmt.src (f : Fmt) (ftz : Bool) (x : Nat) : Num × Flags :=
  if ftz && f.isSubnormal x then (Num.zero (x.testBit (f.bits - 1)), 0) else f.decode x

/-! ## Rounding -/

/-- Whether a truncated quotient moves up: remainder `r` of divisor `d`, quotient `q` (R99). -/
def roundsUp (rm : Rm) (neg : Bool) (q r d : Nat) : Bool :=
  match rm with
  | .rne => 2 * r > d || (2 * r = d && q % 2 = 1)
  | .rz => false
  | .ru => !neg && r != 0
  | .rd => neg && r != 0

/-- `num / den` · 2^e divided by 2^q: quotient and remainder, over a divisor. -/
def scaled (num den : Nat) (sh : Int) : Nat × Nat × Nat :=
  let n := num <<< sh.toNat
  let d := den <<< (-sh).toNat
  (n / d, n % d, d)

/-- ⌊log2 (num / den)⌋ of a positive quotient. -/
def floorLog (num den : Nat) : Int :=
  let l : Int := (Nat.log2 num : Int) - (Nat.log2 den : Int)
  if num <<< (-l).toNat < den <<< l.toNat then l - 1 else l

/-- Round (−1)^neg · num / den · 2^e, not zero, to an IEEE format or F8 (R99, R100, R101), with the
result flushing of R104 when `ftz`; tininess is detected after rounding (R95). -/
def Fmt.roundPos (f : Fmt) (rm : Rm) (ftz neg : Bool) (num den : Nat) (e : Int) : Nat × Flags :=
  let L := f.layout
  let sb := if neg then 2 ^ (L.eb + L.fb) else 0
  let l := floorLog num den + e
  let q := max (l - L.fb) L.qmin
  let (m, r, d) := scaled num den (e - q)
  let m' := m + (if roundsUp rm neg m r d then 1 else 0)
  let mag := (q - L.qmin).toNat * 2 ^ L.fb + m'
  let inexact := r != 0
  -- the result in an unlimited exponent range lies below the least normal
  let tiny := l < L.qmin + L.fb &&
    (let (u, r', d') := scaled num den (e - (l - L.fb))
     l < L.qmin + L.fb - 1 || u + (if roundsUp rm neg u r' d' then 1 else 0) < 2 ^ (L.fb + 1))
  if L.top ≤ mag then
    let away := match rm with | .rne => true | .rz => false | .ru => !neg | .rd => neg
    let code := if f == .f8 then 0x7E else if away then L.top else L.top - 1
    (sb + code, flagOF ||| flagIX)
  else if ftz && mag != 0 && mag < 2 ^ L.fb then (sb, flagUF ||| flagIX)
  else
    (sb + mag, (if inexact then flagIX else 0) ||| (if inexact && tiny then flagUF else 0))

/-- The code that step 5 of R102 picks, from ⌊t⌋, whether t is an integer, and whether t lies above
the middle, or at it. -/
def logRound (rm : Rm) (neg : Bool) (fl : Int) (exact above tie : Bool) : Int :=
  if exact then fl else
  match rm with
  | .rne => if above || (tie && fl % 2 = 1) then fl + 1 else fl
  | .rz => fl
  | .ru => if neg then fl else fl + 1
  | .rd => if neg then fl + 1 else fl

/-- Steps 6 to 8 of R102: clamp a code, with the flags; `same` says that the source equals the code's
table value. -/
def logClamp (l6 neg : Bool) (n : Int) (same : Int → Bool) : Nat × Flags :=
  let (_, _, big, sb) := logShape l6
  let s := if neg then sb else 0
  if n < 1 then (0, flagUF ||| flagIX)
  else if n > big then (s + big, flagOF ||| flagIX)
  else (s + n.toNat, if same n then 0 else flagIX)

/-- Convert (−1)^neg · num / den · 2^e, not zero, to a log format (R102, steps 4 to 8). -/
def logOfPos (l6 : Bool) (rm : Rm) (neg : Bool) (num den : Nat) (e : Int) : Nat × Flags :=
  let (k, c0, _, _) := logShape l6
  let a := num ^ k
  let b := den ^ k
  let fl := floorLog a b + e * k
  -- |x|^k = (a / b) · 2^(e k) lies in [2^fl, 2^(fl + 1))
  let sh := e * k - fl
  let exact := a <<< sh.toNat = b <<< (-sh).toNat
  let above := (a * a) <<< (2 * sh).toNat > (2 * (b * b)) <<< (-(2 * sh)).toNat
  let n := logRound rm neg (fl + c0) exact above false
  logClamp l6 neg n fun n =>
    let (m, f) := codeValue l6 n.toNat
    num <<< (e - f).toNat = (m * den) <<< (f - e).toNat

/-- Round a value to a format (R100 to R102): NaN canonical, infinities, zeros, and one rounding. -/
def Fmt.round (f : Fmt) (rm : Rm) (ftz : Bool) (x : Num) : Nat × Flags :=
  match f, x with
  | .l6, .nan _ => (0, flagIV)
  | .l8, .nan _ => (0, flagIV)
  | f, .nan g => (f.canonNan, if g then flagIV else 0)
  | .l6, .inf s => (31 + (if s then 32 else 0), flagOF)
  | .l8, .inf s => (127 + (if s then 128 else 0), flagOF)
  | .f8, .inf s => (0x7E + (if s then 0x80 else 0), flagOF)
  | f, .inf s => (f.layout.top + (if s then 2 ^ (f.bits - 1) else 0), 0)
  | .l6, .fin s m e => if m = 0 then (0, 0) else logOfPos true rm s m 1 e
  | .l8, .fin s m e => if m = 0 then (0, 0) else logOfPos false rm s m 1 e
  | f, .fin s m e =>
    if m = 0 then (if s then 2 ^ (f.bits - 1) else 0, 0) else f.roundPos rm ftz s m 1 e

/-- Round a quotient (−1)^neg · num / den · 2^e to a format. -/
def Fmt.roundQuot (f : Fmt) (rm : Rm) (ftz neg : Bool) (num den : Nat) (e : Int) : Nat × Flags :=
  if num = 0 then f.round rm ftz (Num.zero neg)
  else match f with
    | .l6 => logOfPos true rm neg num den e
    | .l8 => logOfPos false rm neg num den e
    | f => f.roundPos rm ftz neg num den e

/-- Widen an L6 code to L8 (R93, R103): 2c + 32, or the zero code. -/
def widenL6 (x : Nat) : Nat :=
  let c := x % 32
  if c = 0 then (if x.testBit 5 then 0x80 else 0) else 2 * c + 32 + (if x.testBit 5 then 0x80 else 0)

/-- Convert an element from one format to another (R100 to R103, R397). -/
def convert (rm : Rm) (ftz : Bool) (dst src : Fmt) (x : Nat) : Nat × Flags :=
  match src, dst with
  | .l6, .l8 => if x % 64 = 0x20 then (0, flagIV) else (widenL6 x, 0)
  | .l6, .l6 => if x % 64 = 0x20 then (0, flagIV) else (x % 64, 0)
  | .l8, .l8 => if x % 256 = 0x80 then (0, flagIV) else (x % 256, 0)
  | .l8, .l6 =>
    let c := x % 128
    if c = 0 then (0, if x.testBit 7 then flagIV else 0)
    else
      let neg := x.testBit 7
      let fl : Int := (c / 2 : Nat) - 16
      let n := logRound rm neg fl (c % 2 = 0) false true
      logClamp true neg n fun _ => c % 2 = 0
  | src, dst =>
    let (v, fl) := src.src ftz x
    let (r, fl') := dst.round rm ftz v
    (r, fl ||| fl')

/-- Round a value to an integer in a mode: the integer, and whether it differs from the value. -/
def Num.toInt (rm : Rm) (neg : Bool) (m : Nat) (e : Int) : Int × Bool :=
  let (q, r, d) := scaled m 1 e
  let n := q + (if roundsUp rm neg q r d then 1 else 0)
  (if neg then -(n : Int) else n, r != 0)

/-- Convert a value to S32 or U32 (R398). -/
def toInteger (rm : Rm) (isSigned : Bool) (x : Num) : Nat × Flags :=
  let lo : Int := if isSigned then -(2 ^ 31) else 0
  let hi : Int := if isSigned then 2 ^ 31 - 1 else 2 ^ 32 - 1
  let code (n : Int) : Nat := (n % 2 ^ 32).toNat
  match x with
  | .nan _ => (0, flagIV)
  | .inf s => (code (if s then lo else hi), flagIV)
  | .fin s m e =>
    let (n, ix) := Num.toInt rm s m e
    if n < lo then (code lo, flagIV)
    else if n > hi then (code hi, flagIV)
    else (code n, if ix then flagIX else 0)

/-- The exact value of an S32 or U32 source (R397). -/
def ofInteger (isSigned : Bool) (x : Nat) : Num :=
  let k : Int := if isSigned then signed 32 x else (x % 2 ^ 32 : Nat)
  Num.ofUnits k 0 false

/-! ## FP32 and paired arithmetic (R394, R413) -/

/-- Which sum or product an arithmetic instruction forms. -/
inductive ArithOp where
  | add | sub | mul | fma
  deriving DecidableEq, Repr

/-- Two or three operands of a format, one rounding. FFMA with an infinity times a zero is invalid even
when `c` is a quiet NaN (R394). -/
def arith (f : Fmt) (op : ArithOp) (rm : Rm) (ftz : Bool) (a b c : Nat) : Nat × Flags :=
  let x := (f.src ftz a).1
  let y := (f.src ftz b).1
  let z := (f.src ftz c).1
  let (r, fl) := match op with
    | .add => Num.add rm x y
    | .sub => Num.add rm x y.neg
    | .mul => Num.mul x y
    | .fma =>
      let (p, f1) := Num.mul x y
      let (t, f2) := Num.add rm p z
      (t, f1 ||| f2)
  let (v, fl') := f.round rm ftz r
  (v, fl ||| fl')

/-- The smaller or larger of two FP32 encodings (R401): −0 below +0, a number over a NaN. -/
def minMax (f : Fmt) (isMax ftz : Bool) (a b : Nat) : Nat × Flags :=
  let fl (x : Nat) : Nat := if ftz && f.isSubnormal x then x / 2 ^ (f.bits - 1) % 2 * 2 ^ (f.bits - 1) else x
  let a := fl a
  let b := fl b
  let x := (f.decode a).1
  let y := (f.decode b).1
  let iv := if x.isSnan || y.isSnan then flagIV else 0
  let below := x.lt y || (x.isZero && y.isZero && x.sign && !y.sign)
  let r := if x.isNan && y.isNan then f.canonNan
    else if x.isNan then b else if y.isNan then a
    else if below != isMax then a else if x.eqv y && x.sign = y.sign then a else b
  (r, iv)

/-- A comparison of two ordered values. -/
def Cmp.holds : Cmp → (lt eq : Bool) → Bool
  | .eq, _, e => e
  | .ne, _, e => !e
  | .lt, l, _ => l
  | .le, l, e => l || e
  | .gt, l, e => !(l || e)
  | .ge, l, _ => !l

/-- FSCMP of two FP32 encodings (R406). -/
def compareF (c : Cmp) (ftz : Bool) (a b : Nat) : Bool × Flags :=
  let x := (Fmt.fp32.src ftz a).1
  let y := (Fmt.fp32.src ftz b).1
  let iv := if x.isSnan || y.isSnan then flagIV else 0
  if x.isNan || y.isNan then (c == .ne, iv) else (c.holds (x.lt y) (x.eqv y), iv)

/-- FCLASS of an FP32 encoding (R395). -/
def classify (x : Nat) : Nat :=
  let s := x.testBit 31
  match (Fmt.fp32.decode x).1 with
  | .nan true => 1
  | .nan false => 2
  | .inf s => if s then 4 else 0x200
  | .fin .. =>
    if x % 2 ^ 31 = 0 then (if s then 0x20 else 0x40)
    else if Fmt.fp32.isSubnormal x then (if s then 0x10 else 0x80)
    else if s then 8 else 0x100

/-- FRND of an FP32 encoding (R405): never IX; a subnormal result cannot arise. -/
def roundIntegral (rm : Rm) (ftz : Bool) (x : Nat) : Nat × Flags :=
  match (Fmt.fp32.src ftz x).1 with
  | .nan g => (Fmt.fp32.canonNan, if g then flagIV else 0)
  | .inf s => (0x7F800000 + (if s then 0x80000000 else 0), 0)
  | .fin s m e =>
    let (n, _) := Num.toInt rm s m e
    if n = 0 then (if s then 0x80000000 else 0, 0)
    else ((Fmt.fp32.round .rne false (Num.ofUnits n 0 false)).1, 0)

end Sys2Proof
end

