-- ==== Sys2Proof/Machine/Functions.lean ====
section
/-!
DEFINITION. The special functions (R402 to R404): each result is the exact value correctly rounded to
FP32. An irrational value is enclosed between two numbers at rising precision until both round alike.
-/

namespace Sys2Proof

/-- An enclosure of a value: sign, and lower and upper bound of the magnitude in units of 2^(−k). -/
structure Enclosure where
  neg : Bool
  lo : Nat
  hi : Nat
  k : Nat
  deriving DecidableEq, Repr

/-- Round an enclosed value to FP32 under RNE at the first precision at which both bounds agree. -/
def certify (ftz : Bool) (enc : Nat → Option Enclosure) : List Nat → Nat × Flags
  | [] => (Fmt.fp32.canonNan, 0)
  | p :: ps =>
    match enc p with
    | none => certify ftz enc ps
    | some v =>
      if v.lo = 0 then certify ftz enc ps
      else
        let a := Fmt.fp32.roundPos .rne ftz v.neg v.lo 1 (-(v.k : Int))
        let b := Fmt.fp32.roundPos .rne ftz v.neg v.hi 1 (-(v.k : Int))
        if a = b && a.2 &&& flagIX ≠ 0 then a else certify ftz enc ps

/-- The precisions that `certify` tries. -/
def precisions : List Nat := [96, 192, 384, 768, 1536, 3072]

/-- ⌊√n⌋, by bits from `2^b` down. -/
def isqrt (n : Nat) : Nat → Nat → Nat
  | 0, r => r
  | b + 1, r => let t := r + 2 ^ b; isqrt n b (if t * t ≤ n then t else r)

/-- ⌊2^k · ln 2⌋ up to `n` units too small: the sum of 1 / (i 2^i). -/
def ln2Lo (k : Nat) : Nat → Nat
  | 0 => 0
  | i + 1 => ln2Lo k i + 2 ^ k / ((i + 1) * 2 ^ (i + 1))

/-- ⌊2^k · arctan (1/x)⌋ up to `n` units either way, by alternating terms. -/
def atanInv (k x : Nat) : Nat → Int
  | 0 => 0
  | i + 1 =>
    let t : Int := (2 ^ k / ((2 * i + 1) * x ^ (2 * i + 1)) : Nat)
    atanInv k x i + (if i % 2 = 0 then t else -t)

/-- A number within 2^(−k) · 2 of π/2 from below, in units of 2^(−k): Machin's formula, computed with 40
more bits. -/
def halfPiLo (k : Nat) : Nat :=
  let p := k + 40
  let v := 8 * atanInv p 5 (p / 4 + 2) - 2 * atanInv p 239 (p / 15 + 2)
  (v.toNat - 16 * p) / 2 ^ 40

/-- Terms of exp: lower bounds of y^i / i! from term `t` on, floors, in units of 2^(−k). -/
def expLo (k y : Nat) : Nat → Nat → Nat → Nat
  | 0, _, _ => 0
  | n + 1, i, t => t + expLo k y n (i + 1) (t * y / ((i + 1) * 2 ^ k))

/-- Upper bounds of the terms of exp. -/
def expHi (k y : Nat) : Nat → Nat → Nat → Nat
  | 0, _, _ => 4
  | n + 1, i, t => t + expHi k y n (i + 1) (t * y / ((i + 1) * 2 ^ k) + 1)

/-- Enclose 2^(n + f), f = fnum / 2^j in (0, 1), with exponent n taken out. -/
def exp2Enclosure (fnum j k : Nat) : Nat × Nat :=
  let q := k + 32
  let l := ln2Lo q (q + 2)
  let ylo := fnum * l / 2 ^ j
  let yhi := fnum * (l + q + 4) / 2 ^ j + 1
  (expLo q ylo q 0 (2 ^ q), expHi q yhi q 0 (2 ^ q) + 1)

/-- Terms of artanh (n/d): floors of z^(2i+1) / (2i+1), in units of 2^(−k). -/
def atanhLo (k num den : Nat) : Nat → Nat → Nat → Nat
  | 0, _, _ => 0
  | n + 1, i, t => t / (2 * i + 1) + atanhLo k num den n (i + 1) (t * (num * num) / (den * den))

/-- Terms of sin (odd) or cos (even) from term `t` of index `i`, alternating. -/
def trigTerms (k r : Nat) : Nat → Nat → Nat → Bool → Int
  | 0, _, _, _ => 0
  | n + 1, i, t, neg =>
    let s : Int := if neg then -(t : Int) else t
    s + trigTerms k r n (i + 2) (t * r / 2 ^ k * r / ((i + 1) * (i + 2) * 2 ^ k)) (!neg)

/-- FRCP (R403, R404). -/
def frcp (ftz : Bool) (x : Nat) : Nat × Flags :=
  match (Fmt.fp32.src ftz x).1 with
  | .nan g => (Fmt.fp32.canonNan, if g then flagIV else 0)
  | .inf s => (if s then 0x80000000 else 0, 0)
  | .fin s m e =>
    if m = 0 then (0x7F800000 + (if s then 0x80000000 else 0), flagDZ)
    else Fmt.fp32.roundPos .rne ftz s 1 m (-e)

/-- FRSQ (R403, R404): the square root of 2^(2k) / m is taken with its remainder as a sticky bit. -/
def frsq (ftz : Bool) (x : Nat) : Nat × Flags :=
  match (Fmt.fp32.src ftz x).1 with
  | .nan g => (Fmt.fp32.canonNan, if g then flagIV else 0)
  | .inf s => if s then (Fmt.fp32.canonNan, flagIV) else (0, 0)
  | .fin s m e =>
    if m = 0 then (0x7F800000 + (if s then 0x80000000 else 0), flagDZ)
    else if s then (Fmt.fp32.canonNan, flagIV)
    else
      let (m, e) := if e % 2 = 0 then (m, e) else (2 * m, e - 1)
      let r := isqrt (2 ^ 160 / m) 81 0
      let exact := r * r * m = 2 ^ 160
      Fmt.fp32.roundPos .rne ftz false (4 * r + (if exact then 0 else 1)) 4 (-(e / 2) - 80)

/-- FEX2 (R403, R404): integral arguments exactly, others by enclosure; an argument below −200 gives a
result below every FP32 value. -/
def fex2 (ftz : Bool) (x : Nat) : Nat × Flags :=
  match (Fmt.fp32.src ftz x).1 with
  | .nan g => (Fmt.fp32.canonNan, if g then flagIV else 0)
  | .inf s => (if s then 0 else 0x7F800000, 0)
  | .fin s m e =>
    let v := Num.fin s m e
    if m = 0 then (0x3F800000, 0)
    else if !v.lt (.fin false 128 0) then (0x7F800000, flagOF ||| flagIX)
    else if v.lt (.fin true 200 0) then (0, flagUF ||| flagIX)
    else
      let (n, frac) := Num.toInt .rd s m e
      if !frac then Fmt.fp32.roundPos .rne ftz false 1 1 n
      else
        let j := (-e).toNat
        let k : Int := v.unitsAt e
        let fnum := (k - n * (2 ^ j : Nat)).toNat
        certify ftz (fun p =>
          let (lo, hi) := exp2Enclosure fnum j p
          -- 2^n · [lo, hi] / 2^(p + 32), n at least −200
          some ⟨false, lo <<< (n + 200).toNat, hi <<< (n + 200).toNat, p + 232⟩) precisions

/-- FLG2 (R403, R404): powers of two exactly, others through 2 artanh ((m − 1) / (m + 1)) / ln 2. -/
def flg2 (ftz : Bool) (x : Nat) : Nat × Flags :=
  match (Fmt.fp32.src ftz x).1 with
  | .nan g => (Fmt.fp32.canonNan, if g then flagIV else 0)
  | .inf s => if s then (Fmt.fp32.canonNan, flagIV) else (0x7F800000, 0)
  | .fin s m e =>
    if m = 0 then (0xFF800000, flagDZ)
    else if s then (Fmt.fp32.canonNan, flagIV)
    else
      let l := Nat.log2 m
      let n : Int := e + l
      if m = 2 ^ l then
        if n = 0 then (0, 0) else Fmt.fp32.roundPos .rne ftz (n < 0) n.natAbs 1 0
      else
        certify ftz (fun p =>
          let q := p + 32
          let num := m - 2 ^ l
          let den := m + 2 ^ l
          let a := 2 * atanhLo q num den q 0 (num * 2 ^ q / den)
          let b := a + 8 * q + 8
          let ln := ln2Lo q (q + 2)
          let flo := a * 2 ^ q / (ln + q + 4)
          let fhi := b * 2 ^ q / ln + 1
          let vlo : Int := n * (2 ^ q : Nat) + flo
          let vhi : Int := n * (2 ^ q : Nat) + fhi
          if 0 < vlo then some ⟨false, vlo.toNat, vhi.toNat, q⟩
          else if vhi < 0 then some ⟨true, vhi.natAbs, vlo.natAbs, q⟩
          else none) precisions

/-- Enclose |sin| or |cos| of an argument by exact range reduction; the sign is that of the function at
the positive argument. -/
def trigEnclosure (cosine : Bool) (m : Nat) (e : Int) (p : Nat) : Option Enclosure :=
  let k := p + 160
  let xlo := (scaled m 1 (e + k)).1
  let inexact := (scaled m 1 (e + k)).2.1 != 0
  let h := halfPiLo k
  let q := xlo / (h + 1)
  let rlo : Int := (xlo : Int) - q * (h + 2)
  let rhi : Int := (xlo : Int) + (if inexact then 1 else 0) - q * h
  if rlo < 0 || (q = 0 && m = 0) then none
  else
    let n := p / 2 + 40
    let err : Int := 4 * n + 8
    let quad := (q + (if cosine then 1 else 0)) % 4
    let val (useCos : Bool) (r : Nat) : Int :=
      if useCos then trigTerms k r n 0 (2 ^ k) false else trigTerms k r n 1 r false
    let useCos := quad % 2 = 1
    let a := val useCos rlo.toNat
    let b := val useCos rhi.toNat
    let lo := min a b - err
    let hi := max a b + err
    if lo ≤ 0 then none
    else some ⟨2 ≤ quad, lo.toNat, hi.toNat, k⟩

/-- FSIN (R403, R404). -/
def fsin (ftz : Bool) (x : Nat) : Nat × Flags :=
  match (Fmt.fp32.src ftz x).1 with
  | .nan g => (Fmt.fp32.canonNan, if g then flagIV else 0)
  | .inf _ => (Fmt.fp32.canonNan, flagIV)
  | .fin s m e =>
    if m = 0 then (if s then 0x80000000 else 0, 0)
    else certify ftz (fun p => (trigEnclosure false m e p).map fun v => { v with neg := v.neg != s })
      precisions

/-- FCOS (R403, R404). -/
def fcos (ftz : Bool) (x : Nat) : Nat × Flags :=
  match (Fmt.fp32.src ftz x).1 with
  | .nan g => (Fmt.fp32.canonNan, if g then flagIV else 0)
  | .inf _ => (Fmt.fp32.canonNan, flagIV)
  | .fin _ m e =>
    if m = 0 then (0x3F800000, 0)
    else certify ftz (fun p => trigEnclosure true m e p) precisions

end Sys2Proof
end

