-- ==== Sys2Proof/WellFormed.lean ====
section
/-!
DEFINITION. Well-formed instructions: the combinations of operands that the syntax can write and the
spec refuses with ILLENC.
-/

namespace Sys2Proof

/-- .RSP goes with .ACQ and with DIE or PKG (Table 8-2). -/
def rspOk (rsp acq : Bool) (sc : Scope) : Bool :=
  !rsp || (acq && (sc == .die || sc == .pkg))

/-- The literal of ATOM and RED: SG only with MIN and MAX, .RSP under Table 8-2 (R357). -/
def AtomLit.wf (l : AtomLit) : Bool :=
  (!l.sg || l.op == .min || l.op == .max) && rspOk l.rsp l.acq l.scope

/-- The literal of PLD, PST and PATOM: no 16-byte width, SG only with MIN and MAX (R440). -/
def PeerLit.wf (l : PeerLit) : Bool :=
  l.w != .b128 && (!l.sg || l.op == .min || l.op == .max)

/-- The combinations that do not raise ILLENC. -/
def Instr.wf : Instr → Bool
  | .nop => true
  | .bra _ => true
  | .brx _ => true
  | .call _ => true
  | .ret => true
  | .exit => true
  | .syncs => true
  | .loopx _ _ => true
  | .winb _ => true
  | .shrinkV _ => true
  | .shrinkL => true
  | .yield => true
  | .trap _ => true
  | .tret => true
  | .brk => true
  | .setfmt _ => true
  | .setfmtF _ => true
  | .gangset _ => true
  | .movsV _ _ => true
  | .movsX _ src => src.val != 0
  | .iadd _ _ _ => true
  | .iaddImm _ _ _ => true
  | .isub _ _ _ => true
  | .imul _ _ _ => true
  | .imulhS32 _ _ _ => true
  | .imulhU32 _ _ _ => true
  | .imad _ _ _ _ => true
  | .iabs _ _ => true
  | .iminS32 _ _ _ => true
  | .iminU32 _ _ _ => true
  | .imaxS32 _ _ _ => true
  | .imaxU32 _ _ _ => true
  | .iscmp _ _ _ _ _ => true
  | .select _ _ _ _ => true
  | .mov _ _ => true
  | .movi _ _ => true
  | .and _ _ _ => true
  | .andImm _ _ _ => true
  | .or _ _ _ => true
  | .orImm _ _ _ => true
  | .xor _ _ _ => true
  | .xorImm _ _ _ => true
  | .lut3 _ _ _ _ _ => true
  | .shl _ _ _ => true
  | .shlImm _ _ _ => true
  | .shr _ _ _ => true
  | .shrImm _ _ _ => true
  | .shra _ _ _ => true
  | .shraImm _ _ _ => true
  | .funs _ _ _ _ => true
  | .bfxU _ _ _ => true
  | .bfxS _ _ _ => true
  | .bfi _ _ _ _ => true
  | .popc _ _ => true
  | .clz _ _ => true
  | .brev _ _ => true
  | .xadd _ _ _ => true
  | .xaddImm _ _ _ => true
  | .xsub _ _ _ => true
  | .xmul _ _ _ => true
  | .xlop _ _ _ _ => true
  | .xshl _ _ _ => true
  | .xshlImm _ _ _ => true
  | .xshr _ _ _ => true
  | .xshrImm _ _ _ => true
  | .xmov _ _ => true
  | .xmovi _ _ => true
  | .xscmp _ _ _ _ _ => true
  | .xld _ _ _ => true
  | .xst _ _ _ => true
  | .xget _ _ => true
  | .plop _ _ _ _ => true
  | .ptov _ _ => true
  | .vtop _ _ => true
  | .fadd _ _ _ => true
  | .faddM _ _ _ md => !md.bf && md.vc.val == 0
  | .fsub _ _ _ => true
  | .fsubM _ _ _ md => !md.bf && md.vc.val == 0
  | .fmul _ _ _ => true
  | .fmulM _ _ _ md => !md.bf && md.vc.val == 0
  | .ffma _ _ _ md => !md.bf
  | .fmin _ _ _ => true
  | .fmax _ _ _ => true
  | .fscmp _ _ _ _ => true
  | .fclass _ _ => true
  | .fcvt _ _ cv => !((cv.dst == .s32 || cv.dst == .u32) && (cv.src == .s32 || cv.src == .u32))
  | .frnd _ _ _ => true
  | .frcp _ _ => true
  | .frsq _ _ => true
  | .fex2 _ _ => true
  | .flg2 _ _ => true
  | .fsin _ _ => true
  | .fcos _ _ => true
  | .hadd2 _ _ _ _ => true
  | .hadd2M _ _ _ md => md.vc.val == 0
  | .hmul2 _ _ _ _ => true
  | .hmul2M _ _ _ md => md.vc.val == 0
  | .hfma2 _ _ _ _ => true
  | .vote w => w.op == .bal || w.d.val < 8
  | .voteMask w _ => w.op == .bal || w.d.val < 8
  | .sred _ _ _ => true
  | .sredMask _ _ _ _ => true
  | .matchLanes _ _ => true
  | .matchMask _ _ _ => true
  | .scan _ _ _ => true
  | .shfl _ _ _ => true
  | .shflp _ _ _ => true
  | .ptld _ _ => true
  | .ldS _ _ => true
  | .ldSFull _ l => !l.rsp
  | .ldH _ _ => true
  | .ldHFull _ l => rspOk l.rsp l.strong l.scope
  | .stS _ _ => true
  | .stSFull _ l => !l.rsp
  | .stH _ _ => true
  | .stHFull _ l => !l.rsp
  | .atom _ _ c l => l.wf && (l.op == .cas || c.val == 0)
  | .red _ l => l.wf && l.op != .xchg && l.op != .cas && !l.acq && !l.rsp
  | .fence _ _ _ => true
  | .cflush _ => true
  | .cinv _ => true
  | .pld _ l => l.wf && l.op == .add && !l.sg && !l.rel
  | .pst _ l => l.wf && l.op == .add && !l.sg && !l.acq
  | .patom _ _ c l => l.wf && (l.w == .b32 || l.w == .b64) && (l.op == .cas || c.val == 0)
  | .copy _ _ => true
  | .puts _ _ _ => true
  | .tfetch _ _ => true
  | .tstore _ _ => true
  | .mcopy _ _ => true
  | .mfill _ _ => true
  | .mreduce _ _ => true
  | .coll _ _ => true
  | .barinit _ _ => true
  | .barexp _ _ => true
  | .bararr _ => true
  | .bardrop _ => true
  | .barwait _ _ => true
  | .bartest _ _ _ => true
  | .waitc _ _ => true
  | .gresOpen _ => true
  | .gresX _ _ => true
  | .gresAny _ _ => true
  | .gresAll _ _ => true
  | .tld _ _ _ => true
  | .tldZb _ _ _ => true
  | .tldSc _ _ _ _ => true
  | .tldScZb _ _ _ _ => true
  | .tstr _ _ => true
  | .tzero _ => true
  | .tcvt _ _ f => f != .fp32
  | .tcvtZb _ _ f => f != .fp32
  | .tqntL6 _ _ _ _ => true
  | .tqntL6Zb _ _ _ _ => true
  | .tqntL8 _ _ _ _ => true
  | .tqntL8Zb _ _ _ _ => true
  | .tqntF8 _ _ _ _ => true
  | .tqntF8Zb _ _ _ _ => true
  | .mma _ _ _ _ => true
  | .mmx _ _ _ => true
  | .mmxGuard _ _ _ _ => true
  | .mmxSpec _ _ _ _ => true
  | .accz _ => true
  | .accrd _ _ => true
  | .accwr _ _ => true
  | .accld _ _ _ => true
  | .accst _ _ _ => true
  | .sld _ _ _ => true
  | .sst _ _ _ => true
  | .sbindS _ _ => true
  | .sbindX _ _ => true
  | .sbindU _ => true
  | .srel _ => true
  | .sqry _ _ => true
  | .smovS _ _ => true
  | .smovX _ _ => true
  | .smul _ _ _ => true
  | .smax _ _ _ => true
  | .scvtToS _ _ => true
  | .scvtToV _ _ => true
  | .launch _ _ => true
  | .taskarm _ _ => true
  | .tasksig _ _ => true
  | .taskretry _ => true
  | .taskabort _ => true
  | .csrr _ _ => true
  | .csrw _ _ => true
  | .dtload _ => true
  | .tlbinv _ => true
  | .ctxst _ _ => true
  | .ctxld _ _ => true
  | .egmode _ => true
  | .evpop _ _ => true
  | .topocmtWrite _ _ => true
  | .splitPromotion _ => true
  | .stallEnd _ => true
  | .workgroupPlacement _ => true
  | .cohortPlacement _ => true
  | .cohortWaitTimeout _ => true
  | .matrixStep _ => true
  | .matrixCompletion _ => true
  | .matrixEngineStop _ => true
  | .commandAdmission _ => true
  | .fetchReleasePhase _ => true
  | .transferUnitLanded _ _ => true
  | .unitAcknowledged _ _ => true
  | .transferUnitDropped _ _ _ => true
  | .copyExecution _ => true
  | .putsDelivery _ => true
  | .wavelengthFailure _ _ => true
  | .spareWarmed _ _ => true
  | .laserAgeing _ _ => true
  | .linkRetraining _ => true
  | .portRecovery _ => true
  | .releaseNotice _ _ => true
  | .promotionRequest _ => true
  | .promotionAcknowledgement _ => true
  | .taskEdgeBegin _ => true
  | .edgeLineWriteback _ => true
  | .drainReport _ => true
  | .edgeDecrement _ => true
  | .haltRequest _ => true
  | .halted _ => true
  | .contextExchange _ => true
  | .resumeRequest _ => true
  | .resumeComplete _ => true
  | .ebbEnd _ => true
  | .ebbDeadline _ => true
  | .slackEnd _ _ => true
  | .authEnd _ _ => true
  | .flood _ => true
  | .lossOfLock _ => true
  | .peerRequest _ => true
  | .peerReply _ => true
  | .peerTimeout _ => true
  | .replayRecordExpiry _ _ _ => true
  | .chunkSend _ => true
  | .chunkReceive _ => true
  | .staleNack _ => true
  | .chunkAccepted _ => true
  | .chunkResend _ => true
  | .chunkTimeout _ => true
  | .creditReturn _ _ => true
  | .collCompletion _ => true
  | .hostCxlMemAccess _ => true
  | .attestationReport _ => true
  | .firmwareImage _ => true
  | .configurationRecord _ => true
  | .debugGrant _ => true
  | .powerStateRequest _ => true
  | .powerBudgetChange _ => true
  | .resetPackage => true
  | .hostDebugAccess _ => true
  | .coreClocks _ => true

end Sys2Proof
end

