-- ==== Sys2Proof/Decode.lean ====
section
/-!
DEFINITION. From words to instructions and back. A word is cut into opcode, K, three 7-bit fields and,
for form E, the literal (R305); `parseFields` reads the operands as each entry of the reference gives
them, `decode` adds the checks of `Instr.wf`; any word that is not an instruction is refused, as
unimplemented (R308) or as an illegal encoding (R312). `encodeFields` writes the same tables the other
way round.
-/

namespace Sys2Proof

/-- The parts of an instruction: opcode, K, fields a, b, c, and the literal of form E (R305). -/
structure Fields where
  op : Nat
  k : Nat
  a : Nat
  b : Nat
  c : Nat
  lit : Nat
  deriving DecidableEq, Repr

/-- Cut a word (Table 13-3). -/
def Fields.ofWord (w lit : Nat) : Fields where
  op := w / 0x400000 % 1024
  k := w / 0x200000 % 2
  a := w / 0x4000 % 128
  b := w / 0x80 % 128
  c := w % 128
  lit := lit

/-- The word that has these parts. -/
def Fields.toWord (f : Fields) : Nat :=
  f.op * 0x400000 + f.k * 0x200000 + f.a * 0x4000 + f.b * 0x80 + f.c

/-- Each part lies in its range. -/
def Fields.inRange (f : Fields) : Prop :=
  f.op < 1024 ∧ f.k < 2 ∧ f.a < 128 ∧ f.b < 128 ∧ f.c < 128 ∧ f.lit < 2 ^ 32

/-! ## Codes of the modifiers -/

/-- Comparison codes (R406). -/
def Cmp.code : Cmp → Nat
  | .eq => 0 | .ne => 1 | .lt => 2 | .le => 3 | .gt => 4 | .ge => 5
/-- The comparison of a code (R406). -/
def Cmp.ofCode : Nat → Option Cmp
  | 0 => some .eq | 1 => some .ne | 2 => some .lt | 3 => some .le | 4 => some .gt | 5 => some .ge
  | _ => none
/-- Rounding mode codes (Table 3-3). -/
def Rm.code : Rm → Nat
  | .rne => 0 | .rz => 1 | .ru => 2 | .rd => 3
/-- The rounding mode of the low two bits (Table 3-3). -/
def Rm.ofCode : Nat → Rm
  | 0 => .rne | 1 => .rz | 2 => .ru | _ => .rd
/-- Element format codes (Table 3-4). -/
def Fmt.code : Fmt → Nat
  | .fp32 => 0 | .bf16 => 1 | .fp16 => 2 | .f8 => 3 | .l8 => 4 | .l6 => 5
/-- The element format of a code (Table 3-4). -/
def Fmt.ofCode : Nat → Option Fmt
  | 0 => some .fp32 | 1 => some .bf16 | 2 => some .fp16 | 3 => some .f8 | 4 => some .l8 | 5 => some .l6
  | _ => none
/-- Conversion format codes (Table 19-4). -/
def CvtFmt.code : CvtFmt → Nat
  | .elem f => f.code | .s32 => 6 | .u32 => 7
/-- The conversion format of a code (Table 19-4). -/
def CvtFmt.ofCode : Nat → Option CvtFmt
  | 6 => some .s32 | 7 => some .u32 | n => (Fmt.ofCode n).map .elem
/-- Logical operation codes (R443). -/
def LogOp.code : LogOp → Nat
  | .and => 0 | .or => 1 | .xor => 2 | .andn => 3
/-- The logical operation of two bits (R443). -/
def LogOp.ofCode : Nat → LogOp
  | 0 => .and | 1 => .or | 2 => .xor | _ => .andn
/-- VOTE operation codes (R492). -/
def VoteOp.code : VoteOp → Nat
  | .any => 0 | .all => 1 | .bal => 2
/-- The VOTE operation of a code (R492). -/
def VoteOp.ofCode : Nat → Option VoteOp
  | 0 => some .any | 1 => some .all | 2 => some .bal | _ => none
/-- Reduction codes (Table 20-5). -/
def RedOp.code : RedOp → Nat
  | .addU => 0 | .addS => 1 | .minU => 2 | .minS => 3 | .maxU => 4 | .maxS => 5
  | .and => 6 | .or => 7 | .xor => 8 | .addF => 9 | .minF => 10 | .maxF => 11
/-- The reduction of a code (Table 20-5). -/
def RedOp.ofCode : Nat → Option RedOp
  | 0 => some .addU | 1 => some .addS | 2 => some .minU | 3 => some .minS
  | 4 => some .maxU | 5 => some .maxS | 6 => some .and | 7 => some .or
  | 8 => some .xor | 9 => some .addF | 10 => some .minF | 11 => some .maxF | _ => none
/-- Atomic operation codes (Table 18-3). -/
def AtomOp.code : AtomOp → Nat
  | .add => 0 | .min => 1 | .max => 2 | .and => 3 | .or => 4 | .xor => 5 | .xchg => 6 | .cas => 7
/-- The atomic operation of a code (Table 18-3). -/
def AtomOp.ofCode : Nat → Option AtomOp
  | 0 => some .add | 1 => some .min | 2 => some .max | 3 => some .and
  | 4 => some .or | 5 => some .xor | 6 => some .xchg | 7 => some .cas | _ => none
/-- Scope codes (Table 8-1). -/
def Scope.code : Scope → Nat
  | .core => 0 | .die => 1 | .pkg => 2 | .sys => 3
/-- The scope of two bits (Table 8-1). -/
def Scope.ofCode : Nat → Scope
  | 0 => .core | 1 => .die | 2 => .pkg | _ => .sys
/-- Width codes (Table 19-10). -/
def Width.code : Width → Nat
  | .b8 => 0 | .b16 => 1 | .b32 => 2 | .b64 => 3 | .b128 => 4
/-- The width of a code (Table 19-10). -/
def Width.ofCode : Nat → Option Width
  | 0 => some .b8 | 1 => some .b16 | 2 => some .b32 | 3 => some .b64 | 4 => some .b128 | _ => none
/-- Counter class codes (R495). -/
def CClass.code : CClass → Nat
  | .lds => 0 | .sts => 1 | .cpy => 2 | .fet => 3 | .mat => 4 | .col => 5
/-- The counter class of a code (R495). -/
def CClass.ofCode : Nat → Option CClass
  | 0 => some .lds | 1 => some .sts | 2 => some .cpy | 3 => some .fet | 4 => some .mat | 5 => some .col
  | _ => none

/-- A flag bit of an encoding. -/
def flag (b : Bool) : Nat := if b then 1 else 0

/-! ## Packed fields -/

/-- Field a of ISCMP and XSCMP: signedness, comparison, predicate (R419, Table 21-8). -/
def encCmp (sg : Bool) (c : Cmp) (p : PReg) : Nat := flag sg * 64 + c.code * 8 + p.val
/-- Reads `encCmp`. -/
def decCmp? (n : Nat) : Option (Bool × Cmp × PReg) := do
  let c ← Cmp.ofCode (n / 8 % 8)
  let p ← fin? 8 (n % 8)
  let h ← fin? 2 (n / 64)
  some (h.val == 1, c, p)

/-- Field a of FSCMP: comparison, predicate; bit 6 zero (R406). -/
def encCmpF (c : Cmp) (p : PReg) : Nat := c.code * 8 + p.val
/-- Reads `encCmpF`. -/
def decCmpF? (n : Nat) : Option (Cmp × PReg) := do
  let _ ← zero? (n / 64)
  let c ← Cmp.ofCode (n / 8 % 8)
  let p ← fin? 8 (n % 8)
  some (c, p)

/-- Field a of PLOP: operation, predicate; bits 6:5 zero (R443). -/
def encPlop (o : LogOp) (p : PReg) : Nat := o.code * 8 + p.val
/-- Reads `encPlop`. -/
def decPlop? (n : Nat) : Option (LogOp × PReg) := do
  let _ ← zero? (n / 32)
  let p ← fin? 8 (n % 8)
  some (LogOp.ofCode (n / 8 % 4), p)

/-- Fields a and b of XLOP: the operation's high bit above Xd, its low bit above Xa (Table 21-8). -/
def encXlopA (o : LogOp) (d : XReg) : Nat := o.code / 2 * 64 + d.val
/-- The second of `encXlopA`'s pair. -/
def encXlopB (o : LogOp) (a : XReg) : Nat := o.code % 2 * 64 + a.val
/-- Reads `encXlopA` and `encXlopB`. -/
def decXlop? (a b : Nat) : Option (LogOp × XReg × XReg) := do
  let d ← fin? 64 (a % 64)
  let x ← fin? 64 (b % 64)
  some (LogOp.ofCode (a / 64 * 2 + b / 64), d, x)

/-- Field a and b of VOTE (R492). -/
def encVoteB (w : VoteArg) : Nat := w.op.code * 8 + w.p.val
/-- Reads field a and `encVoteB`. -/
def decVote? (a b : Nat) : Option VoteArg := do
  let _ ← zero? (b / 32)
  let o ← VoteOp.ofCode (b / 8 % 4)
  let p ← fin? 8 (b % 8)
  let d ← fin? 64 a
  some { d, p, op := o }

/-- The selector field of a barrier instruction (R360). -/
def encSel : BarSel → Nat
  | .object x => x.val
  | .group n => 64 + n.val
/-- Reads `encSel`. -/
def decSel? (n : Nat) : Option BarSel :=
  if n < 64 then (fin? 64 n).map .object else (fin? 4 (n - 64)).map .group

/-- The guard field (R352). -/
def encGuard : Option GReg → Nat
  | none => 0
  | some g => 8 + g.val
/-- Reads `encGuard`. -/
def decGuard? (n : Nat) : Option (Option GReg) :=
  if n = 0 then some none else if n < 8 then none else (fin? 8 (n - 8)).map some

/-- Fields b and c of a compact load or store (R421). -/
def encAddrB : CAddr → Nat
  | .reg _ vo => vo.val
  | .imm _ k => k.val
/-- The second of `encAddrB`'s pair. -/
def encAddrC : CAddr → Nat
  | .reg x _ => x.val
  | .imm x _ => 64 + x.val
/-- Reads `encAddrB` and `encAddrC`. -/
def decAddr? (b c : Nat) : Option CAddr := do
  let x ← fin? 64 (c % 64)
  let y ← fin? 128 b
  some (if c < 64 then .reg x y else .imm x y)

/-- Bits 25 and 24:12 of an ATOM or peer literal: the offset (Table 18-3). -/
def encOff : Off → Nat
  | .imm n => n.val
  | .reg v => 8192 + v.val
/-- Reads `encOff`. -/
def decOff? (n : Nat) : Option Off :=
  if n < 8192 then (fin? 8192 n).map .imm else (fin? 128 (n - 8192)).map .reg

/-- Field b of a full load or store: Vo when VO is 1 (R422). -/
def encLdB (l : LdLit) : Nat := match l.off with | .imm _ => 0 | .reg v => v.val
/-- Bits 25 and 24:12 of a full load's or store's literal. -/
def encLdOff (l : LdLit) : Nat := match l.off with | .imm n => n.val | .reg _ => 8192
/-- The literal of a full load or store; `strong` is the ORD code of .ACQ or .REL (Table 19-10). -/
def encLd (strong : Nat) (l : LdLit) : Nat :=
  l.xa.val * 0x4000000 + encLdOff l * 0x1000 + l.w.code * 0x200
    + (if l.strong then strong else 0) * 0x10 + l.scope.code * 4 + flag l.rsp * 2
/-- Reads `encLdB` and `encLd`. -/
def decLd? (strong b lit : Nat) : Option LdLit := do
  let xa ← fin? 64 (lit / 0x4000000)
  let off ← (if lit / 0x2000000 % 2 = 0 then do
      let _ ← zero? b
      (fin? 8192 (lit / 0x1000 % 8192)).map .imm
    else do
      let _ ← zero? (lit / 0x1000 % 8192)
      (fin? 128 b).map .reg)
  let w ← Width.ofCode (lit / 0x200 % 8)
  let _ ← zero? (lit / 0x40 % 8)
  let o := lit / 0x10 % 4
  let _ ← zero? (if o = 0 ∨ o = strong then 0 else 1)
  let _ ← zero? (lit % 2)
  some { xa, off, w, strong := o != 0, scope := Scope.ofCode (lit / 4 % 4), rsp := lit / 2 % 2 == 1 }

/-- The literal of ATOM and RED (Table 18-3). -/
def encAtom (l : AtomLit) : Nat :=
  l.xa.val * 0x4000000 + encOff l.off * 0x1000 + l.op.code * 0x100 + flag l.sg * 0x80
    + flag l.w64 * 0x40 + flag l.rel * 0x20 + flag l.acq * 0x10 + l.scope.code * 4 + flag l.rsp * 2
/-- Reads `encAtom`. -/
def decAtom? (lit : Nat) : Option AtomLit := do
  let xa ← fin? 64 (lit / 0x4000000)
  let off ← decOff? (lit / 0x1000 % 16384)
  let op ← AtomOp.ofCode (lit / 0x100 % 16)
  let _ ← zero? (lit % 2)
  some { xa, off, op, sg := lit / 0x80 % 2 == 1, w64 := lit / 0x40 % 2 == 1,
         rel := lit / 0x20 % 2 == 1, acq := lit / 0x10 % 2 == 1,
         scope := Scope.ofCode (lit / 4 % 4), rsp := lit / 2 % 2 == 1 }

/-- The literal of PLD, PST and PATOM (Table 20-2). -/
def encPeer (l : PeerLit) : Nat :=
  l.xa.val * 0x4000000 + encOff l.off * 0x1000 + l.op.code * 0x100 + flag l.sg * 0x80
    + l.w.code * 0x10 + flag l.rel * 8 + flag l.acq * 4
/-- Reads `encPeer`. -/
def decPeer? (lit : Nat) : Option PeerLit := do
  let xa ← fin? 64 (lit / 0x4000000)
  let off ← decOff? (lit / 0x1000 % 16384)
  let op ← AtomOp.ofCode (lit / 0x100 % 16)
  let w ← Width.ofCode (lit / 0x10 % 8)
  let _ ← zero? (lit % 4)
  some { xa, off, op, sg := lit / 0x80 % 2 == 1, w,
         rel := lit / 8 % 2 == 1, acq := lit / 4 % 2 == 1 }

/-- RMV and RM of a literal (Table 19-1). -/
def encRm : Option Rm → Nat
  | none => 0
  | some r => 4 + r.code
/-- Reads `encRm`; RM is zero when RMV is 0. -/
def decRm? (n : Nat) : Option (Option Rm) :=
  if n = 0 then some none else if n < 4 then none else some (some (Rm.ofCode (n - 4)))

/-- The floating-point literal (Table 19-1). -/
def encFp (m : FpMod) : Nat := flag m.bf * 0x1000 + flag m.ftz * 0x800 + encRm m.rm * 0x100 + m.vc.val
/-- Reads `encFp`. -/
def decFp? (lit : Nat) : Option FpMod := do
  let _ ← zero? (lit / 0x2000)
  let rm ← decRm? (lit / 0x100 % 8)
  let _ ← zero? (lit / 0x80 % 2)
  let vc ← fin? 128 (lit % 128)
  some { bf := lit / 0x1000 % 2 == 1, ftz := lit / 0x800 % 2 == 1, rm, vc }

/-- The literal of FCVT (Table 19-4). -/
def encCvt (l : CvtLit) : Nat :=
  flag l.ftz * 0x800 + encRm l.rm * 0x100 + l.dst.code * 0x10 + l.src.code
/-- Reads `encCvt`. -/
def decCvt? (lit : Nat) : Option CvtLit := do
  let _ ← zero? (lit / 0x1000)
  let rm ← decRm? (lit / 0x100 % 8)
  let dst ← CvtFmt.ofCode (lit / 0x10 % 16)
  let src ← CvtFmt.ofCode (lit % 16)
  some { ftz := lit / 0x800 % 2 == 1, rm, dst, src }

/-- Field c of FRND (R405): RM is taken only when RMV is 1. -/
def decFrnd? (n : Nat) : Option (Option Rm) := do
  let _ ← zero? (n / 8)
  some (if n < 4 then none else some (Rm.ofCode (n - 4)))

/-- Field a of FENCE (R399). -/
def encFence (sc : Scope) (acq rel : Bool) : Nat := sc.code * 4 + flag rel * 2 + flag acq
/-- Reads `encFence`. -/
def decFence? (n : Nat) : Option (Scope × Bool × Bool) := do
  let _ ← zero? (n / 16)
  some (Scope.ofCode (n / 4 % 4), n % 2 == 1, n / 2 % 2 == 1)

/-! ## Encoder -/

/-- The parts of an encoded instruction; a device step has no encoding. -/
def encodeFields : Instr → Option Fields
  | .nop => some { op := 0x000, k := 0, a := 0, b := 0, c := 0, lit := 0 }
  | .bra off => some { op := 0x001, k := 0, a := off.val / 16384, b := off.val / 128 % 128, c := off.val % 128, lit := 0 }
  | .brx x => some { op := 0x002, k := 0, a := x.val, b := 0, c := 0, lit := 0 }
  | .call off => some { op := 0x003, k := 0, a := off.val / 16384, b := off.val / 128 % 128, c := off.val % 128, lit := 0 }
  | .ret => some { op := 0x004, k := 0, a := 0, b := 0, c := 0, lit := 0 }
  | .exit => some { op := 0x005, k := 0, a := 0, b := 0, c := 0, lit := 0 }
  | .syncs => some { op := 0x006, k := 0, a := 0, b := 0, c := 0, lit := 0 }
  | .loopx x off => some { op := 0x007, k := 0, a := x.val, b := off.val / 128, c := off.val % 128, lit := 0 }
  | .winb base => some { op := 0x008, k := 0, a := 0, b := base.val / 128, c := base.val % 128, lit := 0 }
  | .shrinkV n => some { op := 0x009, k := 0, a := 0, b := n.val / 128, c := n.val % 128, lit := 0 }
  | .shrinkL => some { op := 0x00A, k := 0, a := 0, b := 0, c := 0, lit := 0 }
  | .yield => some { op := 0x00B, k := 0, a := 0, b := 0, c := 0, lit := 0 }
  | .trap imm => some { op := 0x00C, k := 0, a := 0, b := imm.val / 128, c := imm.val % 128, lit := 0 }
  | .tret => some { op := 0x00D, k := 0, a := 0, b := 0, c := 0, lit := 0 }
  | .brk => some { op := 0x00E, k := 0, a := 0, b := 0, c := 0, lit := 0 }
  | .setfmt x => some { op := 0x010, k := 0, a := x.val, b := 0, c := 0, lit := 0 }
  | .setfmtF x => some { op := 0x011, k := 0, a := x.val, b := 0, c := 0, lit := 0 }
  | .gangset x => some { op := 0x012, k := 0, a := x.val, b := 0, c := 0, lit := 0 }
  | .movsV d src => some { op := 0x013, k := 0, a := d.val, b := src.val, c := 0, lit := 0 }
  | .movsX d src => some { op := 0x014, k := 0, a := d.val, b := src.val, c := 0, lit := 0 }
  | .iadd d a b => some { op := 0x020, k := 0, a := d.val, b := a.val, c := b.val, lit := 0 }
  | .iaddImm d a imm => some { op := 0x021, k := 0, a := d.val, b := a.val, c := imm.val, lit := 0 }
  | .isub d a b => some { op := 0x022, k := 0, a := d.val, b := a.val, c := b.val, lit := 0 }
  | .imul d a b => some { op := 0x023, k := 0, a := d.val, b := a.val, c := b.val, lit := 0 }
  | .imulhS32 d a b => some { op := 0x024, k := 0, a := d.val, b := a.val, c := b.val, lit := 0 }
  | .imulhU32 d a b => some { op := 0x025, k := 0, a := d.val, b := a.val, c := b.val, lit := 0 }
  | .imad d a b c => some { op := 0x026, k := 0, a := d.val, b := a.val, c := b.val, lit := c.val }
  | .iabs d a => some { op := 0x027, k := 0, a := d.val, b := a.val, c := 0, lit := 0 }
  | .iminS32 d a b => some { op := 0x028, k := 0, a := d.val, b := a.val, c := b.val, lit := 0 }
  | .iminU32 d a b => some { op := 0x029, k := 0, a := d.val, b := a.val, c := b.val, lit := 0 }
  | .imaxS32 d a b => some { op := 0x02A, k := 0, a := d.val, b := a.val, c := b.val, lit := 0 }
  | .imaxU32 d a b => some { op := 0x02B, k := 0, a := d.val, b := a.val, c := b.val, lit := 0 }
  | .iscmp sg cmp p a b => some { op := 0x02C, k := 0, a := encCmp sg cmp p, b := a.val, c := b.val, lit := 0 }
  | .select d a b p => some { op := 0x02D, k := 0, a := d.val, b := a.val, c := b.val, lit := p.val }
  | .mov d a => some { op := 0x02E, k := 0, a := d.val, b := a.val, c := 0, lit := 0 }
  | .movi d imm => some { op := 0x02F, k := 0, a := d.val, b := 0, c := 0, lit := imm.toNat }
  | .and d a b => some { op := 0x030, k := 0, a := d.val, b := a.val, c := b.val, lit := 0 }
  | .andImm d a imm => some { op := 0x031, k := 0, a := d.val, b := a.val, c := imm.val, lit := 0 }
  | .or d a b => some { op := 0x032, k := 0, a := d.val, b := a.val, c := b.val, lit := 0 }
  | .orImm d a imm => some { op := 0x033, k := 0, a := d.val, b := a.val, c := imm.val, lit := 0 }
  | .xor d a b => some { op := 0x034, k := 0, a := d.val, b := a.val, c := b.val, lit := 0 }
  | .xorImm d a imm => some { op := 0x035, k := 0, a := d.val, b := a.val, c := imm.val, lit := 0 }
  | .lut3 d a b c lut => some { op := 0x036, k := 0, a := d.val, b := a.val, c := b.val, lit := lut.toNat * 256 + c.val }
  | .shl d a b => some { op := 0x038, k := 0, a := d.val, b := a.val, c := b.val, lit := 0 }
  | .shlImm d a imm => some { op := 0x039, k := 0, a := d.val, b := a.val, c := imm.val, lit := 0 }
  | .shr d a b => some { op := 0x03A, k := 0, a := d.val, b := a.val, c := b.val, lit := 0 }
  | .shrImm d a imm => some { op := 0x03B, k := 0, a := d.val, b := a.val, c := imm.val, lit := 0 }
  | .shra d a b => some { op := 0x03C, k := 0, a := d.val, b := a.val, c := b.val, lit := 0 }
  | .shraImm d a imm => some { op := 0x03D, k := 0, a := d.val, b := a.val, c := imm.val, lit := 0 }
  | .funs d a b c => some { op := 0x03E, k := 0, a := d.val, b := a.val, c := b.val, lit := c.val }
  | .bfxU d a b => some { op := 0x040, k := 0, a := d.val, b := a.val, c := b.val, lit := 0 }
  | .bfxS d a b => some { op := 0x041, k := 0, a := d.val, b := a.val, c := b.val, lit := 0 }
  | .bfi d a b c => some { op := 0x042, k := 0, a := d.val, b := a.val, c := b.val, lit := c.val }
  | .popc d a => some { op := 0x043, k := 0, a := d.val, b := a.val, c := 0, lit := 0 }
  | .clz d a => some { op := 0x044, k := 0, a := d.val, b := a.val, c := 0, lit := 0 }
  | .brev d a => some { op := 0x045, k := 0, a := d.val, b := a.val, c := 0, lit := 0 }
  | .xadd d a b => some { op := 0x050, k := 0, a := d.val, b := a.val, c := b.val, lit := 0 }
  | .xaddImm d a imm => some { op := 0x051, k := 0, a := d.val, b := a.val, c := imm.val, lit := 0 }
  | .xsub d a b => some { op := 0x052, k := 0, a := d.val, b := a.val, c := b.val, lit := 0 }
  | .xmul d a b => some { op := 0x053, k := 0, a := d.val, b := a.val, c := b.val, lit := 0 }
  | .xlop op d a b => some { op := 0x054, k := 0, a := encXlopA op d, b := encXlopB op a, c := b.val, lit := 0 }
  | .xshl d a b => some { op := 0x055, k := 0, a := d.val, b := a.val, c := b.val, lit := 0 }
  | .xshlImm d a imm => some { op := 0x056, k := 0, a := d.val, b := a.val, c := imm.val, lit := 0 }
  | .xshr d a b => some { op := 0x057, k := 0, a := d.val, b := a.val, c := b.val, lit := 0 }
  | .xshrImm d a imm => some { op := 0x058, k := 0, a := d.val, b := a.val, c := imm.val, lit := 0 }
  | .xmov d a => some { op := 0x059, k := 0, a := d.val, b := a.val, c := 0, lit := 0 }
  | .xmovi d imm => some { op := 0x05A, k := 0, a := d.val, b := 0, c := 0, lit := imm.toNat }
  | .xscmp sg cmp p a b => some { op := 0x05B, k := 0, a := encCmp sg cmp p, b := a.val, c := b.val, lit := 0 }
  | .xld d a imm => some { op := 0x05C, k := 0, a := d.val, b := a.val, c := imm.val, lit := 0 }
  | .xst b a imm => some { op := 0x05D, k := 0, a := b.val, b := a.val, c := imm.val, lit := 0 }
  | .xget d k => some { op := 0x05E, k := 0, a := d.val, b := 0, c := k.val, lit := 0 }
  | .plop op p a b => some { op := 0x060, k := 0, a := encPlop op p, b := a.val, c := b.val, lit := 0 }
  | .ptov d p => some { op := 0x061, k := 0, a := d.val, b := p.val, c := 0, lit := 0 }
  | .vtop p a => some { op := 0x062, k := 0, a := p.val, b := a.val, c := 0, lit := 0 }
  | .fadd d a b => some { op := 0x070, k := 0, a := d.val, b := a.val, c := b.val, lit := 0 }
  | .faddM d a b md => some { op := 0x071, k := 0, a := d.val, b := a.val, c := b.val, lit := encFp md }
  | .fsub d a b => some { op := 0x072, k := 0, a := d.val, b := a.val, c := b.val, lit := 0 }
  | .fsubM d a b md => some { op := 0x073, k := 0, a := d.val, b := a.val, c := b.val, lit := encFp md }
  | .fmul d a b => some { op := 0x074, k := 0, a := d.val, b := a.val, c := b.val, lit := 0 }
  | .fmulM d a b md => some { op := 0x075, k := 0, a := d.val, b := a.val, c := b.val, lit := encFp md }
  | .ffma d a b md => some { op := 0x076, k := 0, a := d.val, b := a.val, c := b.val, lit := encFp md }
  | .fmin d a b => some { op := 0x078, k := 0, a := d.val, b := a.val, c := b.val, lit := 0 }
  | .fmax d a b => some { op := 0x079, k := 0, a := d.val, b := a.val, c := b.val, lit := 0 }
  | .fscmp cmp p a b => some { op := 0x07A, k := 0, a := encCmpF cmp p, b := a.val, c := b.val, lit := 0 }
  | .fclass d a => some { op := 0x07B, k := 0, a := d.val, b := a.val, c := 0, lit := 0 }
  | .fcvt d a cv => some { op := 0x07C, k := 0, a := d.val, b := a.val, c := 0, lit := encCvt cv }
  | .frnd d a rm => some { op := 0x07D, k := 0, a := d.val, b := a.val, c := encRm rm, lit := 0 }
  | .frcp d a => some { op := 0x080, k := 0, a := d.val, b := a.val, c := 0, lit := 0 }
  | .frsq d a => some { op := 0x081, k := 0, a := d.val, b := a.val, c := 0, lit := 0 }
  | .fex2 d a => some { op := 0x082, k := 0, a := d.val, b := a.val, c := 0, lit := 0 }
  | .flg2 d a => some { op := 0x083, k := 0, a := d.val, b := a.val, c := 0, lit := 0 }
  | .fsin d a => some { op := 0x084, k := 0, a := d.val, b := a.val, c := 0, lit := 0 }
  | .fcos d a => some { op := 0x085, k := 0, a := d.val, b := a.val, c := 0, lit := 0 }
  | .hadd2 d a bf b => some { op := 0x088, k := 0, a := d.val, b := a.val, c := flag bf * 64 + b.val, lit := 0 }
  | .hadd2M d a b md => some { op := 0x089, k := 0, a := d.val, b := a.val, c := b.val, lit := encFp md }
  | .hmul2 d a bf b => some { op := 0x08A, k := 0, a := d.val, b := a.val, c := flag bf * 64 + b.val, lit := 0 }
  | .hmul2M d a b md => some { op := 0x08B, k := 0, a := d.val, b := a.val, c := b.val, lit := encFp md }
  | .hfma2 d a b md => some { op := 0x08C, k := 0, a := d.val, b := a.val, c := b.val, lit := encFp md }
  | .vote w => some { op := 0x090, k := 0, a := w.d.val, b := encVoteB w, c := 0, lit := 0 }
  | .voteMask w m => some { op := 0x091, k := 0, a := w.d.val, b := encVoteB w, c := m.val, lit := 0 }
  | .sred d a op => some { op := 0x092, k := 0, a := d.val, b := a.val, c := op.code * 8, lit := 0 }
  | .sredMask d a op m => some { op := 0x093, k := 0, a := d.val, b := a.val, c := op.code * 8 + m.val, lit := 0 }
  | .matchLanes d a => some { op := 0x094, k := 0, a := d.val, b := a.val, c := 0, lit := 0 }
  | .matchMask d a m => some { op := 0x095, k := 0, a := d.val, b := a.val, c := m.val, lit := 0 }
  | .scan d a op => some { op := 0x096, k := 0, a := d.val, b := a.val, c := op.code * 8, lit := 0 }
  | .shfl d a b => some { op := 0x098, k := 0, a := d.val, b := a.val, c := b.val, lit := 0 }
  | .shflp d a t => some { op := 0x099, k := 0, a := d.val, b := a.val, c := t.val, lit := 0 }
  | .ptld t x => some { op := 0x09A, k := 0, a := t.val, b := x.val, c := 0, lit := 0 }
  | .ldS d ad => some { op := 0x0A0, k := 0, a := d.val, b := encAddrB ad, c := encAddrC ad, lit := 0 }
  | .ldSFull d l => some { op := 0x0A1, k := 0, a := d.val, b := encLdB l, c := 0, lit := encLd 1 l }
  | .ldH d ad => some { op := 0x0A2, k := 0, a := d.val, b := encAddrB ad, c := encAddrC ad, lit := 0 }
  | .ldHFull d l => some { op := 0x0A3, k := 0, a := d.val, b := encLdB l, c := 0, lit := encLd 1 l }
  | .stS v ad => some { op := 0x0A4, k := 0, a := v.val, b := encAddrB ad, c := encAddrC ad, lit := 0 }
  | .stSFull v l => some { op := 0x0A5, k := 0, a := v.val, b := encLdB l, c := 0, lit := encLd 2 l }
  | .stH v ad => some { op := 0x0A6, k := 0, a := v.val, b := encAddrB ad, c := encAddrC ad, lit := 0 }
  | .stHFull v l => some { op := 0x0A7, k := 0, a := v.val, b := encLdB l, c := 0, lit := encLd 2 l }
  | .atom d b c l => some { op := 0x0A8, k := 0, a := d.val, b := b.val, c := c.val, lit := encAtom l }
  | .red b l => some { op := 0x0A9, k := 0, a := 0, b := b.val, c := 0, lit := encAtom l }
  | .fence scope acq rel => some { op := 0x0AA, k := 0, a := encFence scope acq rel, b := 0, c := 0, lit := 0 }
  | .cflush x => some { op := 0x0AB, k := 0, a := x.val, b := 0, c := 0, lit := 0 }
  | .cinv x => some { op := 0x0AC, k := 0, a := x.val, b := 0, c := 0, lit := 0 }
  | .pld d l => some { op := 0x0B0, k := 0, a := d.val, b := 0, c := 0, lit := encPeer l }
  | .pst b l => some { op := 0x0B1, k := 0, a := 0, b := b.val, c := 0, lit := encPeer l }
  | .patom d b c l => some { op := 0x0B2, k := 0, a := d.val, b := b.val, c := c.val, lit := encPeer l }
  | .copy x g => some { op := 0x0C0, k := 0, a := x.val, b := encGuard g, c := 0, lit := 0 }
  | .puts x g b => some { op := 0x0C1, k := 0, a := x.val, b := encGuard g, c := b.val, lit := 0 }
  | .tfetch x g => some { op := 0x0C2, k := 0, a := x.val, b := encGuard g, c := 0, lit := 0 }
  | .tstore x g => some { op := 0x0C3, k := 0, a := x.val, b := encGuard g, c := 0, lit := 0 }
  | .mcopy x g => some { op := 0x0C4, k := 0, a := x.val, b := encGuard g, c := 0, lit := 0 }
  | .mfill x g => some { op := 0x0C5, k := 0, a := x.val, b := encGuard g, c := 0, lit := 0 }
  | .mreduce x g => some { op := 0x0C6, k := 0, a := x.val, b := encGuard g, c := 0, lit := 0 }
  | .coll x g => some { op := 0x0C7, k := 0, a := x.val, b := encGuard g, c := 0, lit := 0 }
  | .barinit a b => some { op := 0x0C8, k := 0, a := a.val, b := b.val, c := 0, lit := 0 }
  | .barexp a b => some { op := 0x0C9, k := 0, a := a.val, b := b.val, c := 0, lit := 0 }
  | .bararr sel => some { op := 0x0CA, k := 0, a := encSel sel, b := 0, c := 0, lit := 0 }
  | .bardrop sel => some { op := 0x0CB, k := 0, a := encSel sel, b := 0, c := 0, lit := 0 }
  | .barwait sel b => some { op := 0x0CC, k := 0, a := encSel sel, b := b.val, c := 0, lit := 0 }
  | .bartest p sel x => some { op := 0x0CD, k := 0, a := p.val, b := encSel sel, c := x.val, lit := 0 }
  | .waitc c n => some { op := 0x0CE, k := 0, a := c.code, b := n.val, c := 0, lit := 0 }
  | .gresOpen g => some { op := 0x0D0, k := 0, a := g.val, b := 0, c := 0, lit := 0 }
  | .gresX g x => some { op := 0x0D1, k := 0, a := g.val, b := x.val, c := 0, lit := 0 }
  | .gresAny g p => some { op := 0x0D2, k := 0, a := g.val, b := p.val, c := 0, lit := 0 }
  | .gresAll g p => some { op := 0x0D3, k := 0, a := g.val, b := p.val, c := 0, lit := 0 }
  | .tld t a b => some { op := 0x0E0, k := 0, a := t.val, b := a.val, c := b.val, lit := 0 }
  | .tldZb t a b => some { op := 0x0E1, k := 0, a := t.val, b := a.val, c := b.val, lit := 0 }
  | .tldSc t m a b => some { op := 0x0E2, k := 0, a := t.val, b := m.val, c := a.val, lit := b.val }
  | .tldScZb t m a b => some { op := 0x0E3, k := 0, a := t.val, b := m.val, c := a.val, lit := b.val }
  | .tstr x t => some { op := 0x0E4, k := 0, a := x.val, b := t.val, c := 0, lit := 0 }
  | .tzero t => some { op := 0x0E5, k := 0, a := t.val, b := 0, c := 0, lit := 0 }
  | .tcvt n m f => some { op := 0x0E6, k := 0, a := n.val, b := m.val, c := f.code, lit := 0 }
  | .tcvtZb n m f => some { op := 0x0E7, k := 0, a := n.val, b := m.val, c := f.code, lit := 0 }
  | .tqntL6 t k sx x => some { op := 0x0E8, k := 0, a := k.val * 16 + t.val, b := sx.val, c := x.val, lit := 0 }
  | .tqntL6Zb t k sx x => some { op := 0x0E9, k := 0, a := k.val * 16 + t.val, b := sx.val, c := x.val, lit := 0 }
  | .tqntL8 t k sx x => some { op := 0x0EA, k := 0, a := k.val * 16 + t.val, b := sx.val, c := x.val, lit := 0 }
  | .tqntL8Zb t k sx x => some { op := 0x0EB, k := 0, a := k.val * 16 + t.val, b := sx.val, c := x.val, lit := 0 }
  | .tqntF8 t k sx x => some { op := 0x0EC, k := 0, a := k.val * 16 + t.val, b := sx.val, c := x.val, lit := 0 }
  | .tqntF8Zb t k sx x => some { op := 0x0ED, k := 0, a := k.val * 16 + t.val, b := sx.val, c := x.val, lit := 0 }
  | .mma k d a t => some { op := 0x0F0, k := flag k, a := d.val, b := a.val, c := t.val, lit := 0 }
  | .mmx d a b => some { op := 0x0F1, k := 0, a := d.val, b := a.val, c := b.val, lit := 0 }
  | .mmxGuard d g a b => some { op := 0x0F2, k := 0, a := g.val * 16 + d.val, b := a.val, c := b.val, lit := 0 }
  | .mmxSpec d g a b => some { op := 0x0F3, k := 0, a := g.val * 16 + d.val, b := a.val, c := b.val, lit := 0 }
  | .accz d => some { op := 0x0F4, k := 0, a := d.val, b := 0, c := 0, lit := 0 }
  | .accrd d a => some { op := 0x0F5, k := 0, a := d.val, b := a.val, c := 0, lit := 0 }
  | .accwr d a => some { op := 0x0F6, k := 0, a := d.val, b := a.val, c := 0, lit := 0 }
  | .accld d x imm => some { op := 0x0F7, k := 0, a := d.val, b := x.val, c := imm.val, lit := 0 }
  | .accst d x imm => some { op := 0x0F8, k := 0, a := d.val, b := x.val, c := imm.val, lit := 0 }
  | .sld d x imm => some { op := 0x100, k := 0, a := d.val, b := x.val, c := imm.val, lit := 0 }
  | .sst a x imm => some { op := 0x101, k := 0, a := a.val, b := x.val, c := imm.val, lit := 0 }
  | .sbindS t m => some { op := 0x102, k := 0, a := t.val, b := m.val, c := 0, lit := 0 }
  | .sbindX t m => some { op := 0x103, k := 0, a := t.val, b := m.val, c := 0, lit := 0 }
  | .sbindU t => some { op := 0x104, k := 0, a := t.val, b := 0, c := 0, lit := 0 }
  | .srel m => some { op := 0x105, k := 0, a := m.val, b := 0, c := 0, lit := 0 }
  | .sqry d t => some { op := 0x106, k := 0, a := d.val, b := t.val, c := 0, lit := 0 }
  | .smovS d a => some { op := 0x108, k := 0, a := d.val, b := a.val, c := 0, lit := 0 }
  | .smovX d a => some { op := 0x109, k := 0, a := d.val, b := a.val, c := 0, lit := 0 }
  | .smul d a b => some { op := 0x10A, k := 0, a := d.val, b := a.val, c := b.val, lit := 0 }
  | .smax d a b => some { op := 0x10B, k := 0, a := d.val, b := a.val, c := b.val, lit := 0 }
  | .scvtToS d a => some { op := 0x10C, k := 0, a := d.val, b := a.val, c := 0, lit := 0 }
  | .scvtToV d a => some { op := 0x10D, k := 0, a := d.val, b := a.val, c := 0, lit := 0 }
  | .launch p x => some { op := 0x120, k := 0, a := p.val, b := x.val, c := 0, lit := 0 }
  | .taskarm a b => some { op := 0x121, k := 0, a := 0, b := a.val, c := b.val, lit := 0 }
  | .tasksig a b => some { op := 0x122, k := 0, a := 0, b := a.val, c := b.val, lit := 0 }
  | .taskretry a => some { op := 0x123, k := 0, a := 0, b := a.val, c := 0, lit := 0 }
  | .taskabort a => some { op := 0x124, k := 0, a := 0, b := a.val, c := 0, lit := 0 }
  | .csrr d csr => some { op := 0x130, k := 0, a := d.val, b := csr.val / 128, c := csr.val % 128, lit := 0 }
  | .csrw a csr => some { op := 0x131, k := 0, a := a.val, b := csr.val / 128, c := csr.val % 128, lit := 0 }
  | .dtload x => some { op := 0x132, k := 0, a := x.val, b := 0, c := 0, lit := 0 }
  | .tlbinv x => some { op := 0x133, k := 0, a := x.val, b := 0, c := 0, lit := 0 }
  | .ctxst a b => some { op := 0x134, k := 0, a := a.val, b := b.val, c := 0, lit := 0 }
  | .ctxld a b => some { op := 0x135, k := 0, a := a.val, b := b.val, c := 0, lit := 0 }
  | .egmode x => some { op := 0x136, k := 0, a := x.val, b := 0, c := 0, lit := 0 }
  | .evpop d x => some { op := 0x137, k := 0, a := d.val, b := x.val, c := 0, lit := 0 }
  | .topocmtWrite _ _ => none
  | .splitPromotion _ => none
  | .stallEnd _ => none
  | .workgroupPlacement _ => none
  | .cohortPlacement _ => none
  | .cohortWaitTimeout _ => none
  | .matrixStep _ => none
  | .matrixCompletion _ => none
  | .matrixEngineStop _ => none
  | .commandAdmission _ => none
  | .fetchReleasePhase _ => none
  | .transferUnitLanded _ _ => none
  | .unitAcknowledged _ _ => none
  | .transferUnitDropped _ _ _ => none
  | .copyExecution _ => none
  | .putsDelivery _ => none
  | .wavelengthFailure _ _ => none
  | .spareWarmed _ _ => none
  | .laserAgeing _ _ => none
  | .linkRetraining _ => none
  | .portRecovery _ => none
  | .releaseNotice _ _ => none
  | .promotionRequest _ => none
  | .promotionAcknowledgement _ => none
  | .taskEdgeBegin _ => none
  | .edgeLineWriteback _ => none
  | .drainReport _ => none
  | .edgeDecrement _ => none
  | .haltRequest _ => none
  | .halted _ => none
  | .contextExchange _ => none
  | .resumeRequest _ => none
  | .resumeComplete _ => none
  | .ebbEnd _ => none
  | .ebbDeadline _ => none
  | .slackEnd _ _ => none
  | .authEnd _ _ => none
  | .flood _ => none
  | .lossOfLock _ => none
  | .peerRequest _ => none
  | .peerReply _ => none
  | .peerTimeout _ => none
  | .replayRecordExpiry _ _ _ => none
  | .chunkSend _ => none
  | .chunkReceive _ => none
  | .staleNack _ => none
  | .chunkAccepted _ => none
  | .chunkResend _ => none
  | .chunkTimeout _ => none
  | .creditReturn _ _ => none
  | .collCompletion _ => none
  | .hostCxlMemAccess _ => none
  | .attestationReport _ => none
  | .firmwareImage _ => none
  | .configurationRecord _ => none
  | .debugGrant _ => none
  | .powerStateRequest _ => none
  | .powerBudgetChange _ => none
  | .resetPackage => none
  | .hostDebugAccess _ => none
  | .coreClocks _ => none

/-- The words of an encoded instruction: the instruction word, and the literal word of form E. -/
def isFormE (op : Nat) : Bool :=
  [0x026, 0x02D, 0x02F, 0x036, 0x03E, 0x042, 0x05A, 0x071, 0x073, 0x075, 0x076, 0x07C, 0x089, 0x08B, 0x08C, 0x0A1, 0x0A3, 0x0A5, 0x0A7, 0x0A8, 0x0A9, 0x0B0, 0x0B1, 0x0B2, 0x0E2, 0x0E3].contains op

/-- The words that encode an instruction: its own word and, for form E, the literal. -/
def encode (i : Instr) : Option (Word × Option Word) :=
  (encodeFields i).map fun f =>
    (BitVec.ofNat 32 f.toWord, if isFormE f.op then some (BitVec.ofNat 32 f.lit) else none)

/-! ## Decoder: one definition for each row of sixteen opcodes of Table 13-6 -/

/-- Operations 0x000 to 0x00F. -/
def parse00 (f : Fields) : Nat → Option Instr
  | 0 => do
    let _ ← zero? f.a
    let _ ← zero? f.b
    let _ ← zero? f.c
    some (.nop)
  | 1 => do
    let off ← fin? 2097152 (f.a * 16384 + f.b * 128 + f.c)
    some (.bra off)
  | 2 => do
    let x ← fin? 64 f.a
    let _ ← zero? f.b
    let _ ← zero? f.c
    some (.brx x)
  | 3 => do
    let off ← fin? 2097152 (f.a * 16384 + f.b * 128 + f.c)
    some (.call off)
  | 4 => do
    let _ ← zero? f.a
    let _ ← zero? f.b
    let _ ← zero? f.c
    some (.ret)
  | 5 => do
    let _ ← zero? f.a
    let _ ← zero? f.b
    let _ ← zero? f.c
    some (.exit)
  | 6 => do
    let _ ← zero? f.a
    let _ ← zero? f.b
    let _ ← zero? f.c
    some (.syncs)
  | 7 => do
    let x ← fin? 64 f.a
    let off ← fin? 16384 (f.b * 128 + f.c)
    some (.loopx x off)
  | 8 => do
    let base ← fin? 16384 (f.b * 128 + f.c)
    let _ ← zero? f.a
    some (.winb base)
  | 9 => do
    let n ← fin? 16384 (f.b * 128 + f.c)
    let _ ← zero? f.a
    some (.shrinkV n)
  | 10 => do
    let _ ← zero? f.a
    let _ ← zero? f.b
    let _ ← zero? f.c
    some (.shrinkL)
  | 11 => do
    let _ ← zero? f.a
    let _ ← zero? f.b
    let _ ← zero? f.c
    some (.yield)
  | 12 => do
    let imm ← fin? 16384 (f.b * 128 + f.c)
    let _ ← zero? f.a
    some (.trap imm)
  | 13 => do
    let _ ← zero? f.a
    let _ ← zero? f.b
    let _ ← zero? f.c
    some (.tret)
  | 14 => do
    let _ ← zero? f.a
    let _ ← zero? f.b
    let _ ← zero? f.c
    some (.brk)
  | _ => none

/-- Operations 0x010 to 0x01F. -/
def parse01 (f : Fields) : Nat → Option Instr
  | 0 => do
    let x ← fin? 64 f.a
    let _ ← zero? f.b
    let _ ← zero? f.c
    some (.setfmt x)
  | 1 => do
    let x ← fin? 64 f.a
    let _ ← zero? f.b
    let _ ← zero? f.c
    some (.setfmtF x)
  | 2 => do
    let x ← fin? 64 f.a
    let _ ← zero? f.b
    let _ ← zero? f.c
    some (.gangset x)
  | 3 => do
    let d ← fin? 128 f.a
    let src ← fin? 26 f.b
    let _ ← zero? f.c
    some (.movsV d src)
  | 4 => do
    let d ← fin? 64 f.a
    let src ← fin? 26 f.b
    let _ ← zero? f.c
    some (.movsX d src)
  | _ => none

/-- Operations 0x020 to 0x02F. -/
def parse02 (f : Fields) : Nat → Option Instr
  | 0 => do
    let d ← fin? 128 f.a
    let a ← fin? 128 f.b
    let b ← fin? 128 f.c
    some (.iadd d a b)
  | 1 => do
    let d ← fin? 128 f.a
    let a ← fin? 128 f.b
    let imm ← fin? 128 f.c
    some (.iaddImm d a imm)
  | 2 => do
    let d ← fin? 128 f.a
    let a ← fin? 128 f.b
    let b ← fin? 128 f.c
    some (.isub d a b)
  | 3 => do
    let d ← fin? 128 f.a
    let a ← fin? 128 f.b
    let b ← fin? 128 f.c
    some (.imul d a b)
  | 4 => do
    let d ← fin? 128 f.a
    let a ← fin? 128 f.b
    let b ← fin? 128 f.c
    some (.imulhS32 d a b)
  | 5 => do
    let d ← fin? 128 f.a
    let a ← fin? 128 f.b
    let b ← fin? 128 f.c
    some (.imulhU32 d a b)
  | 6 => do
    let d ← fin? 128 f.a
    let a ← fin? 128 f.b
    let b ← fin? 128 f.c
    let c ← fin? 128 f.lit
    some (.imad d a b c)
  | 7 => do
    let d ← fin? 128 f.a
    let a ← fin? 128 f.b
    let _ ← zero? f.c
    some (.iabs d a)
  | 8 => do
    let d ← fin? 128 f.a
    let a ← fin? 128 f.b
    let b ← fin? 128 f.c
    some (.iminS32 d a b)
  | 9 => do
    let d ← fin? 128 f.a
    let a ← fin? 128 f.b
    let b ← fin? 128 f.c
    some (.iminU32 d a b)
  | 10 => do
    let d ← fin? 128 f.a
    let a ← fin? 128 f.b
    let b ← fin? 128 f.c
    some (.imaxS32 d a b)
  | 11 => do
    let d ← fin? 128 f.a
    let a ← fin? 128 f.b
    let b ← fin? 128 f.c
    some (.imaxU32 d a b)
  | 12 => do
    let (sg, cmp, p) ← decCmp? f.a
    let a ← fin? 128 f.b
    let b ← fin? 128 f.c
    some (.iscmp sg cmp p a b)
  | 13 => do
    let d ← fin? 128 f.a
    let a ← fin? 128 f.b
    let b ← fin? 128 f.c
    let p ← fin? 8 f.lit
    some (.select d a b p)
  | 14 => do
    let d ← fin? 128 f.a
    let a ← fin? 128 f.b
    let _ ← zero? f.c
    some (.mov d a)
  | 15 => do
    let d ← fin? 128 f.a
    let imm ← some (BitVec.ofNat 32 f.lit)
    let _ ← zero? f.b
    let _ ← zero? f.c
    some (.movi d imm)
  | _ => none

/-- Operations 0x030 to 0x03F. -/
def parse03 (f : Fields) : Nat → Option Instr
  | 0 => do
    let d ← fin? 128 f.a
    let a ← fin? 128 f.b
    let b ← fin? 128 f.c
    some (.and d a b)
  | 1 => do
    let d ← fin? 128 f.a
    let a ← fin? 128 f.b
    let imm ← fin? 128 f.c
    some (.andImm d a imm)
  | 2 => do
    let d ← fin? 128 f.a
    let a ← fin? 128 f.b
    let b ← fin? 128 f.c
    some (.or d a b)
  | 3 => do
    let d ← fin? 128 f.a
    let a ← fin? 128 f.b
    let imm ← fin? 128 f.c
    some (.orImm d a imm)
  | 4 => do
    let d ← fin? 128 f.a
    let a ← fin? 128 f.b
    let b ← fin? 128 f.c
    some (.xor d a b)
  | 5 => do
    let d ← fin? 128 f.a
    let a ← fin? 128 f.b
    let imm ← fin? 128 f.c
    some (.xorImm d a imm)
  | 6 => do
    let d ← fin? 128 f.a
    let a ← fin? 128 f.b
    let b ← fin? 128 f.c
    let _ ← zero? (f.lit / 65536)
    let c ← fin? 128 (f.lit % 256)
    let lut ← some (BitVec.ofNat 8 (f.lit / 256))
    some (.lut3 d a b c lut)
  | 8 => do
    let d ← fin? 128 f.a
    let a ← fin? 128 f.b
    let b ← fin? 128 f.c
    some (.shl d a b)
  | 9 => do
    let d ← fin? 128 f.a
    let a ← fin? 128 f.b
    let imm ← fin? 128 f.c
    some (.shlImm d a imm)
  | 10 => do
    let d ← fin? 128 f.a
    let a ← fin? 128 f.b
    let b ← fin? 128 f.c
    some (.shr d a b)
  | 11 => do
    let d ← fin? 128 f.a
    let a ← fin? 128 f.b
    let imm ← fin? 128 f.c
    some (.shrImm d a imm)
  | 12 => do
    let d ← fin? 128 f.a
    let a ← fin? 128 f.b
    let b ← fin? 128 f.c
    some (.shra d a b)
  | 13 => do
    let d ← fin? 128 f.a
    let a ← fin? 128 f.b
    let imm ← fin? 128 f.c
    some (.shraImm d a imm)
  | 14 => do
    let d ← fin? 128 f.a
    let a ← fin? 128 f.b
    let b ← fin? 128 f.c
    let c ← fin? 128 f.lit
    some (.funs d a b c)
  | _ => none

/-- Operations 0x040 to 0x04F. -/
def parse04 (f : Fields) : Nat → Option Instr
  | 0 => do
    let d ← fin? 128 f.a
    let a ← fin? 128 f.b
    let b ← fin? 128 f.c
    some (.bfxU d a b)
  | 1 => do
    let d ← fin? 128 f.a
    let a ← fin? 128 f.b
    let b ← fin? 128 f.c
    some (.bfxS d a b)
  | 2 => do
    let d ← fin? 128 f.a
    let a ← fin? 128 f.b
    let b ← fin? 128 f.c
    let c ← fin? 128 f.lit
    some (.bfi d a b c)
  | 3 => do
    let d ← fin? 128 f.a
    let a ← fin? 128 f.b
    let _ ← zero? f.c
    some (.popc d a)
  | 4 => do
    let d ← fin? 128 f.a
    let a ← fin? 128 f.b
    let _ ← zero? f.c
    some (.clz d a)
  | 5 => do
    let d ← fin? 128 f.a
    let a ← fin? 128 f.b
    let _ ← zero? f.c
    some (.brev d a)
  | _ => none

/-- Operations 0x050 to 0x05F. -/
def parse05 (f : Fields) : Nat → Option Instr
  | 0 => do
    let d ← fin? 64 f.a
    let a ← fin? 64 f.b
    let b ← fin? 64 f.c
    some (.xadd d a b)
  | 1 => do
    let d ← fin? 64 f.a
    let a ← fin? 64 f.b
    let imm ← fin? 128 f.c
    some (.xaddImm d a imm)
  | 2 => do
    let d ← fin? 64 f.a
    let a ← fin? 64 f.b
    let b ← fin? 64 f.c
    some (.xsub d a b)
  | 3 => do
    let d ← fin? 64 f.a
    let a ← fin? 64 f.b
    let b ← fin? 64 f.c
    some (.xmul d a b)
  | 4 => do
    let (op, d, a) ← decXlop? f.a f.b
    let b ← fin? 64 f.c
    some (.xlop op d a b)
  | 5 => do
    let d ← fin? 64 f.a
    let a ← fin? 64 f.b
    let b ← fin? 64 f.c
    some (.xshl d a b)
  | 6 => do
    let d ← fin? 64 f.a
    let a ← fin? 64 f.b
    let imm ← fin? 128 f.c
    some (.xshlImm d a imm)
  | 7 => do
    let d ← fin? 64 f.a
    let a ← fin? 64 f.b
    let b ← fin? 64 f.c
    some (.xshr d a b)
  | 8 => do
    let d ← fin? 64 f.a
    let a ← fin? 64 f.b
    let imm ← fin? 128 f.c
    some (.xshrImm d a imm)
  | 9 => do
    let d ← fin? 64 f.a
    let a ← fin? 64 f.b
    let _ ← zero? f.c
    some (.xmov d a)
  | 10 => do
    let d ← fin? 64 f.a
    let imm ← some (BitVec.ofNat 32 f.lit)
    let _ ← zero? f.b
    let _ ← zero? f.c
    some (.xmovi d imm)
  | 11 => do
    let (sg, cmp, p) ← decCmp? f.a
    let a ← fin? 64 f.b
    let b ← fin? 64 f.c
    some (.xscmp sg cmp p a b)
  | 12 => do
    let d ← fin? 64 f.a
    let a ← fin? 64 f.b
    let imm ← fin? 128 f.c
    some (.xld d a imm)
  | 13 => do
    let b ← fin? 64 f.a
    let a ← fin? 64 f.b
    let imm ← fin? 128 f.c
    some (.xst b a imm)
  | 14 => do
    let d ← fin? 64 f.a
    let k ← fin? 34 f.c
    let _ ← zero? f.b
    some (.xget d k)
  | _ => none

/-- Operations 0x060 to 0x06F. -/
def parse06 (f : Fields) : Nat → Option Instr
  | 0 => do
    let (op, p) ← decPlop? f.a
    let a ← fin? 8 f.b
    let b ← fin? 8 f.c
    some (.plop op p a b)
  | 1 => do
    let d ← fin? 128 f.a
    let p ← fin? 8 f.b
    let _ ← zero? f.c
    some (.ptov d p)
  | 2 => do
    let p ← fin? 8 f.a
    let a ← fin? 128 f.b
    let _ ← zero? f.c
    some (.vtop p a)
  | _ => none

/-- Operations 0x070 to 0x07F. -/
def parse07 (f : Fields) : Nat → Option Instr
  | 0 => do
    let d ← fin? 128 f.a
    let a ← fin? 128 f.b
    let b ← fin? 128 f.c
    some (.fadd d a b)
  | 1 => do
    let d ← fin? 128 f.a
    let a ← fin? 128 f.b
    let b ← fin? 128 f.c
    let md ← decFp? f.lit
    some (.faddM d a b md)
  | 2 => do
    let d ← fin? 128 f.a
    let a ← fin? 128 f.b
    let b ← fin? 128 f.c
    some (.fsub d a b)
  | 3 => do
    let d ← fin? 128 f.a
    let a ← fin? 128 f.b
    let b ← fin? 128 f.c
    let md ← decFp? f.lit
    some (.fsubM d a b md)
  | 4 => do
    let d ← fin? 128 f.a
    let a ← fin? 128 f.b
    let b ← fin? 128 f.c
    some (.fmul d a b)
  | 5 => do
    let d ← fin? 128 f.a
    let a ← fin? 128 f.b
    let b ← fin? 128 f.c
    let md ← decFp? f.lit
    some (.fmulM d a b md)
  | 6 => do
    let d ← fin? 128 f.a
    let a ← fin? 128 f.b
    let b ← fin? 128 f.c
    let md ← decFp? f.lit
    some (.ffma d a b md)
  | 8 => do
    let d ← fin? 128 f.a
    let a ← fin? 128 f.b
    let b ← fin? 128 f.c
    some (.fmin d a b)
  | 9 => do
    let d ← fin? 128 f.a
    let a ← fin? 128 f.b
    let b ← fin? 128 f.c
    some (.fmax d a b)
  | 10 => do
    let (cmp, p) ← decCmpF? f.a
    let a ← fin? 128 f.b
    let b ← fin? 128 f.c
    some (.fscmp cmp p a b)
  | 11 => do
    let d ← fin? 128 f.a
    let a ← fin? 128 f.b
    let _ ← zero? f.c
    some (.fclass d a)
  | 12 => do
    let d ← fin? 128 f.a
    let a ← fin? 128 f.b
    let cv ← decCvt? f.lit
    let _ ← zero? f.c
    some (.fcvt d a cv)
  | 13 => do
    let d ← fin? 128 f.a
    let a ← fin? 128 f.b
    let rm ← decFrnd? f.c
    some (.frnd d a rm)
  | _ => none

/-- Operations 0x080 to 0x08F. -/
def parse08 (f : Fields) : Nat → Option Instr
  | 0 => do
    let d ← fin? 128 f.a
    let a ← fin? 128 f.b
    let _ ← zero? f.c
    some (.frcp d a)
  | 1 => do
    let d ← fin? 128 f.a
    let a ← fin? 128 f.b
    let _ ← zero? f.c
    some (.frsq d a)
  | 2 => do
    let d ← fin? 128 f.a
    let a ← fin? 128 f.b
    let _ ← zero? f.c
    some (.fex2 d a)
  | 3 => do
    let d ← fin? 128 f.a
    let a ← fin? 128 f.b
    let _ ← zero? f.c
    some (.flg2 d a)
  | 4 => do
    let d ← fin? 128 f.a
    let a ← fin? 128 f.b
    let _ ← zero? f.c
    some (.fsin d a)
  | 5 => do
    let d ← fin? 128 f.a
    let a ← fin? 128 f.b
    let _ ← zero? f.c
    some (.fcos d a)
  | 8 => do
    let d ← fin? 128 f.a
    let a ← fin? 128 f.b
    let b ← fin? 64 (f.c % 64)
    let bf ← some (f.c / 64 == 1)
    some (.hadd2 d a bf b)
  | 9 => do
    let d ← fin? 128 f.a
    let a ← fin? 128 f.b
    let b ← fin? 128 f.c
    let md ← decFp? f.lit
    some (.hadd2M d a b md)
  | 10 => do
    let d ← fin? 128 f.a
    let a ← fin? 128 f.b
    let b ← fin? 64 (f.c % 64)
    let bf ← some (f.c / 64 == 1)
    some (.hmul2 d a bf b)
  | 11 => do
    let d ← fin? 128 f.a
    let a ← fin? 128 f.b
    let b ← fin? 128 f.c
    let md ← decFp? f.lit
    some (.hmul2M d a b md)
  | 12 => do
    let d ← fin? 128 f.a
    let a ← fin? 128 f.b
    let b ← fin? 128 f.c
    let md ← decFp? f.lit
    some (.hfma2 d a b md)
  | _ => none

/-- Operations 0x090 to 0x09F. -/
def parse09 (f : Fields) : Nat → Option Instr
  | 0 => do
    let w ← decVote? f.a f.b
    let _ ← zero? f.c
    some (.vote w)
  | 1 => do
    let w ← decVote? f.a f.b
    let m ← fin? 64 f.c
    some (.voteMask w m)
  | 2 => do
    let d ← fin? 64 f.a
    let a ← fin? 128 f.b
    let _ ← zero? (f.c % 8)
    let op ← RedOp.ofCode (f.c / 8)
    some (.sred d a op)
  | 3 => do
    let d ← fin? 64 f.a
    let a ← fin? 128 f.b
    let m ← fin? 8 (f.c % 8)
    let op ← RedOp.ofCode (f.c / 8)
    some (.sredMask d a op m)
  | 4 => do
    let d ← fin? 128 f.a
    let a ← fin? 128 f.b
    let _ ← zero? f.c
    some (.matchLanes d a)
  | 5 => do
    let d ← fin? 128 f.a
    let a ← fin? 128 f.b
    let m ← fin? 64 f.c
    some (.matchMask d a m)
  | 6 => do
    let d ← fin? 128 f.a
    let a ← fin? 128 f.b
    let _ ← zero? (f.c % 8)
    let op ← RedOp.ofCode (f.c / 8)
    some (.scan d a op)
  | 8 => do
    let d ← fin? 128 f.a
    let a ← fin? 128 f.b
    let b ← fin? 128 f.c
    some (.shfl d a b)
  | 9 => do
    let d ← fin? 128 f.a
    let a ← fin? 128 f.b
    let t ← fin? 16 f.c
    some (.shflp d a t)
  | 10 => do
    let t ← fin? 16 f.a
    let x ← fin? 64 f.b
    let _ ← zero? f.c
    some (.ptld t x)
  | _ => none

/-- Operations 0x0A0 to 0x0AF. -/
def parse0A (f : Fields) : Nat → Option Instr
  | 0 => do
    let d ← fin? 128 f.a
    let ad ← decAddr? f.b f.c
    some (.ldS d ad)
  | 1 => do
    let d ← fin? 128 f.a
    let l ← decLd? 1 f.b f.lit
    let _ ← zero? f.c
    some (.ldSFull d l)
  | 2 => do
    let d ← fin? 128 f.a
    let ad ← decAddr? f.b f.c
    some (.ldH d ad)
  | 3 => do
    let d ← fin? 128 f.a
    let l ← decLd? 1 f.b f.lit
    let _ ← zero? f.c
    some (.ldHFull d l)
  | 4 => do
    let v ← fin? 128 f.a
    let ad ← decAddr? f.b f.c
    some (.stS v ad)
  | 5 => do
    let v ← fin? 128 f.a
    let l ← decLd? 2 f.b f.lit
    let _ ← zero? f.c
    some (.stSFull v l)
  | 6 => do
    let v ← fin? 128 f.a
    let ad ← decAddr? f.b f.c
    some (.stH v ad)
  | 7 => do
    let v ← fin? 128 f.a
    let l ← decLd? 2 f.b f.lit
    let _ ← zero? f.c
    some (.stHFull v l)
  | 8 => do
    let d ← fin? 128 f.a
    let b ← fin? 128 f.b
    let c ← fin? 128 f.c
    let l ← decAtom? f.lit
    some (.atom d b c l)
  | 9 => do
    let b ← fin? 128 f.b
    let l ← decAtom? f.lit
    let _ ← zero? f.a
    let _ ← zero? f.c
    some (.red b l)
  | 10 => do
    let (scope, acq, rel) ← decFence? f.a
    let _ ← zero? f.b
    let _ ← zero? f.c
    some (.fence scope acq rel)
  | 11 => do
    let x ← fin? 64 f.a
    let _ ← zero? f.b
    let _ ← zero? f.c
    some (.cflush x)
  | 12 => do
    let x ← fin? 64 f.a
    let _ ← zero? f.b
    let _ ← zero? f.c
    some (.cinv x)
  | _ => none

/-- Operations 0x0B0 to 0x0BF. -/
def parse0B (f : Fields) : Nat → Option Instr
  | 0 => do
    let d ← fin? 128 f.a
    let l ← decPeer? f.lit
    let _ ← zero? f.b
    let _ ← zero? f.c
    some (.pld d l)
  | 1 => do
    let b ← fin? 128 f.b
    let l ← decPeer? f.lit
    let _ ← zero? f.a
    let _ ← zero? f.c
    some (.pst b l)
  | 2 => do
    let d ← fin? 128 f.a
    let b ← fin? 128 f.b
    let c ← fin? 128 f.c
    let l ← decPeer? f.lit
    some (.patom d b c l)
  | _ => none

/-- Operations 0x0C0 to 0x0CF. -/
def parse0C (f : Fields) : Nat → Option Instr
  | 0 => do
    let x ← fin? 64 f.a
    let g ← decGuard? f.b
    let _ ← zero? f.c
    some (.copy x g)
  | 1 => do
    let x ← fin? 64 f.a
    let g ← decGuard? f.b
    let b ← fin? 128 f.c
    some (.puts x g b)
  | 2 => do
    let x ← fin? 64 f.a
    let g ← decGuard? f.b
    let _ ← zero? f.c
    some (.tfetch x g)
  | 3 => do
    let x ← fin? 64 f.a
    let g ← decGuard? f.b
    let _ ← zero? f.c
    some (.tstore x g)
  | 4 => do
    let x ← fin? 64 f.a
    let g ← decGuard? f.b
    let _ ← zero? f.c
    some (.mcopy x g)
  | 5 => do
    let x ← fin? 64 f.a
    let g ← decGuard? f.b
    let _ ← zero? f.c
    some (.mfill x g)
  | 6 => do
    let x ← fin? 64 f.a
    let g ← decGuard? f.b
    let _ ← zero? f.c
    some (.mreduce x g)
  | 7 => do
    let x ← fin? 64 f.a
    let g ← decGuard? f.b
    let _ ← zero? f.c
    some (.coll x g)
  | 8 => do
    let a ← fin? 64 f.a
    let b ← fin? 64 f.b
    let _ ← zero? f.c
    some (.barinit a b)
  | 9 => do
    let a ← fin? 64 f.a
    let b ← fin? 64 f.b
    let _ ← zero? f.c
    some (.barexp a b)
  | 10 => do
    let sel ← decSel? f.a
    let _ ← zero? f.b
    let _ ← zero? f.c
    some (.bararr sel)
  | 11 => do
    let sel ← decSel? f.a
    let _ ← zero? f.b
    let _ ← zero? f.c
    some (.bardrop sel)
  | 12 => do
    let sel ← decSel? f.a
    let b ← fin? 64 f.b
    let _ ← zero? f.c
    some (.barwait sel b)
  | 13 => do
    let p ← fin? 8 f.a
    let sel ← decSel? f.b
    let x ← fin? 64 f.c
    some (.bartest p sel x)
  | 14 => do
    let c ← CClass.ofCode f.a
    let n ← fin? 64 f.b
    let _ ← zero? f.c
    some (.waitc c n)
  | _ => none

/-- Operations 0x0D0 to 0x0DF. -/
def parse0D (f : Fields) : Nat → Option Instr
  | 0 => do
    let g ← fin? 8 f.a
    let _ ← zero? f.b
    let _ ← zero? f.c
    some (.gresOpen g)
  | 1 => do
    let g ← fin? 8 f.a
    let x ← fin? 64 f.b
    let _ ← zero? f.c
    some (.gresX g x)
  | 2 => do
    let g ← fin? 8 f.a
    let p ← fin? 8 f.b
    let _ ← zero? f.c
    some (.gresAny g p)
  | 3 => do
    let g ← fin? 8 f.a
    let p ← fin? 8 f.b
    let _ ← zero? f.c
    some (.gresAll g p)
  | _ => none

/-- Operations 0x0E0 to 0x0EF. -/
def parse0E (f : Fields) : Nat → Option Instr
  | 0 => do
    let t ← fin? 16 f.a
    let a ← fin? 64 f.b
    let b ← fin? 64 f.c
    some (.tld t a b)
  | 1 => do
    let t ← fin? 16 f.a
    let a ← fin? 64 f.b
    let b ← fin? 64 f.c
    some (.tldZb t a b)
  | 2 => do
    let t ← fin? 16 f.a
    let m ← fin? 32 f.b
    let a ← fin? 64 f.c
    let b ← fin? 64 f.lit
    some (.tldSc t m a b)
  | 3 => do
    let t ← fin? 16 f.a
    let m ← fin? 32 f.b
    let a ← fin? 64 f.c
    let b ← fin? 64 f.lit
    some (.tldScZb t m a b)
  | 4 => do
    let x ← fin? 64 f.a
    let t ← fin? 16 f.b
    let _ ← zero? f.c
    some (.tstr x t)
  | 5 => do
    let t ← fin? 16 f.a
    let _ ← zero? f.b
    let _ ← zero? f.c
    some (.tzero t)
  | 6 => do
    let n ← fin? 16 f.a
    let m ← fin? 16 f.b
    let f ← Fmt.ofCode f.c
    some (.tcvt n m f)
  | 7 => do
    let n ← fin? 16 f.a
    let m ← fin? 16 f.b
    let f ← Fmt.ofCode f.c
    some (.tcvtZb n m f)
  | 8 => do
    let t ← fin? 16 (f.a % 16)
    let k ← fin? 8 (f.a / 16)
    let sx ← fin? 32 f.b
    let x ← fin? 64 f.c
    some (.tqntL6 t k sx x)
  | 9 => do
    let t ← fin? 16 (f.a % 16)
    let k ← fin? 8 (f.a / 16)
    let sx ← fin? 32 f.b
    let x ← fin? 64 f.c
    some (.tqntL6Zb t k sx x)
  | 10 => do
    let t ← fin? 16 (f.a % 16)
    let k ← fin? 8 (f.a / 16)
    let sx ← fin? 32 f.b
    let x ← fin? 64 f.c
    some (.tqntL8 t k sx x)
  | 11 => do
    let t ← fin? 16 (f.a % 16)
    let k ← fin? 8 (f.a / 16)
    let sx ← fin? 32 f.b
    let x ← fin? 64 f.c
    some (.tqntL8Zb t k sx x)
  | 12 => do
    let t ← fin? 16 (f.a % 16)
    let k ← fin? 8 (f.a / 16)
    let sx ← fin? 32 f.b
    let x ← fin? 64 f.c
    some (.tqntF8 t k sx x)
  | 13 => do
    let t ← fin? 16 (f.a % 16)
    let k ← fin? 8 (f.a / 16)
    let sx ← fin? 32 f.b
    let x ← fin? 64 f.c
    some (.tqntF8Zb t k sx x)
  | _ => none

/-- Operations 0x0F0 to 0x0FF. -/
def parse0F (f : Fields) : Nat → Option Instr
  | 0 => do
    let k ← some (f.k == 1)
    let d ← fin? 16 f.a
    let a ← fin? 128 f.b
    let t ← fin? 16 f.c
    some (.mma k d a t)
  | 1 => do
    let d ← fin? 16 f.a
    let a ← fin? 64 f.b
    let b ← fin? 64 f.c
    some (.mmx d a b)
  | 2 => do
    let d ← fin? 16 (f.a % 16)
    let g ← fin? 8 (f.a / 16)
    let a ← fin? 64 f.b
    let b ← fin? 64 f.c
    some (.mmxGuard d g a b)
  | 3 => do
    let d ← fin? 16 (f.a % 16)
    let g ← fin? 8 (f.a / 16)
    let a ← fin? 64 f.b
    let b ← fin? 64 f.c
    some (.mmxSpec d g a b)
  | 4 => do
    let d ← fin? 16 f.a
    let _ ← zero? f.b
    let _ ← zero? f.c
    some (.accz d)
  | 5 => do
    let d ← fin? 128 f.a
    let a ← fin? 16 f.b
    let _ ← zero? f.c
    some (.accrd d a)
  | 6 => do
    let d ← fin? 16 f.a
    let a ← fin? 128 f.b
    let _ ← zero? f.c
    some (.accwr d a)
  | 7 => do
    let d ← fin? 16 f.a
    let x ← fin? 64 f.b
    let imm ← fin? 128 f.c
    some (.accld d x imm)
  | 8 => do
    let d ← fin? 16 f.a
    let x ← fin? 64 f.b
    let imm ← fin? 128 f.c
    some (.accst d x imm)
  | _ => none

/-- Operations 0x100 to 0x10F. -/
def parse10 (f : Fields) : Nat → Option Instr
  | 0 => do
    let d ← fin? 32 f.a
    let x ← fin? 64 f.b
    let imm ← fin? 128 f.c
    some (.sld d x imm)
  | 1 => do
    let a ← fin? 32 f.a
    let x ← fin? 64 f.b
    let imm ← fin? 128 f.c
    some (.sst a x imm)
  | 2 => do
    let t ← fin? 16 f.a
    let m ← fin? 32 f.b
    let _ ← zero? f.c
    some (.sbindS t m)
  | 3 => do
    let t ← fin? 16 f.a
    let m ← fin? 64 f.b
    let _ ← zero? f.c
    some (.sbindX t m)
  | 4 => do
    let t ← fin? 16 f.a
    let _ ← zero? f.b
    let _ ← zero? f.c
    some (.sbindU t)
  | 5 => do
    let m ← fin? 32 f.a
    let _ ← zero? f.b
    let _ ← zero? f.c
    some (.srel m)
  | 6 => do
    let d ← fin? 64 f.a
    let t ← fin? 16 f.b
    let _ ← zero? f.c
    some (.sqry d t)
  | 8 => do
    let d ← fin? 32 f.a
    let a ← fin? 32 f.b
    let _ ← zero? f.c
    some (.smovS d a)
  | 9 => do
    let d ← fin? 32 f.a
    let a ← fin? 64 f.b
    let _ ← zero? f.c
    some (.smovX d a)
  | 10 => do
    let d ← fin? 32 f.a
    let a ← fin? 32 f.b
    let b ← fin? 32 f.c
    some (.smul d a b)
  | 11 => do
    let d ← fin? 32 f.a
    let a ← fin? 32 f.b
    let b ← fin? 32 f.c
    some (.smax d a b)
  | 12 => do
    let d ← fin? 32 f.a
    let a ← fin? 128 f.b
    let _ ← zero? f.c
    some (.scvtToS d a)
  | 13 => do
    let d ← fin? 128 f.a
    let a ← fin? 32 f.b
    let _ ← zero? f.c
    some (.scvtToV d a)
  | _ => none

/-- Operations 0x120 to 0x12F. -/
def parse12 (f : Fields) : Nat → Option Instr
  | 0 => do
    let p ← fin? 8 f.a
    let x ← fin? 64 f.b
    let _ ← zero? f.c
    some (.launch p x)
  | 1 => do
    let a ← fin? 64 f.b
    let b ← fin? 64 f.c
    let _ ← zero? f.a
    some (.taskarm a b)
  | 2 => do
    let a ← fin? 64 f.b
    let b ← fin? 64 f.c
    let _ ← zero? f.a
    some (.tasksig a b)
  | 3 => do
    let a ← fin? 64 f.b
    let _ ← zero? f.a
    let _ ← zero? f.c
    some (.taskretry a)
  | 4 => do
    let a ← fin? 64 f.b
    let _ ← zero? f.a
    let _ ← zero? f.c
    some (.taskabort a)
  | _ => none

/-- Operations 0x130 to 0x13F. -/
def parse13 (f : Fields) : Nat → Option Instr
  | 0 => do
    let d ← fin? 64 f.a
    let csr ← fin? 16384 (f.b * 128 + f.c)
    some (.csrr d csr)
  | 1 => do
    let a ← fin? 64 f.a
    let csr ← fin? 16384 (f.b * 128 + f.c)
    some (.csrw a csr)
  | 2 => do
    let x ← fin? 64 f.a
    let _ ← zero? f.b
    let _ ← zero? f.c
    some (.dtload x)
  | 3 => do
    let x ← fin? 64 f.a
    let _ ← zero? f.b
    let _ ← zero? f.c
    some (.tlbinv x)
  | 4 => do
    let a ← fin? 64 f.a
    let b ← fin? 64 f.b
    let _ ← zero? f.c
    some (.ctxst a b)
  | 5 => do
    let a ← fin? 64 f.a
    let b ← fin? 64 f.b
    let _ ← zero? f.c
    some (.ctxld a b)
  | 6 => do
    let x ← fin? 64 f.a
    let _ ← zero? f.b
    let _ ← zero? f.c
    some (.egmode x)
  | 7 => do
    let d ← fin? 64 f.a
    let x ← fin? 64 f.b
    let _ ← zero? f.c
    some (.evpop d x)
  | _ => none

/-- Read the operands of an operation. -/
def parseFields (f : Fields) : Option Instr :=
  match f.op / 16 with
  | 0x00 => parse00 f (f.op % 16)
  | 0x01 => parse01 f (f.op % 16)
  | 0x02 => parse02 f (f.op % 16)
  | 0x03 => parse03 f (f.op % 16)
  | 0x04 => parse04 f (f.op % 16)
  | 0x05 => parse05 f (f.op % 16)
  | 0x06 => parse06 f (f.op % 16)
  | 0x07 => parse07 f (f.op % 16)
  | 0x08 => parse08 f (f.op % 16)
  | 0x09 => parse09 f (f.op % 16)
  | 0x0A => parse0A f (f.op % 16)
  | 0x0B => parse0B f (f.op % 16)
  | 0x0C => parse0C f (f.op % 16)
  | 0x0D => parse0D f (f.op % 16)
  | 0x0E => parse0E f (f.op % 16)
  | 0x0F => parse0F f (f.op % 16)
  | 0x10 => parse10 f (f.op % 16)
  | 0x12 => parse12 f (f.op % 16)
  | 0x13 => parse13 f (f.op % 16)
  | _ => none

/-- The values that the base table maps (Table 13-6). -/
def baseMapped (op : Nat) : Bool :=
  match op / 16 with
  | 0x00 => [0, 1, 2, 3, 4, 5, 6, 7, 8, 9, 10, 11, 12, 13, 14].contains (op % 16)
  | 0x01 => [0, 1, 2, 3, 4].contains (op % 16)
  | 0x02 => [0, 1, 2, 3, 4, 5, 6, 7, 8, 9, 10, 11, 12, 13, 14, 15].contains (op % 16)
  | 0x03 => [0, 1, 2, 3, 4, 5, 6, 8, 9, 10, 11, 12, 13, 14].contains (op % 16)
  | 0x04 => [0, 1, 2, 3, 4, 5].contains (op % 16)
  | 0x05 => [0, 1, 2, 3, 4, 5, 6, 7, 8, 9, 10, 11, 12, 13, 14].contains (op % 16)
  | 0x06 => [0, 1, 2].contains (op % 16)
  | 0x07 => [0, 1, 2, 3, 4, 5, 6, 8, 9, 10, 11, 12, 13].contains (op % 16)
  | 0x08 => [0, 1, 2, 3, 4, 5, 8, 9, 10, 11, 12].contains (op % 16)
  | 0x09 => [0, 1, 2, 3, 4, 5, 6, 8, 9, 10].contains (op % 16)
  | 0x0A => [0, 1, 2, 3, 4, 5, 6, 7, 8, 9, 10, 11, 12].contains (op % 16)
  | 0x0B => [0, 1, 2].contains (op % 16)
  | 0x0C => [0, 1, 2, 3, 4, 5, 6, 7, 8, 9, 10, 11, 12, 13, 14].contains (op % 16)
  | 0x0D => [0, 1, 2, 3].contains (op % 16)
  | 0x0E => [0, 1, 2, 3, 4, 5, 6, 7, 8, 9, 10, 11, 12, 13].contains (op % 16)
  | 0x0F => [0, 1, 2, 3, 4, 5, 6, 7, 8].contains (op % 16)
  | 0x10 => [0, 1, 2, 3, 4, 5, 6, 8, 9, 10, 11, 12, 13].contains (op % 16)
  | 0x12 => [0, 1, 2, 3, 4].contains (op % 16)
  | 0x13 => [0, 1, 2, 3, 4, 5, 6, 7].contains (op % 16)
  | _ => false

/-- Why a word is not an instruction (R312). -/
inductive DecodeErr where
  | unimpl | illenc
  deriving DecidableEq, Repr

/-- Decode under an internal operation's base opcode: K is zero outside MMA (R71), every operand lies
in its range, every reserved bit is zero, and the instruction is well formed. -/
def decodeFields (f : Fields) : Except DecodeErr Instr :=
  if !baseMapped f.op then .error .unimpl
  else if f.op ≠ 0x0F0 && f.k ≠ 0 then .error .illenc
  else match parseFields f with
    | some i => if i.wf then .ok i else .error .illenc
    | none => .error .illenc

/-- Decode a word and the word after it, under the internal operation of base opcode `op`; the second
word counts only for form E (R298, R307). -/
def decodeAs (op w lit : Nat) : Except DecodeErr Instr :=
  decodeFields { Fields.ofWord w (if isFormE op then lit else 0) with op }

/-- Decode under the base table (R313). -/
def decode (w lit : Nat) : Except DecodeErr Instr := decodeAs (w / 0x400000 % 1024) w lit

/-- What the decoder reads from an instruction of `nbits` bits, numbered as the opcode table numbers
them: the instruction word first, then the literal. -/
def decodeTableWord (_nbits w : Nat) : Option Instr :=
  match decode (w % 2 ^ 32) (w / 2 ^ 32 % 2 ^ 32) with
  | .ok i => some i
  | .error _ => none

end Sys2Proof
end

