-- ==== Sys2Proof/Config.lean ====
section
/-!
DEFINITION. What the implementation fixes: the physical figures of the package (R4, R11 to R14), and
the free values, which the spec leaves open. A free value has no body, so nothing can be proved about
which value it is (log 6).
-/

namespace Sys2Proof.Config

/-- Cores of the package (R13). -/
def cores : Nat := 512
/-- Bytes of one core's shelf (R152). -/
def shelfBytes : Nat := 0x100000
/-- Bytes of harbour (R152). -/
def harbourBytes : Nat := 0x40000000
/-- Bytes of one L1 line (R159). -/
def lineBytes : Nat := 128
/-- Lines of one L1 (Table 1-2: 128 KiB). -/
def l1Lines : Nat := 1024
/-- Operations the matrix engine's queue holds (R138). -/
def matrixQueue : Nat := 16
/-- Shadow accumulators of a core (R147). -/
def shadows : Nat := 16
/-- Release records of a harbour slice (R202). -/
def releaseRecords : Nat := 128
/-- Group-barrier records a core holds (R362). -/
def groupBarriers : Nat := 1024
/-- Bytes a die may have outstanding: 32 MiB (R172). -/
def dieAllowance : Nat := 0x2000000
/-- Bytes of one collective chunk: 64 KiB (R278). -/
def chunkBytes : Nat := 0x10000
/-- Issue cycles a ready split waits before it is promoted (R57). -/
def promotionCycles : Nat := 768
/-- Clocks a cohort waits before its cores are reserved (R40). -/
def cohortWait : Nat := 100000
/-- Picoseconds of one microsecond. -/
def microsecond : Nat := 1000000

/-- Free value: the L1 line that leaves a full cache, as a position among its lines (R198, log 8). -/
opaque l1Victim : Nat → Nat
/-- Free value: the group that leaves a full instruction cache (R301, log 8). -/
opaque icacheVictim : Nat → Nat
/-- Free value: the entry that leaves a full TLB (R163, log 8). -/
opaque tlbVictim : Nat → Nat
/-- Free value: a byte of RECV in a chunk a failed COLL had not accepted (R280, log 6). -/
opaque recvByte : Nat → Byte
/-- Free value: whether an ECDSA P-384 signature over bytes verifies under a key (R286, R291 to R293,
log 9). Arguments: key, message, signature. -/
opaque verifies : List Byte → List Byte → List Byte → Bool
/-- Free value: an ECDSA P-384 signature by the package's identity key (R291, log 9). -/
opaque signature : Nat → List Byte → List Byte
/-- Free value: the package identity public key; it changes only on entry to RETIRED (R291, log 9). -/
opaque identityKey : Bool → List Byte
/-- Free value: a 48-byte nonce that the package sends in the auth phase (R270, log 9). -/
opaque nonce : Nat → List Byte
/-- Free value: SHA-384 of bytes (R286, R291, log 9). -/
opaque sha384 : List Byte → List Byte
/-- Free value: the key whose digest the boot ROM holds (R292, log 9). -/
opaque firmwareKey : List Byte
/-- Free value: the firmware image that the package comes with; its last 96 bytes are its signature (R292,
log 9). -/
opaque firmware : List Byte
/-- Free value: the key that signs configuration records (R293, log 9). -/
opaque configurationKey : List Byte
/-- Free value: the offset in configuration space of the vendor-specific extended capability (R294, log 45). -/
opaque vendorOffset : Nat
/-- Free value: the offset in configuration space of each record of the capability list; that of the first is
held in the vendor-specific extended capability (R294, log 45). -/
opaque capabilityOffset : Nat → Nat

end Sys2Proof.Config
end

