-- ==== Sys2Proof/Machine/Store.lean ====
section
/-!
DEFINITION. Finite maps from numbers to values, as lists in ascending key order: the one shape in
which the model keeps memory, register files, cores and strands. `write` keeps the canonical form of
a map that has a default value (no listed value equals it), and so do `clear`, `paste` and
`writeBytes`, which act on a whole range at once.
-/

namespace Sys2Proof.Machine

/-- A finite map by ascending keys. -/
abbrev Store (α : Type) := List (Nat × α)

variable {α : Type}

/-- The value listed at a key. -/
def Store.at? : Store α → Nat → Option α
  | [], _ => none
  | (j, v) :: m, k => if k < j then none else if k = j then some v else Store.at? m k

/-- The value at a key; an unlisted key reads as `d`. -/
def Store.read (d : α) (m : Store α) (k : Nat) : α := (m.at? k).getD d

/-- List `v` at `k`, in place of what was there. -/
def Store.put : Store α → Nat → α → Store α
  | [], k, v => [(k, v)]
  | (j, u) :: m, k, v =>
    if k < j then (k, v) :: (j, u) :: m
    else if k = j then (k, v) :: m
    else (j, u) :: Store.put m k v

/-- Unlist a key. -/
def Store.del : Store α → Nat → Store α
  | [], _ => []
  | (j, u) :: m, k =>
    if k < j then (j, u) :: m
    else if k = j then m
    else (j, u) :: Store.del m k

/-- Set the value at `k`, keeping out the default value `d`. -/
def Store.write [DecidableEq α] (d : α) (m : Store α) (k : Nat) (v : α) : Store α :=
  if v = d then m.del k else m.put k v

/-- Change the value at a key, if one is listed. -/
def Store.modify (m : Store α) (k : Nat) (f : α → α) : Store α :=
  m.map (fun e => if e.1 = k then (e.1, f e.2) else e)

/-- The part of a map with keys from `lo` up to, not including, `hi`. -/
def Store.range (m : Store α) (lo hi : Nat) : Store α :=
  m.filter (fun e => lo ≤ e.1 && e.1 < hi)

/-- A map without the keys from `lo` up to, not including, `hi`. -/
def Store.clear (m : Store α) (lo hi : Nat) : Store α :=
  m.filter (fun e => e.1 < lo || hi ≤ e.1)

/-- Set the `vs.length` values from key `k` upward, one after the other. -/
def Store.writes [DecidableEq α] (d : α) : Store α → Nat → List α → Store α
  | m, _, [] => m
  | m, k, v :: vs => Store.writes d (m.write d k v) (k + 1) vs

/-- The pairs of the values that differ from `d`, from key `k` upward. -/
def Store.listed [DecidableEq α] (d : α) : Nat → List α → Store α
  | _, [] => []
  | k, v :: vs => if v = d then Store.listed d (k + 1) vs else (k, v) :: Store.listed d (k + 1) vs

/-- Set the `vs.length` values from key `k` upward, all at once. -/
def Store.paste [DecidableEq α] (d : α) (m : Store α) (k : Nat) (vs : List α) : Store α :=
  m.range 0 k ++ (Store.listed d k vs ++ m.filter (fun e => k + vs.length ≤ e.1))

/-- The `n` values from key `k` upward, of a map that lists no key below `k`. -/
def Store.run (d : α) : Store α → Nat → Nat → List α
  | _, _, 0 => []
  | [], k, n + 1 => d :: Store.run d [] (k + 1) n
  | (j, v) :: m, k, n + 1 =>
    if j = k then v :: Store.run d m (k + 1) n else d :: Store.run d ((j, v) :: m) (k + 1) n

/-- The `n` values from key `k` upward. -/
def Store.slice (d : α) (m : Store α) (k n : Nat) : List α :=
  Store.run d (m.dropWhile (fun e => e.1 < k)) k n

/-- Keys strictly ascend. -/
def Store.sorted : Store α → Bool
  | [] => true
  | (k, _) :: m => m.all (fun e => k < e.1) && Store.sorted m

/-- No listed value is the default. -/
def Store.noDefault [DecidableEq α] (d : α) (m : Store α) : Bool := m.all (fun e => e.2 ≠ d)

/-- The canonical form: keys strictly ascend and no listed value is what an unlisted key reads as. -/
def Store.canonical [DecidableEq α] (d : α) (m : Store α) : Bool := m.sorted && m.noDefault d

/-- The little-endian bytes of a number (R3). -/
def bytesOf : Nat → Nat → List Byte
  | 0, _ => []
  | n + 1, v => BitVec.ofNat 8 v :: bytesOf n (v / 256)

/-- The number that little-endian bytes hold (R3). -/
def ofBytes : List Byte → Nat
  | [] => 0
  | b :: bs => b.toNat + 256 * ofBytes bs

/-- A memory of bytes: an unlisted byte reads as zero (log 2). -/
abbrev Mem := Store Byte

/-- One byte of a memory. -/
def Mem.byte (m : Mem) (a : Nat) : Byte := Store.read 0 m a

/-- The `n` bytes from an address. -/
def Mem.bytes (m : Mem) (a n : Nat) : List Byte := Store.slice 0 m a n

/-- The little-endian number in the `n` bytes from an address. -/
def Mem.load (m : Mem) (a n : Nat) : Nat := ofBytes (m.bytes a n)

/-- Put bytes at an address upward. -/
def Mem.putBytes (m : Mem) (a : Nat) (bs : List Byte) : Mem :=
  if bs.length ≤ 16 then Store.writes 0 m a bs else Store.paste 0 m a bs

/-- Put the low `n` bytes of a number at an address, little-endian. -/
def Mem.store (m : Mem) (a n v : Nat) : Mem := m.putBytes a (bytesOf n v)

/-- The canonical form of a memory. -/
def Mem.wf (m : Mem) : Bool := Store.canonical 0 m

/-! ## Order -/

/-- Put an item before the first one of a list that it may precede. -/
def insertBy (le : α → α → Bool) (a : α) : List α → List α
  | [] => [a]
  | b :: l => if le a b then a :: b :: l else b :: insertBy le a l

/-- A list in order; items that may precede each other stay as they are. -/
def sortBy (le : α → α → Bool) (l : List α) : List α := l.foldr (insertBy le) []

end Sys2Proof.Machine
end

