-- ==== Sys2Proof/Machine/State.lean ====
section
/-!
DEFINITION. The state of the package as plain data: every register, memory, queue and record the spec
gives it, from one split of one strand up to the links and the management core, then the fields that
are the model's own (the issuing split, the inputs, the counters of free values and of names), and
`State.reset`. An unlisted entry of a `Store` reads as the default value named beside it.
-/

namespace Sys2Proof.Machine

/-- The machine can stop for one reason. -/
inductive Fault where
  /-- Raised by `step` when the package is in P4 (R284): it is off and takes no step until RESET.
  Safe: the model stops where the hardware does nothing. -/
  | poweredOff
  deriving DecidableEq, Repr

/-- Why an instruction has no meaning. -/
inductive Refusal where
  /-- Raised by `exec` for an instruction whose meaning is not written. Safe: the model stops. -/
  | notModelled (mnemonic : String)
  deriving DecidableEq, Repr

/-! ## Traps -/

/-- Trap codes (Table 10-1). -/
inductive TrapCode where
  | hdrver | hdrtarget | unimpl | illenc | regrange | priv | illstate | member | splitovf | gangmismatch
  | gangexit | misalign | space | shelfrange | harbrange | undeclared | xlate | perm | scalestale
  | scaleexhaust | barovf | barover | taskovf | taskcfg | dtable | peertimeout | peerunreach | peerauth
  | peerstale | restorecap | brkpt | step | swtrap
  deriving DecidableEq, Repr

/-- Its number. -/
def TrapCode.num : TrapCode → Nat
  | .hdrver => 0x01 | .hdrtarget => 0x02 | .unimpl => 0x03 | .illenc => 0x04 | .regrange => 0x05
  | .priv => 0x06 | .illstate => 0x10 | .member => 0x11 | .splitovf => 0x12 | .gangmismatch => 0x13
  | .gangexit => 0x14 | .misalign => 0x20 | .space => 0x21 | .shelfrange => 0x22 | .harbrange => 0x23
  | .undeclared => 0x24 | .xlate => 0x25 | .perm => 0x26 | .scalestale => 0x30 | .scaleexhaust => 0x31
  | .barovf => 0x38 | .barover => 0x39 | .taskovf => 0x3A | .taskcfg => 0x3B | .dtable => 0x40
  | .peertimeout => 0x48 | .peerunreach => 0x49 | .peerauth => 0x4A | .peerstale => 0x4B
  | .restorecap => 0x50 | .brkpt => 0x58 | .step => 0x59 | .swtrap => 0x5A

/-- Kind T: the instruction has completed (R241). -/
def TrapCode.kindT : TrapCode → Bool
  | .step | .swtrap => true
  | _ => false

/-- Kind P: the lanes not reported were performed (R241). -/
def TrapCode.kindP : TrapCode → Bool
  | .peertimeout | .peerunreach | .peerauth | .peerstale => true
  | _ => false

/-- A trap with what its frame reports (Table 10-2). -/
structure Trap where
  code : TrapCode
  lanes : Mask := 0
  addr : Nat := 0
  d0 : Nat := 0
  d1 : Nat := 0
  deriving DecidableEq, Repr

/-! ## Strands -/

/-- A guard slot (R52). -/
inductive Guard where
  | isTrue | isFalse | unresolved
  deriving DecidableEq, Repr

/-- What a split in WAIT 2 waits for (R23). -/
inductive Stall where
  /-- not in WAIT 2 -/
  | none
  /-- BARWAIT on a shelf object: until its phase differs (R363) -/
  | barrier (off : Nat) (phase : Bool)
  /-- BARWAIT on a group barrier: keeping core, instance, phase (R362) -/
  | groupBarrier (core key : Nat) (phase : Bool)
  /-- until a counter is at most a number: WAITC, and a counter that stands at 63 (R181, R182) -/
  | counter (c : CClass) (n : Nat)
  /-- until no lock holds a physical vector register of a range (R72) -/
  | vregs (lo n : Nat)
  /-- until no matrix operation holds an accumulator as its target (R72, R139) -/
  | acc (a : Nat)
  /-- until no matrix operation holds a tile (R72) -/
  | tile (t : Nat)
  /-- until an allocation for a scale register no longer has to wait (R125) -/
  | scales (d : Nat)
  /-- until no matrix operation of the strand is incomplete and not stopped (R434) -/
  | matrix
  /-- until no MMA of the strand is incomplete (R380) -/
  | mma
  /-- until no MMX of the strand is incomplete (R143) -/
  | mmx
  /-- until the matrix engine's queue has room (R138) -/
  | queue
  /-- until the rendezvous latch lets the operation issue (R48) -/
  | latch
  /-- until a shadow accumulator is free for a gang's members (R147) -/
  | shadow
  /-- until a charge fits, by the place in the order of age (a name), die, task run, bytes, and the class
  and limits at issue (R173, R174) -/
  | allowance (ticket die run bytes limit scap : Nat) (high : Bool)
  /-- until requests to peers are answered or have failed (R210, R266) -/
  | peer (reqs : List Nat)
  /-- until the promotions of an acquire are acknowledged, by the acquire's name (R203) -/
  | promotion (ticket : Nat)
  /-- let through at a SYNCS, which it issues again to complete it (R30) -/
  | syncs
  deriving DecidableEq, Repr

/-- A split-table entry (Table 2-1), with what the scheduler keeps for it: the issue cycle of its
quadrant from which it counts as ready (R57, R304), whether it is promoted (R57), why it waits, and
whether comparators are inhibited on its next instruction (R288). -/
structure Split where
  valid : Bool := false
  wait : BitVec 2 := 0
  pc : PC := 0
  mask : Mask := 0
  fmt : Word := 0
  since : Nat := 0
  promoted : Bool := false
  stall : Stall := .none
  inhibit : Bool := false
  deriving DecidableEq, Repr

/-- A reconvergence stack entry (R27). -/
structure StackEntry where
  pc : PC
  mask : Mask
  fmt : Word
  deriving DecidableEq, Repr

/-- An instruction that an in-flight counter counts (R181), in issue order. -/
structure Flight where
  cls : CClass
  id : Nat
  done : Bool := false
  deriving DecidableEq, Repr

/-- A stream descriptor of MMX (Table 6-3). -/
structure Stream where
  data : Nat
  scale : Nat
  bar : Nat
  rbar : Nat
  slots : Nat
  first : Nat
  nstep : Nat
  flags : Nat
  image : List Byte
  deriving DecidableEq, Repr

/-- A trap that another member of a gang has brought on, to be taken at the next instruction: GANGEXIT
with the ended member's index (R50, R146), or GANGMISMATCH with the instruction word (R146). -/
inductive Due where
  | gangExit (index : Nat) | mismatch (word : Word)
  deriving DecidableEq, Repr

/-- The issuing split and its instruction, set by `step` before `exec` (log 4). -/
structure Cur where
  core : Nat := 0
  slot : Nat := 0
  entry : Nat := 0
  pc : PC := 0
  npc : PC := 0
  word : Word := 0
  lit : Word := 0
  hdr : Word := 0
  /-- the active lanes (R25) -/
  act : Mask := 0
  /-- the instruction has completed -/
  done : Bool := false
  /-- the number, plus 1, of the comparator whose BRKPT it took; 0 for none (R288) -/
  fired : Nat := 0
  /-- it has left splits outside their group under YG, so that what it leaves ready yields (R304) -/
  out : Bool := false
  deriving DecidableEq, Repr

/-- A peer access of a strand whose requests are not all closed, or whose trap is due (R264, R266). Its split has gone on
(log 20). -/
structure PeerWait where
  /-- the instruction as it issued, and whether in supervisor mode -/
  cur : Cur
  sup : Bool := false
  lanes : Mask
  flight : Nat
  reqs : List Nat
  /-- of a PLD or PATOM: the physical register that takes its value, and the bytes of a lane (R65, R441) -/
  dest : Option (Nat × Nat) := none
  /-- lanes that take what another lane's request returns: the lane, the other one (R193) -/
  share : List (Nat × Nat) := []
  /-- .ACQ and .REL (R194) -/
  acq : Bool := false
  rel : Bool := false
  /-- every request is closed, and lanes have failed: the trap is due -/
  failed : Bool := false
  deriving DecidableEq, Repr

/-- A trap into supervisor mode that waits for the strand's PLDs and PATOMs (R83, R242): the instruction, the trapping
split's MASK, the trap and NPC. -/
structure Entering where
  cur : Cur
  mask : Mask
  trap : Trap
  npc : PC
  deriving DecidableEq, Repr

/-- A strand in its slot. -/
structure Strand where
  /-- a name of the strand's life, so that a command can outlive it (the model's own) -/
  uid : Nat := 0
  part : Nat := 0
  /-- the run of the task it belongs to -/
  run : Nat := 0
  /-- the placed workgroup it belongs to -/
  wg : Nat := 0
  /-- strand index in the workgroup (sr.strand) -/
  index : Nat := 0
  /-- supervisor mode (R242) -/
  sup : Bool := false
  /-- split table: entries 0 to 3, an unlisted one is not valid (R23) -/
  splits : Store Split := []
  /-- reconvergence stack, top first (R27) -/
  stack : List StackEntry := []
  /-- lanes that have not exited (R29) -/
  live : Mask := 0xFFFFFFFF#32
  /-- vector registers: 32 × physical register + lane; zero (R63) -/
  vregs : Store Word := []
  /-- uniform registers; zero (R63) -/
  xregs : Store DWord := []
  /-- predicates P1 to P7; zero (R63). P0 is true (R61) -/
  preds : Store Mask := []
  /-- accumulators: 1,024 a + 32 i + j; zero (R63) -/
  accs : Store Word := []
  /-- accumulator count (R62) -/
  naccs : Nat := 0
  /-- scale registers: an unlisted one is unbound (R118) -/
  sregs : Store (BitVec 16) := []
  /-- FLG (R76) -/
  flg : BitVec 16 := 0
  /-- window base (R65) -/
  wb : Nat := 0
  /-- vector allotment (R64) -/
  allot : Nat := 0
  /-- held lane slices (R66) -/
  slices : BitVec 4 := 0xF#4
  /-- gang register (Table 2-6) -/
  gang : DWord := 0
  /-- GS0 to GS3: the group-table entry of a valid slot (R44) -/
  gslots : Store Nat := []
  /-- guard slots; TRUE (R52) -/
  guards : Store Guard := []
  /-- instructions in flight, oldest first (R181) -/
  flights : List Flight := []
  /-- keep latch: physical base and format of the A operand it holds (R71) -/
  keep : Option (Nat × Nat) := none
  /-- a trap to be taken at the next instruction -/
  due : Option Due := none
  /-- peer accesses in progress -/
  peers : List PeerWait := []
  /-- a trap that the strand is about to enter: none of its splits issues (the model's own, log 20) -/
  entering : Option Entering := none
  /-- whether the strand has executed TRET since its CTXLD of a strand image; none: no such CTXLD (R146, R383) -/
  restored : Option Bool := none
  /-- STCODE, STPC, STADDR, STDETAIL (Table 10-4) -/
  stcode : BitVec 16 := 0
  stpc : PC := 0
  staddr : DWord := 0
  stdetail : DWord := 0
  /-- DBGSTEP (Table 12-2) -/
  dbgstep : Bool := false
  deriving DecidableEq, Repr

/-! ## Cores -/

/-- Whether a physical scale entry is in the free list or allocated (R115); `leaving` is freed and
held out of the list by a lock (R121). -/
inductive EntryUse where
  | free | used | leaving
  deriving DecidableEq, Repr

/-- A physical scale entry (R115): 64 BF16 values (a missing one is zero), generation, count. -/
structure ScaleEntry where
  data : List (BitVec 16) := []
  gen : BitVec 6 := 0
  refs : Nat := 0
  use : EntryUse := .free
  deriving DecidableEq, Repr

/-- A tile register (Table 5-1). The default is the tile of a new workgroup (R63). -/
structure Tile where
  /-- byte 64 r + s; zero -/
  data : Store Byte := []
  efmt : Fmt := .l6
  rowv : BitVec 32 := 0xFFFFFFFF#32
  colv : BitVec 64 := 0xFFFFFFFFFFFFFFFF#64
  /-- zero bitmap words; zero -/
  zbm : Store Word := []
  zbv : Bool := false
  bound : Bool := false
  tag : BitVec 16 := 0
  geom : Word := 0
  deriving DecidableEq, Repr

/-- A workgroup placed on a core (R35 to R37). -/
structure Workgroup where
  id : Nat
  run : Nat
  /-- linear index in the task -/
  index : Nat
  nstr : Nat
  /-- strands that have not ended -/
  alive : Nat
  shelfBase : Nat
  shelfBytes : Nat
  ntiles : Nat
  naccs : Nat
  vregs : Nat
  /-- position in the cohort rectangle and the cohort's cores by position -/
  pos : Nat
  cohort : List Nat
  tiles : Store Tile
  /-- the pool of scale entries and its free list, head first (R116) -/
  pool : List Nat
  free : List Nat
  /-- permutation patterns loaded by PTLD (R445) -/
  patterns : Store (List Byte)
  /-- saved tag to fresh tag of a restore in progress (R381) -/
  restore : List (Nat × Nat)
  deriving DecidableEq, Repr

/-- A group barrier kept by a core (R362). -/
structure GroupBarrier where
  key : Nat
  run : Nat
  /-- group-table entry, and the workgroup of an EACH instance -/
  entry : Nat
  wg : Nat
  each : Bool
  spans : Bool
  phase : Bool
  exp : Nat
  cnt : Nat
  drop : Nat
  deriving DecidableEq, Repr

/-- One member of a matrix operation (R48, R136). -/
structure MatMember where
  slot : Nat
  uid : Nat
  flight : Nat
  acc : Nat
  /-- active lanes at issue -/
  mask : Mask
  fmt : Word
  /-- A of an MMA: 32 × register + lane -/
  a : Store Word
  /-- first physical register that supplies A -/
  abase : Nat
  /-- slices that the strand held at issue (R67) -/
  slices : BitVec 4 := 0xF#4
  /-- A scales of an MMA, and the entry they lie in -/
  sa : List (BitVec 16)
  sentry : Option Nat
  /-- A stream of an MMX -/
  stream : Option Stream
  /-- guard slot of an MMX -/
  guard : Option Nat
  /-- shadow that takes the steps (R55) -/
  shadow : Option Nat
  /-- discarded: it runs no further step (R147) -/
  gone : Bool
  /-- flags of its steps, for FLG (R434) -/
  flg : BitVec 16
  deriving DecidableEq, Repr

/-- An operation in the matrix engine's queue, oldest first (R138). -/
structure MatOp where
  id : Nat
  run : Nat
  /-- PC of the instruction, for the trace (R290) -/
  pc : PC := 0
  mmx : Bool
  spec : Bool
  word : Word
  gang : DWord
  members : List MatMember
  /-- workgroup, tile and locked scale entry of B of an MMA, with what was read at issue -/
  wg : Nat
  btile : Option (Nat × Tile)
  bentry : Option Nat
  sb : List (BitVec 16)
  bstream : Option Stream
  /-- steps or rounds completed, of how many -/
  step : Nat
  nstep : Nat
  /-- held on an unresolved guard, not yet started (R53) -/
  held : Bool
  /-- stopped at a round boundary (R145) -/
  stopped : Bool
  /-- strands, by name, whose CTXST keeps it stopped (R380) -/
  holders : List Nat
  /-- installed by CTXLD: whether its strand has executed TRET since (R383) -/
  joining : Option Bool
  /-- its last step is done or it was ended; it awaits completion -/
  finished : Bool
  deriving DecidableEq, Repr

/-- A rendezvous latch (R48, R49): the operation it holds, who waits, and after a mismatch the strands
that have still to take the trap. -/
structure Latch where
  wg : Nat
  word : Word
  fields : Nat
  gang : DWord
  bkey : List Nat
  /-- the waiting members, each with its instruction as it entered -/
  waiting : List Cur
  /-- strand indices that have still to take GANGMISMATCH, with the word the latch held -/
  mismatch : Option (List Nat)
  deriving DecidableEq, Repr

/-- A line of an L1: 128 bytes and the dirty-byte mask (R199). -/
structure Line where
  data : List Byte
  dirty : BitVec 128
  deriving DecidableEq, Repr

/-- A cached far translation: partition, page base, page size, leaf entry (R163). -/
structure TlbEntry where
  part : Nat
  base : Nat
  size : Nat
  leaf : DWord
  deriving DecidableEq, Repr

/-- What a context exchange swaps (Table 1-3). -/
structure Context where
  /-- strands by slot; an unlisted slot is free -/
  strands : Store Strand := []
  wgs : List Workgroup := []
  /-- shelf bytes; zero (log 2) -/
  shelf : Mem := []
  /-- physical scale entries; free, generation 0 (log 3) -/
  scales : Store ScaleEntry := []
  gbars : List GroupBarrier := []
  queue : List MatOp := []
  latches : List Latch := []
  /-- shadow accumulators in use, and their elements: 1,024 n + 32 i + j -/
  shadowsUsed : List Nat := []
  shadows : Store Word := []
  deriving DecidableEq, Repr

/-- A core. -/
structure Core where
  ctx : Context := {}
  /-- the context shadow (R15) -/
  parked : Context := {}
  /-- L1 by line number (address / 128) -/
  l1 : Store Line := []
  /-- instruction cache: groups of eight words by address / 32 -/
  icache : Store (List Word) := []
  tlb : List TlbEntry := []
  /-- CERR (Table 10-4) -/
  sramuc : Nat := 0
  drops : Nat := 0
  overarr : Nat := 0
  late : Nat := 0
  /-- issue cycles of each quadrant -/
  cycles : Store Nat := []
  deriving DecidableEq, Repr

/-! ## Partitions -/

/-- PSTAT (Table 10-4). -/
inductive PStat where
  | running | halting | halted | parked
  deriving DecidableEq, Repr

/-- Power states of a partition (R284). -/
inductive Power where
  | p0 | p1 | p2
  deriving DecidableEq, Repr

/-- An arrival or landing held for a halted partition (R254). -/
inductive HeldEvent where
  /-- bytes acknowledged for a module command -/
  | ack (cmd unit : Nat) (dropped : Bool)
  /-- a collective operation completed, with its status -/
  | coll (cmd status : Nat)
  /-- a change ended: core, barrier offset, status -/
  | change (core bar request status : Nat)
  deriving DecidableEq, Repr

/-- A partition and its registers. -/
structure Partition where
  halves : BitVec 16 := 0
  depth : Nat := 16
  pstat : PStat := .running
  /-- a resume requested while halting or halted (R256) -/
  resume : Bool := false
  power : Power := .p0
  /-- P0 was left for P1 by the power budget (R16) -/
  budgeted : Bool := false
  /-- a power state that waits: P2 (R285) -/
  wantP2 : Bool := false
  debugLevel : DebugLevel := .none
  debugHalt : Bool := false
  tvec : DWord := 0
  svec : DWord := 0
  evbase : DWord := 0
  evsize : DWord := 4
  evhead : DWord := 0
  evtail : DWord := 0
  evlost : DWord := 0
  hwbase : DWord := 0
  hwlimit : DWord := 0
  fptroot : DWord := 0
  fetchctl : DWord := 0
  fetchto : DWord := 1000
  memerr : DWord := 0
  /-- DBGCTL and DBGADDR; zero -/
  dbgctl : Store DWord := []
  dbgaddr : Store DWord := []
  trbase : DWord := 0
  trsize : DWord := 7
  trhead : DWord := 0
  trtail : DWord := 0
  trctl : DWord := 0
  trlost : DWord := 0
  /-- PMSEL and PMC; zero -/
  pmsel : Store DWord := []
  pmc : Store DWord := []
  /-- the loaded decode table: 1,024 IOPs; none is the base table (R309) -/
  table : Option (List Nat) := none
  /-- what the window managers of the dies and the collective engine hold, in one list in order of arrival (R256, log 79) -/
  held : List HeldEvent := []
  /-- core clocks that it has run: the measure of a bound stated in clocks (R16) -/
  clocks : Nat := 0
  deriving DecidableEq, Repr

/-! ## Engines -/

/-- Which engine queue a command stands in (R53). -/
inductive CmdKind where
  | copy | puts | tfetch | tstore | mcopy | mfill | mreduce | coll
  deriving DecidableEq, Repr

/-- A page that a probe translated (R164): virtual base, size, module, module address. -/
structure Page where
  base : Nat
  size : Nat
  module : Nat
  maddr : Nat
  deriving DecidableEq, Repr

/-- A transfer unit of at most 4 KiB (R176), by its place among the command's bytes. -/
structure CmdUnit where
  off : Nat
  len : Nat
  /-- dispatched at this time (picoseconds) -/
  sent : Option Nat := none
  landed : Bool := false
  /-- its acknowledgement is held for a halted partition (R254) -/
  acked : Bool := false
  deriving DecidableEq, Repr

/-- Where a command stands: waiting for its guard or for commands ahead; waiting for admission;
waiting for the release phase; at work. -/
inductive CmdPhase where
  | held | admission | release | active
  deriving DecidableEq, Repr

/-- An engine command (R53, R166, R183, R374, R448). -/
structure Cmd where
  id : Nat
  kind : CmdKind
  part : Nat
  core : Nat
  slot : Nat
  uid : Nat
  run : Nat
  flight : Nat
  guard : Option Nat
  phase : CmdPhase
  /-- the descriptor as copied at issue -/
  desc : List Byte
  /-- operands beside the descriptor: of PUTS the uniform operand and one word per active lane -/
  args : List Nat
  words : List (Nat × Nat)
  /-- target core of COPY and PUTS, barrier's core and offset -/
  bcore : Nat
  bar : Option Nat
  pages : List Page
  units : List CmdUnit
  /-- bytes still charged (R173), and the limits at issue (R174) -/
  charge : Nat
  limit : Nat
  scap : Nat
  high : Bool
  /-- frozen by a halt (R253) -/
  frozen : Bool
  deriving DecidableEq, Repr

/-! ## Tasks -/

/-- A group-table entry (Table 2-5). -/
structure GroupEntry where
  each : Bool
  first : Nat
  count : Nat
  smask : Nat
  deriving DecidableEq, Repr

/-- Where a run stands in the dispatcher's hands. -/
inductive RunPhase where
  | ready | running | edge | faulted
  deriving DecidableEq, Repr

/-- A task from the moment it becomes READY (R217): snapshot, group table, placement and edge cursor. -/
structure TaskRun where
  id : Nat
  part : Nat
  graph : Nat
  tcb : Nat
  index : Nat
  /-- the 256 bytes of the snapshot -/
  snap : List Byte
  groups : List GroupEntry
  rclk : Nat
  phase : RunPhase
  preempted : Bool
  /-- workgroups placed -/
  placed : Nat
  /-- core that took the previous workgroup, die of the previous cohort (R36, R39) -/
  last : Option Nat
  lastDie : Option Nat
  /-- since when a cohort has waited, in clocks of its partition; the cores kept for it (R40) -/
  waiting : Option Nat
  reserved : List Nat
  /-- cores that ran a workgroup of the task (R229) -/
  cores : List Nat
  /-- strands that have not ended -/
  alive : Nat
  /-- EDGE cursor (Table 9-4) -/
  stage : Nat
  region : Nat
  line : Nat
  nexts : Nat
  /-- sr.clock of the run's latest batch of decrements (R337) -/
  stepped : Option Nat := none
  /-- ended by TASKABORT (R236) -/
  aborted : Bool
  deriving DecidableEq, Repr

/-- A running graph (R220, R222). -/
structure Graph where
  addr : Nat
  part : Nat
  tcbs : Nat
  ntcb : Nat
  deriving DecidableEq, Repr

/-! ## Harbour slices -/

/-- A release record of a slice, youngest first in its list (R202). -/
structure ReleaseRecord where
  line : Nat
  core : Nat
  deriving DecidableEq, Repr

/-- A release notice on its way (R201, R204). -/
structure Notice where
  core : Nat
  line : Nat
  deriving DecidableEq, Repr

/-- A promotion request: the line and core it asks about, whether the core has written back its L1,
whether the slice has the acknowledgement, and what waits for it: an acquire, by name and core, or a notice that
needs a record (R202, R203). -/
structure Promotion where
  id : Nat
  slice : Nat
  line : Nat
  core : Nat
  wrote : Bool
  acked : Bool
  ticket : Option Nat
  asker : Nat := 0
  notice : Option Notice
  deriving DecidableEq, Repr

/-! ## Links -/

/-- A change of personality in progress (R269 to R274). -/
structure Change where
  /-- issuing partition, core, barrier offset and request offset; none for a loss of lock (R273) -/
  issuer : Option (Nat × Nat × Nat × Nat)
  /-- the group it was asked for; a bonded pair shares the change -/
  lead : Nat
  pers : Nat
  bond : Bool
  commit : Bool
  newver : BitVec 16
  /-- when its present phase began, and when the change did -/
  start : Nat
  began : Nat
  /-- the nonce that this package has sent in the auth phase, as the argument of a free value (R270) -/
  nonce : Nat := 0
  deriving DecidableEq, Repr

/-- An edge group (Table 11-2, EGSTAT). -/
structure EdgeGroup where
  ver : BitVec 16 := 0
  quar : Bool := false
  up : Bool := false
  bond : Bool := false
  phase : Nat := 5
  pers : Nat := 3
  change : Option Change := none
  deriving DecidableEq, Repr

/-- What has become of a peer request. -/
inductive ReqState where
  | queued | sent | accepted | stale | answered (data : List Byte) | failed (status : Nat)
  deriving DecidableEq, Repr

/-- A peer request of this package (R264 to R267), in issue order. It has a tag and a group once it is
admitted; `waited` is the time counted toward PEERTO up to `since`, and `since` is none while a change
holds the request. -/
structure Request where
  id : Nat
  part : Nat
  core : Nat
  uid : Nat
  /-- the run of the strand -/
  run : Nat := 0
  node : Nat
  addr : Nat
  op : PeerOp
  lanes : List Nat
  tag : Option Nat := none
  gen : BitVec 4 := 0
  ver : BitVec 8 := 0
  group : Option Nat := none
  state : ReqState := .queued
  waited : Nat := 0
  since : Option Nat := none
  deriving DecidableEq, Repr

/-- A reply that the target keeps (R266). -/
structure Replay where
  node : Nat
  tag : BitVec 8
  gen : BitVec 4
  status : Nat
  data : List Byte
  time : Nat
  deriving DecidableEq, Repr

/-- A chunk that a collective operation sends (R278, R279). `waited` and `since` count toward PEERTO as
those of a request do, from the first admission or from when no group would carry it. -/
structure Chunk where
  idx : Nat
  data : List Byte
  /-- on its way, on which group, and accepted by the ring successor -/
  sent : Bool := false
  group : Nat := 0
  accepted : Bool := false
  ver : BitVec 8 := 0
  /-- some group has carried it -/
  carried : Bool := false
  counting : Bool := false
  waited : Nat := 0
  since : Option Nat := none
  /-- its latest refusal was a stale NACK, or one for its key; a resend waits for a commit, or for a time -/
  stale : Bool := false
  refused : Bool := false
  awaitsCommit : Bool := false
  resend : Option Nat := none
  deriving DecidableEq, Repr

/-- A communicator record as copied at issue (Table 11-7). -/
structure Communicator where
  high : Bool
  nrank : Nat
  rank : Nat
  nodes : List Nat
  deriving DecidableEq, Repr

/-- A collective operation in posting order on its communicator (R275 to R280). -/
structure CollOp where
  cmd : Nat
  comm : Nat
  seq : BitVec 16
  ring : Communicator
  /-- the bytes of SEND, read when the operation's turn comes; none before that -/
  send : Option (List Byte) := none
  /-- bytes of this rank's final block so far, in DTYPE -/
  final : List Byte := []
  /-- chunks received and applied, chunks made for sending -/
  received : Nat := 0
  chunks : List Chunk := []
  status : Nat := 0
  deriving DecidableEq, Repr

/-- One communicator's channel: the next sequence number, receive buffers, credits (R278, R346). -/
structure Channel where
  seq : BitVec 16 := 0
  /-- chunks accepted and not yet consumed, with the operation's number and the chunk's index -/
  bufs : List (Nat × Nat × List Byte) := []
  credits : Nat := 2
  /-- drained buffers whose credit has not been returned -/
  owed : Nat := 0
  deriving DecidableEq, Repr

/-- An optical port (R19, R185): wavelengths lost, the wavelength a spare serves, spares that warm,
down to retrain since. -/
structure Port where
  lost : BitVec 16 := 0
  spares : Store Nat := []
  warming : List Nat := []
  aged : BitVec 16 := 0
  down : Option Nat := none
  deriving DecidableEq, Repr

/-! ## Management core -/

/-- What the management core keeps (R282 to R295). -/
structure Management where
  lifecycle : Lifecycle := .open
  nextLifecycle : Option Lifecycle := none
  /-- the firmware image, and whether the mailbox waits for another (R292) -/
  firmware : List Byte := Config.firmware
  mailbox : Bool := false
  /-- applied records, and records that wait (R293) -/
  applied : List ConfigRecord := []
  waiting : List ConfigRecord := []
  peers : List (List Byte) := []
  authorities : List (List Byte) := []
  /-- package states of R284 -/
  p3 : Bool := false
  wantP3 : Bool := false
  p4 : Bool := false
  /-- core clock in P0, MHz (R16), and whether 2.0 GHz fits the budget -/
  mhz : Nat := 2000
  fits : Bool := true
  /-- the far aperture of the host: partition, base in its far space, size (R259) -/
  aperture : Option (Nat × Nat × Nat) := none
  /-- the two BARs and the 64 MSI-X vectors of the CXL function; zero (R259) -/
  bars : Store DWord := []
  msix : Store (BitVec 128) := []
  /-- events reported to the management core alone (R247): code, core, port, details -/
  events : List (Nat × Nat × Nat × Nat × Nat) := []
  /-- what was last handed to the host: a report, a read's bytes, a refusal (log 5) -/
  reply : List Byte := []
  deriving DecidableEq, Repr

/-! ## The package -/

/-- What the host reads and writes through CXL.io beside the capability list: the identity's public key, a BAR, an MSI-X
vector (R259, R291). -/
inductive ConfigAccess where
  | key
  | readBar (i : Fin 2)
  | writeBar (i : Fin 2) (v : DWord)
  | readVector (n : Fin 64)
  | writeVector (n : Fin 64) (v : BitVec 128)
  deriving DecidableEq, Repr

/-- What happens next, where the spec leaves open who acts next or what comes from outside (log 5). -/
inductive Input where
  /-- an issue cycle of a quadrant of a core (R57) -/
  | cycle (core : Fin 512) (quad : Fin 4)
  /-- a device step -/
  | event (i : Instr)
  /-- a graph is launched for a partition by software outside the model (log 1) -/
  | launch (part : Fin 16) (graph : Nat)
  /-- the L1 of a core writes back a line and gives it up for capacity (R198) -/
  | evict (core : Fin 512) (line : Nat)
  /-- an uncorrectable word: storage, core, address (R151, R187, R301) -/
  | uncorrectable (storage : Fin 10) (core : Fin 512) (addr : Nat)
  /-- the host reads configuration space at an offset of the capability list (R294) -/
  | capability (offset : Nat)
  /-- the host uses the rest of the CXL function -/
  | config (c : ConfigAccess)
  /-- the management core chooses the far aperture: partition, base, size (R259) -/
  | aperture (part : Fin 16) (base size : Nat)
  deriving DecidableEq, Repr

/-- The state of the package. -/
structure State where
  /-- sr.clock, and device time in picoseconds -/
  clock : Nat
  time : Nat
  harbour : Mem
  /-- far memory: 2^41 × module + module address -/
  far : Mem
  /-- cores by global id; the default is a core at reset -/
  cores : Store Core
  /-- partitions by number; the default has no half-die -/
  parts : Store Partition
  /-- CTLBASE of each half-die; zero -/
  ctlbase : Store DWord
  /-- last-level TLB of each die; empty -/
  dieTlb : Store (List TlbEntry)
  /-- release records of each slice; empty -/
  records : Store (List ReleaseRecord)
  notices : List Notice
  promotions : List Promotion
  cmds : List Cmd
  graphs : List Graph
  runs : List TaskRun
  /-- TCBs that a TASKSIG or a decrement has reached in the present clock (R226) -/
  batch : List Nat
  /-- STATE at the start of the present clock of the TCBs whose STATE has changed in it (R225, R226) -/
  opened : Store Nat
  /-- quadrants that have had their issue cycle in the present clock: 4 × core + quadrant (R57, R289) -/
  issued : List Nat
  linkOwner : Option Nat
  nodeId : BitVec 12
  topover : BitVec 16
  routes : Store DWord
  routesNext : Store DWord
  rtidx : BitVec 12
  peerto : BitVec 32
  peerwin : DWord
  uetkey : BitVec 32
  commbase : DWord
  groups : Store EdgeGroup
  requests : List Request
  /-- generation of each tag, and the core that used it last; zero -/
  tagGen : Store (BitVec 4)
  tagCore : Store Nat
  /-- the group that a node's traffic uses: 2 × node, plus 1 for collective traffic (R262) -/
  routed : Store Nat
  /-- the group that a node's traffic used until a commit, until it is admitted again; keys as above (R262) -/
  leaving : Store Nat
  replays : List Replay
  colls : List CollOp
  channels : Store Channel
  /-- round-robin pointer of each link and priority: 2 × node + priority; 63 -/
  turns : Store Nat
  ports : Store Port
  mgmt : Management
  /-- what was last sent to another node: a reply, an acknowledgement or a NACK (log 5) -/
  wire : List Byte
  /-- the model's own fields -/
  cur : Cur
  inputs : List Input
  cursor : Nat
  free : Nat
  nextId : Nat
  deriving DecidableEq, Repr

/-- The state right after bring-up (R295): every register at its reset value, no partition assigned, no
graph running, nothing in memory (logs 1 to 3). -/
def State.reset : State where
  clock := 0
  time := 0
  harbour := []
  far := []
  cores := []
  parts := []
  ctlbase := []
  dieTlb := []
  records := []
  notices := []
  promotions := []
  cmds := []
  graphs := []
  runs := []
  batch := []
  opened := []
  issued := []
  linkOwner := none
  nodeId := 0
  topover := 0
  routes := []
  routesNext := []
  rtidx := 0
  peerto := 1000
  peerwin := 0
  uetkey := 0
  commbase := 0
  groups := []
  requests := []
  tagGen := []
  tagCore := []
  routed := []
  leaving := []
  replays := []
  colls := []
  channels := []
  turns := []
  ports := []
  mgmt := {}
  wire := []
  cur := {}
  inputs := []
  cursor := 0
  free := 0
  nextId := 0

end Sys2Proof.Machine
end

