-- ==== Sys2Proof/Machine/Access.lean ====
section
/-!
DEFINITION. Reaching into the state: cores, strands, splits, partitions; names and free values; event
counters, events and trace records, which many steps post.
-/

namespace Sys2Proof.Machine

/-! ## Cores, strands, partitions -/

/-- A core by global id. -/
def State.core (s : State) (c : Nat) : Core := s.cores.read {} c
/-- Change a core. -/
def State.modCore (s : State) (c : Nat) (f : Core → Core) : State :=
  { s with cores := s.cores.put c (f (s.core c)) }
/-- The context on a core. -/
def State.ctx (s : State) (c : Nat) : Context := (s.core c).ctx
/-- Change the context on a core. -/
def State.modCtx (s : State) (c : Nat) (f : Context → Context) : State :=
  s.modCore c fun k => { k with ctx := f k.ctx }
/-- The strand in a slot, if the slot is in use. -/
def State.strand? (s : State) (c slot : Nat) : Option Strand := (s.ctx c).strands.at? slot
/-- The strand in a slot; a free slot reads as a strand with nothing set. -/
def State.strand (s : State) (c slot : Nat) : Strand := (s.strand? c slot).getD {}
/-- Change the strand in a slot; a free slot stays free. -/
def State.modStrand (s : State) (c slot : Nat) (f : Strand → Strand) : State :=
  s.modCtx c fun x => { x with strands := Store.modify x.strands slot f }
/-- The issuing strand. -/
def State.me (s : State) : Strand := s.strand s.cur.core s.cur.slot
/-- Change the issuing strand. -/
def State.modMe (s : State) (f : Strand → Strand) : State := s.modStrand s.cur.core s.cur.slot f
/-- A partition. -/
def State.part (s : State) (p : Nat) : Partition := s.parts.read {} p
/-- Change a partition. -/
def State.modPart (s : State) (p : Nat) (f : Partition → Partition) : State :=
  { s with parts := s.parts.put p (f (s.part p)) }
/-- The shelf of a core. -/
def State.shelf (s : State) (c : Nat) : Mem := (s.ctx c).shelf
/-- Change the shelf of a core. -/
def State.modShelf (s : State) (c : Nat) (f : Mem → Mem) : State :=
  s.modCtx c fun x => { x with shelf := f x.shelf }
/-- An edge group. -/
def State.group (s : State) (g : Nat) : EdgeGroup := s.groups.read {} g
/-- Change an edge group. -/
def State.modGroup (s : State) (g : Nat) (f : EdgeGroup → EdgeGroup) : State :=
  { s with groups := s.groups.put g (f (s.group g)) }
/-- A communicator's channel. -/
def State.channel (s : State) (c : Nat) : Channel := s.channels.read {} c
/-- Change a communicator's channel. -/
def State.modChannel (s : State) (c : Nat) (f : Channel → Channel) : State :=
  { s with channels := s.channels.put c (f (s.channel c)) }
/-- Change the management core's records. -/
def State.modMgmt (s : State) (f : Management → Management) : State := { s with mgmt := f s.mgmt }

/-- The slot of a strand by its name, on a core. -/
def State.slotOf (s : State) (c uid : Nat) : Option Nat :=
  ((s.ctx c).strands.find? (fun e => e.2.uid == uid)).map (·.1)
/-- Change a strand by its name, wherever its slot. -/
def State.modUid (s : State) (c uid : Nat) (f : Strand → Strand) : State :=
  match s.slotOf c uid with
  | some slot => s.modStrand c slot f
  | none => s

/-- The die of a core (R13). -/
def dieOf (core : Nat) : Nat := core / 64
/-- The half-die of a core (R249). -/
def halfOf (core : Nat) : Nat := core / 32
/-- A core belongs to a partition (R249). -/
def Partition.hasCore (p : Partition) (core : Nat) : Bool := p.halves.getLsbD (halfOf core)
/-- The cores of a partition, ascending (R249). -/
def Partition.cores (p : Partition) : List Nat := (List.range 512).filter p.hasCore
/-- The partition of a core, if it has one. -/
def State.partOf? (s : State) (core : Nat) : Option Nat :=
  (s.parts.find? (fun e => e.2.hasCore core)).map (·.1)

/-- A new name, never given before. -/
def State.fresh (s : State) : Nat × State := (s.nextId, { s with nextId := s.nextId + 1 })
/-- A new argument for a free value (log 6). -/
def State.draw (s : State) : Nat × State := (s.free, { s with free := s.free + 1 })

/-! ## Workgroups, runs, graphs, commands -/

/-- A placed workgroup of a core, by its name. -/
def Context.wg? (x : Context) (id : Nat) : Option Workgroup := x.wgs.find? (·.id == id)
/-- Change a placed workgroup. -/
def State.modWg (s : State) (c id : Nat) (f : Workgroup → Workgroup) : State :=
  s.modCtx c fun x => { x with wgs := x.wgs.map fun w => if w.id = id then f w else w }
/-- A workgroup with nothing in it: what an absent name reads as. -/
def Workgroup.absent : Workgroup :=
  { id := 0, run := 0, index := 0, nstr := 0, alive := 0, shelfBase := 0, shelfBytes := 0, ntiles := 0
    naccs := 0, vregs := 0, pos := 0, cohort := [], tiles := [], pool := [], free := [], patterns := []
    restore := [] }
/-- The workgroup of a strand. -/
def State.wgOf (s : State) (c : Nat) (t : Strand) : Workgroup := ((s.ctx c).wg? t.wg).getD .absent
/-- The issuing strand's workgroup. -/
def State.myWg (s : State) : Workgroup := s.wgOf s.cur.core s.me
/-- Change the issuing strand's workgroup. -/
def State.modMyWg (s : State) (f : Workgroup → Workgroup) : State := s.modWg s.cur.core s.me.wg f

/-- A task run by its name. -/
def State.run? (s : State) (id : Nat) : Option TaskRun := s.runs.find? (·.id == id)
/-- Change a task run. -/
def State.modRun (s : State) (id : Nat) (f : TaskRun → TaskRun) : State :=
  { s with runs := s.runs.map fun r => if r.id = id then f r else r }
/-- A little-endian field of a snapshot. -/
def TaskRun.field (r : TaskRun) (off n : Nat) : Nat := ofBytes ((r.snap.drop off).take n)
/-- Priority of a run (Table 9-1). -/
def TaskRun.prio (r : TaskRun) : Nat := r.field 9 1 % 8
/-- Cohort size of a run; 0 for none (R38). -/
def TaskRun.cohort (r : TaskRun) : Nat := r.field 0x15 1
/-- Workgroups of a run. -/
def TaskRun.nwg (r : TaskRun) : Nat := r.field 0x10 4
/-- Strands of a workgroup of a run. -/
def TaskRun.nstr (r : TaskRun) : Nat := r.field 0x14 1

/-- A peer request has been answered or has failed. -/
def ReqState.closed : ReqState → Bool
  | .answered _ | .failed _ => true
  | _ => false

/-- A command by its name. -/
def State.cmd? (s : State) (id : Nat) : Option Cmd := s.cmds.find? (·.id == id)
/-- Change a command. -/
def State.modCmd (s : State) (id : Nat) (f : Cmd → Cmd) : State :=
  { s with cmds := s.cmds.map fun c => if c.id = id then f c else c }
/-- Take a command out. -/
def State.dropCmd (s : State) (id : Nat) : State := { s with cmds := s.cmds.filter (·.id != id) }

/-! ## Splits -/

/-- A split-table entry. -/
def Strand.split (t : Strand) (e : Nat) : Split := t.splits.read {} e
/-- Set a split-table entry. -/
def Strand.setSplit (t : Strand) (e : Nat) (p : Split) : Strand :=
  { t with splits := t.splits.put e p }
/-- Change a split-table entry. -/
def Strand.modSplit (t : Strand) (e : Nat) (f : Split → Split) : Strand := t.setSplit e (f (t.split e))
/-- The valid entries, ascending. -/
def Strand.validEntries (t : Strand) : List Nat := (List.range 4).filter fun e => (t.split e).valid
/-- Exactly one valid entry and an empty stack (R32, R351). -/
def Strand.converged (t : Strand) : Bool := t.validEntries.length == 1 && t.stack.isEmpty
/-- The issuing split. -/
def State.mySplit (s : State) : Split := s.me.split s.cur.entry
/-- Change the issuing split. -/
def State.modMySplit (s : State) (f : Split → Split) : State :=
  s.modMe fun t => t.modSplit s.cur.entry f
/-- FMT of the issuing split. -/
def State.fmt (s : State) : Word := s.mySplit.fmt
/-- Issue cycles of a quadrant so far. -/
def State.cycle (s : State) (c quad : Nat) : Nat := (s.core c).cycles.read 0 quad
/-- The cycle from which a split left by the instruction now issuing counts as ready (R57). -/
def State.nextCycle (s : State) : Nat := s.cycle s.cur.core (s.cur.slot / 64) + 1

/-! ## Lanes -/

/-- The lanes of a mask, ascending. -/
def lanes (m : Mask) : List Nat := (List.range 32).filter fun l => m.getLsbD l
/-- The mask of some lanes. -/
def maskOf (ls : List Nat) : Mask := ls.foldl (fun m l => m ||| (1#32 <<< l)) 0

/-! ## In-flight counters (R181) -/

/-- The counter of a class. -/
def Strand.counter (t : Strand) (c : CClass) : Nat := (t.flights.filter (·.cls == c)).length
/-- An instruction rises its counter. -/
def Strand.depart (t : Strand) (c : CClass) (id : Nat) : Strand :=
  { t with flights := t.flights ++ [{ cls := c, id }] }
/-- Completions fall in issue order within a class: leave out the finished heads. -/
def settle (c : CClass) : List Flight → List Flight
  | [] => []
  | f :: fs => if f.cls == c then (if f.done then settle c fs else f :: fs) else f :: settle c fs
/-- An instruction has completed; the counter falls when every older one of its class has (R181). -/
def Strand.arrive (t : Strand) (id : Nat) : Strand :=
  match t.flights.find? (·.id == id) with
  | none => t
  | some f =>
    let fs := t.flights.map fun g => if g.id = id then { g with done := true } else g
    { t with flights := settle f.cls fs }
/-- An instruction of a class that is performed as it issues rises its counter only behind an older one of the class that
is not complete: it is held until that one completes (R181). -/
def Strand.through (t : Strand) (c : CClass) : Strand :=
  match (t.flights.filter (·.cls == c)).getLast? with
  | none => t
  | some f => { t with flights := t.flights ++ [{ f with done := true }] }
/-- The counters as sr.cnt and save-area offset 0x028 hold them (Table 3-7). -/
def Strand.counters (t : Strand) : Nat :=
  let c (k : CClass) := t.counter k % 64
  c .lds + c .sts * 2 ^ 6 + c .cpy * 2 ^ 12 + c .fet * 2 ^ 18 + c .mat * 2 ^ 24 + c .col * 2 ^ 30

/-! ## Guards -/

/-- A guard slot (R52). -/
def Strand.guard (t : Strand) (g : Nat) : Guard := t.guards.read .isTrue g
/-- Its code in the save area (Table 3-7). -/
def Guard.code : Guard → Nat
  | .isTrue => 0 | .isFalse => 1 | .unresolved => 2
/-- The guards as sr.guard and save-area offset 0x026 hold them. -/
def Strand.guardBits (t : Strand) : Nat :=
  (List.range 8).foldl (fun n g => n + (t.guard g).code * 4 ^ g) 0

/-! ## Event counters (R289) -/

/-- A selector counts an event of a core (Table 12-4); `core` is none for an event of no core. -/
def selects (sel : DWord) (ev : Nat) (core : Option Nat) : Bool :=
  sel.getLsbD 63 && bits sel.toNat 7 0 == ev &&
    (!sel.getLsbD 31 || core == some (bits sel.toNat 40 32))

/-- Count an event of a partition (R289): under OBSERVE, in P0 and P1, 48 bits wrapping. -/
def Partition.count (p : Partition) (ev n : Nat) (core : Option Nat) : Partition :=
  if p.debugLevel == .none || p.power == .p2 || p.pmsel.isEmpty then p
  else { p with
    pmc := (List.range 8).foldl (fun m i =>
      if selects (p.pmsel.read 0 i) ev core
      then Store.write 0 m i (BitVec.ofNat 64 (((Store.read 0 m i).toNat + n) % 2 ^ 48)) else m) p.pmc }

/-- Count an event on a core, for the partition it belongs to. -/
def State.count (s : State) (core ev n : Nat) : State :=
  match s.partOf? core with
  | some p => if (s.part p).pmsel.isEmpty then s else s.modPart p (·.count ev n (some core))
  | none => s

/-! ## The harbour at home -/

/-- `n` bytes of harbour at their home. -/
def State.homeBytes (s : State) (a n : Nat) : List Byte := s.harbour.bytes a n
/-- A little-endian number of harbour at its home. -/
def State.homeLoad (s : State) (a n : Nat) : Nat := s.harbour.load a n
/-- Write bytes of harbour at their home; addresses are taken modulo the harbour's size. -/
def State.homeWrite (s : State) (a : Nat) (bs : List Byte) : State :=
  { s with harbour := s.harbour.putBytes a bs }
/-- Write a little-endian number of harbour at its home. -/
def State.homeStore (s : State) (a n v : Nat) : State := s.homeWrite a (bytesOf n v)

/-- A range lies in a partition's harbour window (R158). -/
def Partition.inWindow (p : Partition) (a n : Nat) : Bool :=
  p.hwbase.toNat ≤ a && a + n ≤ p.hwlimit.toNat

/-! ## Trace (R290) -/

/-- Add one to a saturating 32-bit register. -/
def satInc (v : DWord) : DWord := if v.toNat < 0xFFFFFFFF then v + 1 else v

/-- The 32 bytes of a record made of eight-byte words, and its first eight bytes. -/
def recordBytes (w0 w1 w2 w3 : Nat) : List Byte :=
  bytesOf 8 w0 ++ bytesOf 8 w1 ++ bytesOf 8 w2 ++ bytesOf 8 w3

/-- How many of the last of `n` things, counted from the last one down, pass a test. -/
def trailing (f : Nat → Bool) : Nat → Nat
  | 0 => 0
  | n + 1 => if f n then trailing f n + 1 else 0

/-- Write a trace record of a kind (Table 12-6), under OBSERVE, in P0 and P1 (Table 12-1). Records of one clock are kept in
ascending core id (R290): the new one goes before those at the end of the ring, not yet taken, that have its clock and
a greater core id. Of a full ring without WRAP the last record is dropped. -/
def State.trace (s : State) (part kind core arg q1 q2 : Nat) : State :=
  let p := s.part part
  if !p.trctl.getLsbD 0 || !p.trctl.getLsbD (8 + kind) || p.debugLevel == .none || p.power == .p2 then s
  else
    let size := 2 ^ bits p.trsize.toNat 4 0
    let base := p.trbase.toNat
    if !p.inWindow base (32 * size) then s.modPart part fun p => { p with trlost := satInc p.trlost }
    else
      let tail := p.trtail.toNat
      let used := (tail + 2 ^ 32 - p.trhead.toNat) % 2 ^ 32
      let full := used == size
      let place (i : Nat) : Nat := base + 32 * (i % size)
      let late (k : Nat) : Bool :=
        let a := place (p.trhead.toNat + k)
        s.homeLoad (a + 8) 8 == s.clock && core % 2 ^ 16 < s.homeLoad (a + 2) 2
      let n := trailing late (min used size)
      let later := (List.range n).map fun k => s.homeBytes (place (tail + 2 ^ 32 - n + k)) 32
      let new := recordBytes (kind + core % 2 ^ 16 * 2 ^ 16 + arg % 2 ^ 32 * 2 ^ 32) s.clock q1 q2
      let put (s : State) (rs : List (List Byte)) : State :=
        (rs.zipIdx).foldl (fun (s : State) r => s.homeWrite (place (tail + 2 ^ 32 - n + r.2)) r.1) s
      if full && !p.trctl.getLsbD 1 then
        (put s ((new :: later).take n)).modPart part fun p => { p with trlost := satInc p.trlost }
      else
        (put s (new :: later)).modPart part fun p => { p with
          trtail := BitVec.ofNat 64 ((p.trtail.toNat + 1) % 2 ^ 32)
          trhead := if full then BitVec.ofNat 64 ((p.trhead.toNat + 1) % 2 ^ 32) else p.trhead }

/-! ## Events and error counters (R247, R248) -/

/-- Report an event to the management core alone. -/
def State.report (s : State) (code core port d0 d1 : Nat) : State :=
  s.modMgmt fun m => { m with events := m.events ++ [(code, core, port, d0, d1)] }

/-- Post an event to a partition's queue (R247, Table 10-3). -/
def State.post (s : State) (part code core port d0 d1 : Nat) : State :=
  let s := s.trace part 3 core code 0 0
  let p := s.part part
  let size := 2 ^ bits p.evsize.toNat 4 0
  let base := p.evbase.toNat
  if !p.inWindow base (32 * size) then
    (s.modPart part fun p => { p with evlost := satInc p.evlost }).report code core port d0 d1
  else if (p.evtail.toNat + 2 ^ 32 - p.evhead.toNat) % 2 ^ 32 == size then
    s.modPart part fun p => { p with evlost := satInc p.evlost }
  else
    let a := base + 32 * (p.evtail.toNat % size)
    let s := s.homeWrite a
      (recordBytes (code + core % 2 ^ 16 * 2 ^ 16 + port % 2 ^ 16 * 2 ^ 32) s.clock d0 d1)
    s.modPart part fun p => { p with evtail := BitVec.ofNat 64 ((p.evtail.toNat + 1) % 2 ^ 32) }

/-- Post an event that concerns a core to that core's partition; with none, to the management core. -/
def State.postCore (s : State) (core code d0 d1 : Nat) : State :=
  match s.partOf? core with
  | some p => s.post p code core 0xFFFF d0 d1
  | none => s.report code core 0xFFFF d0 d1

/-- Add one to a 16-bit saturating field of CERR (R248). -/
def sat16 (n : Nat) : Nat := if n < 0xFFFF then n + 1 else n

end Sys2Proof.Machine
end

