-- ==== Sys2Proof/Machine/Cache.lean ====
section
/-!
DEFINITION. Harbour as a core sees it: the L1 with its dirty bytes, write-backs to the home slice,
release notices and records, promotion, the instruction cache, and the region records of a task
(files 07, 08, 09).
-/

namespace Sys2Proof.Machine

/-- The slice that is home to a line: its die and its 4 KiB granule (R157), as a global core id. -/
def sliceOf (line : Nat) : Nat :=
  let a := line * 128
  bits a 29 27 * 64 + bits a 17 12

/-! ## Release notices and records (R201 to R204) -/

/-- The records of a slice, youngest first. -/
def State.recordsOf (s : State) (slice : Nat) : List ReleaseRecord := s.records.read [] slice

/-- A slice records a notice (R202): it becomes the youngest record of its line. When no record is free, the slice first
retires its oldest one, or the oldest that it does not retire already, by a promotion request; the notice waits for that, and
a later one for its line takes its place. -/
def State.record (s : State) (n : Notice) : State :=
  let slice := sliceOf n.line
  let rs := s.recordsOf slice
  let others := rs.filter (·.line != n.line)
  let waits (p : Promotion) : Bool := p.notice.any (·.line == n.line)
  if s.promotions.any waits then
    { s with promotions := s.promotions.map fun (p : Promotion) => if waits p then { p with notice := some n } else p }
  else if others.length < rs.length || rs.length < Config.releaseRecords then
    { s with records := s.records.put slice ({ line := n.line, core := n.core } :: others) }
  else
    let busy (r : ReleaseRecord) : Bool :=
      s.promotions.any fun p => p.slice == slice && p.notice.isSome && p.line == r.line
    match (rs.filter fun r => !busy r).getLast? <|> rs.getLast? with
    | none => s
    | some old =>
      let (id, s) := s.fresh
      { s with promotions := s.promotions ++
          [{ id, slice, line := old.line, core := old.core, wrote := false, acked := false, ticket := none
             notice := some n }] }

/-- Ask a core for the acquire of a line that waits, by its name and core (R203): an earlier request to that core is made
anew, and one to another core stands beside it. The acquirer's own core is not asked. -/
def State.askAgain (s : State) (n : Notice) (ticket asker : Nat) : State :=
  let mine (p : Promotion) : Bool := p.ticket == some ticket && p.line == n.line && p.core == n.core
  if n.core = asker then s
  else if s.promotions.any mine then
    { s with promotions := s.promotions.map fun (p : Promotion) => if mine p then { p with wrote := false, acked := false } else p }
  else
    let (id, s) := s.fresh
    { s with promotions := s.promotions ++
        [{ id, slice := sliceOf n.line, line := n.line, core := n.core, wrote := false, acked := false
           ticket := some ticket, asker, notice := none }] }

/-- A notice reaches its slice (R202): an acquire of the line that waits asks its core too (R203, R204); a line that is
being retired is the youngest now, so what needed its record is recorded anew. -/
def State.takeNotice (s : State) (n : Notice) : State :=
  let retires (p : Promotion) : Bool := p.line == n.line && p.notice.isSome
  let asks := ((s.promotions.filter (·.line == n.line)).filterMap fun p => p.ticket.map fun k => (k, p.asker)).eraseDups
  let delayed := (s.promotions.filter retires).filterMap (·.notice)
  let s := { s with promotions := s.promotions.filter fun p => !retires p }
  delayed.foldl State.record (asks.foldl (fun s k => s.askAgain n k.1 k.2) (s.record n))

/-- The messages of a core to a slice arrive in the order sent (R204): deliver its pending notices. -/
def State.flushNotices (s : State) (core slice : Nat) : State :=
  let mine (n : Notice) : Bool := n.core == core && sliceOf n.line == slice
  if !s.notices.any mine then s
  else
    let ns := s.notices.filter mine
    ns.foldl State.takeNotice { s with notices := s.notices.filter fun n => !mine n }

/-- A release at CORE scope sends a notice for its line (R201). -/
def State.sendNotice (s : State) (core line : Nat) : State :=
  { s with notices := s.notices ++ [{ core, line }] }

/-! ## The L1 (R198, R199) -/

/-- Write the bytes of a list whose bits are set in a mask, from an address. -/
def mergeBytes (m : Mem) (a : Nat) (dirty : BitVec 128) : List Byte → Nat → Mem
  | [], _ => m
  | b :: bs, i =>
    mergeBytes (if dirty.getLsbD i then Store.write 0 m (a + i) b else m) a dirty bs (i + 1)

/-- Write back the dirty bytes of a line; it stays valid and clean. -/
def State.writeBack (s : State) (core line : Nat) : State :=
  match (s.core core).l1.at? line with
  | none => s
  | some l =>
    if l.dirty = 0 then s
    else
      let s := (s.flushNotices core (sliceOf line)).count core 0x0E 1
      let s := { s with harbour := mergeBytes s.harbour (line * 128) l.dirty l.data 0 }
      s.modCore core fun k => { k with l1 := k.l1.put line { l with dirty := 0 } }

/-- Drop a line without writing it. -/
def State.dropLine (s : State) (core line : Nat) : State :=
  s.modCore core fun k => { k with l1 := k.l1.del line }

/-- Write back a line, then drop it. -/
def State.flushLine (s : State) (core line : Nat) : State := (s.writeBack core line).dropLine core line

/-- Write back every dirty byte of a core's L1 (a release wider than CORE). -/
def State.writeBackAll (s : State) (core : Nat) : State :=
  (s.core core).l1.foldl (fun s e => s.writeBack core e.1) s

/-- Write back and drop every line of a core's L1 (an acquire wider than CORE). -/
def State.dropAll (s : State) (core : Nat) : State :=
  (s.writeBackAll core).modCore core fun k => { k with l1 := [] }

/-- Make room in a full L1: a line of the implementation's choice leaves (R198, log 8). -/
def State.makeRoom (s : State) (core : Nat) : State :=
  let l1 := (s.core core).l1
  if l1.length < Config.l1Lines then s
  else
    let (n, s) := s.draw
    match l1[Config.l1Victim n % l1.length]? with
    | some e => s.flushLine core e.1
    | none => s

/-- Bring a line into the L1, if it is not there. The request arrives at the slice behind the core's notices (R204). -/
def State.fill (s : State) (core line : Nat) : State :=
  match (s.core core).l1.at? line with
  | some _ => s.count core 0x0C 1
  | none =>
    let s := ((s.count core 0x0D 1).makeRoom core).flushNotices core (sliceOf line)
    s.modCore core fun k =>
      { k with l1 := k.l1.put line { data := s.homeBytes (line * 128) 128, dirty := 0 } }

/-- The line as the L1 holds it. -/
def State.line (s : State) (core line : Nat) : Line :=
  ((s.core core).l1.at? line).getD { data := s.homeBytes (line * 128) 128, dirty := 0 }

/-- `n` bytes as the core sees them, in its L1 or at home, without moving a line. -/
def State.view (s : State) (core a n : Nat) : List Byte :=
  (List.range n).map fun i =>
    match (s.core core).l1.at? ((a + i) / 128) with
    | some l => l.data.getD ((a + i) % 128) 0
    | none => s.harbour.byte (a + i)

/-- The mask of `n` bytes from `o` in a line. -/
def byteMask (o n : Nat) : BitVec 128 := BitVec.ofNat 128 ((2 ^ n - 1) * 2 ^ o)

/-- Read bytes of one line through the L1. -/
def State.l1Read (s : State) (core a n : Nat) : List Byte × State :=
  let s := s.fill core (a / 128)
  (((s.line core (a / 128)).data.drop (a % 128)).take n, s)

/-- Write bytes of one line in the L1. -/
def State.l1Write (s : State) (core a : Nat) (bs : List Byte) : State :=
  let s := s.fill core (a / 128)
  let l := s.line core (a / 128)
  let o := a % 128
  let l' : Line :=
    { data := (List.range 128).map fun i => if o ≤ i && i < o + bs.length then bs.getD (i - o) 0 else l.data.getD i 0
      dirty := l.dirty ||| byteMask o bs.length }
  s.modCore core fun k => { k with l1 := k.l1.put (a / 128) l' }

end Sys2Proof.Machine

namespace Sys2Proof

/-- A scope wider than CORE. -/
def Scope.wide (sc : Scope) : Bool := sc != .core

end Sys2Proof

namespace Sys2Proof.Machine


/-- The release side of an access or a fence (R194, R199): wider than CORE, every dirty byte is written
back first. -/
def State.release (s : State) (core : Nat) (wide : Bool) : State :=
  if wide then s.writeBackAll core else s

/-- The acquire side (R199): wider than CORE, every line is dropped, dirty bytes written back first. -/
def State.acquire (s : State) (core : Nat) (wide : Bool) : State :=
  if wide then s.dropAll core else s

/-- An access goes to the home of a line (R199, R204): the core's L1 gives the line up, and the notices
that the core sent to the slice arrive first. -/
def State.toHome (s : State) (core line : Nat) : State :=
  (s.flushLine core line).flushNotices core (sliceOf line)

/-- A harbour read at a scope: through the L1 at CORE; at home, its line dropped first, when wider. -/
def State.harbourRead (s : State) (core : Nat) (wide : Bool) (a n : Nat) : List Byte × State :=
  if wide then
    let s := s.toHome core (a / 128)
    (s.homeBytes a n, s)
  else s.l1Read core a n

/-- A harbour write at a scope. -/
def State.harbourWrite (s : State) (core : Nat) (wide : Bool) (a : Nat) (bs : List Byte) : State :=
  if wide then (s.toHome core (a / 128)).homeWrite a bs else s.l1Write core a bs

/-- Drop, from a core's L1, the lines that overlap a range, dirty bytes written back first (R232). -/
def State.flushRange (s : State) (core lo hi : Nat) : State :=
  ((s.core core).l1.filter fun e => e.1 * 128 < hi && lo < (e.1 + 1) * 128).foldl
    (fun s e => s.flushLine core e.1) s

/-- Write back, in a core's L1, the lines that overlap a range; they stay valid. -/
def State.cleanRange (s : State) (core lo hi : Nat) : State :=
  ((s.core core).l1.filter fun e => e.1 * 128 < hi && lo < (e.1 + 1) * 128).foldl
    (fun s e => s.writeBack core e.1) s

/-! ## The instruction cache (R300, R301) -/

/-- The eight words of a group at home. -/
def State.homeGroup (s : State) (g : Nat) : List Word :=
  (List.range 8).map fun w => BitVec.ofNat 32 (s.homeLoad (g * 32 + 4 * w) 4)

/-- Fetch a group through a core's instruction cache, which keeps it until it is invalidated. -/
def State.fetchGroup (s : State) (core g : Nat) : List Word × State :=
  match (s.core core).icache.at? g with
  | some ws => (ws, s)
  | none =>
    let ws := s.homeGroup g
    let ic := (s.core core).icache
    let (n, s') := s.draw
    if ic.length < 3072 then
      (ws, s.modCore core fun k => { k with icache := k.icache.put g ws })
    else
      let out := (ic[Config.icacheVictim n % ic.length]?).map (·.1)
      (ws, s'.modCore core fun k => { k with icache := (k.icache.del (out.getD g)).put g ws })

/-- Invalidate the instruction caches of a partition's cores (R301). -/
def State.dropIcaches (s : State) (part : Nat) : State :=
  { s with cores := s.cores.map fun e =>
      if (s.part part).hasCore e.1 then (e.1, { e.2 with icache := [] }) else e }

/-! ## Region records (R223, R224) -/

/-- A region record (Table 9-5). -/
structure Region where
  base : Nat
  extent : Nat
  access : Nat
  hint : Nat
  shared : Bool
  deriving DecidableEq, Repr

/-- Record `n` of a snapshot. -/
def TaskRun.regionAt (r : TaskRun) (n : Nat) : Region :=
  let hi := r.field (0x88 + 16 * n) 8
  { base := r.field (0x80 + 16 * n) 8, extent := bits hi 47 0, access := bits hi 50 48
    hint := bits hi 52 51, shared := hi.testBit 53 }

/-- Harbour space (tag 0xE), or far space (tag 0), by a generic address (Table 7-2). -/
def Region.isHarbour (g : Region) : Bool := g.base / 2 ^ 60 == 0xE
/-- First address within the space. -/
def Region.lo (g : Region) : Nat := if g.isHarbour then g.base % 2 ^ 30 else g.base % 2 ^ 52
/-- First address beyond. -/
def Region.hi (g : Region) : Nat := g.lo + g.extent
/-- Declares reads (R224). -/
def Region.reads (g : Region) : Bool := g.access == 1 || g.access == 3 || g.access == 4
/-- Declares writes (R224). -/
def Region.writes (g : Region) : Bool := g.access == 2 || g.access == 3 || g.access == 4
/-- W or RW. -/
def Region.stores (g : Region) : Bool := g.access == 2 || g.access == 3

/-- The eight records of a snapshot. -/
def TaskRun.regions (r : TaskRun) : List Region := (List.range 8).map r.regionAt

/-- The ranges a task declares in a space for a read or a write. -/
def TaskRun.declares (r : TaskRun) (harbour write : Bool) : List (Nat × Nat) :=
  (r.regions.filter fun g =>
    g.access != 0 && g.isHarbour == harbour && (if write then g.writes else g.reads)).map
    fun g => (g.lo, g.hi)

/-- The lowest address from `lo` up to `hi` that no range holds; the first argument is how many ranges
may still be crossed. -/
def firstGap (rs : List (Nat × Nat)) : Nat → Nat → Nat → Option Nat
  | 0, lo, hi => if lo < hi then some lo else none
  | n + 1, lo, hi =>
    if hi ≤ lo then none
    else match rs.find? (fun r => r.1 ≤ lo && lo < r.2) with
      | none => some lo
      | some r => firstGap rs n r.2 hi

/-- Every byte of a range is declared. -/
def allDeclared (rs : List (Nat × Nat)) (lo n : Nat) : Bool :=
  (firstGap rs (rs.length + 1) lo (lo + n)).isNone

end Sys2Proof.Machine
end

