-- ==== Sys2Proof/Machine/Barrier.lean ====
section
/-!
DEFINITION. Barrier objects in the shelf and group barriers: their layout, the events that act on them,
the flip (R177 to R180, R362).
-/

namespace Sys2Proof.Machine

/-- The fields of a barrier object (Table 7-7). -/
structure BarrierObj where
  pend : Nat
  cnt : Nat
  exp : Nat
  drop : Nat
  phase : Bool
  err : Bool
  scope : Nat
  deriving DecidableEq, Repr

/-- Read the fields of 16 bytes (Table 7-7). -/
def BarrierObj.decode (n : Nat) : BarrierObj where
  pend := bits n 31 0
  cnt := bits n 47 32
  exp := bits n 63 48
  drop := bits n 79 64
  phase := n.testBit 96
  err := n.testBit 97
  scope := bits n 99 98

/-- The 16 bytes of an object; reserved bits are zero. -/
def BarrierObj.encode (b : BarrierObj) : Nat :=
  b.pend + b.cnt * 2 ^ 32 + b.exp * 2 ^ 48 + b.drop % 2 ^ 16 * 2 ^ 64 + flag b.phase * 2 ^ 96
    + flag b.err * 2 ^ 97 + b.scope * 2 ^ 98

/-- The flip test (Table 7-8): with nothing awaited the phase turns over and the drops take effect. DESIGN CHOICE, unsafe
(log 42): of an object whose DROP exceeds its EXP, as a store into it can leave it, EXP - DROP is taken as 0. -/
def BarrierObj.flipTest (b : BarrierObj) : BarrierObj :=
  if b.cnt = 0 ∧ b.pend = 0 then
    { b with phase := !b.phase, exp := b.exp - b.drop, cnt := b.exp - b.drop, drop := 0 }
  else b

/-- Expect `n` bytes; refused when the count would not fit (Table 7-8). -/
def BarrierObj.expect? (b : BarrierObj) (n : Nat) : Option BarrierObj :=
  if b.pend + n > 0xFFFFFFFF then none else some { b with pend := b.pend + n }

/-- `n` bytes land; a landing that exceeds what is awaited sets ERR (Table 7-8, R179). -/
def BarrierObj.land (b : BarrierObj) (n : Nat) (dropped : Bool) : BarrierObj :=
  { b with pend := b.pend - n, err := b.err || dropped || b.pend < n }.flipTest

/-- An arrival; refused when none is awaited (Table 7-8). -/
def BarrierObj.arrive? (b : BarrierObj) : Option BarrierObj :=
  if b.cnt = 0 then none else some { b with cnt := b.cnt - 1 }.flipTest

/-- A drop; refused when none is awaited (Table 7-8). -/
def BarrierObj.drop? (b : BarrierObj) : Option BarrierObj :=
  if b.cnt = 0 then none else some { b with cnt := b.cnt - 1, drop := b.drop + 1 }.flipTest

/-- The object at a shelf offset. -/
def State.barrier (s : State) (core off : Nat) : BarrierObj :=
  .decode ((s.shelf core).load off 16)

/-- Write an object, all 16 bytes. -/
def State.setBarrier (s : State) (core off : Nat) (b : BarrierObj) : State :=
  s.modShelf core fun m => m.store off 16 b.encode

/-- Bytes land on an object. -/
def State.landOn (s : State) (core off n : Nat) (dropped : Bool) : State :=
  s.setBarrier core off ((s.barrier core off).land n dropped)

/-- An engine arrives on an object (Table 7-8): an over-arrival sets ERR, is counted and posted, and
tests no flip. `err` is set by an arrival that reports a failure (R272, R280). -/
def State.engineArrive (s : State) (core off : Nat) (err : Bool) : State :=
  let b := s.barrier core off
  let b := { b with err := b.err || err }
  match b.arrive? with
  | some b => s.setBarrier core off b
  | none =>
    let s := s.setBarrier core off { b with err := true }
    let s := s.modCore core fun k => { k with overarr := sat16 k.overarr }
    s.postCore core 0x03 off 0

/-! ## Group barriers (R362) -/

/-- A group barrier as an object, for its events and for what a trap reports. -/
def GroupBarrier.obj (g : GroupBarrier) : BarrierObj where
  pend := 0
  cnt := g.cnt
  exp := g.exp
  drop := g.drop
  phase := g.phase
  err := false
  scope := if g.spans then 1 else 0

/-- A group barrier with the fields of an object. -/
def GroupBarrier.ofObj (g : GroupBarrier) (b : BarrierObj) : GroupBarrier :=
  { g with cnt := b.cnt, exp := b.exp, drop := b.drop, phase := b.phase }

/-- The group barrier of a strand's entry, with the core that keeps it: its own, or that of cohort
position 0. -/
def State.groupBarrier? (s : State) (core : Nat) (t : Strand) (entry : Nat) :
    Option (Nat × GroupBarrier) :=
  let w := s.wgOf core t
  let mine (g : GroupBarrier) : Bool := g.run == t.run && g.entry == entry && (g.spans || g.wg == w.index)
  match ((s.ctx core).gbars.find? fun g => mine g && !g.spans) with
  | some g => some (core, g)
  | none =>
    let home := w.cohort.headD core
    ((s.ctx home).gbars.find? fun g => mine g && g.spans && w.cohort.length != 0 &&
      g.wg == w.index / w.cohort.length).map fun g => (home, g)

/-- Set a group barrier. -/
def State.setGroupBarrier (s : State) (core : Nat) (g : GroupBarrier) : State :=
  s.modCtx core fun x => { x with gbars := x.gbars.map fun h => if h.key = g.key then g else h }

/-- A member's end is a drop on each of its groups; one that finds nothing awaited changes nothing
(R45, R362). -/
def State.leaveGroups (s : State) (core : Nat) (t : Strand) : State :=
  t.gslots.foldl (fun s e =>
    match s.groupBarrier? core t e.2 with
    | none => s
    | some (home, g) =>
      match g.obj.drop? with
      | none => s
      | some b => s.setGroupBarrier home (g.ofObj b)) s

end Sys2Proof.Machine
end

