-- ==== Sys2Proof/Machine/Traps.lean ====
section
/-!
DEFINITION. What a trap reports (Table 10-1), generic addresses (R153), and the checks of harbour and shelf
accesses in the order of R154.
-/

namespace Sys2Proof.Machine

/-- DETAIL0 of MISALIGN and the codes that follow it (Table 10-1). Of a count of bytes its field holds 32 bits (log 14). -/
def accDetail (bytes : Nat) (rd wr : Bool) : Nat :=
  (if bytes < 256 then bytes else bytes % 2 ^ 32 * 2 ^ 16) + flag wr * 2 ^ 8 + flag rd * 2 ^ 9

/-- ILLSTATE with a DETAIL0 (Table 10-1). -/
def State.illstate (s : State) (d0 : Nat) : Trap :=
  { code := .illstate, d0, d1 := s.me.live.toNat }

/-! ## Generic addresses (R153) -/

/-- The tag of a generic address. -/
def tagBits (a : Nat) : Nat := a / 2 ^ 60 % 16
/-- A harbour address as a generic address. -/
def generic (h : Nat) : Nat := 0xE * 2 ^ 60 + h
/-- The harbour address that a generic address holds. -/
def harbourOf (a : Nat) : Nat := a % 2 ^ 30
/-- The zero field of a harbour generic address is zero. -/
def harbourClean (a : Nat) : Bool := bits a 59 30 == 0
/-- A far generic address (R153). -/
def isFar (a : Nat) : Bool := bits a 63 52 == 0
/-- A harbour range lies in the window of a partition (R153, R158). -/
def State.inHarbour (s : State) (part a n : Nat) : Bool :=
  harbourClean a && (s.part part).inWindow (harbourOf a) n

/-! ## Comparators (R288) -/

/-- Step and comparators are granted to a partition (R283). -/
def Partition.invasive (p : Partition) : Bool := p.debugLevel == .invasive || p.debugLevel == .full

/-- The lowest byte of a range that a load or store comparator matches. -/
def touched (space : Nat) (ld st : Bool) (ctl addr : DWord) (lo n : Nat) : Option Nat :=
  let c := ctl.toNat
  let kind := bits c 2 1
  let base := (if space = 2 then addr.toNat % 2 ^ 30 else addr.toNat) / 2 ^ bits c 7 4 * 2 ^ bits c 7 4
  let hi := base + 2 ^ bits c 7 4
  if c.testBit 0 && bits c 9 8 == space && bits c 7 4 ≤ 12 &&
      ((kind == 1 && ld) || (kind == 2 && st) || (kind == 3 && (ld || st))) &&
      0 < n && lo < hi && base < lo + n then some (max lo base) else none

/-- BRKPT of a load or store comparator on accesses of `n` bytes (R288), the lowest-numbered one;
`inhibit` on the first instruction after TRET. Space: 1 shelf, 2 harbour. -/
def State.watch (s : State) (space : Nat) (ld st : Bool) (accs : List (Nat × Nat)) (n : Nat)
    (perLane : Bool) : Option Trap :=
  let p := s.part s.me.part
  if p.dbgctl.isEmpty || !p.invasive || s.mySplit.inhibit then none
  else
    (List.range 4).findSome? fun k =>
      let hit (x : Nat × Nat) : Option Nat :=
        touched space ld st (p.dbgctl.read 0 k) (p.dbgaddr.read 0 k) x.2 n
      let hits := accs.filter fun x => (hit x).isSome
      match (hits.filterMap hit).min? with
      | none => none
      | some b =>
        let up (a : Nat) : Nat := if space = 2 then generic a else a
        some { code := .brkpt, d0 := k + 1, d1 := up b
               lanes := if perLane then maskOf (hits.map (·.1)) else 0
               addr := match hits.head? with | some x => up x.2 | none => 0 }

/-! ## The checks of R154 -/

/-- The trap of the lanes that fail a check, if any does: LANES and the lowest one's address. -/
def failing (code : TrapCode) (d0 : Nat) (perLane : Bool) (accs : List (Nat × Nat))
    (bad : Nat → Bool) : Option Trap :=
  match accs.filter fun x => bad x.2 with
  | [] => none
  | x :: xs => some
      { code, d0, addr := x.2, lanes := if perLane then maskOf ((x :: xs).map (·.1)) else 0 }

/-- The issuing strand's run, if it still is one. -/
def State.myRun? (s : State) : Option TaskRun := s.run? s.me.run

/-- Bytes of harbour or far space are declared for what an access does; supervisor mode declares
nothing (R224, R244). -/
def State.declared (s : State) (harbour rd wr : Bool) (a n : Nat) : Bool :=
  s.me.sup ||
  match s.myRun? with
  | none => false
  | some r =>
    (!rd || allDeclared (r.declares harbour false) a n) &&
    (!wr || allDeclared (r.declares harbour true) a n)

/-- The checks of harbour accesses, as (lane, generic address), of `n` bytes aligned to `al` (R154). `region` tells
whether region records are tested (R224). -/
def State.harbourFaults (s : State) (accs : List (Nat × Nat)) (n al : Nat) (rd wr region perLane : Bool) :
    Option Trap :=
  let d0 := accDetail n rd wr
  let fail (c : TrapCode) (bad : Nat → Bool) : Option Trap := failing c d0 perLane accs bad
  (fail .space fun a => tagBits a != 0xE) <|>
  (fail .misalign fun a => a % al != 0) <|>
  (fail .harbrange fun a => !s.inHarbour s.me.part a n) <|>
  (if region then fail .undeclared fun a => !s.declared true rd wr (harbourOf a) n else none)

/-- The checks of harbour accesses, then the comparators (R154, R288). -/
def State.harbourChecks (s : State) (accs : List (Nat × Nat)) (n al : Nat) (rd wr region perLane : Bool) :
    Option Trap :=
  s.harbourFaults accs n al rd wr region perLane <|>
  s.watch 2 rd wr (accs.map fun x => (x.1, harbourOf x.2)) n perLane

/-- The checks of shelf accesses, as (lane, address), of `n` bytes aligned to `al` (R154, R155). -/
def State.shelfChecks (s : State) (accs : List (Nat × Nat)) (n al : Nat) (rd wr perLane : Bool) :
    Option Trap :=
  let d0 := accDetail n rd wr
  let fail (c : TrapCode) (bad : Nat → Bool) : Option Trap := failing c d0 perLane accs bad
  (fail .misalign fun a => a % al != 0) <|>
  (fail .shelfrange fun a => Config.shelfBytes < a + n) <|>
  s.watch 1 rd wr accs n perLane

end Sys2Proof.Machine
end

