-- ==== Sys2Proof/Machine/Far.lean ====
section
/-!
DEFINITION. Far memory: translation (R160 to R164), the window manager's probe (R171), and tensor
descriptors with the bytes they lay out (R166 to R170).
-/

namespace Sys2Proof.Machine

/-! ## Translation (R160 to R164) -/

/-- Lowest address bit and width of the index of a level (Table 7-3). -/
def levelShape : Nat → Nat × Nat
  | 4 => (36, 16)
  | 3 => (31, 5)
  | 2 => (26, 5)
  | 1 => (21, 5)
  | _ => (16, 5)

/-- Walk from a level's table: a leaf with its page size, or the level that fails (R162). -/
def State.walkFrom (s : State) (va : Nat) : Nat → Nat → Except Nat (Nat × Nat)
  | level, table =>
    let (lo, width) := levelShape level
    let e := s.homeLoad (table + 8 * (va / 2 ^ lo % 2 ^ width)) 8
    if !e.testBit 0 || bits e 63 41 != 0 || bits e 7 4 != 0 then .error level
    else if e.testBit 1 then
      if bits e 40 16 * 2 ^ 16 % 2 ^ lo != 0 then .error level else .ok (e, 2 ^ lo)
    else
      match level with
      | 0 => .error 0
      | n + 1 => if bits e 40 30 != 0 then .error level else s.walkFrom va n (bits e 29 8 * 2 ^ 8)

/-- The page that a leaf maps. -/
def pageOf (va leaf size : Nat) : Page :=
  { base := va / size * size, size, module := bits leaf 15 8, maddr := bits leaf 40 16 * 2 ^ 16 }

/-- A TLB entry that holds a translation of an address for a partition. -/
def tlbFind (l : List TlbEntry) (part va : Nat) : Option TlbEntry :=
  l.find? fun t => t.part == part && t.base ≤ va && va < t.base + t.size

/-- Put an entry into a TLB of `cap` entries; one of the implementation's choice leaves (R163, log 8). -/
def tlbInsert (cap out : Nat) (l : List TlbEntry) (t : TlbEntry) : List TlbEntry :=
  if l.length < cap then l ++ [t] else l.eraseIdx (out % l.length) ++ [t]

/-- Keep a translation in a die's TLB (R163). -/
def State.keepDie (s : State) (die : Nat) (t : TlbEntry) : State :=
  let (n, s) := s.draw
  { s with dieTlb := s.dieTlb.put die (tlbInsert 2048 (Config.tlbVictim n) (s.dieTlb.read [] die) t) }

/-- Keep a translation in the core's and the die's TLB (R163). -/
def State.keepTlb (s : State) (core : Nat) (t : TlbEntry) : State :=
  let (n, s) := s.draw
  (s.keepDie (dieOf core) t).modCore core fun k => { k with tlb := tlbInsert 64 (Config.tlbVictim n) k.tlb t }

/-- Translate a far address for a core of a partition: leaf and page, or the level that fails (R162 to
R164). -/
def State.translate (s : State) (core part va : Nat) : Except Nat (Nat × Page) × State :=
  let root := (s.part part).fptroot.toNat
  if !root.testBit 63 then (.error 4, s)
  else
    match tlbFind (s.core core).tlb part va <|> tlbFind (s.dieTlb.read [] (dieOf core)) part va with
    | some t => (.ok (t.leaf.toNat, pageOf va t.leaf.toNat t.size), s)
    | none =>
      match s.walkFrom va 4 (bits root 29 19 * 2 ^ 19) with
      | .error l => (.error l, s)
      | .ok (leaf, size) =>
        (.ok (leaf, pageOf va leaf size),
          s.keepTlb core { part, base := va / size * size, size, leaf := BitVec.ofNat 64 leaf })

/-! ## Bytes of far memory -/

/-- The page that holds a virtual address. -/
def findPage (ps : List Page) (va : Nat) : Option Page := ps.find? fun p => p.base ≤ va && va < p.base + p.size
/-- The key of a module's byte in `State.far`. -/
def farKey (p : Page) (va : Nat) : Nat := p.module * 2 ^ 41 + p.maddr + (va - p.base)
/-- Read a far byte through a command's translations. -/
def State.farByte (s : State) (ps : List Page) (va : Nat) : Byte :=
  match findPage ps va with
  | some p => s.far.byte (farKey p va)
  | none => 0
/-- Write the bits of a far byte that a mask selects. -/
def State.setFarByte (s : State) (ps : List Page) (va : Nat) (mask v : Byte) : State :=
  match findPage ps va with
  | some p =>
    let k := farKey p va
    { s with far := Store.write 0 s.far k ((s.far.byte k &&& ~~~mask) ||| (v &&& mask)) }
  | none => s

/-- Far addresses have 52 bits; a sum that passes them wraps (log 13). -/
def vaWrap (a : Nat) : Nat := a % 2 ^ 52

/-- A little-endian number in far memory. -/
def State.farLoad (s : State) (ps : List Page) (va n : Nat) : Nat :=
  ofBytes ((List.range n).map fun i => s.farByte ps (vaWrap (va + i)))

/-- Write bytes to far memory. -/
def State.farWrite (s : State) (ps : List Page) (va : Nat) (bs : List Byte) : State :=
  (bs.zipIdx).foldl (fun s (b, i) => s.setFarByte ps (vaWrap (va + i)) 0xFF#8 b) s

/-! ## The probe (R171) -/

/-- A far range that a command reads or writes, or both (an MREDUCE that accumulates). It is part of an operand range of
`len` bytes, which a trap reports (R241, log 14). -/
structure FarRange where
  va : Nat
  n : Nat
  rd : Bool
  wr : Bool
  len : Nat := n
  deriving DecidableEq, Repr

/-- A range that wraps, as two. -/
def FarRange.split (r : FarRange) : List FarRange :=
  let va := vaWrap r.va
  if va + r.n ≤ 2 ^ 52 then [{ r with va }]
  else [{ r with va, n := 2 ^ 52 - va }, { r with va := 0, n := va + r.n - 2 ^ 52 }]

/-- The lowest byte of a range that region records do not declare for its access (R224). -/
def TaskRun.gap (r : TaskRun) (f : FarRange) : Option Nat :=
  let g (wr : Bool) : Option Nat :=
    let rs := r.declares false wr
    firstGap rs (rs.length + 1) f.va (f.va + f.n)
  match (if f.rd then g false else none), (if f.wr then g true else none) with
  | some a, some b => some (min a b)
  | some a, none => some a
  | none, x => x

/-- What translating the pages of a command has found: pages, and the lowest failures. -/
structure Probe where
  pages : List Page := []
  /-- lowest address with no translation, its level and DETAIL0 -/
  xlate : Option (Nat × Nat × Nat) := none
  /-- lowest address whose access is not permitted, its leaf and DETAIL0 -/
  perm : Option (Nat × Nat × Nat) := none
  deriving DecidableEq, Repr

/-- The lower of two failures. -/
def lower (a : Option (Nat × Nat × Nat)) (b : Nat × Nat × Nat) : Option (Nat × Nat × Nat) :=
  match a with
  | none => some b
  | some x => if b.1 < x.1 then some b else some x

/-- Translate a range from `va` on, page by page; the first argument bounds the pages. -/
def State.probePages (core part d0 : Nat) (f : FarRange) : Nat → Nat → Probe → State → Probe × State
  | 0, _, p, s => (p, s)
  | k + 1, va, p, s =>
    if f.va + f.n ≤ va then (p, s)
    else
      match s.translate core part va with
      | (.error l, s) =>
        let next := (va / 2 ^ 16 + 1) * 2 ^ 16
        probePages core part d0 f k next { p with xlate := lower p.xlate (va, l, d0) } s
      | (.ok (leaf, page), s) =>
        let ok := (!f.rd || leaf.testBit 2) && (!f.wr || leaf.testBit 3)
        let p := { p with pages := p.pages ++ [page] }
        let p := if ok then p else { p with perm := lower p.perm (va, leaf, d0) }
        probePages core part d0 f k (page.base + page.size) p s

/-- The window manager's probe of a command's ranges (R171): UNDECLARED in user mode, then XLATE, then
PERM, each at the lowest address that fails; else the pages. DETAIL0 holds the bytes of the operand range that fails
(R241, log 14). -/
def State.probe (s : State) (core part : Nat) (run : Option TaskRun) (rs : List FarRange) :
    Except Trap (List Page) × State :=
  let rs := rs.flatMap FarRange.split
  let d0 (f : FarRange) : Nat := accDetail f.len f.rd f.wr
  let gap := match run with
    | none => none
    | some r => (rs.filterMap fun f => (r.gap f).map fun a => (a, 0, d0 f)).foldl lower none
  match gap with
  | some (a, _, d) => (.error { code := .undeclared, addr := a, d0 := d }, s)
  | none =>
    let (p, s) := rs.foldl (fun (acc : Probe × State) f =>
      State.probePages core part (d0 f) f (f.n / 2 ^ 16 + 2) f.va acc.1 acc.2) (({} : Probe), s)
    match p.xlate, p.perm with
    | some (a, l, d), _ => (.error { code := .xlate, addr := a, d0 := d, d1 := l }, s)
    | none, some (a, leaf, d) => (.error { code := .perm, addr := a, d0 := d, d1 := leaf }, s)
    | none, none => (.ok p.pages, s)

/-! ## Tensor descriptors (R166 to R170) -/

/-- A dimension record (Table 7-6). -/
structure Dim where
  size : Nat
  origin : Int
  box : Nat
  stride : Nat
  deriving DecidableEq, Repr

/-- A tensor descriptor (Table 7-5). -/
structure Tensor where
  base : Nat
  sbase : Nat
  dst : Nat
  sdst : Nat
  bar : Nat
  slots : Nat
  slot : Nat
  efmt : Nat
  ndim : Nat
  flags : Nat
  rbar : Nat
  dims : List Dim
  deriving DecidableEq, Repr

/-- A little-endian field of a list of bytes. -/
def field (bs : List Byte) (off n : Nat) : Nat := ofBytes ((bs.drop off).take n)

/-- Read a descriptor's 256 bytes. Of DST, SDST, BAR and RBAR the low 20 bits count. -/
def Tensor.ofBytes (d : List Byte) : Tensor where
  base := field d 0x00 8
  sbase := field d 0x08 8
  dst := field d 0x10 4 % 2 ^ 20
  sdst := field d 0x14 4 % 2 ^ 20
  bar := field d 0x18 4 % 2 ^ 20
  slots := field d 0x1C 2
  slot := field d 0x1E 2
  efmt := field d 0x20 1
  ndim := field d 0x21 1
  flags := field d 0x22 1
  rbar := field d 0x24 4 % 2 ^ 20
  dims := (List.range (min (field d 0x21 1) 12)).map fun k =>
    { size := field d (0x40 + 16 * k) 4, origin := signed 32 (field d (0x44 + 16 * k) 4)
      box := field d (0x48 + 16 * k) 2, stride := field d (0x4A + 16 * k) 6 }

/-- SC, HI, RPH and RW (Table 7-5). -/
def Tensor.sc (t : Tensor) : Bool := t.flags.testBit 0
@[inherit_doc Tensor.sc] def Tensor.hi (t : Tensor) : Bool := t.flags.testBit 1
@[inherit_doc Tensor.sc] def Tensor.rph (t : Tensor) : Bool := t.flags.testBit 2
@[inherit_doc Tensor.sc] def Tensor.rw (t : Tensor) : Bool := t.flags.testBit 3
/-- Its element format. -/
def Tensor.fmt (t : Tensor) : Fmt := (Fmt.ofCode t.efmt).getD .fp32
/-- Bytes of an element; an L6 group of 16 takes 12 (R91). -/
def Tensor.esize (t : Tensor) : Nat := t.fmt.bits / 8
/-- Dimension 0. -/
def Tensor.dim0 (t : Tensor) : Dim := t.dims.headD { size := 0, origin := 0, box := 0, stride := 0 }
/-- Bytes of a row (R169). -/
def Tensor.rowBytes (t : Tensor) : Nat :=
  if t.fmt = .l6 then (t.dim0.box + 15) / 16 * 12 else t.dim0.box * t.esize
/-- Scale bytes of a row (R169). -/
def Tensor.rowScales (t : Tensor) : Nat := if t.sc then t.dim0.box / 32 * 2 else 0
/-- Rows of the box. -/
def Tensor.rows (t : Tensor) : Nat := (t.dims.tail.map (·.box)).foldl (· * ·) 1
/-- Bytes of a data slot (R169). -/
def Tensor.dataBytes (t : Tensor) : Nat := t.rowBytes * t.rows
/-- Bytes of a scale slot (R169). -/
def Tensor.scaleBytes (t : Tensor) : Nat := t.rowScales * t.rows
/-- Shelf offset of the command's data slot (R169). -/
def Tensor.dataAt (t : Tensor) : Nat := t.dst + t.slot * t.dataBytes
/-- Shelf offset of its scale slot. -/
def Tensor.scaleAt (t : Tensor) : Nat := t.sdst + t.slot * t.scaleBytes

/-- R168 refuses a descriptor. -/
def Tensor.refused (t : Tensor) : Bool :=
  t.ndim == 0 || 12 < t.ndim || t.dims.any (·.box == 0) || (Fmt.ofCode t.efmt).isNone ||
  t.slots == 0 || 64 < t.slots || t.slots ≤ t.slot ||
  (t.sc && (t.fmt == .fp32 || t.dim0.origin % 32 != 0 || t.dim0.box % 32 != 0)) ||
  (t.fmt == .l6 && (t.dim0.origin % 16 != 0 || t.dim0.box % 16 != 0)) ||
  t.dims.tail.any fun d => d.stride % (if t.fmt = .l6 then 12 else t.esize) != 0

/-- Where a row of the box lies: the sum of the higher strides, and the row's index among all lines of
the tensor; none when the row lies beyond the extent (R167, R170). The row number is given in mixed
radix by the boxes, the second dimension running fastest. -/
def rowPlace : List Dim → Nat → Nat → Option (Nat × Nat)
  | [], _, _ => some (0, 0)
  | d :: ds, r, mul =>
    let x : Int := d.origin + (r % d.box : Nat)
    if x < 0 || (d.size : Int) ≤ x then none
    else
      match rowPlace ds (r / d.box) (mul * d.size) with
      | none => none
      | some (off, line) => some (off + x.toNat * d.stride, line + x.toNat * mul)

/-- The place of row `r`. -/
def Tensor.row (t : Tensor) (r : Nat) : Option (Nat × Nat) := rowPlace t.dims.tail r 1

/-- Byte `p` of a data row with strides' sum `off`: far address, and which of its bits lie within the
extent (R167, R170); none when no bit does. -/
def Tensor.dataByte (t : Tensor) (off p : Nat) : Option (Nat × Byte) :=
  let d := t.dim0
  if t.fmt = .l6 then
    let g : Int := d.origin / 16 + (p / 12 : Nat)
    let inExtent (bit : Nat) : Bool := decide (0 ≤ g) && g * 16 + (bit / 6 : Nat) < (d.size : Int)
    let mask := (List.range 8).foldl (fun (m : Nat) b =>
      if inExtent (8 * (p % 12) + b) then m + 2 ^ b else m) 0
    if mask = 0 then none
    else some (vaWrap (t.base + g.toNat * 12 + p % 12 + off), BitVec.ofNat 8 mask)
  else
    let x : Int := d.origin + (p / t.esize : Nat)
    if x < 0 || (d.size : Int) ≤ x then none
    else some (vaWrap (t.base + x.toNat * t.esize + p % t.esize + off), 0xFF#8)

/-- Byte `p` of a scale row on line `line`: far address, or none for a block beyond the extent. -/
def Tensor.scaleByte (t : Tensor) (line p : Nat) : Option (Nat × Byte) :=
  let d := t.dim0
  let nb := (d.size + 31) / 32
  let b : Int := d.origin / 32 + (p / 2 : Nat)
  if b < 0 || (nb : Int) ≤ b then none
  else some (vaWrap (t.sbase + 2 * (b.toNat + nb * line) + p % 2), 0xFF#8)

/-- Byte `p` of the command: the data slot's bytes, then the scale slot's. -/
def Tensor.byte (t : Tensor) (p : Nat) : Option (Nat × Byte) :=
  if p < t.dataBytes then
    (t.row (p / t.rowBytes)).bind fun (off, _) => t.dataByte off (p % t.rowBytes)
  else
    let q := p - t.dataBytes
    (t.row (q / t.rowScales)).bind fun (_, line) => t.scaleByte line (q % t.rowScales)

/-- The shelf offset of byte `p` of the command. -/
def Tensor.shelfAt (t : Tensor) (p : Nat) : Nat :=
  if p < t.dataBytes then t.dataAt + p else t.scaleAt + (p - t.dataBytes)

/-- The stretch of a row's bytes that lies within the extent, as the first one and a count. -/
def stretch (f : Nat → Option (Nat × Byte)) (n : Nat) : Option (Nat × Nat) :=
  match (List.range n).filter fun p => (f p).isSome with
  | [] => none
  | p :: ps => (f p).map fun x => (x.1, (p :: ps).length)

/-- The far ranges of the elements and scales within the extent, row by row (R476): of the data, or of the scales. -/
def Tensor.stretches (t : Tensor) (scales : Bool) : List (Nat × Nat) :=
  (List.range t.rows).filterMap fun r =>
    (t.row r).bind fun x =>
      if scales then stretch (t.scaleByte x.2) t.rowScales else stretch (t.dataByte x.1) t.rowBytes

/-- The far ranges of a tensor command: data, then scales. -/
def Tensor.ranges (t : Tensor) (write : Bool) : List FarRange :=
  [false, true].flatMap fun sc =>
    let xs := t.stretches sc
    let len := (xs.map (·.2)).foldl (· + ·) 0
    xs.map fun x => { va := x.1, n := x.2, rd := !write, wr := write, len }

end Sys2Proof.Machine
end

