-- ==== Sys2Proof/Machine/Ring.lean ====
section
/-!
DEFINITION. Collective operations of this package's rank: the chunks that each rank sends in each step
(R277, R278, R345), what a received chunk does and which chunk it makes ready, posting and turns
(R275 to R280, R346).
-/

namespace Sys2Proof.Machine

/-- A collective descriptor (Table 11-8). -/
structure CollDesc where
  send : Nat
  recv : Nat
  count : Nat
  op : Nat
  comm : Nat
  dtype : Nat
  root : Nat
  bar : Nat
  deriving DecidableEq, Repr

/-- Read it; of BAR the low 20 bits count. -/
def CollDesc.ofBytes (d : List Byte) : CollDesc where
  send := field d 0x00 8
  recv := field d 0x08 8
  count := field d 0x10 4
  op := field d 0x14 1
  comm := field d 0x15 1
  dtype := field d 0x16 1
  root := field d 0x17 1
  bar := field d 0x18 4 % 2 ^ 20

/-- Its element format and an element's bytes. -/
def CollDesc.fmt (d : CollDesc) : Fmt := (Fmt.ofCode d.dtype).getD .fp32
@[inherit_doc CollDesc.fmt] def CollDesc.esize (d : CollDesc) : Nat := d.fmt.bits / 8
/-- All-reduce or reduce-scatter. -/
def CollDesc.reduces (d : CollDesc) : Bool := d.op ≤ 1
/-- Bytes of SEND, none for a barrier operation. -/
def CollDesc.sendBytes (d : CollDesc) : Nat := if d.op = 4 then 0 else d.count * d.esize
/-- Bytes of RECV in a ring of `n` (R277). -/
def CollDesc.recvBytes (d : CollDesc) (n : Nat) : Nat :=
  match d.op with
  | 0 => d.count * d.esize
  | 1 => d.count / max 1 n * d.esize
  | 2 => n * d.count * d.esize
  | 3 => d.count * d.esize
  | _ => 0

/-! ## What each rank sends (R277, R278, R345) -/

/-- The block that rank `r` of `n` sends in step `k`. -/
def CollDesc.block (d : CollDesc) (n k r : Nat) : Nat :=
  if d.reduces then (r + 2 * n - 1 - k) % n
  else if d.op = 2 then (r + n - k) % n
  else 0

/-- First element and number of elements of a block. -/
def CollDesc.span (d : CollDesc) (n b : Nat) : Nat × Nat :=
  match d.op with
  | 0 =>
    let c := (d.count + n - 1) / max 1 n
    (b * c, min c (d.count - b * c))
  | 1 => (b * (d.count / max 1 n), d.count / max 1 n)
  | 4 => (0, 0)
  | _ => (0, d.count)

/-- Bytes of an element on the wire in step `k` (R278). -/
def CollDesc.wire (d : CollDesc) (n k : Nat) : Nat := if d.reduces && k + 1 < n then 4 else d.esize
/-- Elements of a full chunk in step `k`. -/
def CollDesc.per (d : CollDesc) (n k : Nat) : Nat := Config.chunkBytes / max 1 (d.wire n k)
/-- Chunks of a block in step `k`. -/
def CollDesc.parts (d : CollDesc) (n k b : Nat) : Nat :=
  ((d.span n b).2 + d.per n k - 1) / max 1 (d.per n k)
/-- First element within its block, and number of elements, of chunk `i` of block `b` in step `k`. -/
def CollDesc.part (d : CollDesc) (n k b i : Nat) : Nat × Nat :=
  let lo := i * d.per n k
  (lo, min (d.per n k) ((d.span n b).2 - lo))
/-- Steps of an operation. -/
def CollDesc.steps (d : CollDesc) (n : Nat) : Nat :=
  match d.op with
  | 0 => 2 * n - 2
  | 4 => 2
  | 3 => 1
  | _ => n - 1

/-- The chunks that rank `r` sends, in order: step and place within the block. -/
def CollDesc.plan (d : CollDesc) (n r : Nat) : List (Nat × Nat) :=
  match d.op with
  | 4 => if r + 1 < n then [(0, 0), (1, 0)] else [(0, 0)]
  | 3 => if (r + 1) % max 1 n = d.root then [] else (List.range (d.parts n 0 0)).map fun i => (0, i)
  | _ => (List.range (d.steps n)).flatMap fun k =>
      (List.range (d.parts n k (d.block n k r))).map fun i => (k, i)

/-! ## Buffers (R276, R373) -/

/-- Read a buffer at its home. -/
def State.bufRead (s : State) (c : Cmd) (a n : Nat) : List Byte :=
  if tagBits a = 0xE then s.homeBytes (harbourOf a) n
  else (List.range n).map fun i => s.farByte c.pages (vaWrap (a + i))

/-- Write a buffer at its home; the issuing core's L1 gives the lines up first. -/
def State.bufWrite (s : State) (c : Cmd) (a : Nat) (bs : List Byte) : State :=
  if tagBits a = 0xE then
    (s.flushRange c.core (harbourOf a) (harbourOf a + bs.length)).homeWrite (harbourOf a) bs
  else s.farWrite c.pages a bs

/-! ## Elements -/

/-- `n` little-endian numbers of `w` bytes. -/
def numbers (w n : Nat) (bs : List Byte) : List Nat := (List.range n).map fun i => field bs (w * i) w

/-- Elements of SEND as FP32 words: BF16 is widened exactly (R277). -/
def CollDesc.words (d : CollDesc) (send : List Byte) (lo n : Nat) : List Nat :=
  (numbers d.esize n (send.drop (lo * d.esize))).map fun x =>
    if d.dtype = 1 then x * 2 ^ 16 else x

/-- An FP32 addition under RNE without flags (R277). -/
def addWords (a b : Nat) : Nat :=
  (Fmt.fp32.round .rne false (Num.add .rne (Fmt.fp32.decode a).1 (Fmt.fp32.decode b).1).1).1

/-- An FP32 word written in DTYPE under RNE (R277). -/
def CollDesc.written (d : CollDesc) (x : Nat) : List Byte :=
  if d.dtype = 1 then bytesOf 2 (Fmt.bf16.round .rne false (Fmt.fp32.decode x).1).1 else bytesOf 4 x

/-- FP32 words on the wire. -/
def wordBytes (xs : List Nat) : List Byte := xs.flatMap (bytesOf 4)

/-! ## An operation at work -/

/-- Change an operation, by its command. -/
def State.modColl (s : State) (cmd : Nat) (f : CollOp → CollOp) : State :=
  { s with colls := s.colls.map fun (o : CollOp) => if o.cmd = cmd then f o else o }

/-- The operation of a communicator whose turn it is: the oldest one (R277). -/
def State.headColl (s : State) (comm : Nat) : Option CollOp := s.colls.find? (·.comm == comm)

/-- Make further chunks ready to be sent. -/
def CollOp.make (o : CollOp) (ds : List (List Byte)) : CollOp :=
  ds.foldl (fun o d => { o with chunks := o.chunks ++ [({ idx := o.chunks.length, data := d } : Chunk)] }) o

/-- Final values of this rank's block have come: keep them and, in an all-reduce, make the chunks of the
first gather step that they fill (R277, R278). -/
def CollOp.addFinal (o : CollOp) (d : CollDesc) (bs : List Byte) : CollOp :=
  let n := o.ring.nrank
  let o := { o with final := o.final ++ bs }
  if d.op ≠ 0 then o
  else
    let k := n - 1
    let b := d.block n k o.ring.rank
    let before := ((d.plan n o.ring.rank).filter fun p => p.1 < k).length
    let made := o.chunks.length - before
    let ready := (List.range (d.parts n k b)).filter fun i =>
      made ≤ i && ((d.part n k b i).1 + (d.part n k b i).2) * d.esize ≤ o.final.length
    o.make (ready.map fun i =>
      (o.final.drop ((d.part n k b i).1 * d.esize)).take ((d.part n k b i).2 * d.esize))

/-- A received chunk of a reduction step: this rank's term is added (R277). -/
def State.takeReduce (s : State) (c : Cmd) (d : CollDesc) (o : CollOp) (k i : Nat) (data : List Byte) :
    State × CollOp :=
  let n := o.ring.nrank
  let b := d.block n k (o.ring.rank + n - 1)
  let (lo, cnt) := d.part n k b i
  let own := d.words (o.send.getD []) ((d.span n b).1 + lo) cnt
  let sum := List.zipWith addWords (numbers 4 cnt data) own
  if k + 2 < n then (s, o.make [wordBytes sum])
  else
    let bs := sum.flatMap d.written
    let base := if d.op = 1 then 0 else (d.span n b).1
    (s.bufWrite c (d.recv + (base + lo) * d.esize) bs, o.addFinal d bs)

/-- A received chunk that carries elements: it is written, and forwarded if this rank forwards it. -/
def State.takeGather (s : State) (c : Cmd) (d : CollDesc) (o : CollOp) (k i : Nat) (data : List Byte) :
    State × CollOp :=
  let n := o.ring.nrank
  let b := d.block n k (o.ring.rank + n - 1)
  let (lo, _) := d.part n k b i
  let base := match d.op with
    | 0 => (d.span n b).1
    | 2 => b * d.count
    | _ => 0
  let on := if d.op = 3 then !(d.plan n o.ring.rank).isEmpty else decide (k + 1 < d.steps n)
  (s.bufWrite c (d.recv + (base + lo) * d.esize) data, if on then o.make [data] else o)

/-- The next chunk of an operation is applied (R277, R345). -/
def State.applyChunk (s : State) (o : CollOp) (data : List Byte) : State :=
  match s.cmds.find? (·.id == o.cmd) with
  | none => s
  | some c =>
    let d := CollDesc.ofBytes c.desc
    let n := o.ring.nrank
    match (d.plan n ((o.ring.rank + n - 1) % max 1 n))[o.received]? with
    | none => s
    | some (k, i) =>
      let (s, o) :=
        if d.op = 4 then
          let on := if o.ring.rank = 0 then decide (k = 0) else !(k == 1 && o.ring.rank + 1 == n)
          (s, if on then o.make [[]] else o)
        else if d.reduces && k + 1 < n then s.takeReduce c d o k i data
        else s.takeGather c d o k i data
      s.modColl o.cmd fun _ => { o with received := o.received + 1 }

/-- The chunks that an operation sends unasked: those of its own block, or the gather token of rank 0. -/
def CollOp.first (o : CollOp) (d : CollDesc) (send : List Byte) : List (List Byte) :=
  let n := o.ring.nrank
  let r := o.ring.rank
  let b := d.block n 0 r
  let own (i : Nat) : List Byte :=
    let (lo, cnt) := d.part n 0 b i
    if d.reduces then wordBytes (d.words send ((d.span n b).1 + lo) cnt)
    else (send.drop (lo * d.esize)).take (cnt * d.esize)
  match d.op with
  | 4 => if r = 0 then [[]] else []
  | 3 => if r = d.root then (List.range (d.parts n 0 0)).map own else []
  | _ => (List.range (d.parts n 0 b)).map own

/-- Apply, one after the other, the buffered chunks of an operation; each buffer drained owes a credit
(R278, R346). The last argument bounds their number. -/
def State.drainBufs (s : State) (comm cmd : Nat) : Nat → State
  | 0 => s
  | k + 1 =>
    match s.headColl comm with
    | none => s
    | some o =>
      let ch := s.channel comm
      if o.cmd ≠ cmd then s
      else match ch.bufs.find? fun b => b.1 == o.seq.toNat && b.2.1 == o.received with
        | none => s
        | some b =>
          let s := s.modChannel comm fun h => { h with bufs := h.bufs.erase b, owed := h.owed + 1 }
          (s.applyChunk o b.2.2).drainBufs comm cmd k

/-- The oldest operation of a communicator begins, if it has not: SEND is read, this rank's own part of
RECV is written, and the chunks that came early are applied (R277, R346). -/
def State.beginColl (s : State) (comm : Nat) : State :=
  match s.headColl comm with
  | none => s
  | some o =>
    if o.send.isSome then s
    else match s.cmds.find? (·.id == o.cmd) with
      | none => s
      | some c =>
        let d := CollDesc.ofBytes c.desc
        let send := s.bufRead c d.send d.sendBytes
        let s := if d.op = 2 then s.bufWrite c (d.recv + o.ring.rank * d.count * d.esize) send
          else if d.op = 3 && o.ring.rank == d.root then s.bufWrite c d.recv send
          else s
        let s := s.modColl o.cmd fun o => { o with send := some send }.make (o.first d send)
        s.drainBufs comm o.cmd 4

/-- The communicator record that a COLL copied at issue: its kind of service and size, then its nodes. -/
def Cmd.ring (c : Cmd) : Communicator where
  high := c.args.headD 0 == 1
  nrank := (c.args.drop 1).headD 0
  rank := (c.args.drop 2).headD 0
  nodes := c.args.drop 3

/-- Post an operation to the engine: it takes the communicator's next sequence number (R346). -/
def State.postColl (s : State) (c : Cmd) : State :=
  let comm := (CollDesc.ofBytes c.desc).comm
  let o : CollOp := { cmd := c.id, comm, seq := (s.channel comm).seq, ring := c.ring }
  let s := s.modChannel comm fun h => { h with seq := h.seq + 1 }
  { s with colls := s.colls ++ [o] }.beginColl comm

/-- The operation's local buffers are final and its chunks are accepted, or it has failed (R280). -/
def State.collDone (s : State) (o : CollOp) : Bool :=
  match s.cmds.find? (·.id == o.cmd) with
  | none => true
  | some c =>
    let d := CollDesc.ofBytes c.desc
    let n := o.ring.nrank
    o.status ≠ 0 ||
      (o.send.isSome && o.received == (d.plan n ((o.ring.rank + n - 1) % max 1 n)).length &&
        o.chunks.length == (d.plan n o.ring.rank).length && o.chunks.all (·.accepted))

end Sys2Proof.Machine
end

