-- ==== Sys2Proof/Machine/Engines.lean ====
section
/-!
DEFINITION. Engine commands: the queue of each strand and engine, guards, allowances and admission,
transfer units, what each kind of command does when its units land, completion, freezing (R52 to R54,
R172 to R176, R181, R183 to R186, R253, R375, R431, R448, R477 to R479).
-/

namespace Sys2Proof.Machine

/-- The engine a command goes to: each keeps one queue per strand (R53). -/
def CmdKind.engine : CmdKind → Nat
  | .copy | .puts => 0
  | .tfetch | .tstore => 1
  | .mcopy | .mfill | .mreduce => 2
  | .coll => 3

/-- TFETCH or TSTORE. -/
def CmdKind.fetch (k : CmdKind) : Bool := k.engine == 1
/-- MCOPY, MFILL or MREDUCE. -/
def CmdKind.module (k : CmdKind) : Bool := k.engine == 2

/-- Held, or waiting for admission: it still holds back later commands of its queue (R53, R173). -/
def Cmd.waits (c : Cmd) : Bool := c.phase == .held || c.phase == .admission
/-- It stands in the queue of a strand for an engine. -/
def Cmd.inQueue (c : Cmd) (uid eng : Nat) : Bool := c.uid == uid && c.kind.engine == eng && c.waits
/-- A strand's queue for an engine holds a command (R173). -/
def State.queued (s : State) (uid eng : Nat) : Bool := s.cmds.any (·.inQueue uid eng)

/-! ## Allowances (R172 to R174) -/

/-- Bytes charged to the commands that satisfy a condition. -/
def State.outstanding (s : State) (p : Cmd → Bool) : Nat :=
  ((s.cmds.filter p).map (·.charge)).foldl (· + ·) 0

/-- A task's allowance on a die (R172). DESIGN CHOICE, unsafe (log 74): a task that holds no workgroup on the die any more
keeps the basic level of one core for the commands it has there. -/
def State.allowance (s : State) (run die : Nat) : Nat :=
  match s.run? run with
  | none => Config.dieAllowance
  | some r =>
    let a := r.field 0x20 2
    if a ≠ 0 then min (a * 2 ^ 16) Config.dieAllowance
    else
      let held := s.cores.filter fun e => dieOf e.1 == die && e.2.ctx.wgs.any (·.run == run)
      min (max 1 held.length * 2 ^ 21) Config.dieAllowance

/-- A charge fits the task's allowance, the die, the class and the strand's own limit (R173, R174). -/
def State.fits (s : State) (die run uid bytes limit scap : Nat) (high : Bool) : Bool :=
  let on (c : Cmd) : Bool := dieOf c.core == die
  s.outstanding (fun c => on c && c.run == run) + bytes ≤ s.allowance run die &&
  s.outstanding on + bytes ≤ Config.dieAllowance &&
  (high || s.outstanding (fun c => on c && !c.high) + bytes ≤ limit) &&
  (scap == 0 || s.outstanding (fun c => c.uid == uid) + bytes ≤ scap)

/-- The ticket of a split that waits for an allowance. -/
def Stall.ticket? : Stall → Option Nat
  | .allowance t _ _ _ _ _ _ => Option.some t
  | _ => Option.none

/-- Places in the order of age of what waits for an allowance on a die, at its instruction or in the
window manager (R173). -/
def State.tickets (s : State) (die : Nat) : List Nat :=
  (s.cmds.filter fun c => c.phase == .admission && dieOf c.core == die && !c.frozen).map (·.id) ++
  (s.cores.filter fun e => dieOf e.1 == die).flatMap fun e =>
    e.2.ctx.strands.flatMap fun t => t.2.splits.filterMap fun p =>
      if p.2.valid then p.2.stall.ticket? else none

/-- Oldest first across the die (R173). -/
def State.oldest (s : State) (die ticket : Nat) : Bool := (s.tickets die).all (ticket ≤ ·)

/-! ## Units -/

/-- Units of 4 KiB over `n` bytes from `off`, and what is left (R375). -/
def unitsOf (off n : Nat) : List CmdUnit :=
  (List.range ((n + 4095) / 4096)).map fun u => { off := off + 4096 * u, len := min 4096 (n - 4096 * u) }

/-- Units over `n` bytes of a destination at a virtual address, none of which crosses a 4 KiB boundary
(R431). The last argument bounds their number. -/
def moduleUnits (va n off : Nat) : Nat → List CmdUnit
  | 0 => []
  | k + 1 =>
    if n ≤ off then []
    else
      let len := min (4096 - (va + off) % 4096) (n - off)
      { off, len } :: moduleUnits va n (off + len) k

/-- The tensor descriptor of a TFETCH or TSTORE. -/
def Cmd.tensor (c : Cmd) : Tensor := .ofBytes c.desc

/-- The length of the unit that begins `d` bytes into a slot at a shelf offset, when more bytes follow it: at most 4 KiB, up to
a boundary of 16 shelf bytes, and of `g` bytes of the slot. -/
def cutAfter (base g d : Nat) : Nat :=
  4096 - (((List.range 48).find? fun k => (base + (d + 4096 - k)) % 16 == 0 && (d + 4096 - k) % g == 0).getD 0)

/-- Units over the `n` bytes of a slot at a shelf offset, from `d` on; `off` is the place of the slot's first byte in its
command (R176). No unit of 16 shelf bytes lies in two of them, and no group of `g` bytes (R478). The last argument bounds
their number. -/
def slotUnits (base g off n d : Nat) : Nat → List CmdUnit
  | 0 => []
  | k + 1 =>
    if n ≤ d then []
    else
      let len := min (cutAfter base g d) (n - d)
      { off := off + d, len } :: slotUnits base g off n (d + len) k

/-- Bytes of a slot that one step updates: a group of L6 (R478). -/
def Tensor.group (t : Tensor) : Nat := if t.fmt = .l6 then 12 else 1

/-- Units of a tensor command in ascending shelf order (R176). DESIGN CHOICE, safe (log 81): each is as long as may be. -/
def Tensor.units (t : Tensor) : List CmdUnit :=
  let data := slotUnits t.dataAt t.group 0 t.dataBytes 0 (t.dataBytes / 4049 + 1)
  let scales := slotUnits t.scaleAt 1 t.dataBytes t.scaleBytes 0 (t.scaleBytes / 4049 + 1)
  if t.scaleAt < t.dataAt then scales ++ data else data ++ scales

/-- A module command descriptor (Table 20-1). -/
structure ModuleCmd where
  dst : Nat
  pat : Nat
  len : Nat
  bar : Nat
  sfmt : Nat
  nsrc : Nat
  flags : Nat
  srcs : List Nat
  deriving DecidableEq, Repr

/-- Read its 96 bytes. -/
def ModuleCmd.ofBytes (d : List Byte) : ModuleCmd where
  dst := field d 0x00 8
  pat := field d 0x08 8
  len := field d 0x10 8
  bar := field d 0x18 4
  sfmt := field d 0x1C 1
  nsrc := field d 0x1D 1
  flags := field d 0x1E 1
  srcs := (List.range 8).map fun k => field d (0x20 + 8 * k) 8

/-- Destination bytes (R431). -/
def ModuleCmd.bytes (m : ModuleCmd) (k : CmdKind) : Nat := if k = .mreduce then 4 * m.len else m.len

/-- The bytes a command expects on its barrier and, for TFETCH and TSTORE, charges (R476, R431). -/
def Cmd.bytes (c : Cmd) : Nat :=
  if c.kind.fetch then c.tensor.dataBytes + c.tensor.scaleBytes
  else if c.kind.module then (ModuleCmd.ofBytes c.desc).bytes c.kind
  else 0

/-! ## Completion -/

/-- A command completes, or is discarded at its place: its counter falls in issue order and it is gone
(R53, R181). -/
def State.endCmd (s : State) (c : Cmd) : State :=
  (s.modUid c.core c.uid fun t => t.arrive c.flight).dropCmd c.id

/-- Add to MEMERR.DROPS, saturating (Table 7-4). -/
def addDrops (v : DWord) (n : Nat) : DWord :=
  BitVec.ofNat 64 (v.toNat / 2 ^ 32 * 2 ^ 32 + min (v.toNat % 2 ^ 32 + n) 0xFFFFFFFF)

/-- Count dropped bytes or units in MEMERR and CERR (R186, R248). -/
def State.countDrops (s : State) (part core n : Nat) : State :=
  (s.modPart part fun p => { p with memerr := addDrops p.memerr n }).modCore core fun k =>
    { k with drops := min (k.drops + n) 0xFFFF }

/-- A released command whose expectation would overflow PEND is discarded, with ERR, the counters and
event 0x02 (R431, R479). A module command counts LEN as it stands; DETAIL0 is the data slot's offset, 0 for a
module command (log 15). -/
def State.overflowCmd (s : State) (c : Cmd) (bar : Nat) : State :=
  let s := s.setBarrier c.core bar { s.barrier c.core bar with err := true }
  let s := s.countDrops c.part c.core (if c.kind.module then (ModuleCmd.ofBytes c.desc).len else c.bytes)
  let s := s.post c.part 0x02 c.core 0xFFFF (if c.kind.fetch then c.tensor.dataAt else 0) 3
  s.endCmd c

/-- Expect bytes on a barrier object, unless the count would not fit (Table 7-8). -/
def State.expectOn? (s : State) (core off n : Nat) : Option State :=
  ((s.barrier core off).expect? n).map (s.setBarrier core off)

/-- Some optical port of a core's die is up: OEn serves CDn and carries OP(8n) to OP(8n + 7) (R11), and far traffic of the
die goes on (R185). In P3 the ports are idle (R284). -/
def State.farOpen (s : State) (core : Nat) : Bool :=
  !s.mgmt.p3 && (List.range 8).any fun k => ((s.ports.read {} (8 * dieOf core + k)).down).isNone

/-- Send the units that have neither landed nor been acknowledged, at a time; none: they wait for a port (R176, R185,
R256). -/
def Cmd.dispatch (c : Cmd) (now : Option Nat) : Cmd :=
  { c with phase := .active, units := c.units.map fun u => if u.landed || u.acked then u else { u with sent := now } }

/-- When units of a core that are dispatched now are sent: as long as every port of the die is down, they wait (R185). -/
def State.sendTime (s : State) (core : Nat) : Option Nat := if s.farOpen core then some s.time else none

/-- Send the far units of a die that wait for a port (R185). -/
def State.sendWaiting (s : State) (die : Nat) : State :=
  let go (c : Cmd) : Cmd :=
    if (c.kind.fetch || c.kind.module) && c.phase == .active && !c.frozen && dieOf c.core == die then
      { c with units := c.units.map fun u => if u.sent.isSome then u else { u with sent := s.sendTime c.core } }
    else c
  { s with cmds := s.cmds.map go }

/-- Admit a TFETCH or TSTORE: charge and expect in one step (R173, R477). -/
def State.admitCmd (s : State) (c : Cmd) : State :=
  let bar := c.bar.getD 0
  match s.expectOn? c.core bar c.bytes with
  | none => s.overflowCmd c bar
  | some s =>
    s.modCmd c.id fun c =>
      let c := { c with charge := c.bytes }
      if c.tensor.rw then { c with phase := .release } else c.dispatch (s.sendTime c.core)

/-- Start a command whose guard lets it: a fetch is admitted or waits for admission; a module command
expects its bytes; the others go to work (R53, R173, R431). -/
def State.start (s : State) (c : Cmd) : State :=
  if c.kind.fetch then
    if s.oldest (dieOf c.core) c.id && s.fits (dieOf c.core) c.run c.uid c.bytes c.limit c.scap c.high
    then s.admitCmd c
    else s.modCmd c.id fun c => { c with phase := .admission }
  else if c.kind.module then
    match s.expectOn? c.core (c.bar.getD 0) c.bytes with
    | none => s.overflowCmd c (c.bar.getD 0)
    | some s => s.modCmd c.id (·.dispatch (s.sendTime c.core))
  else
    let s := s.modCmd c.id (·.dispatch (some s.time))
    if c.kind = .coll then s.postColl c else s

/-- What the strand's guard slot holds; a strand that has ended has resolved every guard (R56). -/
def State.guardOf (s : State) (core uid : Nat) (g : Option Nat) : Guard :=
  match g, s.slotOf core uid with
  | some g, some slot => (s.strand core slot).guard g
  | _, _ => .isTrue

/-- Let a strand's queue for an engine move: from its head, commands start until one is held on an
unresolved guard or must wait for admission (R53, R173). The last argument bounds the commands. -/
def State.advanceBy (s : State) (uid eng : Nat) : Nat → State
  | 0 => s
  | k + 1 =>
    match s.cmds.find? (·.inQueue uid eng) with
    | none => s
    | some c =>
      if c.frozen || c.phase == .admission then s
      else match s.guardOf c.core uid c.guard with
        | .unresolved => s
        | .isFalse => (s.endCmd c).advanceBy uid eng k
        | .isTrue =>
          let s := s.start c
          if (s.cmd? c.id).any (·.waits) then s else s.advanceBy uid eng k

/-- Let a strand's queue for an engine move. -/
def State.advance (s : State) (uid eng : Nat) : State := s.advanceBy uid eng s.cmds.length

/-- Let every queue of a strand move. -/
def State.advanceAll (s : State) (uid : Nat) : State := (List.range 4).foldl (fun s e => s.advance uid e) s

/-- Post a command: its counter has risen; a guard that is FALSE discards it (R53, R54). -/
def State.submit (s : State) (c : Cmd) : State :=
  let s := { s with cmds := s.cmds ++ [c] }
  if s.guardOf c.core c.uid c.guard = .isFalse then s.endCmd c else s.advance c.uid c.kind.engine

/-- Discard the commands of a strand that are held on a guard (R53). -/
def State.discardHeld (s : State) (uid g : Nat) : State :=
  (s.cmds.filter fun c => c.uid == uid && c.guard == some g && c.phase == .held).foldl State.endCmd s

/-! ## Units at work -/

/-- All units have landed: the command completes. -/
def State.finishCmd (s : State) (id : Nat) : State :=
  match s.cmd? id with
  | some c => if c.units.all (·.landed) then s.endCmd c else s
  | none => s

/-- A unit of a command. -/
def Cmd.unit? (c : Cmd) (u : Nat) : Option CmdUnit := c.units[u]?

/-- The unit is dispatched and has neither landed nor been acknowledged. -/
def Cmd.pending (c : Cmd) (u : Nat) : Bool :=
  c.phase == .active && !c.frozen && (c.unit? u).any fun x => x.sent.isSome && !x.landed && !x.acked

/-- Mark a unit as landed and return its charge. -/
def Cmd.mark (c : Cmd) (u : Nat) : Cmd :=
  match c.unit? u with
  | none => c
  | some x => { c with units := c.units.set u { x with landed := true }, charge := c.charge - x.len }

/-- A unit's bytes land on the command's barrier, and the command completes after its last one. -/
def State.settleUnit (s : State) (c : Cmd) (u : Nat) (dropped : Bool) : State :=
  let len := ((c.unit? u).map (·.len)).getD 0
  let s := s.landOn c.core (c.bar.getD 0) len dropped
  (s.modCmd c.id (·.mark u)).finishCmd c.id

/-- The bytes a TFETCH unit brings (R167, R170). -/
def State.fetchBytes (s : State) (c : Cmd) (x : CmdUnit) : List Byte :=
  let t := c.tensor
  (List.range x.len).map fun i =>
    match t.byte (x.off + i) with
    | none => 0
    | some (va, mask) => s.farByte c.pages va &&& mask

/-- A TFETCH unit lands in the shelf (R176, R477). -/
def State.landUnit (s : State) (c : Cmd) (u : Nat) (x : CmdUnit) : State :=
  let bs := s.fetchBytes c x
  let s := s.modShelf c.core fun m => m.putBytes (c.tensor.shelfAt x.off) bs
  (s.count c.core 0x08 x.len).settleUnit c u false

/-- A TSTORE unit's bytes reach far memory (R478). -/
def State.storeUnit (s : State) (c : Cmd) (x : CmdUnit) : State :=
  let t := c.tensor
  (List.range x.len).foldl (fun s i =>
    match t.byte (x.off + i) with
    | none => s
    | some (va, mask) =>
      s.setFarByte c.pages va mask ((s.shelf c.core).byte (t.shelfAt (x.off + i)))) s

/-- An FP32 element of an MREDUCE (R184): the exact sum of the sources, rounded once to nearest even. -/
def State.reduced (s : State) (c : Cmd) (m : ModuleCmd) (e : Nat) : Nat :=
  let f := (Fmt.ofCode m.sfmt).getD .fp32
  let src := (m.srcs.take m.nsrc).map fun a => (f.decode (s.farLoad c.pages (a + e * (f.bits / 8)) (f.bits / 8))).1
  let prior := if m.flags.testBit 0 then [(Fmt.fp32.decode (s.farLoad c.pages (m.dst + 4 * e) 4)).1] else []
  (Fmt.fp32.round .rne false (Num.sum .rne (src ++ prior)).1).1

/-- The bytes a module unit writes (R431). -/
def State.moduleBytes (s : State) (c : Cmd) (x : CmdUnit) : List Byte :=
  let m := ModuleCmd.ofBytes c.desc
  if c.kind = .mcopy then
    (List.range x.len).map fun i => s.farByte c.pages (vaWrap (m.srcs.headD 0 + x.off + i))
  else if c.kind = .mfill then
    (List.range x.len).map fun i => BitVec.ofNat 8 (m.pat >>> (8 * ((x.off + i) % 8)))
  else
    (List.range (x.len / 4)).flatMap fun e => bytesOf 4 (s.reduced c m (x.off / 4 + e))

/-- A far unit is written in DRAM (R183, R478). -/
def State.writeUnit (s : State) (c : Cmd) (x : CmdUnit) : State :=
  if c.kind.fetch then s.storeUnit c x
  else s.farWrite c.pages ((ModuleCmd.ofBytes c.desc).dst + x.off) (s.moduleBytes c x)

/-- Its acknowledgement is applied: the bytes land on the barrier (R183). -/
def State.ackUnit (s : State) (c : Cmd) (u : Nat) (dropped : Bool) : State :=
  let n := ((c.unit? u).map (·.len)).getD 0
  let s := if dropped then s else s.count c.core 0x09 n
  s.settleUnit c u dropped

/-- A unit is dropped: the counters rise and an event is posted (R186). DETAIL0 is the unit's shelf offset;
0 for a module unit (log 15). -/
def State.noteDrop (s : State) (c : Cmd) (x : CmdUnit) (cause : Nat) : State :=
  ((s.countDrops c.part c.core 1).count c.core 0x0A 1).post c.part 0x02 c.core 0xFFFF
    (if c.kind.fetch then c.tensor.shelfAt x.off else 0) cause

/-- A dropped unit's bytes land with ERR (R186). -/
def State.dropUnit (s : State) (c : Cmd) (u : Nat) (x : CmdUnit) (cause : Nat) : State :=
  (s.noteDrop c x cause).settleUnit c u true

/-! ## COPY and PUTS -/

/-- A copy descriptor (Table 18-8). -/
structure CopyDesc where
  src : Nat
  dst : Nat
  bytes : Nat
  bar : Nat
  deriving DecidableEq, Repr

/-- Read it. -/
def CopyDesc.ofBytes (d : List Byte) : CopyDesc where
  src := field d 0 4
  dst := field d 4 4
  bytes := field d 8 4
  bar := field d 12 4

/-- The engine arrival of COPY and PUTS, then completion (R375, R448). -/
def State.arriveAndEnd (s : State) (c : Cmd) : State :=
  let s := match c.bar with
    | some off => s.engineArrive c.bcore off false
    | none => s
  s.endCmd c

/-- Move a COPY's next unit; after the last one, arrive and complete. `args` holds the source core. -/
def State.copyUnit (s : State) (c : Cmd) : State :=
  let d := CopyDesc.ofBytes c.desc
  match c.units.findIdx? fun x => !x.landed with
  | none => s
  | some u =>
    let x := (c.unit? u).getD { off := 0, len := 0 }
    let bs := (s.shelf (c.args.headD 0)).bytes (d.src % 2 ^ 20 + x.off) x.len
    let s := s.modShelf c.bcore fun m => m.putBytes (d.dst % 2 ^ 20 + x.off) bs
    let c := c.mark u
    let s := s.modCmd c.id fun _ => c
    if c.units.all (·.landed) then s.arriveAndEnd c else s

/-- Write the words of a PUTS, then arrive and complete (R448). `args` holds the target offset. -/
def State.putsAll (s : State) (c : Cmd) : State :=
  let s := s.modShelf c.bcore fun m =>
    c.words.foldl (fun m w => Mem.store m (c.args.headD 0 + 4 * w.1) 4 w.2) m
  s.arriveAndEnd c

/-! ## Freezing (R253, R256) -/

/-- Freeze a command: units that have not landed are abandoned. Commands already with a module
controller or the collective engine go on (R254). -/
def Cmd.freeze (c : Cmd) : Cmd :=
  if (c.kind.module || c.kind == .coll) && !c.waits then c
  else { c with frozen := true, units := c.units.map fun u => { u with sent := none } }

/-- Take it up again: only units absent from the bitmap are sent (R256). -/
def Cmd.thaw (c : Cmd) (now : Option Nat) : Cmd :=
  if !c.frozen then c
  else if c.phase = .active then { c.dispatch now with frozen := false } else { c with frozen := false }

end Sys2Proof.Machine
end

