-- ==== Sys2Proof/Machine/Scales.lean ====
section
/-!
DEFINITION. Physical scale entries, tags and reference counts (R115 to R118, R121, R125), and the locks
that queued matrix operations hold on registers, tiles and entries (R72).
-/

namespace Sys2Proof.Machine

/-! ## Locks (R72) -/

/-- A matrix operation in the queue holds a physical vector register of a strand: the 16 registers that
supply A of an MMA. -/
def Context.lockedV (x : Context) (uid phys : Nat) : Bool :=
  x.queue.any fun o => !o.mmx && o.members.any fun m =>
    m.uid == uid && m.abase ≤ phys && phys < m.abase + 16

/-- A matrix operation holds an accumulator of a strand as its target. -/
def Context.lockedA (x : Context) (uid a : Nat) : Bool :=
  x.queue.any fun o => o.members.any fun m => m.uid == uid && m.acc == a && !m.gone

/-- A matrix operation holds a tile of a workgroup. -/
def Context.lockedT (x : Context) (wg t : Nat) : Bool :=
  x.queue.any fun o => o.wg == wg && (match o.btile with | some (n, _) => n == t | none => false)

/-- A matrix operation holds a scale entry. -/
def Context.lockedE (x : Context) (e : Nat) : Bool :=
  x.queue.any fun o => o.bentry == some e || o.members.any fun m => m.sentry == some e

/-- A strand has a matrix operation that is not complete. -/
def Context.matrixBusy (x : Context) (uid : Nat) : Bool :=
  x.queue.any fun o => o.members.any fun m => m.uid == uid

/-- A strand has an MMA that is not complete (R380). -/
def Context.mmaBusy (x : Context) (uid : Nat) : Bool :=
  x.queue.any fun o => !o.mmx && o.members.any fun m => m.uid == uid

/-- A strand has an MMX that has issued and not completed (R143). -/
def Context.mmxBusy (x : Context) (uid : Nat) : Bool :=
  x.queue.any fun o => o.mmx && o.members.any fun m => m.uid == uid

/-! ## Entries -/

/-- A physical scale entry. -/
def Context.entry (x : Context) (e : Nat) : ScaleEntry := x.scales.read {} e
/-- Set a physical scale entry. -/
def Context.setEntry (x : Context) (e : Nat) (v : ScaleEntry) : Context :=
  { x with scales := x.scales.put e v }
/-- The entry number of a tag (R115). -/
def tagEntry (tag : BitVec 16) : Nat := tag.toNat / 64
/-- The tag of an entry with its present generation (R115). -/
def Context.tagOf (x : Context) (e : Nat) : BitVec 16 :=
  BitVec.ofNat 16 (e * 64 + (x.entry e).gen.toNat)
/-- A tag is current: its entry is allocated under the tag's generation (R115). -/
def Context.current (x : Context) (tag : BitVec 16) : Bool :=
  let v := x.entry (tagEntry tag)
  v.use == .used && v.gen.toNat == tag.toNat % 64
/-- The scales that a tag names. -/
def Context.scalesOf (x : Context) (tag : BitVec 16) : List (BitVec 16) := (x.entry (tagEntry tag)).data

/-- Append an entry to the free list of the workgroup whose pool holds it (R116). -/
def Context.toFreeList (x : Context) (e : Nat) : Context :=
  { x with wgs := x.wgs.map fun (w : Workgroup) => if w.pool.contains e then { w with free := w.free ++ [e] } else w }

/-- Free an entry (R116): the generation advances and, unless a lock holds it, the entry joins the free
list; held by a lock it joins when the lock is released (R121). -/
def Context.freeEntry (x : Context) (e : Nat) : Context :=
  let v := x.entry e
  if x.lockedE e then x.setEntry e { v with gen := v.gen + 1, refs := 0, use := .leaving }
  else (x.setEntry e { v with gen := v.gen + 1, refs := 0, use := .free }).toFreeList e

/-- Drop one reference to a tag, if it is current; the last one frees the entry, when no lock holds it
(R117). DESIGN CHOICE, unsafe (log 56): a reference that was stale and has become current again as generations wrapped
(R123) was never counted, and yet the count falls when it is dropped. -/
def Context.dropRef (x : Context) (tag : BitVec 16) : Context :=
  if !x.current tag then x
  else
    let e := tagEntry tag
    let v := x.entry e
    if v.refs ≤ 1 then
      if x.lockedE e then x.setEntry e { v with refs := 0 } else x.freeEntry e
    else x.setEntry e { v with refs := v.refs - 1 }

/-- Add one reference to a current tag (R119). -/
def Context.addRef (x : Context) (tag : BitVec 16) : Context :=
  let e := tagEntry tag
  x.setEntry e { x.entry e with refs := (x.entry e).refs + 1 }

/-- After locks have been released: free the entries that waited for it (R117, R121). DESIGN CHOICE, unsafe (log 53): an
entry whose count has fallen to 0 under a lock stays current, and a reference that is made to it before the lock is
released keeps it. DESIGN CHOICE, unsafe (log 73): the entries that one event frees join the free list in this order, B's
entry first, then the A entries in the order of the members. -/
def Context.releaseEntries (x : Context) (es : List Nat) : Context :=
  es.foldl (fun x e =>
    let v := x.entry e
    if x.lockedE e then x
    else if v.use == .used && v.refs == 0 then x.freeEntry e
    else if v.use == .leaving then (x.setEntry e { v with use := .free }).toFreeList e
    else x) x

/-- How an allocation for a workgroup stands (R125). -/
inductive Alloc where
  | ready | wait | exhausted
  deriving DecidableEq, Repr

/-- Judge an allocation (R125): `old` is the reference the destination would drop. -/
def Context.canAlloc (x : Context) (w : Workgroup) (old : Option (BitVec 16)) : Alloc :=
  if !w.free.isEmpty then .ready
  else
    let last (e : Nat) : Bool := match old with
      | some tag => x.current tag && tagEntry tag == e && (x.entry e).refs ≤ 1
      | none => false
    if w.pool.any fun e => last e && !x.lockedE e then .ready
    else if w.pool.any fun e => x.lockedE e &&
        (last e || (x.entry e).refs == 0) then .wait
    else .exhausted

/-- Allocate the entry at the head of a workgroup's free list, with its contents and one reference
(R116); the tag is new. -/
def Context.alloc (x : Context) (wg : Nat) (data : List (BitVec 16)) : Context × BitVec 16 :=
  match (x.wg? wg).bind (·.free.head?) with
  | none => (x, 0)
  | some e =>
    let x := { x with wgs := x.wgs.map fun (w : Workgroup) => if w.id = wg then { w with free := w.free.tail } else w }
    let x := x.setEntry e { x.entry e with data, refs := 1, use := .used }
    (x, x.tagOf e)

/-- Step 3 of R118: drop the destination's old reference, allocate, and map the destination. -/
def Context.writeScale (x : Context) (slot d : Nat) (data : List (BitVec 16)) : Context :=
  match x.strands.at? slot with
  | none => x
  | some t =>
    let x := match t.sregs.at? d with
      | some tag => x.dropRef tag
      | none => x
    let (x, tag) := x.alloc t.wg data
    { x with strands := Store.modify x.strands slot fun t => { t with sregs := t.sregs.put d tag } }

end Sys2Proof.Machine
end

