-- ==== Sys2Proof/Machine/Matrix.lean ====
section
/-!
DEFINITION. The matrix engine: block arithmetic (R92 to R98), steps and rounds (R136, R138, R144),
completion, guards and shadows (R55, R147, R436), stopping and ending (R145, R146).
-/

namespace Sys2Proof.Machine

/-! ## Block arithmetic (R92 to R97) -/

/-- FMT fields (Table 3-3). -/
def fmtA (f : Word) : Nat := bits f.toNat 15 12
@[inherit_doc fmtA] def fmtB (f : Word) : Nat := bits f.toNat 11 8
@[inherit_doc fmtA] def fmtO (f : Word) : Nat := bits f.toNat 7 4
@[inherit_doc fmtA] def fmtAsr (f : Word) : Nat := bits f.toNat 27 23
@[inherit_doc fmtA] def fmtAsc (f : Word) : Bool := f.getLsbD 22
@[inherit_doc fmtA] def fmtBsc (f : Word) : Bool := f.getLsbD 21
@[inherit_doc fmtA] def fmtSp (f : Word) : Bool := f.getLsbD 20
@[inherit_doc fmtA] def fmtFz (f : Word) : Bool := f.getLsbD 19
@[inherit_doc fmtA] def fmtRm (f : Word) : Rm := Rm.ofCode (bits f.toNat 1 0)

/-- The fields that members of a joint operation must share (R48, R74): AFMT, BFMT, ASC, BSC, SP, FZ, RM. -/
def fmtFields (f : Word) : Nat := (f &&& 0x0078FF03#32).toNat

/-- The pairs that a matrix operation accepts (Table 6-1). -/
def acceptedPair (f : Word) : Option (Fmt × Fmt) :=
  match Fmt.ofCode (fmtA f), Fmt.ofCode (fmtB f) with
  | some .l6, some .l6 => some (.l6, .l6)
  | some .l8, some .l8 => some (.l8, .l8)
  | some .l6, some .l8 => some (.l6, .l8)
  | some .l8, some .l6 => some (.l8, .l6)
  | some .f8, some .f8 => some (.f8, .f8)
  | some .bf16, some .bf16 => some (.bf16, .bf16)
  | some .fp16, some .fp16 => some (.fp16, .fp16)
  | _, _ => none

/-- A log element for a product: its magnitude code on the steps of the product, its sign, IV if it is
invalid. `wide`: the product follows the L8 rules (R93). -/
def logElem (f : Fmt) (wide : Bool) (x : Nat) : Nat × Bool × Flags :=
  if f = .l6 then
    let c := x % 32
    if c = 0 then (0, false, if x.testBit 5 then flagIV else 0)
    else (if wide then 2 * c + 32 else c, x.testBit 5, 0)
  else
    let c := x % 128
    if c = 0 then (0, false, if x.testBit 7 then flagIV else 0) else (c, x.testBit 7, 0)

/-- The product of an A and a B element (R92 to R94, R96). -/
def product (fa fb : Fmt) (ftz : Bool) (x y : Nat) : Num × Flags :=
  if fa.isLog then
    let wide := fa == .l8 || fb == .l8
    let (ca, sa, ga) := logElem fa wide x
    let (cb, sb, gb) := logElem fb wide y
    if ca = 0 || cb = 0 then (Num.zero false, ga ||| gb)
    else
      let e : Int := (ca : Int) + (cb : Int) - (if wide then 128 else 32)
      let (m, q) := tableValue (!wide) e
      (.fin (sa != sb) m q, ga ||| gb)
  else
    let (vx, gx) := fa.src ftz x
    let (vy, gy) := fb.src ftz y
    let (p, g) := Num.mul vx vy
    (p, g ||| gx ||| gy)

/-- The exact sum of a block's products (R94); an absent B position is left out with its A element
(R97). -/
def blockSum (fa fb : Fmt) (ftz : Bool) (xs : List (Nat × Option Nat)) : Num × Flags :=
  let ps := xs.filterMap fun x => x.2.map fun y => product fa fb ftz x.1 y
  let (s, g) := Num.sum .rne (ps.map (·.1))
  (s, ps.foldl (fun f p => f ||| p.2) g)

/-- One update of an accumulator element by a block (R95, R96, R104). -/
def accUpdate (ftz : Bool) (acc : Nat) (s : Num) (sa sb : Nat) : Nat × Flags :=
  let va := (Fmt.bf16.decode sa).1
  let vb := (Fmt.bf16.decode sb).1
  if s.isZero && va.isFinite && vb.isFinite && !(Fmt.fp32.decode acc).1.isNan then (acc, 0)
  else
    let (p, f1) := Num.mul s va
    let (p, f2) := Num.mul p vb
    let (r, f3) := Num.add .rne (Fmt.fp32.src ftz acc).1 p
    let (v, f4) := Fmt.fp32.round .rne ftz r
    (v, f1 ||| f2 ||| f3 ||| f4)

/-- What one step reads: element formats, A element (i, k), B element (k, j) if it is present, scales of
a row or column and block, and how many blocks it has. -/
structure StepIn where
  fa : Fmt
  fb : Fmt
  ftz : Bool
  nb : Nat
  a : Nat → Nat → Nat
  b : Nat → Nat → Option Nat
  sa : Nat → Nat → Nat
  sb : Nat → Nat → Nat

/-- Output element (i, j) of a step (R95, R136). -/
def StepIn.element (x : StepIn) (i j acc : Nat) : Nat × Flags :=
  (List.range x.nb).foldl (fun (r : Nat × Flags) blk =>
    let ks := (List.range 32).map fun n =>
      let k := 32 * blk + n
      (x.a i k, x.b k j)
    let (s, g) := blockSum x.fa x.fb x.ftz ks
    let (v, f) := accUpdate x.ftz r.1 s (x.sa i blk) (x.sb j blk)
    (v, r.2 ||| g ||| f)) (acc, 0)

/-- A step over some rows: elements from key `base + 32 i + j` of a store are updated. -/
def StepIn.run (x : StepIn) (rows : List Nat) (base : Nat) (m : Store Word) : Store Word × Flags :=
  rows.foldl (fun (r : Store Word × Flags) i =>
    (List.range 32).foldl (fun (r : Store Word × Flags) j =>
      let k := base + 32 * i + j
      let (v, f) := x.element i j (Store.read 0 m k).toNat
      (Store.write 0 r.1 k (BitVec.ofNat 32 v), r.2 ||| f)) r) (m, 0)

/-! ## Where a step's operands lie -/

/-- BF16 1.0: the scale factor when scales are off (R95). -/
def bf16One : Nat := 0x3F80

/-- Element (i, k) of A in registers (R136): `m` holds lane i of register r at 32 r + i. -/
def regElem (f : Fmt) (m : Store Word) (i k : Nat) : Nat :=
  if f.wide then (Store.read 0 m (32 * (k / 2) + i)).toNat / 2 ^ (16 * (k % 2)) % 2 ^ 16
  else (Store.read 0 m (32 * (k / 4) + i)).toNat / 2 ^ (8 * (k % 4)) % 2 ^ 8

/-- Element (r, s) of a tile (R109). -/
def Tile.elem (t : Tile) (wide : Bool) (r s : Nat) : Nat :=
  if wide then Mem.load t.data (64 * r + 2 * s) 2 else (Mem.byte t.data (64 * r + s)).toNat

/-- An element is not padding (R109). -/
def Tile.valid (t : Tile) (r s : Nat) : Bool := t.rowv.getLsbD r && t.colv.getLsbD s

/-- B(k, j) of a tile: absent when padding or skipped by the zero bitmap (R97, R112). -/
def Tile.bElem (t : Tile) (wide sp : Bool) (k j : Nat) : Option Nat :=
  let blk := if wide then j else 2 * j + k / 32
  let absent := sp && t.zbv && !(Store.read 0 t.zbm blk).getLsbD (k % 32)
  if !t.valid j k || absent then none else some (t.elem wide j k)

/-- Bytes of a row of an operand, and of a ring's data slot (R141). -/
def slotRow (f : Fmt) : Nat := if f = .l6 then 48 else 64

/-- Element k of row r in a ring slot at an offset (R141, R91). -/
def ringElem (f : Fmt) (shelf : Mem) (off r k : Nat) : Nat :=
  let row := off + slotRow f * r
  if f = .l6 then shelf.load (row + 12 * (k / 16)) 12 / 2 ^ (6 * (k % 16)) % 64
  else if f.wide then shelf.load (row + 2 * k) 2
  else shelf.load (row + k) 1

/-- The stream descriptor in 32 bytes (Table 6-3). -/
def Stream.ofBytes (d : List Byte) : Stream where
  data := field d 0x00 4 % 2 ^ 20
  scale := field d 0x04 4 % 2 ^ 20
  bar := field d 0x08 4 % 2 ^ 20
  rbar := field d 0x0C 4 % 2 ^ 20
  slots := field d 0x10 2
  first := field d 0x12 2
  nstep := field d 0x14 2
  flags := field d 0x16 1
  image := d

/-- SCS, PH and REL (Table 6-3). -/
def Stream.scs (t : Stream) : Bool := t.flags.testBit 0
@[inherit_doc Stream.scs] def Stream.ph (t : Stream) : Bool := t.flags.testBit 1
@[inherit_doc Stream.scs] def Stream.rel (t : Stream) : Bool := t.flags.testBit 2
/-- Slot of step `n` (R144). -/
def Stream.slotAt (t : Stream) (n : Nat) : Nat := (t.first + n) % max 1 t.slots
/-- Phase expected at step `n` (R144). -/
def Stream.phaseAt (t : Stream) (n : Nat) : Bool := t.ph != decide ((t.first + n) / max 1 t.slots % 2 = 1)
/-- Bytes of a data slot. -/
def slotBytes (f : Fmt) : Nat := 32 * slotRow f

/-- Scale (r, b) from a list of 64 (R136): element g·r + b. -/
def listScale (g : Nat) (l : List (BitVec 16)) (r b : Nat) : Nat := (l.getD (g * r + b) 0).toNat

/-- The operands of a member's step. -/
def MatOp.stepIn (o : MatOp) (shelf : Mem) (m : MatMember) : StepIn :=
  let (fa, fb) := (acceptedPair m.fmt).getD (.l6, .l6)
  let wide := fb.wide
  let g := if wide then 1 else 2
  let one : Nat → Nat → Nat := fun _ _ => bf16One
  if o.mmx then
    let da := m.stream.getD (.ofBytes [])
    let db := o.bstream.getD (.ofBytes [])
    let offA := da.data + da.slotAt o.step * slotBytes fa
    let offB := db.data + db.slotAt o.step * slotBytes fb
    { fa, fb, ftz := fmtFz m.fmt, nb := if wide then 1 else 2
      a := ringElem fa shelf offA
      b := fun k j => some (ringElem fb shelf offB j k)
      sa := if fmtAsc m.fmt then fun r b => shelf.load (da.scale + 128 * da.slotAt o.step + 2 * (g * r + b)) 2 else one
      sb := if fmtBsc m.fmt then fun r b => shelf.load (db.scale + 128 * db.slotAt o.step + 2 * (g * r + b)) 2 else one }
  else
    let t := match o.btile with
      | some (_, t) => t
      | none => {}
    { fa, fb, ftz := fmtFz m.fmt, nb := if wide then 1 else 2
      a := regElem fa m.a
      b := t.bElem wide (fmtSp m.fmt)
      sa := if fmtAsc m.fmt then listScale g m.sa else one
      sb := if fmtBsc m.fmt then listScale g o.sb else one }

/-- Rows that a member updates: its active lanes; all of them for MMX (R144). -/
def MatOp.rows (o : MatOp) (m : MatMember) : List Nat := if o.mmx then List.range 32 else lanes m.mask

/-- A step of one member: into its shadow, or into its accumulator unless the strand has ended
(R392). -/
def Context.memberStep (x : Context) (o : MatOp) (m : MatMember) : Context × Flags :=
  let inp := o.stepIn x.shelf m
  match m.shadow with
  | some n =>
    let (sh, f) := inp.run (o.rows m) (1024 * n) x.shadows
    ({ x with shadows := sh }, f)
  | none =>
    match x.strands.at? m.slot with
    | none => (x, 0)
    | some t =>
      if t.uid = m.uid then
        let (acc, f) := inp.run (o.rows m) (1024 * m.acc) t.accs
        ({ x with strands := x.strands.put m.slot { t with accs := acc } }, f)
      else (x, 0)

/-! ## The queue (R138) -/

/-- Change an operation in the queue. -/
def Context.modOp (x : Context) (id : Nat) (f : MatOp → MatOp) : Context :=
  { x with queue := x.queue.map fun o => if o.id = id then f o else o }

/-- Two operations have a member with the same strand and target. -/
def MatOp.sharesTarget (o p : MatOp) : Bool :=
  o.members.any fun m => p.members.any fun k => m.uid == k.uid && m.acc == k.acc && !m.gone && !k.gone

/-- Two operations have a strand in common. -/
def MatOp.sharesStrand (o p : MatOp) : Bool :=
  o.members.any fun m => p.members.any fun k => m.uid == k.uid

/-- An MMX round finds its slots in their expected phases (R144). -/
def MatOp.inputsReady (o : MatOp) (phase : Nat → Bool) : Bool :=
  let at' (d : Stream) : Bool := phase (d.bar + 16 * d.slotAt o.step) == d.phaseAt o.step
  !o.mmx ||
    ((o.members.all fun m => m.gone || (m.stream.map at').getD true) && (o.bstream.map at').getD true)

/-- It may run a step, but for what stands before it: not held, not stopped, not finished. -/
def MatOp.runnable (o : MatOp) : Bool :=
  !o.held && !o.stopped && !o.finished && o.holders.isEmpty && o.joining.isNone

/-- The oldest operation whose next step may start (R138, R436); `halting`: no MMX starts a round
(R145). -/
def pickOp (phase : Nat → Bool) (halting : Bool) : List MatOp → List MatOp → Option MatOp
  | _, [] => none
  | older, o :: os =>
    let blocked := older.any fun p =>
      !p.finished && (p.sharesTarget o || (p.held && p.sharesStrand o))
    if o.runnable && !blocked && !(halting && o.mmx) && o.inputsReady phase then some o
    else pickOp phase halting (older ++ [o]) os

/-- Release arrivals of a round (R144): each running member for its A slot, then once for B. -/
def State.releaseSlots (s : State) (core : Nat) (o : MatOp) : State :=
  let arrive (s : State) (d : Stream) : State :=
    if d.rel then s.engineArrive core (d.rbar + 16 * d.slotAt o.step) false else s
  let s := o.members.foldl (fun s m =>
    if m.gone then s else match m.stream with
      | some d => arrive s d
      | none => s) s
  match o.bstream with
  | some d => arrive s d
  | none => s

/-- Element of B present in the sense of the zero bitmap (R112, R133). -/
def presentElem (f : Fmt) (x : Nat) : Bool :=
  if f = .l6 then x % 64 != 0 else if f = .l8 then x != 0 else x % 2 ^ (f.bits - 1) != 0

/-- A step takes its sparse clock count (R133): FMT.SP is set and no B block has more than 16 present
positions. -/
def MatOp.sparse (o : MatOp) (shelf : Mem) : Bool :=
  match o.members.head? with
  | none => false
  | some m =>
    let x := o.stepIn shelf m
    let present (k j : Nat) : Bool := match x.b k j with
      | some y => !o.mmx || presentElem x.fb y
      | none => false
    fmtSp m.fmt && (o.mmx || (o.btile.map fun t => t.2.zbv).getD false) &&
      (List.range 32).all fun j => (List.range x.nb).all fun b =>
        ((List.range 32).filter fun n => present (32 * b + n) j).length ≤ 16

/-- A step has written a member's target: a shadow that a later operation has opened on it, and that has taken no step
yet, starts from the new elements (R55, R138). -/
def Context.followTarget (x : Context) (id : Nat) (m : MatMember) : Context :=
  let fresh (o : MatOp) : Bool := o.id != id && o.step == 0
  let ns := (x.queue.filter fresh).flatMap fun o =>
    (o.members.filter fun k => k.uid == m.uid && k.acc == m.acc && !k.gone).filterMap (·.shadow)
  let accs := ((x.strands.at? m.slot).map (·.accs)).getD []
  ns.foldl (fun (x : Context) n =>
    { x with shadows := Store.paste 0 x.shadows (1024 * n) (Store.slice 0 accs (1024 * m.acc) 1024) }) x

/-- The engine runs one step of an operation: a round over its members (R138). DESIGN CHOICE, unsafe (log 57): it reads
its ring slots at one moment, so a step that sees some 16-byte units old and others new (R140) does not occur. -/
def State.runRound (s : State) (core : Nat) (o : MatOp) : State :=
  let x := s.ctx core
  let steps := (o.members.filter fun m => !m.gone).length
  let s := if (s.parts.any fun p => !p.2.pmsel.isEmpty) && o.sparse x.shelf then s.count core 0x06 steps else s
  let (x, ms) := o.members.foldl (fun (r : Context × List MatMember) m =>
    if m.gone then (r.1, r.2 ++ [m])
    else
      let (x, f) := r.1.memberStep o m
      let x := if m.shadow.isSome then x else x.followTarget o.id m
      (x, r.2 ++ [{ m with flg := m.flg ||| f }])) (x, [])
  let s := s.modCtx core fun _ => x
  let s := if o.mmx then s.releaseSlots core o else s
  let s := s.count core 0x05 steps
  s.modCtx core fun x => x.modOp o.id fun p =>
    { p with members := ms, step := p.step + 1, finished := p.step + 1 == p.nstep }

/-! ## Completion, discarding, stopping -/

/-- Flags of an operation's steps so far go into each member's FLG (R434). -/
def Context.postFlags (x : Context) (o : MatOp) : Context :=
  let x := o.members.foldl (fun (x : Context) m =>
    { x with strands := Store.modify x.strands m.slot fun t =>
        if t.uid = m.uid then { t with flg := t.flg ||| m.flg } else t }) x
  x.modOp o.id fun p => { p with members := p.members.map fun m => { m with flg := 0 } }

/-- The MAT counter of members falls, in issue order (R139). -/
def Context.arriveMat (x : Context) (ms : List MatMember) : Context :=
  ms.foldl (fun (x : Context) m =>
    { x with strands := Store.modify x.strands m.slot fun t =>
        if t.uid = m.uid then t.arrive m.flight else t }) x

/-- Scale entries an operation holds locked. -/
def MatOp.entries (o : MatOp) : List Nat := o.bentry.toList ++ o.members.filterMap (·.sentry)

/-- Free shadows (R147). -/
def Context.freeShadows (x : Context) (ns : List Nat) : Context :=
  { x with shadowsUsed := x.shadowsUsed.filter fun n => !ns.contains n
           shadows := ns.foldl (fun m n => Store.clear m (1024 * n) (1024 * n + 1024)) x.shadows }

/-- Take an operation out of the queue: flags, counters, shadows, locks (R139). -/
def Context.endOp (x : Context) (o : MatOp) : Context :=
  let x := x.postFlags o
  let x := (x.arriveMat o.members).freeShadows (o.members.filterMap (·.shadow))
  { x with queue := x.queue.filter (·.id != o.id) }.releaseEntries o.entries

/-- An operation can complete (R139): finished, and every shadow resolved. -/
def MatOp.complete (o : MatOp) : Bool := o.finished && o.members.all (·.shadow.isNone)

/-- Free shadows, lowest first. -/
def Context.shadowsFree (x : Context) : List Nat :=
  (List.range Config.shadows).filter fun n => !x.shadowsUsed.contains n

/-- Give a held single MMX.SPEC a shadow, once one is free (R55). -/
def Context.giveShadow (x : Context) : Context :=
  match x.shadowsFree.head?, x.queue.find? (fun o => o.spec && o.held && !o.stopped && o.joining.isNone) with
  | some n, some o =>
    match o.members with
    | [m] =>
      let acc := ((x.strands.at? m.slot).map (·.accs)).getD []
      let data := Store.slice 0 acc (1024 * m.acc) 1024
      { x with
        shadowsUsed := x.shadowsUsed ++ [n]
        shadows := Store.paste 0 x.shadows (1024 * n) data
        queue := x.queue.map fun p =>
          if p.id = o.id then { p with held := false, members := [{ m with shadow := some n }] } else p }
    | _ => x
  | _, _ => x

/-- Rename a member's shadow as its target (R55). -/
def Context.renameShadow (x : Context) (m : MatMember) (n : Nat) : Context :=
  let data := Store.slice 0 x.shadows (1024 * n) 1024
  { x with strands := Store.modify x.strands m.slot fun t =>
      if t.uid = m.uid then { t with accs := Store.paste 0 t.accs (1024 * m.acc) data } else t }.freeShadows [n]

/-- A member of a running operation meets its guard's new value (R55, R147). -/
def Context.resolveShadow (x : Context) (id : Nat) (m : MatMember) (v : Guard) : Context :=
  match m.shadow, v with
  | some n, .isTrue =>
    (x.renameShadow m n).modOp id fun o =>
      { o with members := o.members.map fun k => if k.flight = m.flight then { k with shadow := none } else k }
  | some n, .isFalse =>
    (x.freeShadows [n]).modOp id fun o =>
      let ms := o.members.map fun k => if k.flight = m.flight then { k with shadow := none, gone := true } else k
      { o with members := ms, finished := o.finished || ms.all (·.gone) }
  | _, _ => x

/-- A member of a held operation meets its guard's new value (R53, R436): FALSE discards it. -/
def Context.resolveHeld (x : Context) (o : MatOp) (m : MatMember) (v : Guard)
    (guardOf : Nat → Nat → Guard) : Context :=
  if v = .isFalse then
    let ms := o.members.filter fun k => k.flight != m.flight
    let x := x.arriveMat [m]
    if ms.isEmpty then { x with queue := x.queue.filter (·.id != o.id) }
    else x.modOp o.id fun p => { p with
      members := ms, held := ms.any fun k => (k.guard.map (guardOf k.slot)).any (· == .unresolved) }
  else x.modOp o.id fun p => { p with
    held := p.members.any fun k => (k.guard.map (guardOf k.slot)).any (· == .unresolved) }

/-- The guard of a slot, of the strand in a strand slot. -/
def Context.guardAt (x : Context) (slot g : Nat) : Guard := ((x.strands.at? slot).getD {}).guard g

/-- A guard of a strand has a new value: its queued matrix operations on it act on that (R410, R411). -/
def Context.resolveMatrix (x : Context) (uid g : Nat) (v : Guard) : Context :=
  let x := x.queue.foldl (fun (x : Context) o =>
    match o.members.find? fun m => m.uid == uid && m.guard == some g with
    | none => x
    | some m => if o.held then x.resolveHeld o m v x.guardAt else x.resolveShadow o.id m v) x
  x.giveShadow

/-- A trace record of an MMX: 0 start, 1 stop, 2 completion (R290). -/
def State.traceMmx (s : State) (core : Nat) (o : MatOp) (what : Nat) : State :=
  if !o.mmx then s
  else match s.partOf? core with
    | some p => s.trace p 4 core what o.pc.toNat o.step
    | none => s

/-- A held MMX that a guard's new value takes out of the queue is discarded, and so completes (R139, R290). -/
def State.traceGone (s : State) (core : Nat) (before : List MatOp) : State :=
  (before.filter fun o => !(s.ctx core).queue.any (·.id == o.id)).foldl (fun s o => s.traceMmx core o 2) s

/-- Set a guard slot, with every effect of its new value on commands and shadows (R52 to R55, R410). -/
def State.setGuard (s : State) (core slot g : Nat) (v : Guard) : State :=
  match s.strand? core slot with
  | none => s
  | some t =>
    if v = .unresolved && t.guard g = .unresolved then s
    else
      let s := s.modStrand core slot fun t => { t with guards := Store.write .isTrue t.guards g v }
      let s := if v = .isFalse then s.discardHeld t.uid g else s
      let queue := (s.ctx core).queue
      ((s.modCtx core fun x => x.resolveMatrix t.uid g v).traceGone core queue).advanceAll t.uid

/-- An MMX whose progress is held by a halt, by CTXST or by CTXLD (R145, R380, R383). -/
def MatOp.isStopped (o : MatOp) : Bool := o.mmx && (o.stopped || !o.holders.isEmpty || o.joining.isSome)

/-- Strand indices that a gang register lists (Table 2-6). -/
def gangList (g : DWord) : List Nat :=
  let n := bits g.toNat 38 36
  if n < 2 then [] else (List.range (min n 6)).map fun k => bits g.toNat (6 * k + 5) (6 * k)

/-- Stop the running MMX operations at their round boundary; flags go into FLG (R145, R434). -/
def Context.stopMmx (x : Context) : Context :=
  x.queue.foldl (fun (x : Context) o =>
    if o.mmx && !o.finished && !o.stopped then
      (x.postFlags o).modOp o.id fun p => { p with stopped := true }
    else x) x

/-- End a stopped operation at its last completed round, since a listed member has ended: its members have GANGEXIT with
that member's index to take, but for the one named by `uid` unless `all` is set (R146). -/
def Context.endGang (x : Context) (o : MatOp) (index uid : Nat) (all : Bool) : Context :=
  let x := x.endOp o
  o.members.foldl (fun (x : Context) m =>
    if m.uid = uid && !all then x
    else { x with strands := Store.modify x.strands m.slot fun t =>
      if t.uid = m.uid then { t with due := some (.gangExit index) } else t }) x

/-- A member of stopped operations has ended: they end at their last completed round, and the other
members have GANGEXIT to take (R146). -/
def Context.endStopped (x : Context) (wg index uid : Nat) : Context :=
  x.queue.foldl (fun (x : Context) o =>
    let listed := o.wg == wg && (gangList o.gang).contains index
    let own := o.members.any (·.uid == uid)
    if o.isStopped && (listed || own) then x.endGang o index uid false else x) x

/-! ## The rendezvous latch (R48 to R51) -/

/-- A strand leaves the latch it waits in (R50). -/
def Context.leaveLatch (x : Context) (slot : Nat) : Context :=
  { x with latches := (x.latches.map fun (l : Latch) =>
      { l with waiting := l.waiting.filter (·.slot != slot) }).filter fun l =>
        !l.waiting.isEmpty || l.mismatch.isSome }

/-- Make a waiting split ready: it counts as ready from the present cycle of its quadrant. -/
def State.wake (s : State) (core slot entry : Nat) : State :=
  s.modStrand core slot fun t => t.modSplit entry fun p =>
    { p with wait := 0, since := s.cycle core (slot / 64), promoted := false }

/-- A listed member has ended: those who wait in its latches have GANGEXIT to take (R50). -/
def State.latchExit (s : State) (core wg index : Nat) : State :=
  let hit (l : Latch) : Bool := l.wg == wg && l.mismatch.isNone && (gangList l.gang).contains index
  let ls := (s.ctx core).latches.filter hit
  let s := s.modCtx core fun x => { x with latches := x.latches.filter fun l => !hit l }
  (ls.flatMap (·.waiting)).foldl (fun s c =>
    (s.modStrand core c.slot fun t => { t with due := some (.gangExit index) }).wake core c.slot c.entry) s

end Sys2Proof.Machine
end

