-- ==== Sys2Proof/Machine/Tasks.lean ====
section
/-!
DEFINITION. The dispatcher: task states in the TCBs, READY checks and snapshots, placement of workgroups
and cohorts, the end of strands and workgroups, faults, and the edge actions (files 02 and 09).
-/

namespace Sys2Proof.Machine

/-! ## TCBs (Tables 9-1, 9-3) -/

/-- Task state codes (Table 9-3). -/
def tIdle : Nat := 0
@[inherit_doc tIdle] def tArmed : Nat := 1
@[inherit_doc tIdle] def tReady : Nat := 2
@[inherit_doc tIdle] def tRunning : Nat := 3
@[inherit_doc tIdle] def tEdge : Nat := 4
@[inherit_doc tIdle] def tDone : Nat := 5
@[inherit_doc tIdle] def tFaulted : Nat := 6
@[inherit_doc tIdle] def tPreempted : Nat := 7
@[inherit_doc tIdle] def tAborted : Nat := 8

/-- STATE of a TCB at its home. -/
def State.tcbState (s : State) (tcb : Nat) : Nat := s.homeLoad (tcb + 0x08) 1 % 16
/-- PENDING of a TCB at its home. -/
def State.pending (s : State) (tcb : Nat) : Nat := s.homeLoad (tcb + 0x0A) 2
/-- Set PENDING. -/
def State.setPending (s : State) (tcb n : Nat) : State := s.homeStore (tcb + 0x0A) 2 n
/-- STATE of a TCB at the start of the present clock (R225, R226). -/
def State.startState (s : State) (tcb : Nat) : Nat := (s.opened.at? tcb).getD (s.tcbState tcb)
/-- Set STATE, with the trace record of the change (R219, Table 12-6). What it was at the start of the clock is kept
(R226). -/
def State.setTask (s : State) (part tcb new : Nat) : State :=
  let old := s.tcbState tcb
  let s := { s with opened := s.opened.put tcb (s.startState tcb) }.homeStore (tcb + 0x08) 1 new
  s.trace part 0 0xFFFF (new + old * 16) (generic tcb) (s.pending tcb)

/-- FPC, FCODE, FCORE and FWG (Table 9-1). -/
def State.setFault (s : State) (tcb fpc fcode fcore fwg : Nat) : State :=
  (((s.homeStore (tcb + 0x40) 8 fpc).homeStore (tcb + 0x48) 2 fcode).homeStore (tcb + 0x4A) 2 fcore).homeStore
    (tcb + 0x4C) 4 fwg

/-- The fault fields and EDGE as LAUNCH leaves them (R222). -/
def State.clearFault (s : State) (tcb : Nat) : State :=
  (s.setFault tcb 0 0 0xFFFF 0xFFFFFFFF).homeStore (tcb + 0x50) 8 0

/-- GSTATE of a graph (Table 9-6). -/
def State.gstate (s : State) (g : Nat) : Nat := s.homeLoad (g + 0x1C) 4
/-- LIVE of a graph. -/
def State.live (s : State) (g : Nat) : Nat := s.homeLoad (g + 0x18) 4

/-- LIVE falls by `n`; at 0 GSTATE.RUNNING is cleared and the graph has ended (R222, R230, R236). -/
def State.lowerLive (s : State) (g n : Nat) : State :=
  let l := s.live g - n
  let s := s.homeStore (g + 0x18) 4 l
  if l = 0 then
    let s := s.homeStore (g + 0x1C) 4 (s.gstate g / 2 * 2)
    { s with graphs := s.graphs.filter (·.addr != g) }
  else s

/-- The EDGE cursor as Table 9-4 lays it out. -/
def TaskRun.cursor (r : TaskRun) : Nat :=
  min r.region 7 + r.stage * 2 ^ 6 + r.line * 2 ^ 8 + r.nexts * 2 ^ 51

/-- Write the cursor of a run into its TCB. -/
def State.putCursor (s : State) (id : Nat) : State :=
  match s.run? id with
  | some r => s.homeStore (r.tcb + 0x50) 8 r.cursor
  | none => s

/-! ## Groups (R41 to R44) -/

/-- A group-table entry in its 16 bytes (Table 2-5). -/
def GroupEntry.ofBytes (n : Nat) : GroupEntry where
  each := n.testBit 120
  count := bits n 119 96
  first := bits n 95 64
  smask := n % 2 ^ 64

/-- The number of an entry's workgroups within a task of `nwg`. -/
def GroupEntry.span (e : GroupEntry) (nwg : Nat) : Nat := min (e.first + e.count) nwg - e.first

/-- A strand is a member (R42). -/
def GroupEntry.hasStrand (e : GroupEntry) (nwg wg strand : Nat) : Bool :=
  e.first ≤ wg && wg < e.first + e.count && wg < nwg && e.smask.testBit strand

/-- Strands of a workgroup that an entry selects. -/
def GroupEntry.strands (e : GroupEntry) (nstr : Nat) : Nat :=
  ((List.range nstr).filter fun k => e.smask.testBit k).length

/-- One group across several workgroups (R43). -/
def GroupEntry.spans (e : GroupEntry) (nwg : Nat) : Bool := !e.each && 1 < e.span nwg

/-- The entries that a strand belongs to, ascending (R44). -/
def TaskRun.slotsOf (r : TaskRun) (wg strand : Nat) : List Nat :=
  (List.range r.groups.length).filter fun k =>
    (r.groups[k]?.map fun e => e.hasStrand r.nwg wg strand).getD false

/-- R43 and R44 fault a group table. -/
def TaskRun.badGroups (r : TaskRun) : Bool :=
  let n := r.cohort
  (r.groups.any fun e => e.spans r.nwg &&
    (n == 0 || e.first / max 1 n != (e.first + e.span r.nwg - 1) / max 1 n)) ||
  r.groups.any fun e => e.first < r.nwg && 0 < e.count &&
    (List.range r.nstr).any fun k => 4 < (r.slotsOf e.first k).length

/-! ## READY (R216, R217, R226) -/

/-- A region record in use fails R223, or has a reserved bit set. -/
def TaskRun.badRegion (r : TaskRun) (k : Nat) : Bool :=
  let g := r.regionAt k
  let hi := r.field (0x88 + 16 * k) 8
  g.access != 0 &&
    (4 < g.access || g.extent == 0 || 2 ^ 54 ≤ hi ||
      (if g.isHarbour then !harbourClean g.base || 2 ^ 30 < g.hi else !isFar g.base || 2 ^ 52 < g.hi) ||
      (g.hint != 0 && !g.stores) ||
      (!g.isHarbour && (g.hint == 1 || g.hint == 2)) || (g.isHarbour && g.hint == 3))

/-- An array of harbour at a generic address: tag, alignment, window (R153, R158). -/
def State.goodArray (s : State) (part a n al : Nat) : Bool :=
  tagBits a == 0xE && a % al == 0 && s.inHarbour part a n

/-- Cores that a task may use, ascending (R216). -/
def State.permitted (s : State) (r : TaskRun) : List Nat :=
  (s.part r.part).cores.filter fun c => (r.field 0x0E 2).testBit (halfOf c)

/-- The checks of R216 on a snapshot. -/
def State.readyOk (s : State) (r : TaskRun) : Bool :=
  let entry := r.field 0x00 8
  let n := r.cohort
  let vregs := r.field 0x16 2
  entry < 2 ^ 48 && entry % 4 == 0 && bits entry 4 2 != 0 &&
  r.field 0x09 1 < 8 && r.field 0x26 2 == 0 && r.field 0x60 32 == 0 &&
  1 ≤ r.nwg && 1 ≤ r.nstr && r.nstr ≤ 64 && (n == 0 || (2 ≤ n && n ≤ 16 && r.nwg % n == 0)) &&
  vregs % 8 == 0 && 8 ≤ vregs && vregs ≤ 512 &&
  r.field 0x18 4 % 1024 == 0 && r.field 0x18 4 ≤ Config.shelfBytes &&
  r.field 0x1C 1 ≤ 16 && r.field 0x1D 1 ≤ 16 && r.field 0x1E 2 ≤ 1024 &&
  r.field 0x22 2 ≤ 256 && r.field 0x24 2 ≤ 4096 &&
  !(s.permitted r).isEmpty &&
  (r.field 0x22 2 == 0 || s.goodArray r.part (r.field 0x28 8) (16 * r.field 0x22 2) 16) &&
  (r.field 0x24 2 == 0 || s.goodArray r.part (r.field 0x30 8) (4 * r.field 0x24 2) 4) &&
  (List.range 8).all (fun k => !r.badRegion k) && !r.badGroups &&
  (r.nstr + 3) / 4 * (vregs * 128) ≤ 0x80000 && r.nstr * r.field 0x1D 1 ≤ 96

/-- GSTATE.FAULT is set, and event 0x07 is posted (R234). The event names the core of the fault
(log 16). -/
def State.announceFault (s : State) (r : TaskRun) (fcode fcore : Nat) : State :=
  let s := s.homeStore (r.graph + 0x1C) 4 (s.gstate r.graph ||| 2)
  s.post r.part 0x07 fcore 0xFFFF (generic r.tcb) fcode

/-- Make a task READY (R226): STATE and RCLK, the snapshot with the group table (R217), the checks of
R216. The snapshot is of the TCB as it stands once the task is READY (log 17). -/
def State.makeReady (s : State) (g : Graph) (index : Nat) : State :=
  let tcb := g.tcbs + 256 * index
  let s := (s.setTask g.part tcb tReady).homeStore (tcb + 0x58) 8 s.clock
  let (id, s) := s.fresh
  let snap := s.homeBytes tcb 256
  let gcount := field snap 0x22 2
  let gtab := field snap 0x28 8
  let groups := if gcount ≤ 256 && s.goodArray g.part gtab (16 * gcount) 16 then
    (List.range gcount).map fun k => GroupEntry.ofBytes (s.homeLoad (harbourOf gtab + 16 * k) 16) else []
  let r : TaskRun :=
    { id, part := g.part, graph := g.addr, tcb, index, snap, groups, rclk := s.clock, phase := .ready
      preempted := false, placed := 0, last := none, lastDie := none, waiting := some (s.part g.part).clocks
      reserved := [], cores := [], alive := 0, stage := 0, region := 0, line := 0, nexts := 0
      aborted := false }
  let s := { s with runs := s.runs ++ [r] }
  if s.readyOk r then s
  else
    let s := s.modRun id fun r => { r with phase := .faulted }
    let s := (s.setTask g.part tcb tFaulted).setFault tcb 0 TrapCode.taskcfg.num 0xFFFF 0xFFFFFFFF
    s.announceFault r TrapCode.taskcfg.num 0xFFFF

/-! ## Resources of a core (Tables 1-2, 2-3) -/

/-- Lane slices of a held set, ascending (R66). -/
def slicesOf (h : BitVec 4) : List Nat := (List.range 4).filter fun k => h.getLsbD k

/-- A slice of a physical register belongs to a strand by its name, in a slot. -/
def Context.holds (x : Context) (slot uid reg slice : Nat) : Bool :=
  match x.strands.at? slot with
  | some t => t.uid == uid && reg < t.allot && t.slices.getLsbD slice
  | none => false

/-- The slices of vector registers that MMAs lock and no strand holds any more, of a quadrant's bank: strand, register,
slice (R67, R392). -/
def Context.lockedSlices (x : Context) (quad : Nat) : List (Nat × Nat × Nat) :=
  let ms := (x.queue.filter fun o => !o.mmx).flatMap fun o => o.members.filter fun m => m.slot / 64 == quad
  (ms.flatMap fun m => (List.range 16).flatMap fun k =>
    ((slicesOf m.slices).filter fun n => !x.holds m.slot m.uid (m.abase + k) n).map fun n =>
      (m.uid, m.abase + k, n)).eraseDups

/-- Bytes of a quadrant's bank in use: what strands hold, and what locks still hold, at 32 bytes for a slice of a
register (R67, R392). -/
def Context.bankUsed (x : Context) (quad : Nat) : Nat :=
  let own := (x.strands.filter fun e => e.1 / 64 == quad).foldl (fun n e =>
    n + e.2.allot * 32 * (slicesOf e.2.slices).length) 0
  own + 32 * (x.lockedSlices quad).length

/-- Accumulators in use: those of strands, and targets that operations of ended strands still hold. -/
def Context.accsUsed (x : Context) : Nat :=
  let own := x.strands.foldl (fun n e => n + e.2.naccs) 0
  let alive (m : MatMember) : Bool := match x.strands.at? m.slot with
    | some t => t.uid == m.uid
    | none => false
  own + (x.queue.flatMap fun o => o.members.filter fun m => !m.gone && !alive m).length

/-- Free scale entries, ascending. -/
def Context.freeEntries (x : Context) : List Nat :=
  (List.range 1024).filter fun e => !x.lockedE e && !x.wgs.any (·.pool.contains e)

/-- The lowest shelf range of `n` bytes that no workgroup holds (R37). -/
def Context.shelfRange (x : Context) (n : Nat) : Option Nat :=
  let starts := 0 :: x.wgs.map fun w => w.shelfBase + w.shelfBytes
  let fits (a : Nat) : Bool := a + n ≤ Config.shelfBytes &&
    x.wgs.all fun w => a + n ≤ w.shelfBase || w.shelfBase + w.shelfBytes ≤ a || n == 0
  (starts.filter fits).min?

/-- Group barriers that a workgroup, or a whole cohort at its position 0, brings into being on a core
(Table 2-3, R362). -/
def TaskRun.instances (r : TaskRun) (wg pos : Nat) : List (Nat × Bool) :=
  let n := max 1 r.cohort
  (List.range r.groups.length).filterMap fun k =>
    match r.groups[k]? with
    | none => none
    | some e =>
      if e.strands r.nstr = 0 then none
      else if e.spans r.nwg then
        if pos = 0 && e.first / n == wg / n then some (k, true) else none
      else if e.first ≤ wg && wg < e.first + e.count then some (k, false) else none

/-- The lowest free slot of a quadrant (R35). -/
def Context.freeSlot (x : Context) (quad : Nat) : Option Nat :=
  (List.range 64).map (64 * quad + ·) |>.find? fun k => (x.strands.at? k).isNone

/-- A core passes every check of Table 2-3 for a workgroup. -/
def Context.admits (x : Context) (r : TaskRun) (wg pos : Nat) : Bool :=
  let vregs := r.field 0x16 2
  (List.range 4).all (fun q =>
    let n := (r.nstr + 3 - q) / 4
    let free := ((List.range 64).filter fun k => (x.strands.at? (64 * q + k)).isNone).length
    n ≤ free && x.bankUsed q + n * vregs * 128 ≤ 0x80000) &&
  (x.shelfRange (r.field 0x18 4)).isSome &&
  x.wgs.foldl (fun n w => n + w.ntiles) 0 + r.field 0x1C 1 ≤ 64 &&
  x.accsUsed + r.nstr * r.field 0x1D 1 ≤ 96 &&
  r.field 0x1E 2 ≤ x.freeEntries.length &&
  x.gbars.length + (r.instances wg pos).length ≤ Config.groupBarriers

/-! ## Placement (R36 to R40, R227, R231, R232) -/

/-- A record lies in harbour or in far space, with an access of Table 9-5 (R223, R231). -/
def Region.declared (g : Region) : Bool :=
  (g.reads || g.writes) && if g.isHarbour then harbourClean g.base else isFar g.base

/-- Two records conflict (R231): in one space they share a byte, and W, RW or SCRATCH is one of them. -/
def Region.conflicts (a b : Region) : Bool :=
  a.declared && b.declared && a.isHarbour == b.isHarbour && decide (max a.lo b.lo < min a.hi b.hi) &&
    (a.writes || b.writes) && !(a.shared && b.shared)

/-- Order of a ready queue (R227). -/
def TaskRun.before (a b : TaskRun) : Bool := a.rclk < b.rclk || (a.rclk == b.rclk && a.tcb < b.tcb)

/-- A task is deferred (R231). -/
def State.deferred (s : State) (b : TaskRun) : Bool :=
  b.placed == 0 && s.runs.any fun a =>
    a.id != b.id && a.part == b.part && !a.aborted &&
    (a.phase != .ready || a.preempted || (a.placed == 0 && a.before b)) &&
    a.regions.any fun x => b.regions.any fun y => x.conflicts y

/-- The elements of a list from behind an element on, then from its start to it. -/
def rotateAfter (l : List Nat) : Option Nat → List Nat
  | none => l
  | some c => (l.filter (c < ·)) ++ l.filter (· ≤ c)

/-- A core is kept for another cohort that waits (R40). DESIGN CHOICE, unsafe (log 58): of several cohorts for which it is
kept, it goes to the one that has waited longest. -/
def State.reserved (s : State) (run : TaskRun) (core : Nat) : Bool :=
  s.runs.any fun r => r.id != run.id && r.reserved.contains core &&
    (!run.reserved.contains core || r.waiting.getD 0 < run.waiting.getD 0 ||
      (r.waiting == run.waiting && r.id < run.id))

/-- A core can take a workgroup of a run now. -/
def State.admits (s : State) (r : TaskRun) (wg pos core : Nat) : Bool :=
  !s.reserved r core && (s.ctx core).admits r wg pos

/-- The core for a run's next workgroup (R36). -/
def State.coreFor (s : State) (r : TaskRun) : Option Nat :=
  (rotateAfter (s.permitted r) r.last).find? fun c => s.admits r r.placed 0 c

/-- Rows and columns of a cohort's primary shape (Table 2-4). -/
def cohortShape : Nat → Nat × Nat
  | 4 => (2, 2) | 6 => (2, 3) | 8 => (2, 4) | 9 => (3, 3) | 10 => (2, 5) | 11 => (3, 4) | 12 => (3, 4)
  | 13 => (2, 7) | 14 => (2, 7) | 15 => (3, 5) | 16 => (4, 4)
  | n => (1, n)

/-- The used positions of a rectangle at an origin of a die, if it lies in the mesh (R39, R13). -/
def rectangle (n rows cols die row col : Nat) : Option (List Nat) :=
  if row + rows ≤ 8 && col + cols ≤ 8 then
    some ((List.range n).map fun k => die * 64 + (row + k / max 1 cols) * 8 + col + k % max 1 cols)
  else none

/-- The rectangles of a cohort in the order they are tried (R39). -/
def rectangles (n : Nat) (lastDie : Option Nat) : List (List Nat) :=
  let (r, c) := cohortShape n
  let shapes := if r = c then [(r, c)] else [(r, c), (c, r)]
  let dies := rotateAfter (List.range 8) lastDie
  shapes.flatMap fun (r, c) => dies.flatMap fun d => (List.range 64).filterMap fun o =>
    rectangle n r c d (o / 8) (o % 8)

/-- The rectangles of a run's next cohort that are candidates: every used core is permitted. -/
def State.candidates (s : State) (r : TaskRun) : List (List Nat) :=
  let ok := s.permitted r
  (rectangles r.cohort r.lastDie).filter fun l => l.all ok.contains

/-- The rectangle for a run's next cohort (R40). DESIGN CHOICE, unsafe (log 75): a cohort for which cores are kept may start
on any rectangle that passes, not on that one alone. -/
def State.rectangleFor (s : State) (r : TaskRun) : Option (List Nat) :=
  (s.candidates r).find? fun l => l.zipIdx.all fun (c, k) => s.admits r (r.placed + k) k c

/-- The cores that a run's next workgroup or cohort would take. -/
def State.coresFor (s : State) (r : TaskRun) : Option (List Nat) :=
  if r.cohort = 0 then (s.coreFor r).map ([·]) else s.rectangleFor r

/-- A run comes before another in the dispatcher's scan (R227). -/
def TaskRun.scanBefore (a b : TaskRun) : Bool := b.prio < a.prio || (a.prio == b.prio && a.before b)

/-- The runs of a partition that still have workgroups to place, in scan order (R227). -/
def State.scan (s : State) (part : Nat) : List TaskRun :=
  let rs := s.runs.filter fun r => r.part == part && (r.phase == .ready || r.phase == .running) &&
    !r.preempted && !r.aborted && r.placed < r.nwg
  sortBy (fun a b => a.scanBefore b || !b.scanBefore a) rs

/-- A cohort has waited 100,000 clocks of its partition, and no cores are kept for it yet (R40). -/
def State.cohortLate (s : State) (r : TaskRun) : Bool :=
  r.cohort != 0 && r.placed < r.nwg && r.reserved.isEmpty && !s.deferred r &&
    (r.phase == .ready || r.phase == .running) && !r.preempted && !r.aborted &&
    (r.waiting.map fun t => decide (t + Config.cohortWait ≤ (s.part r.part).clocks)).getD false

/-- Keep the first candidate rectangle for each late cohort of a partition (R40). -/
def State.reserveLate (s : State) (part : Nat) : State :=
  (s.runs.filter fun r => r.part == part && s.cohortLate r).foldl (fun s r =>
    s.modRun r.id fun q => { q with reserved := ((s.candidates r).head?).getD [] }) s

/-- What the dispatcher places next in a partition (R227): nothing while the partition is halted or
gated. -/
def State.nextPlacement (s : State) (part : Nat) : Option (TaskRun × List Nat) :=
  let p := s.part part
  if p.pstat != .running || p.power == .p2 then none
  else
    (s.scan part).findSome? fun r => if s.deferred r then none else (s.coresFor r).map fun l => (r, l)

/-- A new strand of a workgroup in a slot (R24, R63). -/
def TaskRun.newStrand (r : TaskRun) (uid wgId wg index cycle : Nat) : Strand :=
  { uid, part := r.part, run := r.id, wg := wgId, index
    splits := [(0, { valid := true, pc := BitVec.ofNat 48 (r.field 0x00 8), mask := 0xFFFFFFFF#32, since := cycle })]
    naccs := r.field 0x1D 1, allot := r.field 0x16 2
    gslots := ((r.slotsOf wg index).take 4).zipIdx.map fun (e, k) => (k, e) }

/-- Put the strands of a workgroup into their slots (R35). -/
def State.startStrands (s : State) (core : Nat) (r : TaskRun) (wgId wg : Nat) : State :=
  (List.range r.nstr).foldl (fun s k =>
    match (s.ctx core).freeSlot (k % 4) with
    | none => s
    | some slot =>
      let (uid, s) := s.fresh
      s.modCtx core fun x => { x with
        strands := x.strands.put slot (r.newStrand uid wgId wg k (s.cycle core (slot / 64))) }) s

/-- The group barriers that a workgroup brings into being on its core (R362). -/
def State.makeBarriers (s : State) (core : Nat) (r : TaskRun) (wg pos : Nat) : State :=
  (r.instances wg pos).foldl (fun s (k, spans) =>
    match r.groups[k]? with
    | none => s
    | some e =>
      let exp := e.strands r.nstr * (if spans then e.span r.nwg else 1)
      let (key, s) := s.fresh
      let b : GroupBarrier := { key, run := r.id, entry := k, wg := if spans then wg / max 1 r.cohort else wg
                                each := e.each, spans, phase := false, exp, cnt := exp, drop := 0 }
      s.modCtx core fun x => { x with gbars := x.gbars ++ [b] }) s

/-- The core's L1 drops the lines of a task's R and RW harbour records (R232). -/
def State.dropRegions (s : State) (core : Nat) (r : TaskRun) : State :=
  (r.regions.filter fun g => g.isHarbour && (g.access == 1 || g.access == 3)).foldl
    (fun s g => s.flushRange core g.lo g.hi) s

/-- Place one workgroup of a run on a core (R35 to R37, R116). -/
def State.placeOne (s : State) (id core pos : Nat) (cohort : List Nat) : State :=
  match s.run? id with
  | none => s
  | some r =>
    let s := if r.cores.contains core then s else s.dropRegions core r
    let (wgId, s) := s.fresh
    let x := s.ctx core
    let pool := x.freeEntries.take (r.field 0x1E 2)
    let w : Workgroup :=
      { id := wgId, run := id, index := r.placed, nstr := r.nstr, alive := r.nstr
        shelfBase := (x.shelfRange (r.field 0x18 4)).getD 0, shelfBytes := r.field 0x18 4
        ntiles := r.field 0x1C 1, naccs := r.field 0x1D 1, vregs := r.field 0x16 2, pos, cohort, tiles := []
        pool, free := pool, patterns := [], restore := [] }
    let s := s.modCtx core fun x => { x with wgs := x.wgs ++ [w] }
    let s := (s.startStrands core r wgId r.placed).makeBarriers core r r.placed pos
    s.modRun id fun r => { r with
      placed := r.placed + 1, last := some core, alive := r.alive + r.nstr
      cores := if r.cores.contains core then r.cores else r.cores ++ [core] }

/-- Place a run's next workgroup or cohort on its cores; the first one makes the task RUNNING (R219). DESIGN CHOICE, unsafe
(log 60): a cohort's wait (R40) counts from READY, time deferred under R231 included, or from the run's previous
placement. -/
def State.place (s : State) (r : TaskRun) (cores : List Nat) : State :=
  let cohort := if r.cohort = 0 then [] else cores
  let s := cores.zipIdx.foldl (fun s (c, k) => s.placeOne r.id c k cohort) s
  let s := s.modRun r.id fun q => { q with
    phase := .running, lastDie := (cores.head?).map dieOf, waiting := some (s.part r.part).clocks, reserved := [] }
  if r.phase = .ready then s.setTask r.part r.tcb tRunning else s

/-! ## Ends (R29, R37, R45, R50, R56, R234, R392) -/

/-- The scale entries of a workgroup that ends return to the core (R116): its tiles' references are dropped, and an entry
that another workgroup's tile still refers to is freed (R117). An entry that a lock holds is free when the lock is
released. -/
def Context.returnEntries (x : Context) (w : Workgroup) : Context :=
  let x := w.tiles.foldl (fun (x : Context) t => if t.2.bound then x.dropRef t.2.tag else x) x
  w.pool.foldl (fun (x : Context) e =>
    if (x.entry e).use == .used && 0 < (x.entry e).refs then x.freeEntry e else x) x

/-- Release a workgroup's tiles, shelf, scale entries and group barriers (R37, R116). -/
def State.releaseWg (s : State) (core id : Nat) : State :=
  match (s.ctx core).wg? id with
  | none => s
  | some w =>
    let lastOfCohort := w.cohort.all fun c => (s.ctx c).wgs.all fun v =>
      v.run != w.run || v.id == id || v.index / max 1 w.cohort.length != w.index / max 1 w.cohort.length
    let s := s.modCtx core fun x =>
      let x := x.returnEntries w
      { x with
        wgs := x.wgs.filter (·.id != id)
        gbars := x.gbars.filter fun g => !(g.run == w.run && !g.spans && g.wg == w.index) }
    if lastOfCohort && !w.cohort.isEmpty then
      s.modCtx (w.cohort.headD core) fun x => { x with
        gbars := x.gbars.filter fun g => !(g.run == w.run && g.spans && g.wg == w.index / w.cohort.length) }
    else s

/-- Engine work of a run is outstanding: commands or matrix operations (Table 9-3, R392). -/
def State.busyRun (s : State) (run : Nat) : Bool :=
  s.cmds.any (·.run == run) || s.cores.any fun e => e.2.ctx.queue.any (·.run == run)

/-- Workgroups of a run whose strands have all ended return their resources; of a faulted run only when
its engine commands have run to completion (R37, R234). -/
def State.reap (s : State) (run : Nat) : State :=
  let faulted := (s.run? run).any fun r => r.phase == .faulted || r.aborted
  if faulted && s.busyRun run then s
  else
    let ends := s.cores.flatMap fun e =>
      (e.2.ctx.wgs.filter fun w => w.run == run && w.alive == 0).map fun w => (e.1, w.id)
    let s := ends.foldl (fun s (c, w) => s.releaseWg c w) s
    { s with runs := s.runs.filter fun r => !(r.id == run && r.aborted && r.alive == 0) }

/-- A strand ends (R29, R45, R50, R56, R146, R392). Its scale registers cease to be references (log 19). DESIGN CHOICE,
unsafe (log 50): a strand that a latch still expects to take GANGMISMATCH is struck from the latch's union (R49). -/
def State.endStrand (s : State) (core slot : Nat) : State :=
  match s.strand? core slot with
  | none => s
  | some t =>
    let s := (List.range 8).foldl (fun s g =>
      if t.guard g = .unresolved then s.setGuard core slot g .isFalse else s) s
    let s := (s.leaveGroups core t).modCtx core fun x =>
      (((x.leaveLatch slot).endStopped t.wg t.index t.uid))
    let s := s.latchExit core t.wg t.index
    let s := s.modCtx core fun x =>
      let x := t.sregs.foldl (fun x e => x.dropRef e.2) x
      { x with
        strands := x.strands.del slot
        latches := (x.latches.map fun (l : Latch) =>
          if l.wg = t.wg then { l with mismatch := l.mismatch.map fun k => k.filter (· != t.index) } else l).filter
          fun l => !(l.mismatch == some [] && l.waiting.isEmpty)
        queue := x.queue.map fun o => { o with holders := o.holders.filter (· != t.uid) } }
    let s := s.modWg core t.wg fun w => { w with alive := w.alive - 1 }
    let s := s.modRun t.run fun r => { r with alive := r.alive - 1 }
    s.reap t.run

/-- Every strand of a run ends (R234, step 2). -/
def State.endStrands (s : State) (run : Nat) : State :=
  (s.cores.flatMap fun e => (e.2.ctx.strands.filter fun t => t.2.run == run).map fun t => (e.1, t.1)).foldl
    (fun s (c, k) => s.endStrand c k) s

/-- The bytes of a line that lie in some ranges. -/
def rangeMask (line : Nat) (rs : List (Nat × Nat)) : BitVec 128 :=
  (List.range 128).foldl (fun m i =>
    if rs.any fun r => r.1 ≤ line * 128 + i && line * 128 + i < r.2 then m ||| byteMask i 1 else m) 0

/-- Write back, in a core's L1, the dirty bytes that lie in some ranges (R234, step 4). -/
def State.cleanBytes (s : State) (core : Nat) (rs : List (Nat × Nat)) : State :=
  (s.core core).l1.foldl (fun s e =>
    let m := e.2.dirty &&& rangeMask e.1 rs
    if m = 0 then s
    else
      let s := (s.flushNotices core (sliceOf e.1)).count core 0x0E 1
      let s := { s with harbour := mergeBytes s.harbour (e.1 * 128) m e.2.data 0 }
      s.modCore core fun k => { k with l1 := k.l1.put e.1 { e.2 with dirty := e.2.dirty &&& ~~~m } }) s

/-- Discard, in a core's L1, the dirty bytes that lie in `rs` and not in `keep` (R229). -/
def State.forgetBytes (s : State) (core : Nat) (rs keep : List (Nat × Nat)) : State :=
  s.modCore core fun k => { k with l1 := k.l1.map fun e =>
    (e.1, { e.2 with dirty := e.2.dirty &&& ~~~(rangeMask e.1 rs &&& ~~~rangeMask e.1 keep) }) }

/-- Steps 2 to 4 of R234 for a run. -/
def State.stopRun (s : State) (r : TaskRun) : State :=
  let s := s.endStrands r.id
  r.cores.foldl (fun s c => s.cleanBytes c (r.declares true true)) s

/-- A task goes to FAULTED (R234). -/
def State.faultTask (s : State) (run fpc fcode fcore fwg : Nat) : State :=
  match s.run? run with
  | none => s
  | some r =>
    if r.phase = .faulted || r.aborted then s
    else
      let s := s.modRun run fun r => { r with phase := .faulted, reserved := [] }
      let s := s.stopRun r
      let s := (s.setTask r.part r.tcb tFaulted).setFault r.tcb fpc fcode fcore fwg
      (s.announceFault r fcode fcore).reap run

/-! ## Edge actions (R228 to R230, R337) -/

/-- A run's last strand has ended and every counter of the task is zero (Table 9-3). -/
def State.canEdge (s : State) (r : TaskRun) : Bool :=
  r.phase == .running && !r.preempted && !r.aborted && r.placed == r.nwg && r.alive == 0 && !s.busyRun r.id &&
    !s.requests.any fun q => q.run == r.id && !q.state.closed

/-- Lines of a harbour record. -/
def Region.lines (g : Region) : Nat := (g.hi - 1) / 128 - g.lo / 128 + 1

/-- Move the cursor over records that need no event (R229): SCRATCH harbour records lose their dirty
bytes at once. Past the last record stage 2 begins. -/
def State.edgeSkip (s : State) (id : Nat) : Nat → State
  | 0 => s
  | n + 1 =>
    match s.run? id with
    | none => s
    | some r =>
      if r.stage ≠ 1 then s
      else if r.region ≥ 8 then s.modRun id fun r => { r with stage := 2, region := 7, line := 0, nexts := 0 }
      else
        let g := r.regionAt r.region
        if g.stores then s
        else
          let s := if g.access = 4 && g.isHarbour then
            let keep := (r.regions.filter fun k => k.stores && k.isHarbour).map fun k => (k.lo, k.hi)
            r.cores.foldl (fun s c => s.forgetBytes c [(g.lo, g.hi)] keep) s else s
          (s.modRun id fun r => { r with region := r.region + 1, line := 0 }).edgeSkip id n

/-- Begin the edge (R219, R229). -/
def State.beginEdge (s : State) (r : TaskRun) : State :=
  let s := s.modRun r.id fun r => { r with phase := .edge, stage := 1, region := 0, line := 0, nexts := 0 }
  ((s.setTask r.part r.tcb tEdge).edgeSkip r.id 10).putCursor r.id

/-- The next record of the edge. -/
def State.nextRegion (s : State) (id : Nat) : State :=
  ((s.modRun id fun r => { r with region := r.region + 1, line := 0 }).edgeSkip id 10).putCursor id

/-- A line of the present record is written back by every core that ran the task (R229). -/
def State.edgeLine (s : State) (r : TaskRun) : State :=
  let g := r.regionAt r.region
  let line := g.lo / 128 + r.line
  let s := r.cores.foldl (fun s c => s.writeBack c line) s
  if r.line + 1 < g.lines then (s.modRun r.id fun r => { r with line := r.line + 1 }).putCursor r.id
  else s.nextRegion r.id

/-- The graph of a run. -/
def State.graphOf (s : State) (r : TaskRun) : Option Graph := s.graphs.find? (·.addr == r.graph)

/-- The running graph that has a TCB, with the task's index (R470). -/
def State.graphHolding (s : State) (tcb : Nat) : Option (Graph × Nat) :=
  (s.graphs.find? fun g => (s.gstate g.addr).testBit 0 && g.tcbs ≤ tcb && (tcb - g.tcbs) % 256 == 0 &&
    (tcb - g.tcbs) / 256 < g.ntcb).map fun g => (g, (tcb - g.tcbs) / 256)

/-- A TASKSIG or a decrement reaches a TCB: at the end of the clock it may make a task READY that was ARMED at its start, if
the task is one of a running graph (R225, R226, R470). -/
def State.countDown (s : State) (tcb n : Nat) : State :=
  let s := s.setPending tcb (s.pending tcb - n)
  if s.startState tcb = tArmed && (s.graphHolding tcb).isSome && !s.batch.contains tcb then
    { s with batch := s.batch ++ [tcb] }
  else s

/-- A batch makes a task READY that it has found ARMED at the start of the clock, if its count is 0 (R226). DESIGN CHOICE,
unsafe (log 59): not one that another update of the clock has taken out of ARMED. -/
def State.readyBatch (s : State) (tcb : Nat) : State :=
  if s.tcbState tcb = tArmed && s.pending tcb == 0 then
    match s.graphHolding tcb with
    | some (g, i) => s.makeReady g i
    | none => s
  else s

/-- The end of a clock (R226): its batches end, and the next clock starts with the states as they are. -/
def State.endBatch (s : State) : State := { s.batch.foldl State.readyBatch s with batch := [], opened := [] }

/-- Decrements of a clock of stage 2 (R226, R230, R337). A successor whose count reaches 0 becomes READY at the end of
the clock. -/
def State.decrement (s : State) (r : TaskRun) (g : Graph) (positions : List Nat) : State :=
  let succ := harbourOf (r.field 0x30 8)
  let indices := positions.map fun k => s.homeLoad (succ + 4 * k) 4
  indices.foldl (fun s i =>
    if i < g.ntcb then s.countDown (g.tcbs + 256 * i) 1
    else s.post r.part 0x08 0xFFFF 0xFFFF (generic r.tcb) i) s

/-- A clock of stage 2 (R230, R337): up to 16 positions; after the last one the task is DONE. There is one batch of a run in
a clock. -/
def State.edgeDecrement (s : State) (r : TaskRun) : State :=
  match s.graphOf r with
  | none => s
  | some g =>
    let scount := r.field 0x24 2
    let stop := min (r.nexts + 16) scount
    let s := s.decrement r g ((List.range (stop - r.nexts)).map (r.nexts + ·))
    let s := s.modRun r.id fun r => { r with nexts := stop, stepped := some s.clock }
    if stop < scount then s.putCursor r.id
    else
      let s := (s.modRun r.id fun r => { r with stage := 3 }).putCursor r.id
      let s := (s.setTask r.part r.tcb tDone).lowerLive r.graph 1
      { s with runs := s.runs.filter (·.id != r.id) }

end Sys2Proof.Machine
end

