-- ==== Sys2Proof/Machine/Ops.lean ====
section
/-!
DEFINITION. The operations that every instruction is made of: register access, the flow of a split from
one instruction to the next with merging and popping, waiting, branching, taking a trap and returning
from one (files 02, 03, 10, 13).
-/

namespace Sys2Proof.Machine

/-! ## Registers (R60 to R66) -/

/-- A lane of a physical vector register. -/
def Strand.vphys (t : Strand) (p lane : Nat) : Word := Store.read 0 t.vregs (32 * p + lane)
/-- Lane of vector field `f` (R65). -/
def Strand.v (t : Strand) (f lane : Nat) : Word := t.vphys (t.wb + f) lane
/-- A uniform register. -/
def Strand.x (t : Strand) (f : Nat) : DWord := Store.read 0 t.xregs f
/-- A predicate register; P0 is true (R61). -/
def Strand.p (t : Strand) (f : Nat) : Mask := if f = 0 then 0xFFFFFFFF#32 else Store.read 0 t.preds f

/-- The keep latch is emptied by a write to one of the 16 registers it records (R71). -/
def Strand.spoil (t : Strand) (p : Nat) : Strand :=
  match t.keep with
  | some (b, _) => if b ≤ p && p < b + 16 then { t with keep := none } else t
  | none => t

/-- Write lanes of a physical vector register: the lanes of a mask take what a function gives. -/
def Strand.setPhys (t : Strand) (p : Nat) (m : Mask) (val : Nat → Word) : Strand :=
  { t.spoil p with vregs := (lanes m).foldl (fun r l => Store.write 0 r (32 * p + l) (val l)) t.vregs }
/-- Write lanes of a vector field (R65, R351). -/
def Strand.setV (t : Strand) (f : Nat) (m : Mask) (val : Nat → Word) : Strand := t.setPhys (t.wb + f) m val
/-- Write a uniform register. -/
def Strand.setX (t : Strand) (f : Nat) (v : DWord) : Strand := { t with xregs := Store.write 0 t.xregs f v }
/-- Write lanes of a predicate; writes to P0 are discarded (R61). -/
def Strand.setP (t : Strand) (f : Nat) (m : Mask) (v : Mask) : Strand :=
  if f = 0 then t else { t with preds := Store.write 0 t.preds f ((t.p f &&& ~~~m) ||| (v &&& m)) }
/-- Or flags into FLG (R76); only its six flags exist. -/
def Strand.orFlags (t : Strand) (f : Flags) : Strand := { t with flg := t.flg ||| (f &&& 0x3F#16) }

/-- Lane of a vector field of the issuing strand. -/
def State.v (s : State) (f lane : Nat) : Word := s.me.v f lane
/-- A uniform register of the issuing strand. -/
def State.x (s : State) (f : Nat) : DWord := s.me.x f
/-- A uniform register as a number. -/
def State.xn (s : State) (f : Nat) : Nat := (s.x f).toNat
/-- A predicate of the issuing strand. -/
def State.p (s : State) (f : Nat) : Mask := s.me.p f
/-- The active lanes, ascending. -/
def State.actLanes (s : State) : List Nat := lanes s.cur.act
/-- Write a vector register in the active lanes. -/
def State.putV (s : State) (f : Nat) (val : Nat → Word) : State := s.modMe fun t => t.setV f s.cur.act val
/-- Write a uniform register. -/
def State.putX (s : State) (f : Nat) (v : DWord) : State := s.modMe fun t => t.setX f v
/-- Write a predicate in the active lanes. -/
def State.putP (s : State) (f : Nat) (v : Mask) : State := s.modMe fun t => t.setP f s.cur.act v
/-- Or flags into the strand's FLG. -/
def State.flags (s : State) (f : Flags) : State := s.modMe fun t => t.orFlags f

/-! ## From one instruction to the next (R26, R27, R30, R297, R304) -/

/-- The next PC of sequential flow (R297); `lit` for form E. -/
def nextPc (pc : PC) (lit : Bool) : PC :=
  let n := pc + (if lit then 8#48 else 4#48)
  if (n &&& 0x1C#48) = 0 then n + 4 else n

/-- Two valid entries with equal PCs, the lower one first. -/
def Strand.twins (t : Strand) : Option (Nat × Nat) :=
  t.validEntries.findSome? fun a =>
    (t.validEntries.find? fun b => a < b && (t.split a).pc == (t.split b).pc).map fun b => (a, b)

/-- Merge two entries (R26): masks are joined, FMT is the lower one's, the split is ready. DESIGN CHOICE, unsafe (log
48): its age starts anew, from `since` or from where a yield of one of the two holds it back, and it is no longer
promoted. -/
def Strand.merge (t : Strand) (a b : Nat) (since : PC → Nat) : Strand :=
  let p := t.split a
  let q := t.split b
  (t.setSplit a { p with
    wait := 0, mask := p.mask ||| q.mask, stall := .none, promoted := false
    since := max (since p.pc) (max p.since q.since) }).setSplit b {}

/-- Pop the top of the reconvergence stack into a free entry, as a ready split (R27). DESIGN CHOICE, unsafe (logs 48,
49): of several free entries the lowest-numbered one takes it, and its age starts anew. -/
def Strand.pop (t : Strand) (since : PC → Nat) : Strand :=
  match t.stack, (List.range 4).find? fun e => !(t.split e).valid with
  | top :: rest, some e =>
    { t with stack := rest }.setSplit e
      { valid := true, pc := top.pc, mask := top.mask, fmt := top.fmt, since := since top.pc }
  | _, _ => t

/-- Every other valid split waits at a SYNCS, at a higher PC (R30). -/
def Strand.lastAtSyncs (t : Strand) (e : Nat) : Bool :=
  t.validEntries.all fun k => k == e || ((t.split k).wait == 1 && (t.split e).pc < (t.split k).pc)

/-- With every valid split waiting at a SYNCS, the one at the lowest PC is let through: it is ready, and
completes its SYNCS when it issues it again (R30). -/
def Strand.passSyncs (t : Strand) (since : PC → Nat) : Strand :=
  let es := t.validEntries
  if es.isEmpty || es.any (fun e => (t.split e).wait != 1) then t
  else
    let low := es.foldl (fun b e => if (t.split e).pc < (t.split b).pc then e else b) (es.headD 0)
    t.modSplit low fun p => { p with wait := 0, since := since p.pc, promoted := false, stall := .syncs }

/-- Bring a strand's table in order after an instruction: merge, pop and let a split through at a SYNCS as
long as one of them applies (R26, R27, R30). `since` is the cycle from which a split that goes on at a PC counts as
ready. -/
def Strand.settle (t : Strand) (since : PC → Nat) : Nat → Strand
  | 0 => t
  | n + 1 =>
    match t.twins with
    | some (a, b) => (t.merge a b since).settle since n
    | none =>
      if !t.stack.isEmpty && (List.range 4).any (fun e => !(t.split e).valid) then (t.pop since).settle since n
      else if !t.validEntries.isEmpty && t.validEntries.all (fun e => (t.split e).wait == 1) then
        (t.passSyncs since).settle since n
      else t

/-- The yield bit of the issuing slot (R303, R304). -/
def Cur.ys (c : Cur) : Bool :=
  let slot := bits c.pc.toNat 4 2 - 1
  bits c.hdr.toNat 31 30 == 1 && c.hdr.toNat.testBit (4 * slot + 3)

/-- A split that goes on at `pc` yields, and with it every split that the instruction leaves behind (R304). -/
def Cur.yields (c : Cur) (pc : PC) : Bool :=
  c.ys || c.out || (c.hdr.getLsbD 29 && pc.toNat / 32 != c.pc.toNat / 32)

/-- The issue cycle from which a split that goes on at `pc` counts as ready (R57, R304). -/
def State.readyAt (s : State) (pc : PC) : Nat := if s.cur.yields pc then s.nextCycle + 1 else s.nextCycle

/-- Settle the issuing strand's table. What it leaves ready yields as the instruction does (R304). -/
def State.settleMe (s : State) : State := s.modMe fun t => t.settle s.readyAt 64

/-- A split as it goes on at `pc`. -/
def Split.go (p : Split) (pc : PC) (since : Nat) : Split :=
  { p with wait := 0, pc, since, promoted := false, stall := .none, inhibit := false }

/-- The instruction leaves splits at some PCs: note whether one of them is outside the group under YG (R304). -/
def State.leaves (s : State) (pcs : List PC) : State :=
  { s with cur := { s.cur with out := pcs.any s.cur.yields } }

/-- Mark the instruction as completed. -/
def State.complete (s : State) : State := { s with cur := { s.cur with done := true } }

/-- The instruction completes and the split goes on at `pc` with all its lanes. The table is settled at the end of the
issue (`State.finish`). -/
def State.goTo (s : State) (pc : PC) : State :=
  ((s.leaves [pc]).modMySplit fun p => p.go pc (s.readyAt pc)).complete

/-- The instruction completes and the split goes on at the next one (R297). -/
def State.retire (s : State) : State := s.goTo s.cur.npc

/-- The split waits at its instruction, which has had no effect (WAIT 2, R23). -/
def State.hold (s : State) (why : Stall) : State := s.modMySplit fun p => { p with wait := 2, stall := why }

/-- A free entry of the split table. -/
def Strand.freeEntry? (t : Strand) : Option Nat := (List.range 4).find? fun e => !(t.split e).valid

/-- A divergent branch would find neither a free entry nor room on the stack (R28). -/
def State.overflows (s : State) : Bool :=
  s.me.freeEntry?.isNone && (s.part s.me.part).depth ≤ s.me.stack.length

/-- The active lanes go to `target`; the split's other lanes fall through (R25). DESIGN CHOICE, unsafe (log 46): where
the table is full and the target is the next PC, so that neither path has the higher PC, the fall-through lanes stay and
the taken ones are pushed. -/
def State.branch (s : State) (target : PC) : State :=
  let p := s.mySplit
  let fall := p.mask &&& ~~~s.cur.act
  if fall = 0 then s.goTo target
  else
    let npc := s.cur.npc
    let stay : Split := { p with mask := fall }
    let s := (s.leaves [target, npc]).modMe fun t => { t with keep := none }
    let s := s.count s.cur.core 0x10 1
    match s.me.freeEntry? with
    | some e =>
      let taken : Split := { p with mask := s.cur.act }
      let s := s.modMe fun t =>
        (t.setSplit s.cur.entry (stay.go npc (s.readyAt npc))).setSplit e (taken.go target (s.readyAt target))
      s.complete
    | none =>
      let s := s.count s.cur.core 0x11 1
      let (low, lowMask, high, highMask) :=
        if npc ≤ target then (npc, fall, target, s.cur.act) else (target, s.cur.act, npc, fall)
      let s := s.modMe fun t =>
        { t.setSplit s.cur.entry ({ p with mask := lowMask }.go low (s.readyAt low)) with
          stack := { pc := high, mask := highMask, fmt := p.fmt } :: t.stack }
      s.complete

/-! ## The control area (R78, R79, Tables 3-7 and 10-2) -/

/-- Harbour address of a strand's control area (R78, R250). -/
def State.ctlArea (s : State) (core slot : Nat) : Nat :=
  (Store.read 0 s.ctlbase (halfOf core)).toNat + (core % 32 * 256 + slot) * 1024

/-- A split or stack record (R79). -/
def recordOf (pc : PC) (wait : Nat) (valid : Bool) (mask : Mask) (fmt : Word) : List Byte :=
  bytesOf 6 pc.toNat ++ bytesOf 2 (wait + flag valid * 2 ^ 7) ++ bytesOf 4 mask.toNat ++ bytesOf 4 fmt.toNat

/-- Record of a split-table entry; zero when it is not valid. -/
def Split.record (p : Split) : List Byte :=
  if p.valid then recordOf p.pc p.wait.toNat true p.mask p.fmt else List.replicate 16 0

/-- Record of a stack entry. DESIGN CHOICE, unsafe (log 51): its VALID and WAIT bits are 0. -/
def StackEntry.record (e : StackEntry) : List Byte := recordOf e.pc 0 false e.mask e.fmt

/-- Pad a list of bytes with zeros to a length. -/
def padTo (n : Nat) (bs : List Byte) : List Byte := (bs ++ List.replicate (n - bs.length) 0).take n

/-- Pending shadows of a strand: guard slot, target, shadow number, in queue order. -/
def Context.pendingShadows (x : Context) (uid : Nat) : List (Nat × Nat × Nat) :=
  x.queue.flatMap fun o => o.members.filterMap fun m =>
    if m.uid == uid then m.shadow.map fun n => (m.guard.getD 0, m.acc, n) else none

/-- Bytes 0x000 to 0x19F of a strand image, of a strand in a slot (Table 3-7). -/
def State.imageHead (s : State) (core : Nat) (t : Strand) (full : Bool) : List Byte :=
  let gs (k : Nat) : Nat := (t.gslots.at? k).getD 0
  let valid := (List.range 4).foldl (fun n k => n + flag (t.gslots.at? k).isSome * 2 ^ k) 0
  bytesOf 4 1 ++ bytesOf 4 (1 + flag full * 2) ++ bytesOf 2 t.allot ++ bytesOf 2 t.wb
  ++ bytesOf 1 t.slices.toNat ++ bytesOf 1 t.stack.length ++ bytesOf 1 (s.part t.part).depth
  ++ bytesOf 1 t.naccs ++ bytesOf 1 ((s.ctx core).pendingShadows t.uid).length ++ bytesOf 1 0
  ++ bytesOf 2 t.flg.toNat ++ bytesOf 4 t.live.toNat ++ bytesOf 8 t.gang.toNat
  ++ (List.range 4).flatMap (fun k => bytesOf 1 (gs k)) ++ bytesOf 1 valid ++ bytesOf 1 0
  ++ bytesOf 2 t.guardBits ++ bytesOf 8 t.counters ++ bytesOf 16 0
  ++ (List.range 4).flatMap (fun e => (t.split e).record)
  ++ padTo 256 (t.stack.reverse.flatMap StackEntry.record)
  ++ (List.range 8).flatMap fun k => bytesOf 4 (t.p k).toNat

/-- Bytes 0x200 to 0x3FF: the uniform registers. -/
def Strand.imageX (t : Strand) : List Byte := (List.range 64).flatMap fun k => bytesOf 8 (t.x k).toNat

/-- The trap frame (Table 10-2). -/
def State.frame (s : State) (t : Strand) (mask : Mask) (tr : Trap) (npc : PC) : List Byte :=
  bytesOf 2 tr.code.num ++ bytesOf 1 s.cur.entry ++ bytesOf 1 (flag tr.code.kindT + flag tr.code.kindP * 2)
  ++ bytesOf 4 mask.toNat ++ bytesOf 8 s.cur.pc.toNat ++ bytesOf 8 npc.toNat ++ bytesOf 4 tr.lanes.toNat
  ++ bytesOf 4 s.cur.word.toNat ++ bytesOf 4 s.cur.lit.toNat ++ bytesOf 4 s.cur.hdr.toNat
  ++ bytesOf 8 tr.addr ++ bytesOf 8 tr.d0 ++ bytesOf 8 tr.d1 ++ bytesOf 8 s.clock
  ++ bytesOf 2 s.cur.core ++ bytesOf 2 0 ++ bytesOf 4 (s.wgOf s.cur.core t).index
  ++ bytesOf 4 ((s.run? t.run).map (·.index)|>.getD 0) ++ bytesOf 12 0

/-- Write bytes of harbour at their home, after the core's own L1 has given up their lines. -/
def State.storeHome (s : State) (core a : Nat) (bs : List Byte) : State :=
  (s.flushRange core a (a + bs.length)).homeWrite a bs

/-! ## Taking a trap (R242, R246, R251) -/

/-- A valid slot-word address (R251, Table 10-4). -/
def slotWord (v : Nat) : Bool := v % 4 == 0 && bits v 4 2 != 0

/-- A strand's half-die is ready for traps, by the vector that applies (R251). -/
def State.trapReady (s : State) (core part : Nat) (vec : DWord) : Bool :=
  let p := s.part part
  let base (h : Nat) : Nat := (Store.read 0 s.ctlbase h).toNat
  let h := halfOf core
  slotWord vec.toNat && p.inWindow (base h) 0x800000 &&
    (List.range 16).all fun k => k == h || !p.halves.getLsbD k || base k != base h

/-- A little-endian field of a strand's control area, as its core sees it. -/
def State.ctlField (s : State) (core slot off n : Nat) : Nat :=
  ofBytes (s.view core (s.ctlArea core slot + off) n)

/-- End the issuing strand and fault its task (R251, R391): the task is FAULTED first, so that its resources return only
when its engine commands have run (R234, step 3). -/
def State.faultMe (s : State) (fpc fcode fcore fwg : Nat) : State :=
  (s.faultTask s.me.run fpc fcode fcore fwg).endStrand s.cur.core s.cur.slot

/-- End the issuing strand with the fields of its trap frame; the code is given (R246, R391). -/
def State.faultFromFrame (s : State) (code : Option Nat) : State :=
  let f (off n : Nat) : Nat := s.ctlField s.cur.core s.cur.slot (0x1A0 + off) n
  s.faultMe (f 0x08 8 % 2 ^ 48) (code.getD (f 0x00 2)) (f 0x48 2) (f 0x4C 4)

/-- Enter supervisor mode (R242): the control area is written, and one split goes on at TVEC. -/
def State.enterTrap (s : State) (mask : Mask) (tr : Trap) (npc : PC) : State :=
  let c := s.cur.core
  let s := s.modCtx c fun x => x.leaveLatch s.cur.slot
  let t := s.me
  let bs := s.imageHead c t false ++ s.frame t mask tr npc ++ t.imageX
  let s := s.storeHome c (s.ctlArea c s.cur.slot) bs
  let tvec := (s.part t.part).tvec.setWidth 48
  s.modMe fun t => { t with
    sup := true, keep := none, stack := []
    splits := [(0, { valid := true, pc := tvec, mask := t.live, since := s.readyAt tvec })] }

/-- A trap in supervisor mode with STCODE 0 (R246): the split goes on at SVEC. -/
def State.enterSvec (s : State) (tr : Trap) : State :=
  let p := s.part s.me.part
  let s := s.modCtx s.cur.core fun x => x.leaveLatch s.cur.slot
  let s := s.modMe fun t => { t with
    stcode := BitVec.ofNat 16 tr.code.num, stpc := s.cur.pc
    staddr := BitVec.ofNat 64 tr.addr, stdetail := BitVec.ofNat 64 tr.d0 }
  let svec := p.svec.setWidth 48
  (s.modMySplit fun q => q.go svec (s.readyAt svec)).settleMe

/-- Take a trap of the issuing split, which had a MASK, with the strand's table as it stands (R242, R246, R251). -/
def State.enterNow (s : State) (mask : Mask) (tr : Trap) (npc : PC) : State :=
  let t := s.me
  let s := s.count s.cur.core 0x13 1
  let s := { s with cur := { s.cur with done := false } }
  let entered (s : State) : State := s.trace t.part 1 s.cur.core tr.code.num s.cur.pc.toNat tr.d0
  let fault (s : State) : State := s.faultMe s.cur.pc.toNat tr.code.num s.cur.core (s.wgOf s.cur.core t).index
  if t.sup then
    if t.stcode ≠ 0 then
      (s.post t.part 0x09 s.cur.core 0xFFFF s.cur.pc.toNat tr.code.num).faultFromFrame (some tr.code.num)
    else if s.trapReady s.cur.core t.part (s.part t.part).svec then (entered s).enterSvec tr
    else fault s
  else if s.trapReady s.cur.core t.part (s.part t.part).tvec then (entered s).enterTrap mask tr npc
  else fault s

/-- Requests of the strand's peer accesses that are still open. -/
def Strand.openReqs (t : Strand) : List Nat := (t.peers.filter fun w => !w.failed).flatMap (·.reqs)
/-- Those of its acquiring peer accesses, which every later access of the strand waits for (R194). -/
def Strand.acquiring (t : Strand) : List Nat := (t.peers.filter fun w => w.acq && !w.failed).flatMap (·.reqs)
/-- Those of its releasing ones, which a later acquire waits for (R194). -/
def Strand.releasing (t : Strand) : List Nat := (t.peers.filter fun w => w.rel && !w.failed).flatMap (·.reqs)
/-- Those of its PLDs and PATOMs, which have registers still to write. -/
def Strand.loading (t : Strand) : List Nat := (t.peers.filter fun w => w.dest.isSome && !w.failed).flatMap (·.reqs)

/-- A trap that the issuing split takes as it stands, before its table is settled (R242, R246, R251). DEDUCED, unsafe
(log 47): a split that has gone on to the next instruction (kinds T and P) keeps its entry and MASK, and the others
theirs, until TRET or the supervisor routine goes on. A trap out of user mode waits for the values of the strand's PLDs
and PATOMs, and meanwhile the strand has left any latch and none of its splits issues (R83, R242). -/
def State.enter (s : State) (tr : Trap) (npc : PC) : State :=
  let mask := s.mySplit.mask
  if !s.me.sup && !s.me.loading.isEmpty && s.trapReady s.cur.core s.me.part (s.part s.me.part).tvec then
    let s := s.modCtx s.cur.core fun x => x.leaveLatch s.cur.slot
    { s.modMe fun t => { t with entering := some { cur := s.cur, mask, trap := tr, npc } } with
      cur := { s.cur with done := false } }
  else s.enterNow mask tr npc

/-- Take a trap at the issuing split. For kinds T and P the instruction has completed, and the split's
record holds the next PC (R241, R242). A comparator's BRKPT is noted (R288). -/
def State.takeTrap (s : State) (tr : Trap) : State :=
  let fired := if tr.code == .brkpt && tr.d0 != 0 then tr.d0 else s.cur.fired
  let s := { s with cur := { s.cur with fired } }
  let npc := s.cur.npc
  if tr.code.kindT || tr.code.kindP then (s.modMySplit fun p => p.go npc (s.readyAt npc)).enter tr npc
  else s.enter tr s.cur.pc

/-- STEP (R288, Table 12-2): a trap of kind T after an instruction that has completed, with the split where the
instruction left it; a split whose lanes have all exited counts as standing at the next PC. -/
def State.takeStep (s : State) : State :=
  s.enter { code := .step } (if s.mySplit.valid then s.mySplit.pc else s.cur.npc)

/-! ## Returning from a trap (R245) -/

/-- FMT values that SETFMT accepts (R459). -/
def fmtOk (f : Nat) : Bool :=
  bits f 31 28 == 0 && bits f 18 16 == 0 && bits f 3 2 == 0 && bits f 15 12 < 6 && bits f 11 8 < 6 && bits f 7 4 < 6

/-- The tests of R47 on a gang value, for a strand of a workgroup of `n` strands. -/
def gangOk (g n me : Nat) : Bool :=
  let cnt := bits g 38 36
  let ms := (List.range cnt).map fun k => bits g (6 * k + 5) (6 * k)
  cnt < 2 || (cnt < 7 && ms.eraseDups.length == cnt && ms.all (· < n) && ms.contains me)

/-- The gang register that a value leaves (R47). -/
def gangValue (g : Nat) : DWord :=
  let cnt := bits g 38 36
  let ms := if cnt < 2 then 0 else g % 2 ^ (6 * cnt)
  BitVec.ofNat 64 (cnt * 2 ^ 36 + ms)

/-- A record of the split table or stack, read back (R79). -/
def readRecord (bs : List Byte) : Bool × PC × Mask × Word :=
  ((field bs 6 1).testBit 7, BitVec.ofNat 48 (field bs 0 6), BitVec.ofNat 32 (field bs 8 4), BitVec.ofNat 32 (field bs 12 4))

/-- No two masks share a lane, none is empty, and together they are `live` (R245). -/
def masksOk (live : Mask) (ms : List Mask) : Bool :=
  ms.foldl (· ||| ·) 0 == live && ms.all (· != 0) &&
    (ms.map fun m => (lanes m).length).foldl (· + ·) 0 == (lanes live).length

/-- Control areas that TRET accepts (R245). -/
def State.tretOk (s : State) (c : List Byte) : Bool :=
  let t := s.me
  let used := field c 0x0D 1
  let table := (List.range 4).map fun e => readRecord ((c.drop (0x40 + 16 * e)).take 16)
  let stack := (List.range (min used 16)).map fun e => readRecord ((c.drop (0x80 + 16 * e)).take 16)
  let recs := (table.filter (·.1)) ++ stack
  field c 0 4 == 1 && (field c 4 4).testBit 0 && used ≤ (s.part t.part).depth &&
  masksOk t.live (recs.map fun r => r.2.2.1) &&
  recs.all (fun r => slotWord r.2.1.toNat) &&
  field c 0x0A 2 % 8 == 0 && field c 0x0A 2 < t.allot &&
  gangOk (field c 0x18 8) s.myWg.nstr t.index &&
  recs.all (fun r => fmtOk r.2.2.2.toNat) &&
  (List.range 8).all fun g => bits (field c 0x26 2) (2 * g + 1) (2 * g) != 3

/-- The guard state of a code (Table 3-7). -/
def guardOfCode : Nat → Guard
  | 1 => .isFalse | 2 => .unresolved | _ => .isTrue

/-- An MMX that CTXLD installed goes on (R383): a member whose guard decides and is FALSE is discarded, all of them end it,
and it is held as long as such a guard is unresolved (R53, R436). -/
def Context.goOn (x : Context) (id : Nat) : Context :=
  match x.queue.find? (·.id == id) with
  | none => x
  | some o =>
    let guard (m : MatMember) : Guard := match m.guard, m.shadow with
      | some g, none => x.guardAt m.slot g
      | _, _ => .isTrue
    let off := o.members.filter fun m => guard m == .isFalse
    if off.length = o.members.length then x.modOp id fun p =>
      { p with joining := none, held := false, finished := true, members := p.members.map fun m => { m with gone := true } }
    else (x.arriveMat off).modOp id fun p =>
      { p with
        joining := none
        members := p.members.filter fun m => guard m != .isFalse
        held := p.members.any fun m => guard m == .unresolved }

/-- A listed strand that has ended, of an MMX that CTXLD has installed. -/
def Context.missing (x : Context) (o : MatOp) : Option Nat :=
  (gangList o.gang).find? fun k => !x.strands.any fun t => t.2.wg == o.wg && t.2.index == k

/-- The MMX that CTXLD installed for the listed strand with an index, once that strand has returned. -/
def Context.partOf (x : Context) (o : MatOp) (index : Nat) : Option MatOp :=
  x.queue.find? fun p =>
    p.joining == some true && p.wg == o.wg && p.gang == o.gang && p.word == o.word &&
      p.members.any fun m => ((x.strands.at? m.slot).map (·.index)) == some index

/-- A listed strand has returned after its own CTXLD, and that installed no MMX: its run had been discarded before the
save (R146, R436; log 67). -/
def Context.without (x : Context) (o : MatOp) (index : Nat) : Bool :=
  x.strands.any fun t => t.2.wg == o.wg && t.2.index == index && t.2.restored == some true &&
    !x.queue.any fun p => p.joining.isSome && p.members.any (·.uid == t.2.uid)

/-- An MMX that CTXLD installed, of a strand that has returned: alone it goes on; that of a gang goes on as one operation
once every listed strand has returned, and unequal STEP values bring GANGMISMATCH (R146, R383). -/
def Context.join (x : Context) (o : MatOp) : Context :=
  let g := gangList o.gang
  if g.isEmpty then x.goOn o.id
  else if g.any fun k => (x.partOf o k).isNone && !x.without o k then x
  else
    let parts := g.filterMap (x.partOf o)
    let x := { x with strands := x.strands.map fun (e : Nat × Strand) =>
      if e.2.wg = o.wg && g.contains e.2.index then (e.1, { e.2 with restored := none }) else e }
    if parts.all (·.step == o.step) then
      let others := (parts.filter (·.id != o.id)).map (·.id)
      let x := x.modOp o.id fun p => { p with members := parts.flatMap (·.members) }
      { x with queue := x.queue.filter fun p => !others.contains p.id }.goOn o.id
    else
      let x := parts.foldl Context.endOp x
      parts.foldl (fun (x : Context) p => p.members.foldl (fun (x : Context) m =>
        { x with strands := Store.modify x.strands m.slot fun t =>
          { t with due := some (.mismatch o.word) } }) x) x

/-- Pending shadows that CTXLD installed under a guard that TRET leaves resolved take its value (R55). -/
def Context.settleShadows (x : Context) (uid : Nat) : Context :=
  (x.queue.foldl (fun (x : Context) o => o.members.foldl (fun (x : Context) m =>
    match m.guard with
    | some g => if m.uid = uid then x.resolveShadow o.id m (x.guardAt m.slot g) else x
    | none => x) x) x).giveShadow

/-- MMX operations of a strand that leaves supervisor mode go on: those its CTXST stopped, and those its
CTXLD installed (R146, R380, R383). One that a listed member can no longer join, since it has ended, ends now, and the strand
has GANGEXIT to take (R146; log 61). -/
def Context.rejoin (x : Context) (uid : Nat) : Context :=
  let x := { x with
    strands := x.strands.map fun (e : Nat × Strand) =>
      if e.2.uid = uid then (e.1, { e.2 with restored := e.2.restored.map fun _ => true }) else e
    queue := x.queue.map fun (o : MatOp) =>
      let own := o.members.any (·.uid == uid)
      { o with
        holders := o.holders.filter (· != uid)
        joining := if own && o.joining.isSome then some true else o.joining } }
  let x := x.queue.foldl (fun (x : Context) o =>
    match x.missing o with
    | some k => if o.joining == some true then x.endGang o k uid true else x
    | none => x) x
  let x := x.queue.foldl (fun (x : Context) o =>
    match x.queue.find? (·.id == o.id) with
    | some p => if p.joining == some true then x.join p else x
    | none => x) x
  x.settleShadows uid

/-- TRET restores the strand and leaves supervisor mode (R245). -/
def State.restore (s : State) (c : List Byte) : State :=
  let core := s.cur.core
  let slot := s.cur.slot
  let used := field c 0x0D 1
  let entry (e : Nat) : Option (Nat × Split) :=
    let (v, pc, mask, fmt) := readRecord ((c.drop (0x40 + 16 * e)).take 16)
    if v then some (e, { valid := true, pc, mask, fmt, since := s.readyAt pc, inhibit := true }) else none
  let item (e : Nat) : StackEntry :=
    let (_, pc, mask, fmt) := readRecord ((c.drop (0x80 + 16 * e)).take 16)
    { pc, mask, fmt }
  let s := s.modMe fun t => { t with
    splits := (List.range 4).filterMap entry
    stack := ((List.range used).map item).reverse
    preds := Store.listed 0 1 ((List.range 7).map fun k => BitVec.ofNat 32 (field c (0x184 + 4 * k) 4))
    xregs := Store.listed 0 0 ((List.range 64).map fun k => BitVec.ofNat 64 (field c (0x200 + 8 * k) 8))
    flg := BitVec.ofNat 16 (field c 0x12 2) &&& 0x3F#16
    wb := field c 0x0A 2
    gang := gangValue (field c 0x18 8)
    keep := none }
  let s := (List.range 8).foldl (fun s g =>
    let v := guardOfCode (bits (field c 0x26 2) (2 * g + 1) (2 * g))
    if (s.strand core slot).guard g = v then s else s.setGuard core slot g v) s
  let s := s.modMe fun t => { t with sup := false }
  let s := s.modCtx core fun x => x.rejoin s.me.uid
  s.trace s.me.part 2 core 0 s.cur.pc.toNat 0

/-! ## Issue (R237, R239, R240) -/

/-- A register range that an instruction names, as far as it has an allotment (R60, R135). -/
inductive Reg where
  /-- `n` vector registers from field `f` -/
  | v (f n : Nat)
  | tile (n : Nat)
  | acc (n : Nat)
  deriving DecidableEq, Repr

/-- REGRANGE of a range: the lowest-numbered failing register (R60, R65, R135, Table 10-1). -/
def State.regRange (s : State) : Reg → Option Trap
  | .v f n =>
    let t := s.me
    ((List.range n).find? fun k => 128 ≤ f + k || t.allot ≤ t.wb + f + k).map fun k =>
      { code := .regrange, d0 := (t.wb + f + k) * 2 ^ 16, d1 := t.allot }
  | .tile n =>
    if n < s.myWg.ntiles then none else some { code := .regrange, d0 := 3 + n * 2 ^ 16, d1 := s.myWg.ntiles }
  | .acc n =>
    if n < s.me.naccs then none else some { code := .regrange, d0 := 4 + n * 2 ^ 16, d1 := s.me.naccs }

/-- A lock of a queued matrix operation on a register that the instruction writes (R72). -/
def State.lockOn (s : State) : Reg → Option Stall
  | .v f n =>
    let t := s.me
    if (List.range n).any fun k => (s.ctx s.cur.core).lockedV t.uid (t.wb + f + k)
    then some (.vregs (t.wb + f) n) else none
  | .tile n => if (s.ctx s.cur.core).lockedT s.me.wg n then some (.tile n) else none
  | .acc n => if (s.ctx s.cur.core).lockedA s.me.uid n then some (.acc n) else none

/-- A PLD or PATOM has a physical register still to write. -/
def PeerWait.writes (w : PeerWait) (p : Nat) : Bool :=
  !w.failed && w.dest.any fun d => d.1 ≤ p && p < d.1 + (if d.2 = 8 then 2 else 1)

/-- A PLD or PATOM of the strand that has a named register still to write: the instruction waits for its requests (R70,
R442). -/
def State.loadOn (s : State) : Reg → Option Stall
  | .v f n =>
    let t := s.me
    (t.peers.find? fun w => (List.range n).any fun k => w.writes (t.wb + f + k)).map fun w => .peer w.reqs
  | _ => none

/-- End an issue: an instruction that has completed leaves its strand's table settled; in user mode STEP may be taken
after it first (R288). `user` tells whether it issued in user mode. -/
def State.finish (user : Bool) (s : State) : State :=
  if !s.cur.done then s
  else if user && !s.me.sup && s.me.dbgstep && (s.part s.me.part).invasive then s.takeStep
  else s.settleMe

/-- Count the issue of a split (event 0x02 of Table 12-5): once for an instruction that waits and is issued again. -/
def State.countIssue (s : State) (again : Bool) : State := if again then s else s.count s.cur.core 0x02 1

/-- Issue an instruction whose encoding has been decoded: REGRANGE over the registers it names, PRIV,
then nothing when no lane is active, else its body, behind the PLDs and PATOMs that write those registers (R70, R237,
R239). -/
def State.issue (s : State) (priv : Bool) (regs : List Reg) (body : State → State) : State :=
  let go : State :=
    match regs.findSome? s.regRange with
    | some tr => s.takeTrap tr
    | none =>
      if priv && !s.me.sup then s.takeTrap { code := .priv }
      else if s.cur.act = 0 then s.retire
      else match regs.findSome? s.loadOn with
        | some w => s.hold w
        | none => body s
  (go.finish (!s.me.sup)).countIssue (s.mySplit.stall != .none)

/-- Go on with the body, unless a lock holds a register it writes (R72). -/
def State.unlocked (s : State) (regs : List Reg) (body : State → State) : State :=
  match regs.findSome? s.lockOn with
  | some w => s.hold w
  | none => body s

/-- Go on with the body, unless a check fails. -/
def State.check (s : State) (c : Option Trap) (body : State → State) : State :=
  match c with
  | some tr => s.takeTrap tr
  | none => body s

/-- A trap when a condition holds. -/
def trapIf (c : Bool) (t : Trap) : Option Trap := if c then some t else none

/-- ILLSTATE of a strand-wide instruction on a strand that has not converged (R32). -/
def State.divergent (s : State) : Option Trap := trapIf (!s.me.converged) (s.illstate 0)

/-- ILLSTATE for a field or operand value (DETAIL0 1). -/
def State.badValue (s : State) (c : Bool) : Option Trap := trapIf c (s.illstate 1)

/-- Go on with the body once some requests are closed. -/
def State.afterReqs (s : State) (reqs : List Nat) (body : State → State) : State :=
  if reqs.isEmpty then body s else s.hold (.peer reqs)

/-- Go on with an access, unless an earlier acquire of the strand is open (R194). -/
def State.afterAcquires (s : State) (body : State → State) : State := s.afterReqs s.me.acquiring body

/-- Go on with a counted access, unless the counter of its class stands at 63 (R181). -/
def State.counted (s : State) (c : CClass) (body : State → State) : State :=
  if s.me.counter c ≥ 63 then s.hold (.counter c 62) else s.afterAcquires body

/-- A counted access that is performed as it issues: once it completes, it passes through its counter (R181). -/
def State.passing (s : State) (c : CClass) (body : State → State) : State :=
  s.counted c fun s =>
    let t := body s
    if t.cur.done then t.modMe (·.through c) else t

/-- Act for another split of the same core, with its instruction in the cursor. -/
def State.as (s : State) (c : Cur) (f : State → State) : State :=
  { f { s with cur := c } with cur := s.cur }

/-- Enter the trap that a strand is about to enter, once its PLDs and PATOMs are complete (R83, R242). -/
def State.enterDue (s : State) (core slot : Nat) : State :=
  let t := s.strand core slot
  match t.entering with
  | none => s
  | some e =>
    if !t.loading.isEmpty then s
    else (s.modStrand core slot fun t => { t with entering := none }).as e.cur fun s => s.enterNow e.mask e.trap e.npc

end Sys2Proof.Machine
end

