-- ==== Sys2Proof/Machine/Operands.lean ====
section
/-!
DEFINITION. Every operand form: addresses per lane, register ranges, widths, guards, barrier selectors,
descriptors in the shelf (R306, R352, R361, R421, R422, R356).
-/

namespace Sys2Proof

/-- Bytes of an access width (Table 19-10). -/
def Width.bytes : Width → Nat
  | .b8 => 1 | .b16 => 2 | .b32 => 4 | .b64 => 8 | .b128 => 16

/-- Registers that a datum of a width takes in a lane (R423). -/
def Width.regs : Width → Nat
  | .b64 => 2 | .b128 => 4 | _ => 1

/-- The registers that an offset names. -/
def Off.regs : Off → List Machine.Reg
  | .imm _ => []
  | .reg v => [.v v.val 1]

/-- The registers that a compact address names. -/
def CAddr.regs : CAddr → List Machine.Reg
  | .reg _ vo => [.v vo.val 1]
  | .imm _ _ => []

end Sys2Proof

namespace Sys2Proof.Machine

/-- A vector register as an operand. -/
def vr (f : VReg) : Reg := .v f.val 1
/-- Consecutive vector registers as an operand. -/
def vrs (f : VReg) (n : Nat) : Reg := .v f.val n

/-- The sum of a base register and a signed offset, modulo 2^64 (R424). -/
def State.baseOff (s : State) (xa : XReg) (off : Int) : Nat :=
  (((s.xn xa.val : Int) + off) % (2 ^ 64 : Nat)).toNat

/-- The address of a lane: an immediate offset, or a vector register's lane (R358, R424). -/
def State.offAddr (s : State) (xa : XReg) (off : Off) (l : Nat) : Nat :=
  match off with
  | .imm n => s.baseOff xa (signed 13 n.val)
  | .reg v => s.baseOff xa (s.v v.val l).toNat

/-- The address of a lane of a compact access (R421). -/
def State.caddr (s : State) (a : CAddr) (l : Nat) : Nat :=
  match a with
  | .reg x vo => s.baseOff x (s.v vo.val l).toNat
  | .imm x k => s.baseOff x (4 * k.val)

/-- Addresses of the active lanes: (lane, address). -/
def State.laneAddrs (s : State) (f : Nat → Nat) : List (Nat × Nat) := s.actLanes.map fun l => (l, f l)

/-- The datum of a lane in consecutive registers, low word first (R466). -/
def State.laneData (s : State) (f : VReg) (w : Width) (l : Nat) : Nat :=
  (List.range w.regs).foldl (fun n i => n + (s.v (f.val + i) l).toNat * 2 ^ (32 * i)) 0

/-- Write data of lanes into consecutive registers, zero-extended (R424). -/
def State.putData (s : State) (f : VReg) (w : Width) (val : Nat → Nat) : State :=
  (List.range w.regs).foldl (fun s i => s.putV (f.val + i) fun l => BitVec.ofNat 32 (val l / 2 ^ (32 * i))) s

/-- A 32-bit lane pair as a 64-bit number, or one lane (R357). -/
def State.lanePair (s : State) (f : VReg) (w64 : Bool) (l : Nat) : Nat :=
  if w64 then (s.v f.val l).toNat + (s.v (f.val + 1) l).toNat * 2 ^ 32 else (s.v f.val l).toNat

/-- Registers of a lane operand of 4 or 8 bytes. -/
def pairRegs (f : VReg) (w64 : Bool) : Reg := .v f.val (if w64 then 2 else 1)

/-- Vb of HADD2 and HMUL2 in the compact form names V0 to V63. -/
def lowReg (b : Fin 64) : VReg := ⟨b.val, Nat.lt_trans b.isLt (by decide)⟩

/-! ## Cohort positions (R156) -/

/-- The core at a cohort position, if the position may be named (R156). -/
def State.cohortCore (s : State) (pos : Nat) : Option Nat :=
  let w := s.myWg
  if w.cohort.isEmpty then (if pos = 0 then some s.cur.core else none) else w.cohort[pos]?

/-! ## Barrier operands (R360, R361) -/

/-- What a barrier operand turns out to be. -/
inductive BarTarget where
  /-- a shelf object: core and offset -/
  | object (core off : Nat)
  /-- a group barrier: keeping core, and its key -/
  | group (core key : Nat)
  | trap (t : Trap)
  deriving DecidableEq, Repr

/-- Resolve a barrier operand with its checks (R361, R364); `rem` tells whether REM is allowed. DETAIL0
counts the object's 16 bytes. -/
def State.barTarget (s : State) (sel : BarSel) (rem : Bool) : BarTarget :=
  match sel with
  | .group n =>
    match s.me.gslots.at? n.val with
    | none => .trap (s.illstate 2)
    | some e =>
      match s.groupBarrier? s.cur.core s.me e with
      | some (home, g) => .group home g.key
      | none => .trap (s.illstate 2)
  | .object x =>
    let v := s.xn x.val
    let off := v % 2 ^ 20
    let d0 := accDetail 16 true true
    let isRem := v.testBit 48
    let pos := bits v 47 44
    if off % 16 ≠ 0 then .trap { code := .misalign, addr := v, d0 }
    else if bits v 63 49 != 0 || bits v 43 20 != 0 || (!isRem && pos != 0) || (isRem && !rem) then
      .trap { code := .shelfrange, addr := v, d0 }
    else if isRem then
      match s.cohortCore pos with
      | some c => .object c off
      | none => .trap { code := .shelfrange, addr := v, d0 }
    else .object s.cur.core off

/-- The group barrier with a key on a core. -/
def State.gbar? (s : State) (core key : Nat) : Option GroupBarrier :=
  (s.ctx core).gbars.find? (·.key == key)

/-- The object that a target holds (Table 7-7, R362). -/
def State.barObj (s : State) : BarTarget → BarrierObj
  | .object c off => s.barrier c off
  | .group c k => ((s.gbar? c k).map GroupBarrier.obj).getD (.decode 0)
  | .trap _ => .decode 0

/-- Write a target's object. -/
def State.setBarObj (s : State) (t : BarTarget) (b : BarrierObj) : State :=
  match t with
  | .object c off => s.setBarrier c off b
  | .group c k =>
    match s.gbar? c k with
    | some g => s.setGroupBarrier c (g.ofObj b)
    | none => s
  | .trap _ => s

/-! ## Operand ranges in the shelf -/

/-- MISALIGN, then SHELFRANGE, of a range that an instruction reads or writes once (R155, Table 10-1). -/
def State.shelfRangeCheck (s : State) (a n al : Nat) (rd wr : Bool) : Option Trap :=
  s.shelfChecks [(0, a)] n al rd wr false

/-- A trap of a check made once on an operand range of `n` bytes (Table 10-1). -/
def rangeTrap (code : TrapCode) (a n : Nat) (rd wr : Bool) : Trap := { code, addr := a, d0 := accDetail n rd wr }

/-- The first check that fails. -/
def firstTrap (cs : List (Option Trap)) : Option Trap := cs.findSome? id

/-- MISALIGN, then SHELFRANGE, of several ranges (address, bytes), then the comparators (R154, R288). -/
def State.shelfRanges (s : State) (rs : List (Nat × Nat)) (al : Nat) (rd wr : Bool) : Option Trap :=
  firstTrap (rs.map fun r => trapIf (r.1 % al != 0) (rangeTrap .misalign r.1 r.2 rd wr))
  <|> firstTrap (rs.map fun r => trapIf (Config.shelfBytes < r.1 + r.2) (rangeTrap .shelfrange r.1 r.2 rd wr))
  <|> (rs.filterMap fun r => s.watch 1 rd wr [(0, r.1)] r.2 false).foldl (fun (m : Option Trap) t => match m with
    | some u => if t.d0 < u.d0 then some t else m
    | none => some t) none

/-- `n` bytes of the issuing core's shelf. -/
def State.myShelf (s : State) (a n : Nat) : List Byte := (s.shelf s.cur.core).bytes a n

/-- The guard slot that a command names (R352). -/
def guardArg (g : Option GReg) : Option Nat := g.map (·.val)

end Sys2Proof.Machine
end

