-- ==== Sys2Proof/Machine/Flags.lean ====
section
/-!
DEFINITION. Vector results and their flags: the effective rounding mode and flushing (R99, R104, R385),
and the shared shapes of the vector instructions (R351, R384, R386).
-/

namespace Sys2Proof.Machine

/-- The effective rounding mode (R99): the modifier, else FMT.RM. -/
def State.rm (s : State) (m : Option Rm) : Rm := m.getD (fmtRm s.fmt)
/-- Flushing is in force (R104). -/
def State.ftz (s : State) (md : Bool) : Bool := md || fmtFz s.fmt

/-- The OR of the flags of the active lanes (R105). -/
def State.laneFlags (s : State) (f : Nat → Flags) : Flags := s.actLanes.foldl (fun g l => g ||| f l) 0

/-- A vector integer or move instruction: each active lane takes a value, with no flag (R384). -/
def State.vector (s : State) (regs : List Reg) (d : VReg) (f : State → Nat → Word) : State :=
  s.issue false regs fun s => s.unlocked [vr d] fun s => (s.putV d.val (f s)).retire

/-- A vector instruction whose lanes set flags (R386). -/
def State.vectorF (s : State) (regs : List Reg) (d : VReg) (f : State → Nat → Nat × Flags) : State :=
  s.issue false regs fun s => s.unlocked [vr d] fun s =>
    ((s.putV d.val fun l => BitVec.ofNat 32 (f s l).1).flags (s.laneFlags fun l => (f s l).2)).retire

/-- The mask of the active lanes in which a test holds. -/
def State.laneMask (s : State) (f : Nat → Bool) : Mask := maskOf (s.actLanes.filter f)

/-- A predicate-producing instruction: each active lane takes a bit, with flags (R384). -/
def State.predicate (s : State) (regs : List Reg) (p : PReg) (f : State → Nat → Bool × Flags) : State :=
  s.issue false regs fun s =>
    ((s.putP p.val (s.laneMask fun l => (f s l).1)).flags (s.laneFlags fun l => (f s l).2)).retire

/-- A uniform instruction: once for the strand, a uniform register takes a value (R499). -/
def State.uniform (s : State) (d : XReg) (f : State → DWord) : State :=
  s.issue false [] fun s => (s.putX d.val (f s)).retire

/-- An FP32 operation on lanes of two registers. -/
def State.fp2 (s : State) (d a b : VReg) (f : State → Nat → Nat → Nat × Flags) : State :=
  s.vectorF [vr d, vr a, vr b] d fun s l => f s (s.v a.val l).toNat (s.v b.val l).toNat

/-- Two 16-bit halves, each on its own, packed (R413). -/
def halves (f : Nat → Nat → Nat → Nat × Flags) (a b c : Word) : Nat × Flags :=
  let h (x : Word) (k : Nat) : Nat := x.toNat / 2 ^ (16 * k) % 2 ^ 16
  let (lo, f0) := f (h a 0) (h b 0) (h c 0)
  let (hi, f1) := f (h a 1) (h b 1) (h c 1)
  (lo + hi * 2 ^ 16, f0 ||| f1)

end Sys2Proof.Machine
end

