-- ==== Sys2Proof/Machine/Control.lean ====
section
/-!
DEFINITION. Control flow and strand state: NOP to GANGSET, and the special sources of MOVS.
-/

namespace Sys2Proof.Machine

/-- The outcome of an instruction or step that always goes on. -/
abbrev Result := Host.Outcome State Fault Refusal

/-! ## Branches (R369, R426) -/

/-- The target of a signed word offset of `w` bits (R299). -/
def State.relative (s : State) (w n : Nat) : PC := s.cur.pc + BitVec.ofInt 48 (4 * signed w n)
/-- The target that a uniform register holds: bits 47:2 (R299). -/
def State.absolute (s : State) (x : Nat) : PC := (s.x x).setWidth 48 &&& ~~~3#48

/-- Go to a target with the active lanes: HDRTARGET (R238), SPLITOVF (R28), then what the branch writes
beside the PC, then the branch itself (R25). -/
def State.jump (s : State) (t : PC) (pre : State → State) : State :=
  s.check (trapIf (t &&& 0x1C#48 == 0) { code := .hdrtarget, lanes := s.cur.act, d0 := s.cur.act.toNat }) fun s =>
  s.check (trapIf (s.mySplit.mask &&& ~~~s.cur.act != 0 && s.overflows)
    { code := .splitovf, d0 := (s.part s.me.part).depth }) fun s =>
  (pre s).branch t

/-- NOP (R439). -/
def execNop (s : State) : Result := .next (s.issue false [] State.retire)

/-- BRA (R369). -/
def execBra (off : Fin 2097152) (s : State) : Result :=
  .next (s.issue false [] fun s => s.jump (s.relative 21 off.val) id)

/-- BRX (R369). -/
def execBrx (x : XReg) (s : State) : Result :=
  .next (s.issue false [] fun s => s.jump (s.absolute x.val) id)

/-- CALL (R369): X63 takes the next PC. -/
def execCall (off : Fin 2097152) (s : State) : Result :=
  .next (s.issue false [] fun s => s.jump (s.relative 21 off.val) fun s => s.putX 63 (s.cur.npc.setWidth 64))

/-- RET (R369). -/
def execRet (s : State) : Result := .next (s.issue false [] fun s => s.jump (s.absolute 63) id)

/-- LOOPX (R426): the count falls; while it is not zero the active lanes branch. -/
def execLoopx (x : XReg) (off : Fin 16384) (s : State) : Result :=
  .next (s.issue false [] fun s =>
    let v := s.x x.val - 1
    if v = 0 then (s.putX x.val v).retire
    else s.jump (s.relative 14 off.val) fun s => s.putX x.val v)

/-! ## Leaving and meeting (R391, R392, R468, R503) -/

/-- The active lanes leave the strand (R29). -/
def State.exitLanes (s : State) : State :=
  let gone := s.cur.act
  let live := s.me.live &&& ~~~gone
  let rest := s.mySplit.mask &&& ~~~gone
  let npc := s.cur.npc
  if live = 0 then (s.endStrand s.cur.core s.cur.slot).complete
  else
    let since := s.readyAt npc
    let s := s.modMe fun t => { t with live }
    (s.modMySplit fun p => if rest = 0 then {} else { p with mask := rest }.go npc since).complete

/-- EXIT (R391): in supervisor mode it ends the strand and faults its task with its trap frame's
fields. -/
def execExit (s : State) : Result :=
  .next (s.issue false [] fun s => if s.me.sup then (s.faultFromFrame none).complete else s.exitLanes)

/-- SYNCS (R30, R468): it completes if every other split waits at a SYNCS and this one has the lowest PC; else the split
waits, until its table lets it through to issue SYNCS again. -/
def execSyncs (s : State) : Result :=
  .next (s.issue false [] fun s =>
    if s.me.lastAtSyncs s.cur.entry then s.goTo (nextPc s.mySplit.pc false)
    else (s.modMySplit fun p => { p with wait := 1, stall := .none }).settleMe)

/-- YIELD (R503). -/
def execYield (s : State) : Result :=
  .next (s.issue false [] fun s =>
    (s.modMySplit fun p => p.go s.cur.npc (s.nextCycle + 1)).complete)

/-! ## Windows and allotments (R463, R464, R497) -/

/-- WINB (R497). -/
def execWinb (base : Fin 16384) (s : State) : Result :=
  .next (s.issue false [] fun s =>
    s.check (s.badValue (base.val % 8 != 0 || s.me.allot ≤ base.val)) fun s =>
    (s.modMe fun t => { t with wb := base.val, keep := none }).retire)

/-- Lanes of the slices of a mask. -/
def sliceLanes (m : BitVec 4) : Mask := maskOf ((List.range 32).filter fun l => m.getLsbD (l / 8))

/-- SHRINK.V (R463): after the strand's PLDs and PATOMs, which may still write a released register
(R464). -/
def execShrinkV (n : Fin 16384) (s : State) : Result :=
  .next (s.issue false [] fun s =>
    let t := s.me
    s.check (s.badValue (n.val == 0 || n.val % 8 != 0 || t.allot < n.val || n.val ≤ t.wb)) fun s =>
    s.afterReqs t.loading fun s => (s.modMe fun t => { t with
      allot := n.val, vregs := t.vregs.filter fun e => e.1 < 32 * n.val, keep := none }).retire)

/-- SHRINK.L (R463): the held slices whose lanes have all exited are released. -/
def execShrinkL (s : State) : Result :=
  .next (s.issue false [] fun s =>
    s.afterReqs s.me.loading fun s => (s.modMe fun t =>
      let keepIt (k : Nat) : Bool := t.slices.getLsbD k && t.live &&& sliceLanes (1#4 <<< k) != 0
      { t with
        slices := BitVec.ofNat 4 ((List.range 4).foldl (fun n k => n + flag (keepIt k) * 2 ^ k) 0)
        vregs := t.vregs.filter fun e => keepIt (e.1 % 32 / 8) || !t.slices.getLsbD (e.1 % 32 / 8)
        keep := none }).retire)

/-- A serialising instruction waits for the strand's earlier instructions, which are its peer accesses:
everything else has completed, engine commands apart (R378, R489). -/
def State.serial (s : State) (body : State → State) : State :=
  s.afterReqs s.me.openReqs body

/-! ## Traps -/

/-- TRAP (R488): SWTRAP of kind T. -/
def execTrap (imm : Fin 16384) (s : State) : Result :=
  .next (s.issue false [] fun s => s.takeTrap { code := .swtrap, d0 := imm.val })

/-- TRET (R245, R489). -/
def execTret (s : State) : Result :=
  .next (s.issue true [] fun s => s.serial fun s =>
    let c := s.view s.cur.core (s.ctlArea s.cur.core s.cur.slot) 1024
    s.check (s.badValue !(s.tretOk c)) fun s => (s.restore c).complete)

/-- BRK (R371). -/
def execBrk (s : State) : Result := .next (s.issue false [] fun s => s.takeTrap { code := .brkpt })

/-! ## FMT, FLG, the gang register (R408, R459, R460) -/

/-- SETFMT (R459). -/
def execSetfmt (x : XReg) (s : State) : Result :=
  .next (s.issue false [] fun s =>
    let f := s.xn x.val % 2 ^ 32
    s.check (s.badValue !(fmtOk f)) fun s =>
    (s.modMySplit fun p => { p with fmt := BitVec.ofNat 32 f }).retire)

/-- A matrix operation of the strand has neither completed nor stopped, so flags may still come
(R434). -/
def State.flagsOpen (s : State) : Bool :=
  (s.ctx s.cur.core).queue.any fun o => !o.isStopped && o.members.any fun m => m.uid == s.me.uid

/-- SETFMT.F (R460). -/
def execSetfmtF (x : XReg) (s : State) : Result :=
  .next (s.issue false [] fun s =>
    if s.flagsOpen then s.hold .matrix
    else (s.modMe fun t => { t with flg := t.flg &&& ~~~((s.x x.val).setWidth 16 &&& 0x3F#16) }).retire)

/-- GANGSET (R47, R408). -/
def execGangset (x : XReg) (s : State) : Result :=
  .next (s.issue false [] fun s =>
    let g := s.xn x.val % 2 ^ 39
    s.check (s.badValue !(gangOk g s.myWg.nstr s.me.index)) fun s =>
    (s.modMe fun t => { t with gang := gangValue g, keep := none }).retire)

/-! ## MOVS (R77, R438) -/

/-- GS0 to GS3 as sr.gslots shows them (Table 3-6). -/
def Strand.gslotBits (t : Strand) : Nat :=
  (List.range 4).foldl (fun n k => match t.gslots.at? k with
    | some e => n + (2 ^ 8 + e % 2 ^ 8) * 2 ^ (9 * k)
    | none => n) 0

/-- The value of a special source, for a lane (Table 3-6). -/
def State.special (s : State) (code lane : Nat) : DWord :=
  let t := s.me
  let w := s.myWg
  let run (f : TaskRun → Nat) : Nat := ((s.run? t.run).map f).getD 0
  let n (k : Nat) : DWord := BitVec.ofNat 64 k
  match code with
  | 0x00 => n lane
  | 0x01 => n t.index
  | 0x02 => n w.nstr
  | 0x03 => n w.index
  | 0x04 => n (run TaskRun.nwg)
  | 0x05 => n (if run TaskRun.cohort = 0 then 0 else w.index / run TaskRun.cohort)
  | 0x06 => n w.pos
  | 0x07 => n s.cur.core
  | 0x08 => n (s.cur.slot / 64)
  | 0x09 => n s.cur.slot
  | 0x0A => n (run (·.index))
  | 0x0B => n (run TaskRun.prio)
  | 0x0C => n t.part
  | 0x0D => t.gang
  | 0x0E => n t.gslotBits
  | 0x0F => s.mySplit.mask.setWidth 64
  | 0x10 => t.live.setWidth 64
  | 0x11 => s.fmt.setWidth 64
  | 0x12 => t.flg.setWidth 64
  | 0x13 => n t.wb
  | 0x14 => n (t.allot + t.slices.toNat * 2 ^ 16)
  | 0x15 => n s.clock
  | 0x16 => n t.counters
  | 0x17 => n t.guardBits
  | 0x18 => s.topover.setWidth 64
  | _ => n (s.ctlArea s.cur.core s.cur.slot)

/-- MOVS waits for the flags of matrix operations when it reads FLG (R434). -/
def State.afterFlags (s : State) (src : Nat) (body : State → State) : State :=
  if src = 0x12 && s.flagsOpen then s.hold .matrix else body s

/-- MOVS to a vector register (R438). -/
def execMovsV (d : VReg) (src : Fin 26) (s : State) : Result :=
  .next (s.issue false [vr d] fun s => s.unlocked [vr d] fun s => s.afterFlags src.val fun s =>
    (s.putV d.val fun l => (s.special src.val l).setWidth 32).retire)

/-- MOVS to a uniform register (R438). -/
def execMovsX (d : XReg) (src : Fin 26) (s : State) : Result :=
  .next (s.issue false [] fun s => s.afterFlags src.val fun s =>
    (s.putX d.val (s.special src.val 0)).retire)

end Sys2Proof.Machine
end

