-- ==== Sys2Proof/Machine/Commands.lean ====
section
/-!
DEFINITION. The instructions that post engine commands: COPY, PUTS, TFETCH, TSTORE, MCOPY, MFILL, MREDUCE,
COLL (R373 to R376, R429 to R432, R447 to R449, R475 to R479, R276). Every check is made at issue, whatever the
guard holds (R54).
-/

namespace Sys2Proof.Machine

/-- A byte of a list, from an offset to another, is not zero. -/
def dirtyBytes (d : List Byte) (lo hi : Nat) : Bool := ((d.drop lo).take (hi - lo)).any (· != 0)

/-- Post a command of the issuing strand: its counter rises (R54, R181), then its guard and its queue
decide (R53). The name is the one given; a name that a wait for an allowance holds is used up. -/
def State.postCmd (s : State) (cls : CClass) (c : Cmd) : State :=
  let (f, s) := s.fresh
  let t := s.me
  let s := s.modMySplit fun p => { p with stall := .none }
  let s := s.modMe fun t => t.depart cls f
  (s.submit { c with core := s.cur.core, slot := s.cur.slot, uid := t.uid, run := t.run, part := t.part, flight := f }).retire

/-- A command with nothing set but its kind, guard and descriptor. -/
def Cmd.blank (id : Nat) (kind : CmdKind) (guard : Option Nat) (desc : List Byte) : Cmd :=
  { id, kind, part := 0, core := 0, slot := 0, uid := 0, run := 0, flight := 0, guard, phase := .held, desc
    args := [], words := [], bcore := 0, bar := none, pages := [], units := [], charge := 0
    limit := Config.dieAllowance, scap := 0, high := true, frozen := false }

/-- The guard under which a command issues (R52). -/
def State.guardNow (s : State) (g : Option GReg) : Guard :=
  match g with
  | some g => s.me.guard g.val
  | none => .isTrue

/-- BAROVF of an expectation on an object of the issuing core (Table 10-1). -/
def State.barOverflow (s : State) (off n : Nat) : Option Trap :=
  trapIf (((s.barrier s.cur.core off).expect? n).isNone)
    { code := .barovf, addr := off, d0 := (s.shelf s.cur.core).load off 8, d1 := n }

/-! ## COPY and PUTS -/

/-- Reserved bits of a copy descriptor (Table 18-8). -/
def copyReserved (d : List Byte) : Bool :=
  field d 3 1 != 0 || field d 7 1 != 0 || bits (field d 12 4) 30 20 != 0 || dirtyBytes d 0x10 0x20

/-- COPY (R375). -/
def execCopy (x : XReg) (g : Option GReg) (s : State) : Result :=
  .next (s.issue false [] fun s =>
    let a := s.xn x.val
    s.check (s.shelfRangeCheck a 32 16 true false) fun s =>
    let bs := s.myShelf a 32
    let d := CopyDesc.ofBytes bs
    let src := d.src % 2 ^ 20
    let dst := d.dst % 2 ^ 20
    let bar := d.bar % 2 ^ 20
    let nb := d.bar.testBit 31
    let from? := s.cohortCore (bits d.src 23 20)
    let to? := s.cohortCore (bits d.dst 23 20)
    let bad : Bool := d.bytes == 0 || 0x100000 < d.bytes || d.bytes % 16 != 0 || copyReserved bs
    s.check (firstTrap [
      s.badValue bad,
      trapIf (src % 16 != 0) (rangeTrap .misalign src d.bytes true false),
      trapIf (dst % 16 != 0) (rangeTrap .misalign dst d.bytes false true),
      trapIf (!nb && bar % 16 != 0) (rangeTrap .misalign bar 16 true true),
      trapIf (from?.isNone || Config.shelfBytes < src + d.bytes) (rangeTrap .shelfrange src d.bytes true false),
      trapIf (to?.isNone || Config.shelfBytes < dst + d.bytes) (rangeTrap .shelfrange dst d.bytes false true)]) fun s =>
    s.counted .cpy fun s =>
    let (id, s) := s.fresh
    s.postCmd .cpy { Cmd.blank id .copy (guardArg g) bs with
      args := [from?.getD 0], bcore := to?.getD 0, bar := if nb then none else some bar
      units := unitsOf 0 d.bytes })

/-- PUTS (R448). -/
def execPuts (x : XReg) (g : Option GReg) (b : VReg) (s : State) : Result :=
  .next (s.issue false [vr b] fun s =>
    let v := s.xn x.val
    let dst := bits v 19 0
    let bar := bits v 39 20
    let nb := v.testBit 48
    let to? := s.cohortCore (bits v 47 44)
    let n := 4 * (s.actLanes.foldl max 0 + 1)
    s.check (firstTrap [
      trapIf (dst % 4 != 0) (rangeTrap .misalign dst n false true),
      trapIf (!nb && bar % 16 != 0) (rangeTrap .misalign bar 16 true true),
      trapIf (bits v 63 49 != 0 || bits v 43 40 != 0 || to?.isNone || Config.shelfBytes < dst + n)
        (rangeTrap .shelfrange dst n false true)]) fun s =>
    s.counted .cpy fun s =>
    let (id, s) := s.fresh
    s.postCmd .cpy { Cmd.blank id .puts (guardArg g) [] with
      args := [dst], bcore := to?.getD 0, bar := if nb then none else some bar
      words := s.actLanes.map fun l => (l, (s.v b.val l).toNat) })

/-! ## TFETCH and TSTORE -/

/-- FETCHCTL.EXPERT, SCAP and HIRES in bytes (Table 7-4). -/
def Partition.expert (p : Partition) : Bool := p.fetchctl.getLsbD 0
@[inherit_doc Partition.expert] def Partition.scap (p : Partition) : Nat := bits p.fetchctl.toNat 15 4 * 2 ^ 16
@[inherit_doc Partition.expert] def Partition.hires (p : Partition) : Nat := bits p.fetchctl.toNat 25 16 * 2 ^ 16

/-- The limits of a command: of its class on the die, of its strand, and whether it is free of the
former (R174). A command that has waited keeps those of its issue. -/
def State.fetchLimits (s : State) (t : Tensor) : Nat × Nat × Bool :=
  let p := s.part s.me.part
  match s.mySplit.stall with
  | .allowance _ _ _ _ limit scap high => (limit, scap, high)
  | _ =>
    if p.expert then (Config.dieAllowance - p.hires, p.scap, t.hi) else (Config.dieAllowance, 0, true)

/-- MISALIGN, then SHELFRANGE, of the rings of a tensor command (R168, R476). -/
def Tensor.ringTrap (t : Tensor) (write : Bool) : Option Trap :=
  let rings : List (Nat × Nat × Bool × Bool) :=
    [(t.dst, t.slots * t.dataBytes, write, !write)]
    ++ (if t.sc then [(t.sdst, t.slots * t.scaleBytes, write, !write)] else [])
    ++ [(t.bar, t.slots * 16, true, true)] ++ (if t.rw then [(t.rbar, t.slots * 16, true, false)] else [])
  firstTrap (rings.map fun r => trapIf (r.1 % 16 != 0) (rangeTrap .misalign r.1 r.2.1 r.2.2.1 r.2.2.2))
    <|> firstTrap (rings.map fun r =>
      trapIf (Config.shelfBytes < r.1 + r.2.1) (rangeTrap .shelfrange r.1 r.2.1 r.2.2.1 r.2.2.2))

/-- SPACE of BASE and SBASE (R153, R476). -/
def Tensor.spaceTrap (t : Tensor) (write : Bool) : Option Trap :=
  trapIf (!isFar t.base) (rangeTrap .space t.base t.dataBytes (!write) write)
    <|> trapIf (t.sc && !isFar t.sbase) (rangeTrap .space t.sbase t.scaleBytes (!write) write)

/-- The run whose region records a probe tests: none in supervisor mode (R224). -/
def State.probeRun (s : State) : Option TaskRun := if s.me.sup then none else s.myRun?

/-- Probe far ranges for the issuing strand, then go on with the pages (R171). -/
def State.probed (s : State) (rs : List FarRange) (body : State → List Page → State) : State :=
  match s.probe s.cur.core s.me.part s.probeRun rs with
  | (.error tr, s) => s.takeTrap tr
  | (.ok pages, s) => body s pages

/-- TFETCH and TSTORE (R476). -/
def State.tensorCmd (s : State) (kind : CmdKind) (x : XReg) (g : Option GReg) : State :=
  s.issue false [] fun s =>
    let a := s.xn x.val
    let write := kind == .tstore
    s.check (s.shelfRangeCheck a 256 64 true false) fun s =>
    let bs := s.myShelf a 256
    let t := Tensor.ofBytes bs
    let n := t.dataBytes + t.scaleBytes
    let die := dieOf s.cur.core
    let (limit, scap, high) := s.fetchLimits t
    let tooBig : Bool := s.allowance s.me.run die < n || (scap != 0 && scap < n) || (!high && limit < n)
    s.check (s.badValue (t.refused || tooBig)) fun s =>
    s.check (t.ringTrap write <|> t.spaceTrap write) fun s =>
    s.probed (t.ranges write) fun s pages =>
    s.counted .fet fun s =>
    let atOnce := s.guardNow g == .isTrue && !s.queued s.me.uid 1
    let (ticket, s) := match s.mySplit.stall.ticket? with
      | some k => (k, s)
      | none => s.fresh
    let c := { Cmd.blank ticket kind (guardArg g) bs with
      bar := some (t.bar + 16 * t.slot), pages, units := t.units, limit, scap, high }
    if !atOnce then s.postCmd .fet c
    else if s.oldest die ticket && s.fits die s.me.run s.me.uid n limit scap high then
      s.check (s.barOverflow (t.bar + 16 * t.slot) n) fun s => s.postCmd .fet c
    else s.hold (.allowance ticket die s.me.run n limit scap high)

/-- TFETCH (R477). -/
def execTfetch (x : XReg) (g : Option GReg) (s : State) : Result := .next (s.tensorCmd .tfetch x g)
/-- TSTORE (R478). -/
def execTstore (x : XReg) (g : Option GReg) (s : State) : Result := .next (s.tensorCmd .tstore x g)

/-! ## MCOPY, MFILL, MREDUCE -/

/-- Element bytes of MREDUCE's sources. -/
def ModuleCmd.esize (m : ModuleCmd) : Nat := ((Fmt.ofCode m.sfmt).getD .fp32).bits / 8
/-- The sources that a command uses. -/
def ModuleCmd.used (m : ModuleCmd) (k : CmdKind) : List Nat :=
  m.srcs.take (if k = .mcopy then 1 else if k = .mreduce then m.nsrc else 0)
/-- Bytes of a source. -/
def ModuleCmd.srcBytes (m : ModuleCmd) (k : CmdKind) : Nat := if k = .mreduce then m.len * m.esize else m.len

/-- Two virtual ranges of `n` bytes share a byte; a range that passes 2^52 goes on at 0 (R430, log 13). -/
def shareVa (a b n : Nat) : Bool :=
  a / 2 ^ 52 == b / 2 ^ 52 && (vaWrap (vaWrap a + (2 ^ 52 - vaWrap b)) < n || vaWrap (vaWrap b + (2 ^ 52 - vaWrap a)) < n)

/-- ILLSTATE of a module command descriptor (R430). -/
def ModuleCmd.refused (m : ModuleCmd) (k : CmdKind) (d : List Byte) : Bool :=
  let red := k == .mreduce
  field d 0x1F 1 != 0 || bits m.bar 31 20 != 0 || m.flags / 2 != 0 || (!red && m.flags != 0) ||
  (k != .mfill && m.pat != 0) ||
  ((m.srcs.drop (m.used k).length).any (· != 0)) ||
  (if red then m.len == 0 || 0xFFFFFFFF < m.len || !(m.sfmt == 0 || m.sfmt == 1 || m.sfmt == 4) || m.nsrc == 0 || 8 < m.nsrc
   else m.len % 16 != 0 || m.len < 16 || 2 ^ 40 < m.len || m.sfmt != 0 || m.nsrc != 0) ||
  (k == .mcopy && shareVa (m.srcs.headD 0) m.dst m.len)

/-- SPACE, then MISALIGN, of a module command's far addresses (R430). -/
def ModuleCmd.addrTrap (m : ModuleCmd) (k : CmdKind) : Option Trap :=
  let acc := m.flags.testBit 0
  let dst (c : TrapCode) : Trap := rangeTrap c m.dst (m.bytes k) acc true
  let src (c : TrapCode) (a : Nat) : Trap := rangeTrap c a (m.srcBytes k) true false
  let al := if k = .mreduce then m.esize else 16
  firstTrap (trapIf (!isFar m.dst) (dst .space) :: (m.used k).map fun a => trapIf (!isFar a) (src .space a))
  <|> firstTrap (trapIf (m.dst % (if k = .mreduce then 4 else 16) != 0) (dst .misalign)
    :: (m.used k).map fun a => trapIf (a % al != 0) (src .misalign a))

/-- The far ranges of a module command (R224, R430). -/
def ModuleCmd.ranges (m : ModuleCmd) (k : CmdKind) : List FarRange :=
  (m.used k).map (fun a => { va := a, n := m.srcBytes k, rd := true, wr := false })
  ++ [{ va := m.dst, n := m.bytes k, rd := m.flags.testBit 0, wr := true }]

/-- MCOPY, MFILL and MREDUCE (R430, R431). -/
def State.moduleCmd (s : State) (kind : CmdKind) (x : XReg) (g : Option GReg) : State :=
  s.issue false [] fun s =>
    let a := s.xn x.val
    s.check (s.shelfRangeCheck a 96 32 true false) fun s =>
    let bs := s.myShelf a 96
    let m := ModuleCmd.ofBytes bs
    let bar := m.bar % 2 ^ 20
    s.check (s.badValue (m.refused kind bs)) fun s =>
    s.check (trapIf (bar % 16 != 0) (rangeTrap .misalign bar 16 true true) <|> m.addrTrap kind) fun s =>
    s.probed (m.ranges kind) fun s pages =>
    s.counted .cpy fun s =>
    s.check (if s.guardNow g = .isTrue then s.barOverflow bar (m.bytes kind) else none) fun s =>
    let (id, s) := s.fresh
    s.postCmd .cpy { Cmd.blank id kind (guardArg g) bs with
      bar := some bar, pages, units := moduleUnits m.dst (m.bytes kind) 0 (m.bytes kind / 4096 + 2) }

/-- MCOPY (R431). -/
def execMcopy (x : XReg) (g : Option GReg) (s : State) : Result := .next (s.moduleCmd .mcopy x g)
/-- MFILL (R431). -/
def execMfill (x : XReg) (g : Option GReg) (s : State) : Result := .next (s.moduleCmd .mfill x g)
/-- MREDUCE (R431). -/
def execMreduce (x : XReg) (g : Option GReg) (s : State) : Result := .next (s.moduleCmd .mreduce x g)

/-! ## COLL -/

/-- Where a communicator's record lies. -/
def State.commAt (s : State) (comm : Nat) : Nat := s.commbase.toNat + 64 * comm

/-- A communicator record (Table 11-7): EN, PRIO, NRANK, RANK, NODES. -/
def State.commRecord (s : State) (comm : Nat) : Bool × Bool × Nat × Nat × Nat :=
  let a := s.commAt comm
  let fl := s.homeLoad a 1
  (fl.testBit 0, fl.testBit 1, s.homeLoad (a + 1) 1, s.homeLoad (a + 2) 1, s.homeLoad (a + 8) 8)

/-- ILLSTATE of a collective descriptor, beside EN (R276). -/
def CollDesc.refused (d : CollDesc) (n rank : Nat) : Bool :=
  4 < d.op || n < 2 || 64 < n || n ≤ rank || (if d.reduces then 1 else 4) < d.dtype ||
  (d.op == 3 && n ≤ d.root) || (d.op == 1 && d.count % n != 0) || (d.op != 4 && d.count == 0)

/-- The buffers of an operation: address, bytes, read, write. RECV is read too when it overlaps SEND (R276). -/
def CollDesc.buffers (d : CollDesc) (n : Nat) : List (Nat × Nat × Bool × Bool) :=
  if d.op = 4 then []
  else
    let beyond := decide (d.send < d.recv + d.recvBytes n) && decide (d.recv < d.send + d.sendBytes)
    [(d.send, d.sendBytes, true, false), (d.recv, d.recvBytes n, beyond, true)]

/-- SPACE, then HARBRANGE, of a collective's buffers (R153, R276). -/
def State.bufferTrap (s : State) (bufs : List (Nat × Nat × Bool × Bool)) : Option Trap :=
  let tr (c : TrapCode) (b : Nat × Nat × Bool × Bool) : Trap := rangeTrap c b.1 b.2.1 b.2.2.1 b.2.2.2
  firstTrap (bufs.map fun b => trapIf (!isFar b.1 && tagBits b.1 != 0xE) (tr .space b))
  <|> firstTrap (bufs.map fun b =>
    trapIf (tagBits b.1 == 0xE && !s.inHarbour s.me.part b.1 b.2.1) (tr .harbrange b))

/-- UNDECLARED of a collective's harbour buffers (R224): the lowest byte that no record declares. -/
def State.harbourGap (s : State) (bufs : List (Nat × Nat × Bool × Bool)) : Option Trap :=
  match s.probeRun with
  | none => none
  | some r =>
    let gap (b : Nat × Nat × Bool × Bool) (wr : Bool) : Option Nat :=
      let rs := r.declares true wr
      let a := harbourOf b.1
      firstGap rs (rs.length + 1) a (a + b.2.1)
    let bad : List (Nat × Trap) := (bufs.filter fun b => tagBits b.1 == 0xE).flatMap fun b =>
      ((if b.2.2.1 then gap b false else none).toList ++ (if b.2.2.2 then gap b true else none).toList).map fun a =>
        (a, rangeTrap .undeclared (generic a) b.2.1 b.2.2.1 b.2.2.2)
    (bad.foldl (fun (m : Option (Nat × Trap)) x => match m with
      | some y => if x.1 < y.1 then some x else m
      | none => some x) none).map (·.2)

/-- The far ranges of a collective's buffers. -/
def farBuffers (bufs : List (Nat × Nat × Bool × Bool)) : List FarRange :=
  (bufs.filter fun b => isFar b.1).map fun b => { va := b.1, n := b.2.1, rd := b.2.2.1, wr := b.2.2.2 }

/-- UNDECLARED over all buffers comes before every walk (R171): far bytes, whose addresses are lower, first. -/
def State.collGap (s : State) (bufs : List (Nat × Nat × Bool × Bool)) : Option Trap :=
  match s.probeRun with
  | none => none
  | some r =>
    if ((farBuffers bufs).flatMap FarRange.split).any fun f => (r.gap f).isSome then none else s.harbourGap bufs

/-- COLL (R276, R373). It reads the record, the node array and a SEND in harbour with the strand's earlier stores
performed (R207). A record that does not enable its communicator starts its numbering anew (R346). -/
def execColl (x : XReg) (g : Option GReg) (s : State) : Result :=
  .next (s.issue false [] fun s =>
    let a := s.xn x.val
    s.check (s.shelfRangeCheck a 64 64 true false) fun s =>
    let bs := s.myShelf a 64
    let d := CollDesc.ofBytes bs
    s.check (trapIf (d.bar % 16 != 0) (rangeTrap .misalign d.bar 16 true true)) fun s =>
    let s := if d.comm < 64 then s.flushRange s.cur.core (s.commAt d.comm) (s.commAt d.comm + 64) else s
    let (en, prio, n, rank, nodes) := s.commRecord d.comm
    let s := if d.comm < 64 && !en then s.modChannel d.comm fun h => { h with seq := 0 } else s
    s.check (s.badValue (64 ≤ d.comm || !en || d.refused n rank)) fun s =>
    let bufs := d.buffers n
    s.check (s.bufferTrap bufs <|> s.collGap bufs) fun s =>
    s.probed (farBuffers bufs) fun s pages =>
    s.counted .col fun s =>
    let s := if tagBits d.send = 0xE && d.op != 4 then
      s.flushRange s.cur.core (harbourOf d.send) (harbourOf d.send + d.sendBytes) else s
    let s := s.flushRange s.cur.core (harbourOf nodes) (harbourOf nodes + 2 * n)
    let ids := (List.range n).map fun k => s.homeLoad (harbourOf nodes + 2 * k) 2 % 4096
    let (id, s) := s.fresh
    s.postCmd .col { Cmd.blank id .coll (guardArg g) bs with
      args := flag prio :: n :: rank :: ids, words := [(0, a)], bcore := s.cur.core, bar := some d.bar, pages })

end Sys2Proof.Machine
end

