-- ==== Sys2Proof/Machine/Peers.lean ====
section
/-!
DEFINITION. Peer requests on their way: routes and groups (R261, R262), admission and tags (R264),
acceptance, replies, failure (R265 to R267), what the end of a request brings its strand (R441, R442), what a request
does at its target (R268, R441), and the time that counts toward PEERTO (R266, R271).
-/

namespace Sys2Proof.Machine

/-! ## Routes and groups (R261, R262) -/

/-- The active route entry of a node. -/
def State.route (s : State) (node : Nat) : Nat := (s.routes.read 0 node).toNat
/-- V of a route entry (Table 11-3). -/
def hasRoute (e : Nat) : Bool := e.testBit 63
/-- The groups that an entry names for peer accesses, or for collective traffic. -/
def routeMask (e : Nat) (coll : Bool) : Nat := if coll then bits e 31 16 else bits e 15 0

/-- A group admits traffic: PHASE 0, UP, not quarantined, and the personality that the traffic needs
(R262). -/
def EdgeGroup.admits (g : EdgeGroup) (coll : Bool) : Bool :=
  g.phase == 0 && g.up && !g.quar && g.pers == (if coll then 2 else 1)

/-- The groups of a mask, ascending, in which a test holds. -/
def State.groupsWhere (s : State) (mask : Nat) (f : EdgeGroup → Bool) : List Nat :=
  (List.range 16).filter fun g => mask.testBit g && f (s.group g)

/-- The groups eligible for a node (R262). -/
def State.eligible (s : State) (node : Nat) (coll : Bool) : List Nat :=
  let e := s.route node
  if hasRoute e then s.groupsWhere (routeMask e coll) (·.admits coll) else []

/-- An accepted request on some groups has no answer yet. -/
def State.owes (s : State) (gs : List Nat) : Bool :=
  s.requests.any fun r => r.state == .accepted && (r.group.map fun g => gs.contains g).getD false

/-- Traffic may leave a group: not before its ebb ends and, in PHASE 0, not as long as an accepted request on the group has
no answer (R262, R271). -/
def State.mayLeave (s : State) (g : Nat) : Bool :=
  let ph := (s.group g).phase
  if ph = 0 then !s.owes [g] else ph != 1

/-- The group that a node's next request or chunk uses (R262): the one in use as long as it is eligible and no commit has
come, else the lowest eligible one, once traffic may leave the old group. -/
def State.groupFor (s : State) (node : Nat) (coll : Bool) : Option Nat :=
  let el := s.eligible node coll
  let key := 2 * node + flag coll
  let want := match s.routed.at? key with
    | some g => if el.contains g then some g else el.head?
    | none => el.head?
  match s.routed.at? key <|> s.leaving.at? key with
  | some g => if want == some g || s.mayLeave g then want else none
  | none => want

/-- Traffic of a kind to a node is admitted to a group (R262). -/
def State.routeTo (s : State) (node : Nat) (coll : Bool) (g : Nat) : State :=
  let key := 2 * node + flag coll
  { s with routed := s.routed.put key g, leaving := s.leaving.del key }

/-- A change holds a node's traffic: no group is eligible, and one that serves the node is past ebb in a
change (R271). -/
def State.heldByChange (s : State) (node : Nat) (coll : Bool) : Bool :=
  (s.eligible node coll).isEmpty &&
    !(s.groupsWhere (routeMask (s.route node) coll) fun g => g.change.isSome && 2 ≤ g.phase && g.phase ≤ 4).isEmpty

/-- The low 8 bits of TOPOVER (R264). -/
def State.stamp (s : State) : BitVec 8 := s.topover.setWidth 8

/-! ## Requests -/

/-- Change a request. -/
def State.modReq (s : State) (id : Nat) (f : Request → Request) : State :=
  { s with requests := s.requests.map fun (r : Request) => if r.id = id then f r else r }
/-- A request by its name. -/
def State.req? (s : State) (id : Nat) : Option Request := s.requests.find? (·.id == id)

/-- It may still fail: it has not been accepted (R266). -/
def ReqState.open? : ReqState → Bool
  | .queued | .sent | .stale => true
  | _ => false

/-- The requests of a wait are all closed. -/
def State.allClosed (s : State) (reqs : List Nat) : Bool := (reqs.filterMap s.req?).all (·.state.closed)
/-- A lane's request and its place in it. -/
def State.laneReq (s : State) (w : PeerWait) (l : Nat) : Option (Request × Nat) :=
  let l := ((w.share.find? (·.1 == l)).map (·.2)).getD l
  (w.reqs.filterMap s.req?).findSome? fun r => (r.lanes.idxOf? l).map fun k => (r, k)

/-- The status with which a lane failed. -/
def State.laneStatus (s : State) (w : PeerWait) (l : Nat) : Option (Request × Nat) :=
  match s.laneReq w l with
  | some (r, _) => match r.state with
    | .failed st => some (r, st)
    | _ => none
  | none => none

/-- The `n` bytes that a lane's request returned. -/
def State.laneReply (s : State) (w : PeerWait) (n l : Nat) : Nat :=
  match s.laneReq w l with
  | some (r, k) => match r.state with
    | .answered d => ofBytes ((d.drop (n * k)).take n)
    | _ => 0
  | none => 0

/-- The lanes of an access that did not fail, and those that did. -/
def State.okLanes (s : State) (w : PeerWait) : Mask :=
  maskOf ((lanes w.lanes).filter fun l => (s.laneStatus w l).isNone)
@[inherit_doc State.okLanes] def State.badLanes (s : State) (w : PeerWait) : Mask := w.lanes &&& ~~~s.okLanes w

/-- The values that a PLD or PATOM returned go into its register, or a pair: those of the lanes that did not fail (R441). -/
def State.putReplies (s : State) (w : PeerWait) (t : Strand) : Strand :=
  match w.dest with
  | none => t
  | some (p, n) =>
    let v (i l : Nat) : Word := BitVec.ofNat 32 (s.laneReply w n l / 2 ^ (32 * i))
    let t := t.setPhys p (s.okLanes w) (v 0)
    if n = 8 then t.setPhys (p + 1) (s.okLanes w) (v 1) else t

/-- The end of an access of the strand in a slot, all of whose requests are closed: values, counter, acquire. Failed lanes
that are live wait for their trap (R181, R194, R441, R442). -/
def State.endWait (s : State) (core slot : Nat) (w : PeerWait) : State :=
  let due (t : Strand) : Bool := s.badLanes w &&& t.live != 0
  let s' := s.modStrand core slot fun t =>
    { (s.putReplies w t).arrive w.flight with
      peers := t.peers.filterMap fun (v : PeerWait) =>
        if v.flight != w.flight then some v else if due t then some { w with failed := true } else none }
  s'.acquire core w.acq

/-- The accesses of a strand whose last request has been closed end; a trap that waited for them is entered. -/
def State.endWaits (s : State) (core uid : Nat) : State :=
  match s.slotOf core uid with
  | none => s
  | some slot =>
    let ws := (s.strand core slot).peers.filter fun w => !w.failed && s.allClosed w.reqs
    (ws.foldl (fun s w => s.endWait core slot w) s).enterDue core slot

/-- The strand that issued a request still waits for it, on its core or parked. -/
def State.awaited (s : State) (r : Request) : Bool :=
  let waits (x : Context) : Bool :=
    x.strands.any fun t => t.2.uid == r.uid && t.2.peers.any fun w => w.reqs.contains r.id
  waits (s.core r.core).ctx || waits (s.core r.core).parked

/-- Requests that are closed and that nobody waits for are forgotten. -/
def State.forgetReqs (s : State) : State :=
  { s with requests := s.requests.filter fun r => !r.state.closed || s.awaited r }

/-- Close a request: its tag's generation advances (R267). -/
def State.closeReq (s : State) (r : Request) (st : ReqState) : State :=
  let s := match r.tag with
    | some k => { s with tagGen := Store.write 0 s.tagGen k (Store.read 0 s.tagGen k + 1) }
    | none => s
  ((s.modReq r.id fun r => { r with state := st, since := none }).endWaits r.core r.uid).forgetReqs

/-- The lowest tag that no request holds (R264). DESIGN CHOICE, unsafe (log 68): the spec does not say which free tag a
request takes, nor what happens when all are in use; here it waits. -/
def State.freeTag (s : State) : Option Nat :=
  (List.range 256).find? fun k => !s.requests.any fun r => r.tag == some k && !r.state.closed

/-- Admit a request to its node's group, under a tag and the committed version (R264). -/
def State.admitReq (s : State) (r : Request) : State :=
  if !hasRoute (s.route r.node) then s.closeReq r (.failed 1)
  else
    match s.groupFor r.node false, r.tag <|> s.freeTag with
    | some g, some k =>
      ({ s with tagCore := s.tagCore.put k r.core }.routeTo r.node false g).modReq r.id fun r => { r with
        tag := some k, gen := Store.read 0 s.tagGen k, ver := s.stamp, group := some g, state := .sent }
    | _, _ => s

/-- Requests that have been sent and not accepted go back to be admitted anew when R262 selects another group for their
node (R262, R266). -/
def State.moveReqs (s : State) : State :=
  { s with requests := s.requests.map fun (r : Request) =>
    if r.state = ReqState.sent && (s.groupFor r.node false).any (fun g => r.group != some g)
    then { r with state := ReqState.queued, group := none } else r }

/-- An earlier request to the same node that a request may not pass: one that is still to be sent, or one that carries
another version and has no answer (R210, R262). -/
def State.behind (s : State) (r : Request) : Bool :=
  s.requests.any fun q => q.id < r.id && q.node == r.node && !q.state.closed &&
    (q.state == .queued || q.state == .stale || q.ver != s.stamp)

/-- Admit what can be admitted, in issue order; of one node no request passes an earlier one (R210,
R262). -/
def State.admitReqs (s : State) : State :=
  s.moveReqs.requests.foldl (fun s r =>
    if r.state == .queued && !s.behind r then s.admitReq r else s) s.moveReqs

/-- Bring the clocks of PEERTO in line with what changes hold (R266, R271). -/
def State.retimeReqs (s : State) : State :=
  { s with requests := s.requests.map fun (r : Request) =>
    if !r.state.open? then r
    else if s.heldByChange r.node false then
      match r.since with
      | some t => { r with waited := r.waited + (s.time - t), since := none }
      | none => r
    else if r.since.isNone then { r with since := some s.time } else r }

/-- The time that counts toward PEERTO. -/
def elapsed (now waited : Nat) (since : Option Nat) : Nat :=
  waited + match since with
    | some t => now - t
    | none => 0

/-- PEERTO in picoseconds. -/
def State.peerLimit (s : State) : Nat := s.peerto.toNat * Config.microsecond

/-- The status with which a request that is not accepted in time fails (R265, R266). DESIGN CHOICE, unsafe (log 69): one
that has been sent, and is to be sent again, counts as sent; one that has never been sent, since it waits behind another or
for a tag, as without a group. -/
def Request.lateStatus (r : Request) : Nat :=
  if r.state = .stale then 5 else if r.tag.isSome then 2 else 1

/-- PEERTO has passed for a request that is not accepted (R266). -/
def State.late (s : State) (r : Request) : Bool := r.state.open? && s.peerLimit ≤ elapsed s.time r.waited r.since

/-! ## At the target (R268, R441) -/

/-- The range of PEERWIN: first and one past last harbour address (Table 11-2). -/
def State.peerRange (s : State) : Nat × Nat :=
  (bits s.peerwin.toNat 17 0 * 4096, bits s.peerwin.toNat 49 32 * 4096)

/-- Bytes that a request covers. -/
def peerBytes : PeerOp → Nat
  | .read n => n
  | .write d => d.length
  | .atomic _ _ w64 args => args.length * (if w64 then 8 else 4)

/-- A request lies wholly in PEERWIN. -/
def State.inPeerwin (s : State) (addr n : Nat) : Bool := s.peerRange.1 ≤ addr && addr + n ≤ s.peerRange.2

/-- The new value of an atomic operation on `n` bytes (R358). -/
def atomNew (op : AtomOp) (sg : Bool) (n old b c : Nat) : Nat :=
  let lt (x y : Nat) : Bool := if sg then signed (8 * n) x < signed (8 * n) y else x < y
  match op with
  | .add => (old + b) % 2 ^ (8 * n)
  | .min => if lt b old then b else old
  | .max => if lt old b then b else old
  | .and => old &&& b
  | .or => old ||| b
  | .xor => old ^^^ b
  | .xchg => b
  | .cas => if old = b then c else old

/-- Perform a request at the home of its bytes: what it returns (R441). -/
def State.performPeer (s : State) (addr : Nat) (op : PeerOp) : List Byte × State :=
  match op with
  | .read n => (s.homeBytes addr n, s)
  | .write d => ([], s.homeWrite addr d)
  | .atomic op sg w64 args =>
    let n := if w64 then 8 else 4
    (args.zipIdx).foldl (fun (r : List Byte × State) x =>
      let a := addr + n * x.2
      let old := r.2.homeLoad a n
      (r.1 ++ bytesOf n old, r.2.homeStore a n (atomNew op sg n old x.1.1 x.1.2))) ([], s)

end Sys2Proof.Machine
end

