-- ==== Sys2Proof/Machine/Links.lean ====
section
/-!
DEFINITION. What moves traffic on the links: topology commits (R263), the clocks of collective chunks (R279),
the phases of a change of personality and its end (R269 to R274), posting events of ports and groups (R247).
-/

namespace Sys2Proof.Machine

/-! ## Collective chunks in time (R271, R278, R279) -/

/-- The node to which an operation sends: its ring successor. -/
def CollOp.successor (o : CollOp) : Nat := o.ring.nodes.getD ((o.ring.rank + 1) % max 1 o.ring.nrank) 0

/-- An operation is the oldest of its communicator. -/
def State.isHead (s : State) (o : CollOp) : Bool := (s.headColl o.comm).any (·.cmd == o.cmd)

/-- The chunk that an operation sends next: the first one not accepted, when it is not on its way and nothing
makes its resend wait; a chunk that no group has carried needs a credit (R278, R346). -/
def State.readyChunk (s : State) (o : CollOp) : Option Chunk :=
  if !s.isHead o || o.status ≠ 0 || o.send.isNone then none
  else
    match o.chunks.find? fun c => !c.accepted && !c.sent with
    | some c =>
      if c.awaitsCommit || c.resend.isSome then none
      else if c.carried || 0 < (s.channel o.comm).credits then some c else none
    | none => none

/-- Change a chunk of an operation. -/
def CollOp.modChunk (o : CollOp) (idx : Nat) (f : Chunk → Chunk) : CollOp :=
  { o with chunks := o.chunks.map fun (c : Chunk) => if c.idx = idx then f c else c }

/-- Bring the clock of a chunk in line: it stands while a change holds the node's traffic (R271, R279). -/
def Chunk.retime (c : Chunk) (now : Nat) (held : Bool) : Chunk :=
  if !c.counting || c.accepted then c
  else if held then
    match c.since with
    | some t => { c with waited := c.waited + (now - t), since := none }
    | none => c
  else if c.since.isNone then { c with since := some now } else c

/-- Bring the clocks of all chunks in line; a chunk that is ready and finds no eligible group begins to
count (R279). -/
def State.retimeChunks (s : State) : State :=
  { s with colls := s.colls.map fun (o : CollOp) =>
    let node := o.successor
    let stuck := (s.eligible node true).isEmpty
    let o := match s.readyChunk o with
      | some c => if stuck then o.modChunk c.idx fun c => { c with counting := true } else o
      | none => o
    { o with chunks := o.chunks.map fun (c : Chunk) => c.retime s.time (s.heldByChange node true) } }

/-- Chunks that have been sent and not accepted are sent anew when R262 selects another group for their node, ahead of any
later one (R262, R271). -/
def State.moveChunks (s : State) : State :=
  { s with colls := s.colls.map fun (o : CollOp) =>
    let g := s.groupFor o.successor true
    { o with chunks := o.chunks.map fun (c : Chunk) =>
        if c.sent && !c.accepted && g.any (· != c.group) then { c with sent := false } else c } }

/-- Routes, groups or time have changed: clocks are brought in line, what R262 moves is moved, and requests are admitted. -/
def State.resumeTraffic (s : State) : State := s.moveChunks.retimeReqs.retimeChunks.admitReqs

/-! ## Commits (R263) -/

/-- The group that each node's traffic has used last, of what was in use or has not been left yet (R262). -/
def State.oldGroups (s : State) : Store Nat := s.routed.foldl (fun m e => m.put e.1 e.2) s.leaving

/-- Commit the inactive bank under a version: banks are swapped and the new one copied, groups are chosen
anew (R262), and what was refused as stale is sent again (R268, R279). -/
def State.commitTopo (s : State) (v : BitVec 16) : State :=
  let s := { s with
    routes := s.routesNext, topover := v, routed := [], leaving := s.oldGroups
    requests := s.requests.map fun (r : Request) => if r.state = ReqState.stale then { r with state := ReqState.queued } else r
    colls := s.colls.map fun (o : CollOp) => { o with
      chunks := o.chunks.map fun (c : Chunk) => if c.awaitsCommit then { c with awaitsCommit := false } else c } }
  s.resumeTraffic

/-- A change with COMMIT is in progress. -/
def State.committing (s : State) : Bool :=
  s.groups.any fun g => (g.2.change.map fun (c : Change) => c.commit).getD false

/-- A write to TOPOCMT by a partition (R260, R263). -/
def State.topoWrite (s : State) (part : Nat) (v : BitVec 16) : State :=
  if s.linkOwner ≠ some part || v == s.topover || s.committing then s else s.commitTopo v

/-! ## Events of ports and groups (R247) -/

/-- Post an event to partitions; with none, to the management core. -/
def State.postAll (s : State) (parts : List Nat) (code port d0 d1 : Nat) : State :=
  if parts.isEmpty then s.report code 0xFFFF port d0 d1
  else parts.eraseDups.foldl (fun s p => s.post p code 0xFFFF port d0 d1) s

/-- Nodes that the active table routes through a group for either kind of traffic. -/
def State.nodesOf (s : State) (g : Nat) : List Nat :=
  (s.routes.filter fun e => hasRoute e.2.toNat &&
    (routeMask e.2.toNat false ||| routeMask e.2.toNat true).testBit g).map (·.1)

/-- What a change holds for a node would use a group (R271). -/
def State.heldFor (s : State) (node g : Nat) (coll : Bool) : Bool :=
  s.heldByChange node coll && (routeMask (s.route node) coll).testBit g

/-- A group carries a request, or a change holds the request for it. -/
def State.carries (s : State) (g : Nat) (r : Request) : Bool :=
  !r.state.closed && (match r.group with | some k => k == g | none => s.heldFor r.node g false)

/-- A group carries a chunk of an operation, or a change holds one for it. -/
def State.carriesColl (s : State) (g : Nat) (o : CollOp) : Bool :=
  o.status == 0 && o.chunks.any fun c => !c.accepted && (if c.sent then c.group == g else s.heldFor o.successor g true)

/-- Partitions with a peer request or a collective operation that an event of a group affects (R247). -/
def State.groupParts (s : State) (g : Nat) : List Nat :=
  ((s.requests.filter (s.carries g)).map (·.part))
  ++ (s.colls.filter (s.carriesColl g)).filterMap fun o => (s.cmd? o.cmd).map (·.part)

/-! ## The phases of a change (R270) -/

/-- Groups that a change has. -/
def State.changing (s : State) (lead : Nat) : List Nat :=
  (List.range 16).filter fun g => (((s.group g).change.map fun (c : Change) => c.lead == lead).getD false)

/-- A group's phase changes, with the trace record in the link owner's ring (R290). -/
def State.setPhase (s : State) (g ph : Nat) : State :=
  let s := s.modGroup g fun e => { e with phase := ph }
  match s.linkOwner with
  | some p => s.trace p 5 0xFFFF (g + ph * 16) 0 0
  | none => s

/-- Begin a change on some groups: ebb. -/
def State.beginChange (s : State) (c : Change) (gs : List Nat) (ph : Nat) : State :=
  let s := gs.foldl (fun s g =>
    (s.modGroup g fun e => { e with change := some { c with start := s.time, began := s.time } }).setPhase g ph) s
  s.resumeTraffic

/-- Move a change to a phase. -/
def State.toPhase (s : State) (lead ph : Nat) : State :=
  (s.changing lead).foldl (fun s g =>
    (s.modGroup g fun e => { e with change := e.change.map fun (c : Change) => { c with start := s.time } }).setPhase g ph) s

/-- Requests on some groups that have not been accepted go back to be admitted anew (R271). -/
def State.unsend (s : State) (gs : List Nat) : State :=
  { s with requests := s.requests.map fun (r : Request) =>
    if r.state = ReqState.sent && (r.group.map fun g => gs.contains g).getD false then { r with state := ReqState.queued, group := none }
    else r }

/-- Chunks on some groups that have not been accepted are sent anew (R271). -/
def State.unsendChunks (s : State) (gs : List Nat) : State :=
  { s with colls := s.colls.map fun (o : CollOp) => { o with
      chunks := o.chunks.map fun (c : Chunk) =>
        if c.sent && !c.accepted && gs.contains c.group then { c with sent := false } else c } }

/-- The lanes of some groups lock, or lose their lock. -/
def State.setUp (s : State) (gs : List Nat) (up : Bool) : State :=
  gs.foldl (fun s g => s.modGroup g fun e => { e with up }) s

/-- Ebb ends: slack begins, with the link down (R270, R271). -/
def State.leaveEbb (s : State) (lead : Nat) : State :=
  let gs := s.changing lead
  let s := ((s.unsend gs).unsendChunks gs).toPhase lead 2
  ((s.setUp gs false).resumeTraffic)

/-- The end of a change at the strand that asked for it (R272): STATUS, then the arrival. -/
def State.signalChange (s : State) (core bar request status : Nat) : State :=
  let s := s.modShelf core fun m => Mem.store m (request + 0x0A) 2 status
  s.engineArrive core bar (status != 0)

/-- A change ends with a status: its groups leave it, in a phase; its issuer is told, at resume if the
partition is halted (R272, R274). -/
def State.endChange (s : State) (lead ph status : Nat) : State :=
  let gs := s.changing lead
  let c? : Option Change := (gs.head?).bind fun g => (s.group g).change
  let s := gs.foldl (fun s g => (s.modGroup g fun e => { e with change := none }).setPhase g ph) s
  let s := match c?.bind (·.issuer) with
    | some (part, core, bar, req) =>
      if (s.part part).pstat == PStat.halted || (s.part part).pstat == PStat.parked then
        s.modPart part fun p => { p with held := p.held ++ [HeldEvent.change core bar req status] }
      else s.signalChange core bar req status
    | none => s
  s.resumeTraffic

/-- A failed operation: the credits of its chunks that no one accepted return (R280). -/
def State.failColl (s : State) (o : CollOp) (status : Nat) : State :=
  let n := (o.chunks.filter fun c => c.carried && !c.accepted).length
  (s.modChannel o.comm fun h => { h with credits := min 2 (h.credits + n) }).modColl o.cmd fun o =>
    { o with status := status }

/-- Authentication has failed (R272): what a change holds for the nodes of its groups fails. -/
def State.failHeld (s : State) (gs : List Nat) : State :=
  let ns := gs.flatMap s.nodesOf
  let reqs := s.requests.filter fun r =>
    r.state.open? && ns.contains r.node && s.heldByChange r.node false
  let ops := s.colls.filter fun o => o.status == 0 && ns.contains o.successor && s.heldByChange o.successor true &&
    o.chunks.any (!·.accepted)
  let s := reqs.foldl (fun s r => s.closeReq r (.failed 4)) s
  ops.foldl (fun s o => s.failColl o 4) s

/-- Quarantine the groups of a change (R272). -/
def State.quarantine (s : State) (lead : Nat) : State :=
  let gs := s.changing lead
  let s := gs.foldl (fun s g =>
    let node := (s.nodesOf g).headD 0
    (s.modGroup g fun e => { e with quar := true }).postAll (s.groupParts g) 0x0B (0x100 + g) node 0) s
  (s.failHeld gs).endChange lead 0 4

/-- A bonded pair that loses a member is bonded no more. -/
def State.setBond (s : State) (gs : List Nat) (bond : Bool) : State :=
  gs.foldl (fun s g =>
    let s := if !bond && (s.group g).bond then
      s.modGroup (g ^^^ 1) fun e => { e with bond := false } else s
    s.modGroup g fun e => { e with bond }) s

/-- Flood (R270): commit, the version of the flood, PHASE 0. -/
def State.floodChange (s : State) (lead : Nat) (c : Change) : State :=
  let s := if c.commit then s.commitTopo c.newver else s
  let gs := s.changing lead
  let s := gs.foldl (fun s g => s.modGroup g fun e => { e with ver := s.topover }) s
  s.endChange lead 0 0

end Sys2Proof.Machine
end

