-- ==== Sys2Proof/Machine/Csr.lean ====
section
/-!
DEFINITION. The CSRs (Table 18-9): what a read returns and what a write does, field by field (R5, R6), for the
registers of a strand, a partition, a half-die, a core and the package (R165, R250, R260, R287, R289).
-/

namespace Sys2Proof.Machine

/-- The bits `hi` to `lo` of a register, set. -/
def mask64 (hi lo : Nat) : DWord := BitVec.ofNat 64 ((2 ^ (hi + 1 - lo) - 1) * 2 ^ lo)

/-! ## Registers of a strand -/

/-- Read a register of a strand (Tables 10-4 and 12-2); DBGSTEP reads as zero without INVASIVE. -/
def Strand.csr? (t : Strand) (invasive : Bool) : Nat → Option DWord
  | 0x20C => some (t.stcode.setWidth 64)
  | 0x20D => some (t.stpc.setWidth 64)
  | 0x20E => some t.staddr
  | 0x20F => some t.stdetail
  | 0x238 => some (if invasive && t.dbgstep then 1 else 0)
  | _ => none

/-- Write a register of a strand. -/
def Strand.setCsr? (t : Strand) (invasive : Bool) (v : DWord) : Nat → Option Strand
  | 0x20C => some { t with stcode := v.setWidth 16 }
  | 0x20D => some { t with stpc := v.setWidth 48 }
  | 0x20E => some { t with staddr := v }
  | 0x20F => some { t with stdetail := v }
  | 0x238 => some (if invasive then { t with dbgstep := v.getLsbD 0 } else t)
  | _ => none

/-! ## Registers of a partition -/


end Sys2Proof.Machine

namespace Sys2Proof

/-- INVASIVE is granted (R283). -/
def DebugLevel.steps (d : DebugLevel) : Bool := d == .invasive || d == .full
/-- OBSERVE is granted (R283). -/
def DebugLevel.observes (d : DebugLevel) : Bool := d != .none

end Sys2Proof

namespace Sys2Proof.Machine

/-- PSTAT.STATE (Table 10-4). -/
def PStat.code : PStat → Nat
  | .running => 0 | .halting => 1 | .halted => 2 | .parked => 3

/-- PCFG (Table 10-4). -/
def Partition.pcfg (p : Partition) (id : Nat) : DWord :=
  BitVec.ofNat 64 (p.depth * 2 ^ 20 + id * 2 ^ 16 + p.halves.toNat)

/-- Read a register of a partition (Tables 7-4, 10-4, 12-2, 12-4). -/
def Partition.csr? (p : Partition) (id csr : Nat) : Option DWord :=
  let dbg (v : DWord) : DWord := if p.debugLevel.steps then v else 0
  let obs (v : DWord) : DWord := if p.debugLevel.observes then v else 0
  match csr with
  | 0x200 => some p.tvec
  | 0x201 => some p.svec
  | 0x202 => some (p.pcfg id)
  | 0x203 => some (BitVec.ofNat 64 p.pstat.code)
  | 0x204 => some p.evbase
  | 0x205 => some p.evsize
  | 0x206 => some p.evhead
  | 0x207 => some p.evtail
  | 0x208 => some p.evlost
  | 0x240 => some p.hwbase
  | 0x241 => some p.hwlimit
  | 0x242 => some p.fptroot
  | 0x243 => some p.fetchctl
  | 0x244 => some p.fetchto
  | 0x245 => some p.memerr
  | 0x250 => some (obs p.trbase)
  | 0x251 => some (obs p.trsize)
  | 0x252 => some (obs p.trhead)
  | 0x253 => some (obs p.trtail)
  | 0x254 => some (obs p.trctl)
  | 0x255 => some (obs p.trlost)
  | n =>
    if 0x230 ≤ n && n < 0x234 then some (dbg (Store.read 0 p.dbgctl (n - 0x230)))
    else if 0x234 ≤ n && n < 0x238 then some (dbg (Store.read 0 p.dbgaddr (n - 0x234)))
    else if 0x258 ≤ n && n < 0x260 then some (obs (Store.read 0 p.pmsel (n - 0x258)))
    else if 0x260 ≤ n && n < 0x268 then some (obs (Store.read 0 p.pmc (n - 0x260)))
    else none

/-- The write rule of TVEC and SVEC (Table 10-4). -/
def vectorWrite (old v : DWord) : DWord := if slotWord v.toNat then v &&& mask64 47 0 else old

/-- A size register takes values of a range only (Tables 10-4 and 12-4). -/
def sizeWrite (old v : DWord) (lo hi : Nat) : DWord :=
  let n := bits v.toNat 4 0
  if lo ≤ n && n ≤ hi then BitVec.ofNat 64 n else old

/-- A timeout: a write below 100 stores 100 (Tables 7-4 and 11-2). -/
def timeoutWrite (v : DWord) : DWord := BitVec.ofNat 64 (max 100 (v.toNat % 2 ^ 32))

/-- Write a register of a partition; a write that has no effect leaves it as it is. DESIGN CHOICE, unsafe (log 78): HIRES is
stored as written, also above 512, and the low class has no bytes left then. -/
def Partition.setCsr? (p : Partition) (csr : Nat) (v : DWord) : Option Partition :=
  let dbg (q : Partition) : Partition := if p.debugLevel.steps then q else p
  let obs (q : Partition) : Partition := if p.debugLevel.observes then q else p
  match csr with
  | 0x200 => some { p with tvec := vectorWrite p.tvec v }
  | 0x201 => some { p with svec := vectorWrite p.svec v }
  | 0x202 => some p
  | 0x203 => some p
  | 0x204 => some { p with evbase := v &&& mask64 29 5 }
  | 0x205 => some { p with evsize := sizeWrite p.evsize v 4 16 }
  | 0x206 => some { p with evhead := v &&& mask64 31 0 }
  | 0x207 => some p
  | 0x208 => some { p with evlost := v &&& mask64 31 0 }
  | 0x240 => some { p with hwbase := v &&& mask64 29 12 }
  | 0x241 => some { p with hwlimit := v &&& mask64 29 12 }
  | 0x242 => some { p with fptroot := v &&& (mask64 63 63 ||| mask64 29 19) }
  | 0x243 => some { p with fetchctl := v &&& (mask64 25 4 ||| 1#64) }
  | 0x244 => some { p with fetchto := timeoutWrite v }
  | 0x245 => some { p with memerr := v }
  | 0x250 => some (obs { p with trbase := v &&& mask64 29 12 })
  | 0x251 => some (obs { p with trsize := sizeWrite p.trsize v 7 20 })
  | 0x252 => some (obs { p with trhead := v &&& mask64 31 0 })
  | 0x253 => some p
  | 0x254 => some (obs { p with trctl := v &&& (mask64 15 8 ||| mask64 1 0) })
  | 0x255 => some (obs { p with trlost := v &&& mask64 31 0 })
  | n =>
    if 0x230 ≤ n && n < 0x234 then
      let w := v &&& (mask64 9 4 ||| mask64 2 0)
      some (dbg { p with dbgctl := Store.write 0 p.dbgctl (n - 0x230) w })
    else if 0x234 ≤ n && n < 0x238 then some (dbg { p with dbgaddr := Store.write 0 p.dbgaddr (n - 0x234) v })
    else if 0x258 ≤ n && n < 0x260 then
      let w := v &&& (mask64 63 63 ||| mask64 40 31 ||| mask64 7 0)
      some (obs { p with pmsel := Store.write 0 p.pmsel (n - 0x258) w })
    else if 0x260 ≤ n && n < 0x268 then
      let w := v &&& mask64 47 0
      some (obs { p with pmc := Store.write 0 p.pmc (n - 0x260) w })
    else none

/-! ## Registers of half-dies and cores (R250) -/

/-- CERR of a core (Table 10-4). -/
def Core.cerr (k : Core) : DWord :=
  BitVec.ofNat 64 (k.sramuc * 2 ^ 48 + k.drops * 2 ^ 32 + k.overarr * 2 ^ 16 + k.late)

/-- Write CERR. -/
def Core.setCerr (k : Core) (v : DWord) : Core :=
  let n := v.toNat
  { k with sramuc := bits n 63 48, drops := bits n 47 32, overarr := bits n 31 16, late := bits n 15 0 }

/-! ## Registers of the package (Table 11-2) -/

/-- EGSTAT of a group, as a partition reads it. -/
def State.egstat (s : State) (part g : Nat) : DWord :=
  let e := s.group g
  BitVec.ofNat 64 (e.ver.toNat * 2 ^ 32 + flag (s.linkOwner == some part) * 2 ^ 16 + flag e.quar * 2 ^ 15
    + flag e.up * 2 ^ 14 + flag e.bond * 2 ^ 13 + e.phase * 2 ^ 8 + e.pers)

/-- Read a register of the package. -/
def State.linkCsr? (s : State) (part csr : Nat) : Option DWord :=
  match csr with
  | 0x280 => some (s.topover.setWidth 64)
  | 0x281 => some 0
  | 0x282 => some (s.rtidx.setWidth 64)
  | 0x283 => some (Store.read 0 s.routesNext s.rtidx.toNat)
  | 0x284 => some (s.peerto.setWidth 64)
  | 0x285 => some (s.nodeId.setWidth 64)
  | 0x286 => some s.peerwin
  | 0x287 => some (s.uetkey.setWidth 64)
  | 0x288 => some s.commbase
  | n => if 0x290 ≤ n && n < 0x2A0 then some (s.egstat part (n - 0x290)) else none

/-- Bits of a route entry that exist (Table 11-3). -/
def routeBits : DWord := mask64 63 63 ||| mask64 57 48 ||| mask64 31 0

/-- Write a register of the package, for its link owner (R260). DESIGN CHOICE, unsafe (log 80): UETKEY is one key for the
package (Table 11-2), which Table 11-1 has per partition. -/
def State.setLinkCsr? (s : State) (part csr : Nat) (v : DWord) : Option State :=
  let own (t : State) : Option State := some (if s.linkOwner = some part then t else s)
  match csr with
  | 0x280 => some s
  | 0x281 => some (s.topoWrite part (v.setWidth 16))
  | 0x282 => own { s with rtidx := v.setWidth 12 }
  | 0x283 => own { s with routesNext := Store.write 0 s.routesNext s.rtidx.toNat (v &&& routeBits) }
  | 0x284 => own { s with peerto := (timeoutWrite v).setWidth 32 }
  | 0x285 => some s
  | 0x286 => own { s with peerwin := v &&& (mask64 49 32 ||| mask64 17 0) }
  | 0x287 => own { s with uetkey := v.setWidth 32 }
  | 0x288 => own { s with commbase := v &&& mask64 29 12 }
  | n => if 0x290 ≤ n && n < 0x2A0 then some s else none

/-! ## All but the registers of a strand -/

/-- Read a register for a partition: none for a number that does not exist, or a strand's register. -/
def State.partCsr? (s : State) (part csr : Nat) : Option DWord :=
  let p := s.part part
  if 0x210 ≤ csr && csr < 0x220 then
    some (if p.halves.getLsbD (csr - 0x210) then Store.read 0 s.ctlbase (csr - 0x210) else 0)
  else if 0x300 ≤ csr && csr < 0x500 then
    some (if p.hasCore (csr - 0x300) then (s.core (csr - 0x300)).cerr else 0)
  else p.csr? part csr <|> s.linkCsr? part csr

/-- Write a register for a partition. -/
def State.setPartCsr? (s : State) (part csr : Nat) (v : DWord) : Option State :=
  let p := s.part part
  if 0x210 ≤ csr && csr < 0x220 then
    some (if p.halves.getLsbD (csr - 0x210) then
      { s with ctlbase := Store.write 0 s.ctlbase (csr - 0x210) (v &&& mask64 29 23) } else s)
  else if 0x300 ≤ csr && csr < 0x500 then
    some (if p.hasCore (csr - 0x300) then s.modCore (csr - 0x300) fun k => k.setCerr v else s)
  else
    match p.setCsr? csr v with
    | some q => some (s.modPart part fun _ => q)
    | none => s.setLinkCsr? part csr v

/-! ## CSRR and CSRW (R377, R378) -/

/-- Read a CSR for the issuing strand. -/
def State.csr? (s : State) (csr : Nat) : Option DWord :=
  let part := s.me.part
  s.me.csr? (s.part part).debugLevel.steps csr <|> s.partCsr? part csr

/-- Write a CSR for the issuing strand. -/
def State.setCsr? (s : State) (csr : Nat) (v : DWord) : Option State :=
  let part := s.me.part
  match s.me.setCsr? (s.part part).debugLevel.steps v csr with
  | some t => some (s.modMe fun _ => t)
  | none => s.setPartCsr? part csr v

/-- CSRR (R378). -/
def execCsrr (d : XReg) (csr : Fin 16384) (s : State) : Result :=
  .next (s.issue true [] fun s => s.serial fun s =>
    match s.csr? csr.val with
    | none => s.takeTrap (s.illstate 1)
    | some v => (s.putX d.val v).retire)

/-- CSRW (R378). -/
def execCsrw (a : XReg) (csr : Fin 16384) (s : State) : Result :=
  .next (s.issue true [] fun s => s.serial fun s =>
    match s.setCsr? csr.val (s.x a.val) with
    | none => s.takeTrap (s.illstate 1)
    | some s => s.retire)

/-! ## DTLOAD, TLBINV, EVPOP (R310, R387, R389, R480, R481) -/

/-- The base table: IOP v + 1 for each mapped opcode, 0 for the others (R308, Table 13-6). -/
def baseTable : List Nat := (List.range 1024).map fun v => if baseMapped v then v + 1 else 0

/-- An entry of a decode table fails R310. -/
def badEntry (v e : Nat) : Bool :=
  e / 2 ^ 16 != 0 || (e % 2 ^ 16 != 0 && !baseMapped (e % 2 ^ 16 - 1)) || (v == 0 && e != 1)

/-- DTABLE at the lowest entry that fails. -/
def tableTrap (img : List Nat) : Option Trap :=
  (img.zipIdx.find? fun x => badEntry x.2 x.1).map fun x => { code := .dtable, d0 := x.2, d1 := x.1 % 2 ^ 16 }

/-- Install a table on every core of the issuing partition; none is the base table (R309). -/
def State.installTable (s : State) (t : Option (List Nat)) : State :=
  s.modPart s.me.part fun p => { p with table := t }

/-- DTLOAD (R310, R387). "Xa = 0" is the value in Xa. -/
def execDtload (x : XReg) (s : State) : Result :=
  .next (s.issue true [] fun s =>
    let a := s.xn x.val
    if a = 0 then s.passing .lds fun s => (s.installTable none).retire
    else
      s.check (s.harbourChecks [(0, a)] 4096 64 true false false false) fun s => s.passing .lds fun s =>
      let s := s.release s.cur.core true
      let img := (List.range 1024).map fun v => s.homeLoad (harbourOf a + 4 * v) 4
      s.check (tableTrap img) fun s => (s.installTable (some img)).retire)

/-- The page size of a SIZE code (Table 21-3). -/
def tlbSize : Nat → Nat
  | 0 => 2 ^ 16 | 1 => 2 ^ 21 | 2 => 2 ^ 26 | 3 => 2 ^ 31 | _ => 2 ^ 36

/-- A TLB entry matches a TLBINV operand of a partition (R481). -/
def TlbEntry.matched (t : TlbEntry) (part v : Nat) : Bool :=
  t.part == part && (v.testBit 52 ||
    ((bits v 55 53 == 5 || t.size == tlbSize (bits v 55 53)) && t.base ≤ bits v 51 0 && bits v 51 0 < t.base + t.size))

/-- TLBINV (R480, R481). -/
def execTlbinv (x : XReg) (s : State) : Result :=
  .next (s.issue true [] fun s =>
    let v := s.xn x.val
    let part := s.me.part
    s.check (s.badValue (bits v 63 56 != 0 || (!v.testBit 52 && 5 < bits v 55 53))) fun s =>
    let keep (l : List TlbEntry) : List TlbEntry := l.filter fun t => !t.matched part v
    let cores := s.cores.map fun (e : Nat × Core) => (e.1, { e.2 with tlb := keep e.2.tlb })
    let dies := s.dieTlb.map fun (e : Nat × List TlbEntry) => (e.1, keep e.2)
    { s with cores := cores, dieTlb := dies }.retire)

/-- EVPOP (R389). -/
def execEvpop (d x : XReg) (s : State) : Result :=
  .next (s.issue true [] fun s =>
    let o := s.xn x.val
    s.check (s.shelfRangeCheck o 32 16 false true) fun s =>
    let p := s.part s.me.part
    if p.evhead = p.evtail then (s.putX d.val 0).retire
    else
      let s := s.acquire s.cur.core true
      let a := p.evbase.toNat + 32 * (p.evhead.toNat % 2 ^ p.evsize.toNat)
      let bs := s.homeBytes a 32
      let s := s.modShelf s.cur.core fun m => m.putBytes o bs
      let s := s.modPart s.me.part fun p => { p with evhead := BitVec.ofNat 64 ((p.evhead.toNat + 1) % 2 ^ 32) }
      (s.putX d.val 1).retire)

end Sys2Proof.Machine
end

