-- ==== Sys2Proof/Machine/Integer.lean ====
section
/-!
DEFINITION. Vector integer, logic, shift and move instructions: IADD to BREV (R355, R366, R367, R370, R384,
R407, R414 to R419, R427, R437, R458, R462). Each active lane takes the value of a function of its
operands; no flag is set.
-/

namespace Sys2Proof.Machine

/-- A lane function of one register. -/
def State.vec1 (s : State) (d a : VReg) (f : Word → Word) : State :=
  s.vector [vr d, vr a] d fun s l => f (s.v a.val l)
/-- A lane function of two registers. -/
def State.vec2 (s : State) (d a b : VReg) (f : Word → Word → Word) : State :=
  s.vector [vr d, vr a, vr b] d fun s l => f (s.v a.val l) (s.v b.val l)
/-- A lane function of three registers. -/
def State.vec3 (s : State) (d a b c : VReg) (f : Word → Word → Word → Word) : State :=
  s.vector [vr d, vr a, vr b, vr c] d fun s l => f (s.v a.val l) (s.v b.val l) (s.v c.val l)
/-- A lane function of a register and an immediate, zero-extended (R306). -/
def State.vecImm (s : State) (d a : VReg) (imm : Fin 128) (f : Word → Word → Word) : State :=
  s.vec1 d a fun x => f x (BitVec.ofNat 32 imm.val)

/-! ## Arithmetic -/

/-- IADD (R415). -/
def execIadd (d a b : VReg) (s : State) : Result := .next (s.vec2 d a b (· + ·))
/-- IADD imm (R415). -/
def execIaddImm (d a : VReg) (imm : Fin 128) (s : State) : Result := .next (s.vecImm d a imm (· + ·))
/-- ISUB (R415). -/
def execIsub (d a b : VReg) (s : State) : Result := .next (s.vec2 d a b (· - ·))
/-- IMUL (R418). -/
def execImul (d a b : VReg) (s : State) : Result := .next (s.vec2 d a b (· * ·))

/-- Bits 63:32 of the signed product (R418). -/
def mulHighS (x y : Word) : Word := BitVec.ofInt 32 (x.toInt * y.toInt / 2 ^ 32)
/-- Bits 63:32 of the unsigned product (R418). -/
def mulHighU (x y : Word) : Word := BitVec.ofNat 32 (x.toNat * y.toNat / 2 ^ 32)

/-- IMULH.S32 (R418). -/
def execImulhS32 (d a b : VReg) (s : State) : Result := .next (s.vec2 d a b mulHighS)
/-- IMULH.U32 (R418). -/
def execImulhU32 (d a b : VReg) (s : State) : Result := .next (s.vec2 d a b mulHighU)
/-- IMAD (R416). -/
def execImad (d a b c : VReg) (s : State) : Result := .next (s.vec3 d a b c fun x y z => x * y + z)

/-- The magnitude of a signed value; the lowest one stays (R414). -/
def absolute (x : Word) : Word := if x.msb then -x else x

/-- IABS (R414). -/
def execIabs (d a : VReg) (s : State) : Result := .next (s.vec1 d a absolute)
/-- IMIN.S32 (R417). -/
def execIminS32 (d a b : VReg) (s : State) : Result := .next (s.vec2 d a b fun x y => if y.slt x then y else x)
/-- IMIN.U32 (R417). -/
def execIminU32 (d a b : VReg) (s : State) : Result := .next (s.vec2 d a b fun x y => if y.ult x then y else x)
/-- IMAX.S32 (R417). -/
def execImaxS32 (d a b : VReg) (s : State) : Result := .next (s.vec2 d a b fun x y => if x.slt y then y else x)
/-- IMAX.U32 (R417). -/
def execImaxU32 (d a b : VReg) (s : State) : Result := .next (s.vec2 d a b fun x y => if x.ult y then y else x)

/-- An integer comparison, signed or unsigned (R419, R500). -/
def Cmp.int (c : Cmp) (sg : Bool) {w : Nat} (x y : BitVec w) : Bool :=
  c.holds (if sg then x.slt y else x.ult y) (x == y)

/-- ISCMP (R419). -/
def execIscmp (sg : Bool) (cmp : Cmp) (p : PReg) (a b : VReg) (s : State) : Result :=
  .next (s.predicate [vr a, vr b] p fun s l => (Cmp.int cmp sg (s.v a.val l) (s.v b.val l), 0))

/-! ## Moves -/

/-- SELECT (R458). -/
def execSelect (d a b : VReg) (p : PReg) (s : State) : Result :=
  .next (s.vector [vr d, vr a, vr b] d fun s l =>
    if (s.p p.val).getLsbD l then s.v a.val l else s.v b.val l)
/-- MOV (R437). -/
def execMov (d a : VReg) (s : State) : Result := .next (s.vec1 d a id)
/-- MOVI (R437). -/
def execMovi (d : VReg) (imm : BitVec 32) (s : State) : Result := .next (s.vector [vr d] d fun _ _ => imm)

/-! ## Logic (R355, R427) -/

/-- AND (R355). -/
def execAnd (d a b : VReg) (s : State) : Result := .next (s.vec2 d a b (· &&& ·))
/-- AND imm (R355). -/
def execAndImm (d a : VReg) (imm : Fin 128) (s : State) : Result := .next (s.vecImm d a imm (· &&& ·))
/-- OR (R355). -/
def execOr (d a b : VReg) (s : State) : Result := .next (s.vec2 d a b (· ||| ·))
/-- OR imm (R355). -/
def execOrImm (d a : VReg) (imm : Fin 128) (s : State) : Result := .next (s.vecImm d a imm (· ||| ·))
/-- XOR (R355). -/
def execXor (d a b : VReg) (s : State) : Result := .next (s.vec2 d a b (· ^^^ ·))
/-- XOR imm (R355). -/
def execXorImm (d a : VReg) (imm : Fin 128) (s : State) : Result := .next (s.vecImm d a imm (· ^^^ ·))

/-- Bit by bit, the entry of a truth table (R427). -/
def lut3 (t : BitVec 8) (x y z : Word) : Word :=
  (List.range 8).foldl (fun (r : Word) k =>
    if t.getLsbD k then
      r ||| ((if k.testBit 0 then x else ~~~x) &&& (if k.testBit 1 then y else ~~~y) &&&
        (if k.testBit 2 then z else ~~~z))
    else r) 0

/-- LUT3 (R427). -/
def execLut3 (d a b c : VReg) (lut : BitVec 8) (s : State) : Result := .next (s.vec3 d a b c (lut3 lut))

/-! ## Shifts (R407, R462) -/

/-- Shift left; a count of the width or more gives 0 (R462, R499). -/
def shiftLeft {w : Nat} (x : BitVec w) (n : Nat) : BitVec w := if w ≤ n then 0 else x <<< n

/-- SHL (R462). -/
def execShl (d a b : VReg) (s : State) : Result := .next (s.vec2 d a b fun x n => shiftLeft x n.toNat)
/-- SHL imm (R462). -/
def execShlImm (d a : VReg) (imm : Fin 128) (s : State) : Result := .next (s.vec1 d a fun x => shiftLeft x imm.val)
/-- SHR (R462). -/
def execShr (d a b : VReg) (s : State) : Result := .next (s.vec2 d a b fun x n => x >>> n.toNat)
/-- SHR imm (R462). -/
def execShrImm (d a : VReg) (imm : Fin 128) (s : State) : Result := .next (s.vec1 d a fun x => x >>> imm.val)
/-- SHRA (R462). -/
def execShra (d a b : VReg) (s : State) : Result := .next (s.vec2 d a b fun x n => x.sshiftRight (min n.toNat 32))
/-- SHRA imm (R462). -/
def execShraImm (d a : VReg) (imm : Fin 128) (s : State) : Result :=
  .next (s.vec1 d a fun x => x.sshiftRight (min imm.val 32))

/-- The 64-bit pair `hi`:`lo` shifted right by the low six bits of a count (R407). -/
def funnel (lo hi n : Word) : Word :=
  BitVec.ofNat 32 ((hi.toNat * 2 ^ 32 + lo.toNat) / 2 ^ (n.toNat % 64))

/-- FUNS (R407). -/
def execFuns (d a b c : VReg) (s : State) : Result := .next (s.vec3 d a b c funnel)

/-! ## Bit fields (R366, R367, R370) -/

/-- Extract a field of at most 32 bits (R367). -/
def extract (sg : Bool) (x y : Word) : Word :=
  let p := min (bits y.toNat 7 0) 32
  let n := min (bits y.toNat 15 8) 32
  let e : DWord := if sg then x.signExtend 64 else x.setWidth 64
  let f := e.toNat / 2 ^ p % 2 ^ n
  if n = 0 then 0 else if sg then BitVec.ofInt 32 (signed n f) else BitVec.ofNat 32 f

/-- Insert a field (R366). -/
def insert (x y z : Word) : Word :=
  let p := bits z.toNat 7 0
  let n := bits z.toNat 15 8
  if n = 0 || 32 ≤ p then y
  else
    let m := BitVec.ofNat 32 ((2 ^ min n (32 - p) - 1) * 2 ^ p)
    (y &&& ~~~m) ||| (shiftLeft x p &&& m)

/-- BFX.U (R367). -/
def execBfxU (d a b : VReg) (s : State) : Result := .next (s.vec2 d a b (extract false))
/-- BFX.S (R367). -/
def execBfxS (d a b : VReg) (s : State) : Result := .next (s.vec2 d a b (extract true))
/-- BFI (R366). -/
def execBfi (d a b c : VReg) (s : State) : Result := .next (s.vec3 d a b c insert)

/-- The bits of a word that are one, ascending. -/
def ones (x : Word) : List Nat := (List.range 32).filter fun k => x.getLsbD k

/-- POPC (R370). -/
def execPopc (d a : VReg) (s : State) : Result :=
  .next (s.vec1 d a fun x => BitVec.ofNat 32 (ones x).length)

/-- Zero bits above the highest one; 32 for zero (R370). -/
def leadingZeros (x : Word) : Nat := ((List.range 32).find? fun k => x.getLsbD (31 - k)).getD 32

/-- CLZ (R370). -/
def execClz (d a : VReg) (s : State) : Result := .next (s.vec1 d a fun x => BitVec.ofNat 32 (leadingZeros x))

/-- Bit k moves to bit 31 − k (R370). -/
def reversed (x : Word) : Word := maskOf ((ones x).map (31 - ·))

/-- BREV (R370). -/
def execBrev (d a : VReg) (s : State) : Result := .next (s.vec1 d a reversed)

end Sys2Proof.Machine
end

