-- ==== Sys2Proof/Machine/Uniform.lean ====
section
/-!
DEFINITION. Uniform and predicate instructions: XADD to XGET (R498 to R502), PLOP, PTOV, VTOP (R443, R446,
R494).
-/

namespace Sys2Proof.Machine

/-- A function of two uniform registers (R499). -/
def State.uni2 (s : State) (d a b : XReg) (f : DWord → DWord → DWord) : State :=
  s.uniform d fun s => f (s.x a.val) (s.x b.val)
/-- A function of a uniform register and a zero-extended immediate (R499). -/
def State.uniImm (s : State) (d a : XReg) (imm : Fin 128) (f : DWord → DWord → DWord) : State :=
  s.uniform d fun s => f (s.x a.val) (BitVec.ofNat 64 imm.val)

/-- XADD (R499). -/
def execXadd (d a b : XReg) (s : State) : Result := .next (s.uni2 d a b (· + ·))
/-- XADD imm (R499). -/
def execXaddImm (d a : XReg) (imm : Fin 128) (s : State) : Result := .next (s.uniImm d a imm (· + ·))
/-- XSUB (R499). -/
def execXsub (d a b : XReg) (s : State) : Result := .next (s.uni2 d a b (· - ·))
/-- XMUL (R499). -/
def execXmul (d a b : XReg) (s : State) : Result := .next (s.uni2 d a b (· * ·))

/-- The logical operations of XLOP and PLOP (R443, R499). -/
def logic (op : LogOp) {w : Nat} (x y : BitVec w) : BitVec w :=
  match op with
  | .and => x &&& y
  | .or => x ||| y
  | .xor => x ^^^ y
  | .andn => x &&& ~~~y

/-- XLOP (R499). -/
def execXlop (op : LogOp) (d a b : XReg) (s : State) : Result := .next (s.uni2 d a b (logic op))
/-- XSHL (R499). -/
def execXshl (d a b : XReg) (s : State) : Result := .next (s.uni2 d a b fun x n => shiftLeft x n.toNat)
/-- XSHL imm (R499). -/
def execXshlImm (d a : XReg) (imm : Fin 128) (s : State) : Result :=
  .next (s.uniImm d a imm fun x n => shiftLeft x n.toNat)
/-- XSHR (R499). -/
def execXshr (d a b : XReg) (s : State) : Result := .next (s.uni2 d a b fun x n => x >>> n.toNat)
/-- XSHR imm (R499). -/
def execXshrImm (d a : XReg) (imm : Fin 128) (s : State) : Result :=
  .next (s.uniImm d a imm fun x n => x >>> n.toNat)
/-- XMOV (R499). -/
def execXmov (d a : XReg) (s : State) : Result := .next (s.uniform d fun s => s.x a.val)
/-- XMOVI (R499). -/
def execXmovi (d : XReg) (imm : BitVec 32) (s : State) : Result :=
  .next (s.uniform d fun _ => imm.signExtend 64)

/-- XSCMP (R500): the result goes to every lane of the split. -/
def execXscmp (sg : Bool) (cmp : Cmp) (p : PReg) (a b : XReg) (s : State) : Result :=
  .next (s.issue false [] fun s =>
    let r := Cmp.int cmp sg (s.x a.val) (s.x b.val)
    (s.modMe fun t => t.setP p.val s.mySplit.mask (if r then 0xFFFFFFFF#32 else 0)).retire)

/-- The address of XLD and XST (R501). -/
def State.xaddr (s : State) (a : XReg) (imm : Fin 128) : Nat := (s.xn a.val + 8 * imm.val) % 2 ^ 64

/-- XLD (R501): a plain load at CORE scope. -/
def execXld (d a : XReg) (imm : Fin 128) (s : State) : Result :=
  .next (s.issue false [] fun s =>
    let ad := s.xaddr a imm
    s.check (s.harbourChecks [(0, ad)] 8 8 true false true false) fun s => s.afterAcquires fun s =>
    let (bs, s) := s.l1Read s.cur.core (harbourOf ad) 8
    (s.putX d.val (BitVec.ofNat 64 (ofBytes bs))).retire)

/-- XST (R501): a plain store at CORE scope. -/
def execXst (b a : XReg) (imm : Fin 128) (s : State) : Result :=
  .next (s.issue false [] fun s =>
    let ad := s.xaddr a imm
    s.check (s.harbourChecks [(0, ad)] 8 8 false true true false) fun s => s.afterAcquires fun s =>
    (s.l1Write s.cur.core (harbourOf ad) (bytesOf 8 (s.xn b.val))).retire)

/-- A value of Table 9-2 (R218). -/
def State.taskValue (s : State) (k : Nat) : Nat :=
  if k = 32 then s.myWg.shelfBase
  else match s.myRun? with
    | some r => if k = 33 then generic r.graph else r.field (8 * k) 8
    | none => 0

/-- XGET (R502). -/
def execXget (d : XReg) (k : Fin 34) (s : State) : Result :=
  .next (s.uniform d fun s => BitVec.ofNat 64 (s.taskValue k.val))

/-- PLOP (R443). -/
def execPlop (op : LogOp) (p a b : PReg) (s : State) : Result :=
  .next (s.issue false [] fun s => (s.putP p.val (logic op (s.p a.val) (s.p b.val))).retire)

/-- PTOV (R446). -/
def execPtov (d : VReg) (p : PReg) (s : State) : Result :=
  .next (s.vector [vr d] d fun s l => if (s.p p.val).getLsbD l then 1 else 0)

/-- VTOP (R494). -/
def execVtop (p : PReg) (a : VReg) (s : State) : Result :=
  .next (s.predicate [vr a] p fun s l => (s.v a.val l != 0, 0))

end Sys2Proof.Machine
end

