-- ==== Sys2Proof/Machine/Float.lean ====
section
/-!
DEFINITION. Floating-point instructions: FADD to HFMA2 (R385, R386, R393 to R406, R412, R413).
-/

namespace Sys2Proof.Machine

/-! ## FP32 arithmetic (R394) -/

/-- FADD, FSUB and FMUL in the mode and flushing of a literal, or of FMT. -/
def State.fop (s : State) (op : ArithOp) (rm : Option Rm) (ftz : Bool) (d a b : VReg) : State :=
  s.fp2 d a b fun s x y => arith .fp32 op (s.rm rm) (s.ftz ftz) x y 0

/-- FADD (R394). -/
def execFadd (d a b : VReg) (s : State) : Result := .next (s.fop .add none false d a b)
/-- FADD modified (R394). -/
def execFaddM (d a b : VReg) (md : FpMod) (s : State) : Result := .next (s.fop .add md.rm md.ftz d a b)
/-- FSUB (R394). -/
def execFsub (d a b : VReg) (s : State) : Result := .next (s.fop .sub none false d a b)
/-- FSUB modified (R394). -/
def execFsubM (d a b : VReg) (md : FpMod) (s : State) : Result := .next (s.fop .sub md.rm md.ftz d a b)
/-- FMUL (R394). -/
def execFmul (d a b : VReg) (s : State) : Result := .next (s.fop .mul none false d a b)
/-- FMUL modified (R394). -/
def execFmulM (d a b : VReg) (md : FpMod) (s : State) : Result := .next (s.fop .mul md.rm md.ftz d a b)

/-- FFMA (R394). -/
def execFfma (d a b : VReg) (md : FpMod) (s : State) : Result :=
  .next (s.vectorF [vr d, vr a, vr b, vr md.vc] d fun s l =>
    arith .fp32 .fma (s.rm md.rm) (s.ftz md.ftz) (s.v a.val l).toNat (s.v b.val l).toNat (s.v md.vc.val l).toNat)

/-! ## Comparison and classes (R395, R401, R406) -/

/-- FMIN (R401). -/
def execFmin (d a b : VReg) (s : State) : Result :=
  .next (s.fp2 d a b fun s x y => minMax .fp32 false (s.ftz false) x y)
/-- FMAX (R401). -/
def execFmax (d a b : VReg) (s : State) : Result :=
  .next (s.fp2 d a b fun s x y => minMax .fp32 true (s.ftz false) x y)
/-- FSCMP (R406). -/
def execFscmp (cmp : Cmp) (p : PReg) (a b : VReg) (s : State) : Result :=
  .next (s.predicate [vr a, vr b] p fun s l =>
    compareF cmp (s.ftz false) (s.v a.val l).toNat (s.v b.val l).toNat)
/-- FCLASS (R395). -/
def execFclass (d a : VReg) (s : State) : Result :=
  .next (s.vec1 d a fun x => BitVec.ofNat 32 (classify x.toNat))

/-! ## Conversions (R397, R398, R405) -/

/-- One conversion of FCVT (R397, R398). -/
def fcvt (rm : Rm) (ftz : Bool) (dst src : CvtFmt) (x : Nat) : Nat × Flags :=
  match src, dst with
  | .elem f, .elem g => convert rm ftz g f (x % 2 ^ f.bits)
  | .elem f, t =>
    let (v, fl) := f.src ftz (x % 2 ^ f.bits)
    let (r, fl') := toInteger rm (t == .s32) v
    (r, fl ||| fl')
  | i, .elem g => g.round rm ftz (ofInteger (i == .s32) x)
  | _, _ => (x, 0)

/-- FCVT (R397). -/
def execFcvt (d a : VReg) (cv : CvtLit) (s : State) : Result :=
  .next (s.vectorF [vr d, vr a] d fun s l => fcvt (s.rm cv.rm) (s.ftz cv.ftz) cv.dst cv.src (s.v a.val l).toNat)

/-- FRND (R405). -/
def execFrnd (d a : VReg) (rm : Option Rm) (s : State) : Result :=
  .next (s.vectorF [vr d, vr a] d fun s l => roundIntegral (s.rm rm) (s.ftz false) (s.v a.val l).toNat)

/-! ## Special functions (R402 to R404) -/

/-- A special function of each lane, with flushing under FMT.FZ. -/
def State.special1 (s : State) (d a : VReg) (f : Bool → Nat → Nat × Flags) : State :=
  s.vectorF [vr d, vr a] d fun s l => f (s.ftz false) (s.v a.val l).toNat

/-- FRCP (R403). -/
def execFrcp (d a : VReg) (s : State) : Result := .next (s.special1 d a frcp)
/-- FRSQ (R403). -/
def execFrsq (d a : VReg) (s : State) : Result := .next (s.special1 d a frsq)
/-- FEX2 (R403). -/
def execFex2 (d a : VReg) (s : State) : Result := .next (s.special1 d a fex2)
/-- FLG2 (R403). -/
def execFlg2 (d a : VReg) (s : State) : Result := .next (s.special1 d a flg2)
/-- FSIN (R403). -/
def execFsin (d a : VReg) (s : State) : Result := .next (s.special1 d a fsin)
/-- FCOS (R403). -/
def execFcos (d a : VReg) (s : State) : Result := .next (s.special1 d a fcos)

/-! ## Paired 16-bit arithmetic (R413) -/

/-- BF16 or FP16. -/
def halfFmt (bf : Bool) : Fmt := if bf then .bf16 else .fp16

/-- Two halves of each lane of three registers. -/
def State.hop (s : State) (op : ArithOp) (md : FpMod) (d a b : VReg) : State :=
  s.vectorF [vr d, vr a, vr b, vr md.vc] d fun s l =>
    halves (arith (halfFmt md.bf) op (s.rm md.rm) (s.ftz md.ftz)) (s.v a.val l) (s.v b.val l)
      (if op = .fma then s.v md.vc.val l else 0)

/-- The literal of a form that has none: mode and flushing of FMT. The third register is not read. -/
def plainMod (bf : Bool) (a : VReg) : FpMod := { bf, ftz := false, rm := none, vc := a }

/-- HADD2 (R413). -/
def execHadd2 (d a : VReg) (bf : Bool) (b : Fin 64) (s : State) : Result :=
  .next (s.hop .add (plainMod bf a) d a (lowReg b))
/-- HADD2 modified (R413). -/
def execHadd2M (d a b : VReg) (md : FpMod) (s : State) : Result :=
  .next (s.hop .add { md with vc := a } d a b)
/-- HMUL2 (R413). -/
def execHmul2 (d a : VReg) (bf : Bool) (b : Fin 64) (s : State) : Result :=
  .next (s.hop .mul (plainMod bf a) d a (lowReg b))
/-- HMUL2 modified (R413). -/
def execHmul2M (d a b : VReg) (md : FpMod) (s : State) : Result :=
  .next (s.hop .mul { md with vc := a } d a b)
/-- HFMA2 (R413). -/
def execHfma2 (d a b : VReg) (md : FpMod) (s : State) : Result := .next (s.hop .fma md d a b)

end Sys2Proof.Machine
end

