-- ==== Sys2Proof/Machine/Lanes.lean ====
section
/-!
DEFINITION. Strand-wide lane instructions: VOTE, SRED, MATCH, SCAN, SHFL, SHFLP, and PTLD (R32 to R34, R428,
R444, R445, R453 to R455, R461, R492, R493).
-/

namespace Sys2Proof.Machine

/-- The members of an instruction with an optional member mask (R34). -/
def State.members (s : State) (m : Option Mask) : Mask := s.cur.act &&& m.getD 0xFFFFFFFF#32

/-- MEMBER: the mask names an exited lane (R34). -/
def State.memberCheck (s : State) (m : Option Mask) : Option Trap :=
  match m with
  | none => none
  | some m => trapIf (m &&& ~~~s.me.live != 0) { code := .member, d0 := m.toNat, d1 := s.me.live.toNat }

/-- The low half of a uniform register as a member mask. -/
def State.maskReg (s : State) (x : Nat) : Mask := (s.x x).setWidth 32

/-- A strand-wide instruction: ILLSTATE (R32), MEMBER, then the body. -/
def State.strandWide (s : State) (regs : List Reg) (mask : State → Option Mask) (body : State → State) : State :=
  s.issue false regs fun s => s.check s.divergent fun s => s.check (s.memberCheck (mask s)) body

/-! ## VOTE (R493) -/

/-- VOTE over members. -/
def State.vote (s : State) (w : VoteArg) (mask : State → Option Mask) : State :=
  s.strandWide [] mask fun s =>
    let ms := s.members (mask s)
    let yes := ms &&& s.p w.p.val
    let set (b : Bool) : State := s.putP w.d.val (if b then 0xFFFFFFFF#32 else 0)
    (match w.op with
      | .any => set (yes != 0)
      | .all => set (yes == ms)
      | .bal => s.putX w.d.val (yes.setWidth 64)).retire

/-- VOTE (R493). -/
def execVote (w : VoteArg) (s : State) : Result := .next (s.vote w fun _ => none)
/-- VOTE with a mask (R493). -/
def execVoteMask (w : VoteArg) (m : XReg) (s : State) : Result := .next (s.vote w fun s => some (s.maskReg m.val))

/-! ## Reductions (Table 20-5) -/

/-- Combine values under an operation of Table 20-5, as SRED gives it. -/
def reduce (op : RedOp) (rm : Rm) (ftz : Bool) (xs : List Word) : DWord × Flags :=
  let u (x : Nat) : DWord := BitVec.ofNat 64 x
  let fold (f : Word → Word → Word) (e : Word) : Word := xs.foldl f e
  match op with
  | .addU => (u ((xs.map (·.toNat)).foldl (· + ·) 0), 0)
  | .addS => (BitVec.ofInt 64 ((xs.map (·.toInt)).foldl (· + ·) 0), 0)
  | .minU => ((fold (fun a b => if b.ult a then b else a) 0xFFFFFFFF#32).setWidth 64, 0)
  | .minS => ((fold (fun a b => if b.slt a then b else a) 0x7FFFFFFF#32).signExtend 64, 0)
  | .maxU => ((fold (fun a b => if a.ult b then b else a) 0).setWidth 64, 0)
  | .maxS => ((fold (fun a b => if a.slt b then b else a) 0x80000000#32).signExtend 64, 0)
  | .and => ((fold (· &&& ·) 0xFFFFFFFF#32).setWidth 64, 0)
  | .or => ((fold (· ||| ·) 0).setWidth 64, 0)
  | .xor => ((fold (· ^^^ ·) 0).setWidth 64, 0)
  | .addF =>
    if xs.isEmpty then (0, 0)
    else
      let (r, f) := Num.sum rm (xs.map fun x => (Fmt.fp32.src ftz x.toNat).1)
      let (v, g) := Fmt.fp32.round rm ftz r
      (u v, f ||| g)
  | .minF | .maxF =>
    let r := xs.foldl (fun (r : Nat × Flags) x =>
      let (v, f) := minMax .fp32 (op == .maxF) ftz r.1 x.toNat
      (v, r.2 ||| f)) (0x7FC00000, 0)
    (u r.1, r.2)

/-- Reduce a register over some lanes. -/
def State.reduceLanes (s : State) (op : RedOp) (a : VReg) (ls : List Nat) : DWord × Flags :=
  reduce op (s.rm none) (s.ftz false) (ls.map (s.v a.val))

/-- SRED over members (R454). -/
def State.sred (s : State) (d : XReg) (a : VReg) (op : RedOp) (mask : State → Option Mask) : State :=
  s.strandWide [vr a] mask fun s =>
    let (v, f) := s.reduceLanes op a (lanes (s.members (mask s)))
    ((s.putX d.val v).flags f).retire

/-- SRED (R454). -/
def execSred (d : XReg) (a : VReg) (op : RedOp) (s : State) : Result := .next (s.sred d a op fun _ => none)
/-- SRED with a mask (R454); the mask register is one of X0 to X7. -/
def execSredMask (d : XReg) (a : VReg) (op : RedOp) (m : PReg) (s : State) : Result :=
  .next (s.sred d a op fun s => some (s.maskReg m.val))

/-- SCAN (R455): prefixes over the active lanes. -/
def execScan (d a : VReg) (op : RedOp) (s : State) : Result :=
  .next (s.strandWide [vr d, vr a] (fun _ => none) fun s => s.unlocked [vr d] fun s =>
    let prefixTo (l : Nat) : DWord × Flags := s.reduceLanes op a (s.actLanes.filter (· ≤ l))
    ((s.putV d.val fun l => (prefixTo l).1.setWidth 32).flags (s.laneFlags fun l => (prefixTo l).2)).retire)

/-! ## MATCH (R428) -/

/-- MATCH over members. -/
def State.matchOver (s : State) (d a : VReg) (mask : State → Option Mask) : State :=
  s.strandWide [vr d, vr a] mask fun s => s.unlocked [vr d] fun s =>
    let ms := lanes (s.members (mask s))
    (s.putV d.val fun l => maskOf (ms.filter fun m => s.v a.val m == s.v a.val l)).retire

/-- MATCH (R428). -/
def execMatchLanes (d a : VReg) (s : State) : Result := .next (s.matchOver d a fun _ => none)
/-- MATCH with a mask (R428). -/
def execMatchMask (d a : VReg) (m : XReg) (s : State) : Result :=
  .next (s.matchOver d a fun s => some (s.maskReg m.val))

/-! ## Shuffles (R461) -/

/-- The value of a source lane; an exited one gives zero (R33). -/
def State.fromLane (s : State) (a : VReg) (j : Nat) : Word := if s.me.live.getLsbD j then s.v a.val j else 0

/-- SHFL (R461). -/
def execShfl (d a b : VReg) (s : State) : Result :=
  .next (s.strandWide [vr d, vr a, vr b] (fun _ => none) fun s => s.unlocked [vr d] fun s =>
    (s.putV d.val fun l => s.fromLane a ((s.v b.val l).toNat % 32)).retire)

/-- A byte of a pattern table; at placement the identity (R444). -/
def Workgroup.pattern (w : Workgroup) (t l : Nat) : Nat :=
  match w.patterns.at? t with
  | some bs => (bs.getD l 0).toNat
  | none => l

/-- SHFLP (R461). -/
def execShflp (d a : VReg) (t : Fin 16) (s : State) : Result :=
  .next (s.strandWide [vr d, vr a] (fun _ => none) fun s => s.unlocked [vr d] fun s =>
    (s.putV d.val fun l => s.fromLane a (s.myWg.pattern t.val l)).retire)

/-- PTLD (R445). -/
def execPtld (t : Fin 16) (x : XReg) (s : State) : Result :=
  .next (s.issue false [] fun s =>
    let a := s.xn x.val
    s.check (s.shelfRangeCheck a 32 32 true false) fun s =>
    let bs := s.myShelf a 32
    s.check (s.badValue (bs.any fun b => 32 ≤ b.toNat)) fun s =>
    s.passing .lds fun s => (s.modMyWg fun w => { w with patterns := w.patterns.put t.val bs }).retire)

end Sys2Proof.Machine
end

