-- ==== Sys2Proof/Machine/Memory.lean ====
section
/-!
DEFINITION. Shelf and harbour accesses: LD, ST, ATOM, RED, FENCE, CFLUSH, CINV (R191 to R206, R356 to R359,
R372, R400, R421 to R425, R450, R465 to R467). Accesses are performed at issue, lane by lane (log 7).
-/

namespace Sys2Proof.Machine

/-! ## Waiting (R194, R203, R210) -/

/-- A releasing access waits for every earlier peer access of the strand, and an acquiring one for the earlier releasing
ones, whatever its own scope (R194, R198, R210, R425). -/
def State.afterPeers (s : State) (acq rel : Bool) (body : State → State) : State :=
  s.afterReqs (if rel then s.me.openReqs else if acq then s.me.releasing else []) body

/-- The lines that accesses touch, each once. -/
def linesOf (accs : List (Nat × Nat)) : List Nat := (accs.map fun x => harbourOf x.2 / 128).eraseDups

/-- The core of the last notice for a line at its slice: that of its record, or of a notice that waits for one. DEDUCED, safe
(log 76). -/
def State.releaser (s : State) (line : Nat) : Option Nat :=
  ((s.promotions.filterMap (·.notice)).find? (·.line == line)).map (·.core)
  <|> ((s.recordsOf (sliceOf line)).find? (·.line == line)).map (·.core)

/-- The lines whose last notice came from another core, with that core (R203). -/
def State.foreign (s : State) (lines : List Nat) : List (Nat × Nat) :=
  lines.filterMap fun l => ((s.releaser l).filter (· != s.cur.core)).map fun c => (l, c)

/-- The promotion requests of an acquire (R203). -/
def State.askPromotions (s : State) (want : List (Nat × Nat)) : State :=
  let (ticket, s) := s.fresh
  let s := want.foldl (fun (s : State) w =>
    let (id, s) := s.fresh
    { s with promotions := s.promotions ++
        [{ id, slice := sliceOf w.1, line := w.1, core := w.2, wrote := false, acked := false
           ticket := some ticket, asker := s.cur.core, notice := none }] }) s
  s.hold (.promotion ticket)

/-- An access marked .RSP is performed when the promotions it asked for are acknowledged (R203). -/
def State.promoted (s : State) (rsp : Bool) (lines : List Nat) (body : State → State) : State :=
  if !rsp then body s
  else
    match s.mySplit.stall with
    | .promotion k =>
      if s.promotions.all fun p => p.ticket != some k || p.acked then
        body { s with promotions := s.promotions.filter (·.ticket != some k) }
      else s.hold (.promotion k)
    | _ =>
      let s := lines.foldl (fun (s : State) l => s.flushNotices s.cur.core (sliceOf l)) s
      let want := s.foreign lines
      if want.isEmpty then body s else s.askPromotions want

/-- Release notices of an access with .REL at CORE scope (R201). -/
def State.notify (s : State) (send : Bool) (lines : List Nat) : State :=
  if send then lines.foldl (fun s l => s.sendNotice s.cur.core l) s else s

/-! ## Loads (R424, R425) -/

/-- Read `n` bytes from harbour at a scope at each address of some accesses, once for the lanes that share it (R193): the
values by address. -/
def State.loadHarbour (s : State) (wide : Bool) (accs : List (Nat × Nat)) (n : Nat) : Store Nat × State :=
  ((accs.map fun x => harbourOf x.2).eraseDups).foldl (fun (r : Store Nat × State) a =>
    let (bs, s) := r.2.harbourRead r.2.cur.core wide a n
    (Store.put r.1 a (ofBytes bs), s)) ([], s)

/-- LD.S with its address per lane. -/
def State.loadShelf (s : State) (d : VReg) (regs : List Reg) (w : Width) (acq : Bool) (sc : Scope)
    (addr : State → Nat → Nat) : State :=
  s.issue false (vrs d w.regs :: regs) fun s =>
    let accs := s.laneAddrs (addr s)
    s.check (s.shelfChecks accs w.bytes w.bytes true false true) fun s =>
    s.passing .lds fun s => s.unlocked [vrs d w.regs] fun s => s.afterPeers acq false fun s =>
    let shelf := s.shelf s.cur.core
    ((s.putData d w fun l => shelf.load (addr s l) w.bytes).acquire s.cur.core (acq && sc.wide)).retire

/-- LD.H with its address per lane. -/
def State.loadH (s : State) (d : VReg) (regs : List Reg) (w : Width) (acq rsp : Bool) (sc : Scope)
    (addr : State → Nat → Nat) : State :=
  s.issue false (vrs d w.regs :: regs) fun s =>
    let accs := s.laneAddrs (addr s)
    s.check (s.harbourChecks accs w.bytes w.bytes true false true true) fun s =>
    s.passing .lds fun s => s.unlocked [vrs d w.regs] fun s => s.afterPeers acq false fun s =>
    s.promoted rsp (linesOf accs) fun s =>
    let place (l : Nat) : Nat := harbourOf (addr s l)
    let (vals, s) := s.loadHarbour sc.wide accs w.bytes
    ((s.putData d w fun l => vals.read 0 (place l)).acquire s.cur.core (acq && sc.wide)).retire

/-- LD.S compact (R421). -/
def execLdS (d : VReg) (ad : CAddr) (s : State) : Result :=
  .next (s.loadShelf d ad.regs .b32 false .core fun s => s.caddr ad)
/-- LD.S full (R422). -/
def execLdSFull (d : VReg) (l : LdLit) (s : State) : Result :=
  .next (s.loadShelf d l.off.regs l.w l.strong l.scope fun s => s.offAddr l.xa l.off)
/-- LD.H compact (R421). -/
def execLdH (d : VReg) (ad : CAddr) (s : State) : Result :=
  .next (s.loadH d ad.regs .b32 false false .core fun s => s.caddr ad)
/-- LD.H full (R422). -/
def execLdHFull (d : VReg) (l : LdLit) (s : State) : Result :=
  .next (s.loadH d l.off.regs l.w l.strong l.rsp l.scope fun s => s.offAddr l.xa l.off)

/-! ## Stores (R466, R467) -/

/-- Write the lanes' data to harbour at a scope, lowest lane first (R193). -/
def State.storeHarbour (s : State) (wide : Bool) (accs : List (Nat × Nat)) (b : VReg) (w : Width) : State :=
  accs.foldl (fun (s : State) x =>
    s.harbourWrite s.cur.core wide (harbourOf x.2) (bytesOf w.bytes (s.laneData b w x.1))) s

/-- ST.S with its address per lane. -/
def State.storeShelf (s : State) (b : VReg) (regs : List Reg) (w : Width) (rel : Bool) (sc : Scope)
    (addr : State → Nat → Nat) : State :=
  s.issue false (vrs b w.regs :: regs) fun s =>
    let accs := s.laneAddrs (addr s)
    s.check (s.shelfChecks accs w.bytes w.bytes false true true) fun s =>
    s.passing .sts fun s => s.afterPeers false rel fun s =>
    let s := s.release s.cur.core (rel && sc.wide)
    (s.modShelf s.cur.core fun m =>
      accs.foldl (fun m x => Mem.store m x.2 w.bytes (s.laneData b w x.1)) m).retire

/-- ST.H with its address per lane. Its notices go out before its bytes can (R201, R204). -/
def State.storeH (s : State) (b : VReg) (regs : List Reg) (w : Width) (rel : Bool) (sc : Scope)
    (addr : State → Nat → Nat) : State :=
  s.issue false (vrs b w.regs :: regs) fun s =>
    let accs := s.laneAddrs (addr s)
    s.check (s.harbourChecks accs w.bytes w.bytes false true true true) fun s =>
    s.passing .sts fun s => s.afterPeers false rel fun s =>
    let s := (s.release s.cur.core (rel && sc.wide)).notify (rel && !sc.wide) (linesOf accs)
    (s.storeHarbour sc.wide accs b w).retire

/-- ST.S compact (R465). -/
def execStS (v : VReg) (ad : CAddr) (s : State) : Result :=
  .next (s.storeShelf v ad.regs .b32 false .core fun s => s.caddr ad)
/-- ST.S full (R465). -/
def execStSFull (v : VReg) (l : LdLit) (s : State) : Result :=
  .next (s.storeShelf v l.off.regs l.w l.strong l.scope fun s => s.offAddr l.xa l.off)
/-- ST.H compact (R465). -/
def execStH (v : VReg) (ad : CAddr) (s : State) : Result :=
  .next (s.storeH v ad.regs .b32 false .core fun s => s.caddr ad)
/-- ST.H full (R465). -/
def execStHFull (v : VReg) (l : LdLit) (s : State) : Result :=
  .next (s.storeH v l.off.regs l.w l.strong l.scope fun s => s.offAddr l.xa l.off)

/-! ## Atomics (R358, R359, R450) -/

/-- One atomic at the home of a harbour address: the old value (R199, R358). -/
def State.atomHome (s : State) (core a n : Nat) (new : Nat → Nat) : Nat × State :=
  let s := s.toHome core (a / 128)
  let old := s.homeLoad a n
  (old, s.homeStore a n (new old))

/-- The lanes' atomics in ascending order; the old values by lane. -/
def State.atomLanes (s : State) (l : AtomLit) (b c : VReg) (accs : List (Nat × Nat)) : Store Nat × State :=
  let n := if l.w64 then 8 else 4
  accs.foldl (fun (r : Store Nat × State) x =>
    let (old, t) := r.2.atomHome r.2.cur.core (harbourOf x.2) n fun old =>
      atomNew l.op l.sg n old (s.lanePair b l.w64 x.1) (s.lanePair c l.w64 x.1)
    (Store.put r.1 x.1 old, t)) ([], s)

/-- ATOM and RED, without what they return: checks, waits, the release part, the notice, the lanes. Registers are checked
in the order of the fields, the literal last (R60). -/
def State.atomic (s : State) (regs : List Reg) (dst : List Reg) (cls : CClass) (l : AtomLit) (b c : VReg)
    (rd : Bool) (back : State → Store Nat → State) : State :=
  s.issue false (dst ++ pairRegs b l.w64 :: regs ++ l.off.regs) fun s =>
    let n := if l.w64 then 8 else 4
    let accs := s.laneAddrs (s.offAddr l.xa l.off)
    s.check (s.harbourChecks accs n n rd true true true) fun s =>
    s.passing cls fun s => s.unlocked dst fun s => s.afterPeers l.acq l.rel fun s =>
    s.promoted l.rsp (linesOf accs) fun s =>
    let s := (s.release s.cur.core (l.rel && l.scope.wide)).notify (l.rel && !l.scope.wide) (linesOf accs)
    let (olds, s) := s.atomLanes l b c accs
    ((back s olds).acquire s.cur.core (l.acq && l.scope.wide)).retire

/-- ATOM (R358). -/
def execAtom (d b c : VReg) (l : AtomLit) (s : State) : Result :=
  .next (s.atomic (if l.op = .cas then [pairRegs c l.w64] else []) [pairRegs d l.w64] .lds l b c true
    fun s olds => s.putData d (if l.w64 then .b64 else .b32) fun k => olds.read 0 k)

/-- RED (R450). -/
def execRed (b : VReg) (l : AtomLit) (s : State) : Result :=
  .next (s.atomic [] [] .sts l b b false fun s _ => s)

/-! ## Fences and single lines (R372, R400) -/

/-- FENCE (R400): neither bit is a full fence. At SYS it waits for the strand's earlier peer accesses; one that only
acquires, for the loads among them (R200, R210). -/
def execFence (scope : Scope) (acq rel : Bool) (s : State) : Result :=
  .next (s.issue false [] fun s => s.afterAcquires fun s =>
    s.afterReqs (if scope != .sys then [] else if rel || !acq then s.me.openReqs else s.me.loading) fun s =>
    ((s.release s.cur.core ((rel || !acq) && scope.wide)).acquire s.cur.core
      ((acq || !rel) && scope.wide)).retire)

/-- CFLUSH and CINV: check one byte, then act on its line (R372). -/
def State.lineOp (s : State) (x : XReg) (f : State → Nat → State) : State :=
  s.issue false [] fun s =>
    let a := s.xn x.val
    s.check (s.harbourFaults [(0, a)] 1 1 true false true false) fun s =>
    s.passing .sts fun s => (f s (harbourOf a / 128)).retire

/-- CFLUSH (R372). -/
def execCflush (x : XReg) (s : State) : Result := .next (s.lineOp x fun s l => s.writeBack s.cur.core l)
/-- CINV (R372). -/
def execCinv (x : XReg) (s : State) : Result := .next (s.lineOp x fun s l => s.flushLine s.cur.core l)

end Sys2Proof.Machine
end

