-- ==== Sys2Proof/Machine/PeerAccess.lean ====
section
/-!
DEFINITION. PLD, PST and PATOM (R210, R264, R440 to R442). The issuing split goes on once the requests are posted; what
they bring comes later (log 20).
-/

namespace Sys2Proof.Machine

/-- SPACE, MISALIGN and HARBRANGE of peer accesses (R153, R441). -/
def peerChecks (accs : List (Nat × Nat)) (n : Nat) (rd wr : Bool) : Option Trap :=
  let d0 := accDetail n rd wr
  (failing .space d0 true accs fun a => tagBits a != 0xD) <|>
  (failing .misalign d0 true accs fun a => a % n != 0) <|>
  (failing .harbrange d0 true accs fun a => bits a 47 30 != 0)

/-- Node and harbour address of a peer generic address (Table 7-2). -/
def peerNode (a : Nat) : Nat := bits a 59 48

/-- Pack accesses of `n` bytes to one node, as (lane, harbour address) in lane order, into requests (R264):
each runs on through adjacent addresses within one block of 256 bytes. -/
def packLanes (n : Nat) : List (Nat × Nat) → List (Nat × List Nat)
  | [] => []
  | x :: xs =>
    match packLanes n xs with
    | (a, ls) :: rest =>
      if a = x.2 + n && a / 256 = x.2 / 256 then (x.2, x.1 :: ls) :: rest else (x.2, [x.1]) :: (a, ls) :: rest
    | [] => [(x.2, [x.1])]

/-- The requests of an instruction: node, address, lanes. -/
def packAll (n : Nat) (accs : List (Nat × Nat)) : List (Nat × Nat × List Nat) :=
  let nodes := (accs.map fun x => peerNode x.2).eraseDups
  nodes.flatMap fun node =>
    (packLanes n ((accs.filter fun x => peerNode x.2 == node).map fun x => (x.1, harbourOf x.2))).map
      fun p => (node, p.1, p.2)

/-- Post one request. One that names this package is performed at once at the local home slice, under
the check of PEERWIN alone: it lies in one block of 256 bytes, so in two lines at most (R264, R441). -/
def State.postReq (s : State) (node addr : Nat) (ls : List Nat) (op : PeerOp) : Nat × State :=
  let (id, s) := s.fresh
  let t := s.me
  let r : Request := { id, part := t.part, core := s.cur.core, uid := t.uid, run := t.run, node, addr, op, lanes := ls }
  if node = s.nodeId.toNat then
    if s.inPeerwin addr (peerBytes op) then
      let home (s : State) (a : Nat) : State := s.toHome s.cur.core (a / 128)
      let (data, s) := (home (home s addr) (addr + peerBytes op - 1)).performPeer addr op
      (id, { s with requests := s.requests ++ [{ r with state := .answered data }] })
    else (id, { s with requests := s.requests ++ [{ r with state := .failed 3 }] })
  else (id, { s with requests := s.requests ++ [r] })

/-- The lanes of a PLD that share an earlier lane's access, at the same address, each with that lane (R193). -/
def sharing : List (Nat × Nat) → List (Nat × Nat)
  | [] => []
  | x :: xs =>
    let same := (xs.filter (·.2 == x.2)).map fun y => (y.1, x.1)
    same ++ (sharing xs).filter fun p => !same.any (·.1 == p.1)

/-- Begin an access: its requests are posted and admitted. The lanes of a PLD at one address share one access. -/
def State.beginPeer (s : State) (cls : CClass) (l : PeerLit) (n : Nat) (wr : Bool) (dest : Option Nat)
    (accs : List (Nat × Nat)) (mk : List Nat → PeerOp) : Nat × State :=
  let (f, s) := s.fresh
  let s := s.modMe fun t => t.depart cls f
  let share := if wr then [] else sharing accs
  let (ids, s) := (packAll n (accs.filter fun x => !share.any (·.1 == x.1))).foldl (fun (r : List Nat × State) p =>
    let (id, s) := r.2.postReq p.1 p.2.1 p.2.2 (mk p.2.2)
    (r.1 ++ [id], s)) ([], s)
  let w : PeerWait :=
    { cur := s.cur, sup := s.me.sup, lanes := maskOf (accs.map (·.1)), flight := f, reqs := ids
      dest := dest.map fun d => (s.me.wb + d, n), share, acq := l.acq, rel := l.rel }
  let s := s.modMe fun t => { t with peers := w :: t.peers }
  (f, (s.retimeReqs.admitReqs.endWaits s.cur.core s.me.uid).forgetReqs)

/-- The trap of a status (Table 11-4). -/
def peerTrap : Nat → TrapCode
  | 2 => .peertimeout | 4 => .peerauth | 5 => .peerstale | _ => .peerunreach

/-- The trap of kind P of those of some lanes that failed, if any did (R241, R265, R441). -/
def State.peerFailure (s : State) (w : PeerWait) (ls : List Nat) : Option Trap :=
  match ls.filterMap fun l => (s.laneStatus w l).map fun x => (l, x) with
  | [] => none
  | (l, r, st) :: rest => some
      { code := peerTrap st, lanes := maskOf (l :: rest.map (·.1))
        addr := 0xD * 2 ^ 60 + r.node * 2 ^ 48 + r.addr +
          peerBytes r.op / max 1 r.lanes.length * ((s.laneReq w l).map (·.2)).getD 0
        d0 := r.node, d1 := if st = 5 then r.ver.toNat else st }

/-- Take the trap of an access that has failed; it is over. -/
def State.peerTrapNow (s : State) (w : PeerWait) : State :=
  let tr := s.peerFailure w (lanes (w.lanes &&& s.me.live))
  let s := (s.modMe fun t => { t with peers := t.peers.filter fun v => v.flight != w.flight }).forgetReqs
  match tr with
  | some tr => s.takeTrap tr
  | none => s

/-- The split goes on past its access (R210, R442), unless the access has failed already. -/
def State.leavePeer (s : State) (flight : Nat) : State :=
  match s.me.peers.find? fun w => w.flight == flight && w.failed with
  | some w => s.peerTrapNow w
  | none => s.retire

/-- A peer access: checks, the waits of its order, the requests (R194, R441, R442). `n` is the width of a lane's
access. -/
def State.peerAccess (s : State) (regs dst : List Reg) (cls : CClass) (l : PeerLit) (n : Nat) (rd wr : Bool)
    (dest : Option Nat) (mk : State → List Nat → PeerOp) : State :=
  s.issue false (dst ++ regs ++ l.off.regs) fun s =>
    let accs := s.laneAddrs (s.offAddr l.xa l.off)
    s.check (peerChecks accs n rd wr) fun s => s.unlocked dst fun s =>
    s.counted cls fun s => s.afterPeers l.acq l.rel fun s =>
    let (f, s) := (s.release s.cur.core l.rel).beginPeer cls l n wr dest accs (mk s)
    s.leavePeer f

/-- Registers of a peer operand of `n` bytes. -/
def peerRegs (f : VReg) (n : Nat) : Reg := pairRegs f (n == 8)

/-- PLD (R441). -/
def execPld (d : VReg) (l : PeerLit) (s : State) : Result :=
  let n := l.w.bytes
  .next (s.peerAccess [] [peerRegs d n] .lds l n true false (some d.val) fun _ ls => .read (n * ls.length))

/-- PST (R441). -/
def execPst (b : VReg) (l : PeerLit) (s : State) : Result :=
  let n := l.w.bytes
  .next (s.peerAccess [peerRegs b n] [] .sts l n false true none
    fun s ls => .write (ls.flatMap fun k => bytesOf n (s.lanePair b (n == 8) k)))

/-- PATOM (R441). -/
def execPatom (d b c : VReg) (l : PeerLit) (s : State) : Result :=
  let n := l.w.bytes
  let w64 := n == 8
  .next (s.peerAccess (peerRegs b n :: (if l.op = .cas then [peerRegs c n] else [])) [peerRegs d n] .lds l n
    true true (some d.val)
    fun s ls => .atomic l.op l.sg w64 (ls.map fun k => (s.lanePair b w64 k, s.lanePair c w64 k)))

end Sys2Proof.Machine
end

