-- ==== Sys2Proof/Machine/Fetch.lean ====
section
/-!
DEFINITION. Which split issues (R57), how its group is fetched and its word decoded (R296 to R313), and
the traps that come before an instruction executes (R237, R288, R300).
-/

namespace Sys2Proof.Machine

/-! ## Which split issues (R57) -/

/-- A core issues: its partition runs and is not clock-gated (R252, R284), and it belongs to one
(R249). -/
def State.issuing (s : State) (core : Nat) : Bool :=
  match s.partOf? core with
  | some p => (s.part p).pstat == .running && (s.part p).power != .p2
  | none => false

/-- Splits in WAIT 0 of a quadrant: slot, entry, split. None is of a strand that is about to enter a trap (R242). -/
def State.awake (s : State) (core quad : Nat) : List (Nat × Nat × Split) :=
  ((s.ctx core).strands.filter fun t => t.1 / 64 == quad && t.2.entering.isNone).flatMap fun t =>
    (t.2.validEntries.filter fun e => (t.2.split e).wait == 0).map fun e => (t.1, e, t.2.split e)

/-- The better of two by a strict order; the first of equals. -/
def best (lt : α → α → Bool) : List α → Option α
  | [] => none
  | x :: xs => some (xs.foldl (fun b y => if lt y b then y else b) x)

/-- Longest ready, then the lowest slot. -/
def older (a b : Nat × Nat × Split) : Bool :=
  a.2.2.since < b.2.2.since || (a.2.2.since == b.2.2.since && a.1 < b.1)

/-- Priority of the task of the strand in a slot. -/
def State.prioOf (s : State) (core slot : Nat) : Nat :=
  ((s.run? (s.strand core slot).run).map TaskRun.prio).getD 0

/-- The split that a quadrant issues (R57). DESIGN CHOICE, unsafe (log 70): of two promoted splits of one strand that have
been ready equally long the one in the lower split-table entry goes first. -/
def State.select (s : State) (core quad : Nat) : Option (Nat × Nat) :=
  if !s.issuing core then none
  else
    let now := s.cycle core quad
    let ready : List (Nat × Nat × Split) := (s.awake core quad).filter fun x => x.2.2.since ≤ now
    let pick : Option (Nat × Nat × Split) :=
      match best older (ready.filter fun x => x.2.2.promoted || x.2.2.since + Config.promotionCycles ≤ now) with
      | some x => some x
      | none =>
        let offers : List (Nat × Nat × Split) := ready.filter fun x => !ready.any fun y => y.1 == x.1 && y.2.2.pc < x.2.2.pc
        best (fun a b =>
          let p := s.prioOf core a.1
          let q := s.prioOf core b.1
          q < p || (p == q && older a b)) offers
    pick.map fun x => (x.1, x.2.1)

/-- The end of an issue cycle: the quadrant has had the one of its clock. -/
def State.endCycle (s : State) (core quad : Nat) : State :=
  { s with issued := s.issued ++ [4 * core + quad] }.modCore core fun k =>
    { k with cycles := Store.write 0 k.cycles quad (k.cycles.read 0 quad + 1) }

/-- An issue cycle in which nothing issues (event 0x03 of Table 12-5). -/
def State.idleCycle (s : State) (core quad : Nat) : State :=
  if s.issuing core then (s.count core 0x03 1).endCycle core quad else s

/-! ## Fetch and decode -/

/-- HARBRANGE of a fetch (R300). -/
def State.fetchTrap (s : State) (part : Nat) (pc : PC) : Option Trap :=
  trapIf (bits pc.toNat 47 30 != 0 || !(s.part part).inWindow (bits pc.toNat 29 5 * 32) 32)
    { code := .harbrange, addr := pc.toNat, d0 := 0x220 }

/-- The internal operation, by its base opcode, that an opcode names for the issuing strand; none is
unmapped (R308, R309). -/
def State.iop (s : State) (op : Nat) : Option Nat :=
  let base := if baseMapped op then some op else none
  if s.me.sup then base
  else match (s.part s.me.part).table with
    | none => base
    | some l => if l.getD op 0 = 0 then none else some (l.getD op 0 - 1)

/-- The predicate of a slot (R303). -/
def State.slotPred (s : State) (pc : PC) (hdr : Word) : Mask :=
  let sf := bits hdr.toNat 27 0 / 16 ^ (bits pc.toNat 4 2 - 1) % 16
  let q := s.p (sf % 8)
  if bits hdr.toNat 31 30 = 0 && sf.testBit 3 then ~~~q else q

/-- BRKPT of an execute comparator (R288). -/
def State.execWatch (s : State) (pc : PC) : Option Trap :=
  let p := s.part s.me.part
  if p.dbgctl.isEmpty || !p.invasive || s.mySplit.inhibit then none
  else
    ((List.range 4).find? fun k =>
      let c := (p.dbgctl.read 0 k).toNat
      let len := bits c 7 4
      c.testBit 0 && bits c 9 8 == 0 && bits c 2 1 == 0 && len ≤ 12 &&
        (p.dbgaddr.read 0 k).toNat / 2 ^ len == pc.toNat / 2 ^ len).map fun k =>
      { code := .brkpt, d0 := k + 1 }

/-- Set the cursor to an issuing split (log 4). The literal is the word after the instruction's, if its
form has one and it is not the next group's header (R298). -/
def State.aim (s : State) (core slot entry : Nat) (ws : List Word) : State :=
  let p := (s.strand core slot).split entry
  let s := { s with cur := { core, slot, entry, pc := p.pc } }
  let n := bits p.pc.toNat 4 2
  let word := ws.getD n 0
  let hdr := ws.getD 0 0
  let form := match s.iop (word.toNat / 0x400000) with
    | some op => isFormE op
    | none => false
  { s with cur := { s.cur with
      npc := nextPc p.pc form, word, lit := cond form (ws.getD (n + 1) 0) 0, hdr
      act := p.mask &&& s.slotPred p.pc hdr } }

/-- The instruction under the cursor, or the trap of its encoding: HDRVER, UNIMPL and ILLENC in order (R237). -/
def State.encodedCur (s : State) : Except Trap Instr :=
  let c := s.cur
  if 2 ≤ bits c.hdr.toNat 31 30 then .error { code := .hdrver, d0 := c.hdr.toNat }
  else
    let opcode := c.word.toNat / 0x400000
    match s.iop opcode with
    | none => .error { code := .unimpl, d0 := opcode }
    | some op =>
      if c.hdr.getLsbD 28 || (isFormE op && bits c.pc.toNat 4 2 == 7) then .error { code := .illenc }
      else match decodeAs op c.word.toNat c.lit.toNat with
        | .ok i => .ok i
        | .error _ => .error { code := .illenc }

/-- The instruction under the cursor, or the trap that comes before it executes: a trap due from a gang, then an execute
comparator, then the encoding (R237, R288). An instruction that can be decoded and an execute comparator matches is
given back: a comparator of a lower number may match its accesses (`State.compared`). -/
def State.decodeCur (s : State) : Except Trap Instr :=
  match s.me.due, s.encodedCur with
  | some (.gangExit k), _ => .error { code := .gangexit, d0 := k }
  | some (.mismatch w), _ => .error { code := .gangmismatch, d0 := s.me.gang.toNat, d1 := w.toNat }
  | none, .error t => .error ((s.execWatch s.cur.pc).getD t)
  | none, .ok i => .ok i

/-- Take a trap before the instruction executes; a trap that was due is due no more. -/
def State.trapEarly (s : State) (t : Trap) : State :=
  ((s.modMe fun m => { m with due := none }).takeTrap t).countIssue (s.mySplit.stall != .none)

/-- The lowest-numbered comparator that matches an instruction is reported (R288): `o` is what the instruction does from
`s` with its own accesses compared. -/
def State.compared (s : State) (o : Host.Outcome State Fault Refusal) : Host.Outcome State Fault Refusal :=
  match s.execWatch s.cur.pc, o with
  | none, o => o
  | some tr, .next t => .next (if t.cur.fired != 0 && t.cur.fired < tr.d0 then t else s.trapEarly tr)
  | some tr, _ => .next (s.trapEarly tr)

/-- A peer access that has failed since the strand's splits went on, with lanes of a split: its trap of kind P is due (R241,
R266). -/
def Strand.latePeer? (t : Strand) (entry : Nat) : Option PeerWait :=
  t.peers.find? fun w => w.failed && w.sup == t.sup && w.lanes &&& (t.split entry).mask != 0

/-- Take the trap of such an access at the split: the frame names the access, and NPC is where the split stands. DEDUCED,
unsafe (log 20). -/
def State.takeLatePeer (s : State) (core slot entry : Nat) (w : PeerWait) : State :=
  let p := (s.strand core slot).split entry
  { s with cur := { w.cur with core, slot, entry, npc := p.pc, act := p.mask, done := false, fired := 0 } }.peerTrapNow w

/-- Open the issue of a split: fetch its group and decode, with the cursor set. Without an instruction
the trap has been taken. -/
def State.openIssue (s : State) (core slot entry : Nat) : Option Instr × State :=
  let t := s.strand core slot
  let pc := (t.split entry).pc
  match t.latePeer? entry with
  | some w => (none, s.takeLatePeer core slot entry w)
  | none =>
  match s.fetchTrap t.part pc with
  | some tr => (none, ((s.aim core slot entry []).takeTrap tr).countIssue ((t.split entry).stall != .none))
  | none =>
    let (ws, s) := s.fetchGroup core (bits pc.toNat 29 5)
    let s := s.aim core slot entry ws
    match s.decodeCur with
    | .error tr => (none, s.trapEarly tr)
    | .ok i => (some i, s)

/-! ## What happens next -/

/-- Quadrants that hold a split in WAIT 0 and issue, in order: 4 × core + quadrant. -/
def State.busyQuads (s : State) : List Nat :=
  (s.cores.filter fun e => s.issuing e.1).flatMap fun e =>
    ((List.range 4).filter fun q => !(s.awake e.1 q).isEmpty).map fun q => 4 * e.1 + q

end Sys2Proof.Machine
end

