-- ==== Sys2Proof/Machine/TaskOps.lean ====
section
/-!
DEFINITION. The task instructions: LAUNCH, TASKARM, TASKSIG, TASKRETRY, TASKABORT (R220 to R226, R234 to R236,
R420, R469 to R472).
-/

namespace Sys2Proof.Machine

/-- A task instruction on a structure of `n` bytes, aligned to them: the checks of its address, then the
release at PKG scope (R221, R472), then the body. -/
def State.taskOp (s : State) (priv : Bool) (x : XReg) (n : Nat) (body : State → Nat → State) : State :=
  s.issue priv [] fun s =>
    let a := s.xn x.val
    s.check (s.harbourFaults [(0, a)] n n true true false false) fun s =>
    s.passing .sts fun s => body (s.release s.cur.core true) (harbourOf a)

/-! ## LAUNCH (R222) -/

/-- A graph descriptor is refused (R222). -/
def State.badGraph (s : State) (part g : Nat) : Bool :=
  let tcbs := s.homeLoad g 8
  let ntcb := s.homeLoad (g + 0x08) 4
  let nroot := s.homeLoad (g + 0x0C) 4
  let roots := s.homeLoad (g + 0x10) 8
  ntcb == 0 || 65536 < ntcb || ntcb < nroot || !s.goodArray part tcbs (256 * ntcb) 256 ||
    (nroot != 0 && !s.goodArray part roots (4 * nroot) 4) ||
    (List.range nroot).any fun k => ntcb ≤ s.homeLoad (harbourOf roots + 4 * k) 4

/-- A task becomes ARMED at LAUNCH (R222). -/
def State.armTask (s : State) (part tcb : Nat) : State :=
  ((s.setPending tcb (s.homeLoad (tcb + 0x0C) 2)).setTask part tcb tArmed).clearFault tcb

/-- Start a graph for a partition (R222, R301). -/
def State.startGraph (s : State) (part g : Nat) : State :=
  let tcbs := harbourOf (s.homeLoad g 8)
  let ntcb := s.homeLoad (g + 0x08) 4
  let nroot := s.homeLoad (g + 0x0C) 4
  let roots := harbourOf (s.homeLoad (g + 0x10) 8)
  let first := ((List.range nroot).map fun k => s.homeLoad (roots + 4 * k) 4).eraseDups
  let graph : Graph := { addr := g, part, tcbs, ntcb }
  let s := (s.homeStore (g + 0x1C) 4 1).homeStore (g + 0x18) 4 ntcb
  let s := { s with graphs := (s.graphs.filter fun (q : Graph) => q.addr != g) ++ [graph] }
  let s := (List.range ntcb).foldl (fun s i => s.armTask part (tcbs + 256 * i)) s
  let s := s.dropIcaches part
  first.foldl (fun s i => if s.pending (tcbs + 256 * i) = 0 then s.makeReady graph i else s) s

/-- LAUNCH (R222, R290, R420). -/
def execLaunch (p : PReg) (x : XReg) (s : State) : Result :=
  .next (s.taskOp false x 64 fun s g =>
    s.check (s.badValue (s.badGraph s.me.part g)) fun s =>
    if (s.gstate g).testBit 0 then (s.putP p.val 0xFFFFFFFF#32).retire
    else (((s.startGraph s.me.part g).trace s.me.part 6 s.cur.core 0 (generic g) 0).putP p.val 0).retire)

/-! ## Counts (R225, R226) -/

/-- ILLSTATE of a task's state. -/
def State.badTask (s : State) (c : Bool) : Option Trap := trapIf c (s.illstate 2)

/-- A task counts events: STATE at the start of the clock was IDLE or ARMED (R225, R226, R471). -/
def State.counting (s : State) (tcb : Nat) : Bool := s.startState tcb == tIdle || s.startState tcb == tArmed

/-- TASKARM (R225). -/
def execTaskarm (a b : XReg) (s : State) : Result :=
  .next (s.taskOp false a 256 fun s tcb =>
    let n := s.xn b.val
    s.check (s.badTask !(s.counting tcb)) fun s =>
    s.check (trapIf (0xFFFF < n || 0xFFFF < s.pending tcb + n)
      { code := .taskovf, addr := generic tcb, d0 := s.pending tcb, d1 := n }) fun s =>
    (s.setPending tcb (s.pending tcb + n)).retire)

/-- TASKSIG (R225): an ARMED task of a running graph whose count is 0 at the end of the clock becomes READY then (R226). -/
def execTasksig (a b : XReg) (s : State) : Result :=
  .next (s.taskOp false a 256 fun s tcb =>
    s.check (s.badTask !(s.counting tcb)) fun s =>
    (s.countDown tcb (s.xn b.val)).retire)

/-! ## Retry and abort (R235, R236) -/

/-- The run of a TCB that has not been aborted. -/
def State.runOf (s : State) (tcb : Nat) : Option TaskRun := (s.runs.filter fun r => r.tcb == tcb && !r.aborted).getLast?

/-- The graph of the issuing partition that has a TCB (R470). -/
def State.ownGraph (s : State) (tcb : Nat) : Option (Graph × Nat) :=
  match s.graphHolding tcb with
  | some (g, i) => if g.part = s.me.part then some (g, i) else none
  | none => none

/-- Clear GSTATE.FAULT when no task of a graph is FAULTED (Table 9-6). -/
def State.settleFault (s : State) (g : Graph) : State :=
  if (List.range g.ntcb).any fun i => s.tcbState (g.tcbs + 256 * i) == tFaulted then s
  else s.homeStore (g.addr + 0x1C) 4 (s.gstate g.addr % 2)

/-- A run is over: it is aborted, and its resources return when its commands have run (R234, R236). -/
def State.dismiss (s : State) (id : Nat) : State :=
  (s.modRun id fun r => { r with aborted := true, reserved := [] }).reap id

/-- TASKRETRY (R235, R301). -/
def execTaskretry (a : XReg) (s : State) : Result :=
  .next (s.taskOp true a 256 fun s tcb =>
    match s.ownGraph tcb with
    | none => s.takeTrap (s.illstate 2)
    | some (g, i) =>
      s.check (s.badTask (s.tcbState tcb != tFaulted)) fun s =>
      let s := match s.runOf tcb with
        | some r => s.dismiss r.id
        | none => s
      (((((s.dropIcaches g.part).clearFault tcb).makeReady g i)).settleFault g).retire)

/-- Successors of a task, by its snapshot if it has one (R217, R236). -/
def State.successors (s : State) (g : Graph) (i : Nat) : List Nat :=
  let tcb := g.tcbs + 256 * i
  let (n, a) := match s.runOf tcb with
    | some r => (r.field 0x24 2, r.field 0x30 8)
    | none => (s.homeLoad (tcb + 0x24) 2, s.homeLoad (tcb + 0x30) 8)
  ((List.range n).map fun k => s.homeLoad (harbourOf a + 4 * k) 4).filter (· < g.ntcb)

/-- The tasks reachable from some tasks, themselves among them. The first argument bounds the search. -/
def State.reachable (s : State) (g : Graph) : Nat → List Nat → List Nat → List Nat
  | 0, done, _ => done
  | _, done, [] => done
  | n + 1, done, i :: rest =>
    if done.contains i then s.reachable g n done rest
    else s.reachable g n (done ++ [i]) (s.successors g i ++ rest)

/-- End a task's run and make the task ABORTED (R236, R471). -/
def State.abortTask (s : State) (g : Graph) (i : Nat) : State :=
  let tcb := g.tcbs + 256 * i
  let s := match s.runOf tcb with
    | some r =>
      let s := s.modRun r.id fun r => { r with aborted := true, reserved := [] }
      (if r.phase = RunPhase.faulted then s else s.stopRun r).reap r.id
    | none => s
  s.setTask g.part tcb tAborted

/-- Commands and steps that a search from one task may take. -/
def Graph.searchBound (g : Graph) : Nat := g.ntcb * 65536 + g.ntcb + 2

/-- TASKABORT (R236). -/
def execTaskabort (a : XReg) (s : State) : Result :=
  .next (s.taskOp true a 256 fun s tcb =>
    match s.ownGraph tcb with
    | none => s.takeTrap (s.illstate 2)
    | some (g, i) =>
      let st (s : State) (k : Nat) : Nat := s.tcbState (g.tcbs + 256 * k)
      s.check (s.badTask (st s i == tDone || st s i == tAborted || st s i == tIdle)) fun s =>
      let all := (s.reachable g g.searchBound [] [i]).filter fun k => st s k != tDone && st s k != tAborted
      let s := all.foldl (fun s k => s.abortTask g k) s
      ((s.settleFault g).lowerLive g.addr all.length).retire)

end Sys2Proof.Machine
end

