-- ==== Sys2Proof/Machine/Devices.lean ====
section
/-!
DEFINITION. Device steps of cores, the dispatcher, the matrix engine, the command engines and the ports: what
each does when its condition holds; otherwise it changes nothing (log 5).
-/

namespace Sys2Proof.Machine

/-- Act when a condition holds. -/
def State.when (s : State) (c : Bool) (f : State → State) : State := if c then f s else s

/-! ## Splits (R23, R57) -/

/-- A core's partition runs (R252, R284). -/
def State.runsCore (s : State) (core : Nat) : Bool :=
  match s.partOf? core with
  | some p => (s.part p).pstat == PStat.running && (s.part p).power != Power.p2
  | none => false

/-- SPLIT_PROMOTION (R57). -/
def execSplitPromotion (w : SplitRef) (s : State) : Result :=
  let c := w.core.val
  let k := w.slot.val
  let p := (s.strand c k).split w.entry.val
  .next (s.when (p.valid && p.wait == 0 && !p.promoted &&
      p.since + Config.promotionCycles ≤ s.cycle c (k / 64)) fun s =>
    s.modStrand c k fun t => t.modSplit w.entry.val fun p => { p with promoted := true })

/-- The guard slot that a waiting MMX.SPEC names. -/
def Cur.specGuard (c : Cur) : Option Nat :=
  match decodeAs 0x0F3 c.word.toNat 0 with
  | .ok (.mmxSpec _ g _ _) => some g.val
  | _ => none

/-- Shadows that the latch in which a strand waits needs (R147). -/
def Context.shadowNeed (x : Context) (slot : Nat) : Nat :=
  match x.latches.find? fun l => l.waiting.any (·.slot == slot) with
  | none => 0
  | some l => (l.waiting.filter fun c => (c.specGuard.map (x.guardAt c.slot)) == some .unresolved).length

/-- What a split in WAIT 2 waits for has come about (R23). -/
def State.stallMet (s : State) (core slot : Nat) (t : Strand) : Stall → Bool
  | .none => true
  | .barrier off phase => (s.barrier core off).phase != phase
  | .groupBarrier c k phase => ((s.gbar? c k).map fun g => g.phase != phase).getD true
  | .counter c n => t.counter c ≤ n
  | .vregs lo n => !(List.range n).any fun k => (s.ctx core).lockedV t.uid (lo + k)
  | .acc a => !(s.ctx core).lockedA t.uid a
  | .tile n => !(s.ctx core).lockedT t.wg n
  | .scales d => (s.ctx core).canAlloc (s.wgOf core t) (t.sregs.at? d) != .wait
  | .matrix => !(s.ctx core).queue.any fun o => !o.isStopped && o.members.any fun m => m.uid == t.uid
  | .mma => !(s.ctx core).mmaBusy t.uid
  | .mmx => !(s.ctx core).mmxBusy t.uid
  | .queue => (s.ctx core).queue.length < Config.matrixQueue
  | .latch => !(s.ctx core).latches.any fun l => l.waiting.any (·.slot == slot)
  | .shadow => (s.ctx core).shadowNeed slot ≤ (s.ctx core).shadowsFree.length
  | .allowance k die run n limit scap high => s.oldest die k && s.fits die run t.uid n limit scap high
  | .peer reqs => s.allClosed reqs
  | .promotion k => s.promotions.all fun p => p.ticket != some k || p.acked
  | .syncs => true

/-- A split waits, and may go on. -/
def State.stallEnds (s : State) (c k e : Nat) : Bool :=
  match s.strand? c k with
  | none => false
  | some t => (t.split e).valid && (t.split e).wait == 2 && s.runsCore c && s.stallMet c k t (t.split e).stall

/-- STALL_END (R23): the split is ready; its instruction reissues. DESIGN CHOICE, unsafe (log 54): it reads its sources and
makes its checks again, an allocation that has waited (R118) among them. -/
def execStallEnd (w : SplitRef) (s : State) : Result :=
  .next (s.when (s.stallEnds w.core.val w.slot.val w.entry.val) fun s => s.wake w.core.val w.slot.val w.entry.val)

/-! ## Placement (R36 to R40) -/

/-- The dispatcher works for a partition: a RETIRED package runs none, nor does one in P3 (R284, R285). -/
def State.open? (s : State) : Bool := s.mgmt.lifecycle != .retired && !s.mgmt.p3

/-- Place what comes next in a partition, if it is a workgroup or a cohort as asked. -/
def State.placeNext (s : State) (part : Nat) (cohort : Bool) : State :=
  let s := s.reserveLate part
  match s.nextPlacement part with
  | some (r, cores) => s.when (s.open? && (r.cohort != 0) == cohort) fun s => s.place r cores
  | none => s

/-- WORKGROUP_PLACEMENT (R36). -/
def execWorkgroupPlacement (part : Fin 16) (s : State) : Result := .next (s.placeNext part.val false)
/-- COHORT_PLACEMENT (R40). -/
def execCohortPlacement (part : Fin 16) (s : State) : Result := .next (s.placeNext part.val true)

/-- COHORT_WAIT_TIMEOUT (R40): the first candidate rectangle is kept for the cohort. -/
def execCohortWaitTimeout (run : Nat) (s : State) : Result :=
  .next (match s.run? run with
    | none => s
    | some r => s.when (s.cohortLate r) fun s => s.reserveLate r.part)

/-! ## The matrix engine (R138, R139, R145) -/

/-- How a core's partition stands, for its engine: none when it has stopped. -/
def State.engineRuns (s : State) (core : Nat) : Option Bool :=
  match s.partOf? core with
  | none => none
  | some p => match (s.part p).pstat, (s.part p).power with
    | _, .p2 => none
    | .running, _ => some false
    | .halting, _ => some true
    | _, _ => none

/-- The operation whose next step may start on a core. -/
def State.nextOp (s : State) (core : Nat) (halting : Bool) : Option MatOp :=
  pickOp (fun off => (s.barrier core off).phase) halting [] (s.ctx core).queue

/-- MATRIX_STEP (R138). -/
def execMatrixStep (core : Fin 512) (s : State) : Result :=
  .next (match s.engineRuns core.val with
    | none => s
    | some halting => match s.nextOp core.val halting with
      | none => s
      | some o => s.runRound core.val o)

/-- The oldest operation that can complete. -/
def Context.completeOp (x : Context) : Option MatOp := x.queue.find? MatOp.complete

/-- MATRIX_COMPLETION (R139). -/
def execMatrixCompletion (core : Fin 512) (s : State) : Result :=
  .next (match s.engineRuns core.val, (s.ctx core.val).completeOp with
    | some _, some o =>
      ((s.modCtx core.val fun x => (x.endOp o).giveShadow).traceMmx core.val o 2).reap o.run
    | _, _ => s)

/-- MATRIX_ENGINE_STOP (R145). -/
def execMatrixEngineStop (core : Fin 512) (s : State) : Result :=
  .next (s.when (s.engineRuns core.val == some true && (s.nextOp core.val true).isNone) fun s =>
    let ops := (s.ctx core.val).queue.filter fun o => o.mmx && !o.finished && !o.isStopped
    let s := ops.foldl (fun s o => s.traceMmx core.val o 1) s
    s.modCtx core.val Context.stopMmx)

/-! ## Commands (R173 to R176, R183, R186, R375, R448) -/

/-- Let a command's queue move on, and return what its task no longer needs. -/
def State.afterCmd (s : State) (c : Cmd) : State := (s.advance c.uid c.kind.engine).reap c.run

/-- The command that a die's window manager may take next (R173). -/
def State.admissible (s : State) (die : Nat) : Option Cmd :=
  s.cmds.find? fun c => c.phase == .admission && !c.frozen && dieOf c.core == die && s.oldest die c.id &&
    s.fits die c.run c.uid c.bytes c.limit c.scap c.high

/-- COMMAND_ADMISSION (R173). -/
def execCommandAdmission (die : Fin 8) (s : State) : Result :=
  .next (match s.admissible die.val with
    | none => s
    | some c => (s.admitCmd c).afterCmd c)

/-- The slot of a command is released (R175). -/
def State.slotReleased (s : State) (c : Cmd) : Bool :=
  let t := c.tensor
  c.phase == .release && !c.frozen && (s.barrier c.core (t.rbar + 16 * t.slot)).phase == t.rph

/-- FETCH_RELEASE_PHASE (R175). -/
def execFetchReleasePhase (cmd : Nat) (s : State) : Result :=
  .next (match s.cmd? cmd with
    | none => s
    | some c => s.when (s.slotReleased c) fun s => s.modCmd cmd (·.dispatch (s.sendTime c.core)))

/-- Act on a unit of a command that has been dispatched and has not landed. -/
def State.onUnit (s : State) (cmd unit : Nat) (f : State → Cmd → CmdUnit → State) : State :=
  match s.cmd? cmd with
  | none => s
  | some c => match c.unit? unit with
    | none => s
    | some x => s.when (c.pending unit) fun s => (f s c x).reap c.run

/-- The last moment of a unit: FETCHTO.TIMEOUT after its dispatch (R186). -/
def State.deadline (s : State) (c : Cmd) (x : CmdUnit) : Nat :=
  x.sent.getD 0 + (s.part c.part).fetchto.toNat * Config.microsecond

/-- A unit of a command may complete: a port of its die is up, and its time is not over (R185, R186). -/
def State.inTime (s : State) (c : Cmd) (x : CmdUnit) : Bool := s.farOpen c.core && s.time ≤ s.deadline c x

/-- TRANSFER_UNIT_LANDED (R176). -/
def execTransferUnitLanded (cmd unit : Nat) (s : State) : Result :=
  .next (s.onUnit cmd unit fun s c x => s.when (c.kind == .tfetch && s.inTime c x) fun s => s.landUnit c unit x)

/-- A partition is halted: acknowledgements for it are held (R254). -/
def State.holding (s : State) (part : Nat) : Bool :=
  (s.part part).pstat == PStat.halted || (s.part part).pstat == PStat.parked

/-- Hold an acknowledgement until resume; the unit is not pending any more (R254). -/
def State.holdAck (s : State) (c : Cmd) (unit : Nat) (dropped : Bool) : State :=
  (s.modCmd c.id fun c => { c with units := c.units.modify unit fun (x : CmdUnit) => { x with acked := true } }).modPart c.part
    fun p => { p with held := p.held ++ [.ack c.id unit dropped] }

/-- UNIT_ACKNOWLEDGED (R183, R254): the bytes are in DRAM, and land on the barrier now or at resume. -/
def execUnitAcknowledged (cmd unit : Nat) (s : State) : Result :=
  .next (s.onUnit cmd unit fun s c x =>
    s.when ((c.kind == .tstore || c.kind.module) && s.inTime c x) fun s =>
      let s := s.writeUnit c x
      if s.holding c.part then s.holdAck c unit false else s.ackUnit c unit false)

/-- An event of a port of the unit's die has lasted 100 µs, and may hold the unit: the unit was sent before it began
(R185, R186). Which port a unit takes is left open (log 40). -/
def State.heldUnit (s : State) (c : Cmd) (x : CmdUnit) : Bool :=
  (List.range 8).any fun k => (((s.ports.read {} (8 * dieOf c.core + k)).down).map fun t =>
    decide (t + 100 * Config.microsecond ≤ s.time) && decide (x.sent.getD 0 ≤ t)).getD false

/-- A unit may be dropped for a cause (R186). -/
def State.mayDrop (s : State) (c : Cmd) (x : CmdUnit) : DropCause → Bool
  | .portEvent => s.heldUnit c x
  | .timeout => s.deadline c x ≤ s.time

/-- Its code in event 0x02 (Table 10-5). -/
def dropCode : DropCause → Nat
  | .portEvent => 1 | .timeout => 2

/-- TRANSFER_UNIT_DROPPED (R186). -/
def execTransferUnitDropped (cmd unit : Nat) (cause : DropCause) (s : State) : Result :=
  .next (s.onUnit cmd unit fun s c x =>
    s.when ((c.kind.fetch || c.kind.module) && s.mayDrop c x cause) fun s =>
      if s.holding c.part then (s.noteDrop c x (dropCode cause)).holdAck c unit true
      else s.dropUnit c unit x (dropCode cause))

/-- COPY_EXECUTION (R375): the next unit. -/
def execCopyExecution (cmd : Nat) (s : State) : Result :=
  .next (match s.cmd? cmd with
    | none => s
    | some c => s.when (c.kind == .copy && c.phase == .active && !c.frozen) fun s => (s.copyUnit c).reap c.run)

/-- PUTS_DELIVERY (R448). -/
def execPutsDelivery (cmd : Nat) (s : State) : Result :=
  .next (match s.cmd? cmd with
    | none => s
    | some c => s.when (c.kind == .puts && c.phase == .active && !c.frozen) fun s => (s.putsAll c).reap c.run)

/-! ## Optical ports (R19, R185) -/

/-- A port. -/
def State.port (s : State) (n : Nat) : Port := s.ports.read {} n
/-- Change a port. -/
def State.modPort (s : State) (n : Nat) (f : Port → Port) : State := { s with ports := s.ports.put n (f (s.port n)) }

/-- Partitions with far transfers of a port's die under way: an event of the port affects these (R11, R247). -/
def State.farParts (s : State) (port : Nat) : List Nat :=
  (s.cmds.filter fun c => (c.kind.fetch || c.kind.module) && dieOf c.core == port / 8 &&
    (List.range c.units.length).any c.pending).map (·.part)

/-- Lit wavelengths that a port has left. -/
def Port.left (p : Port) : Nat := ((List.range 16).filter fun k => !p.lost.getLsbD k).length

/-- WAVELENGTH_FAILURE (R19): the group's spare takes the wavelength, or it is lost. -/
def execWavelengthFailure (port : Fin 64) (lam : Fin 16) (s : State) : Result :=
  let p := s.port port.val
  let k := lam.val / 4
  .next (if p.lost.getLsbD lam.val then s
    else match p.spares.at? k with
      | none =>
        (s.modPort port.val fun p => { p with spares := p.spares.put k lam.val, warming := p.warming ++ [k] }).postAll
          (s.farParts port.val) 0x04 port.val lam.val k
      | some _ =>
        let q : Port := { p with lost := p.lost ||| (1#16 <<< lam.val) }
        (s.modPort port.val fun _ => q).postAll (s.farParts port.val) 0x05 port.val lam.val q.left)

/-- SPARE_WARMED (R185). -/
def execSpareWarmed (port : Fin 64) (spare : Fin 4) (s : State) : Result :=
  .next (s.modPort port.val fun p => { p with warming := p.warming.filter (· != spare.val) })

/-- LASER_AGEING (R185): the drive is raised; nothing is lost. -/
def execLaserAgeing (port : Fin 64) (lam : Fin 16) (s : State) : Result :=
  .next (s.modPort port.val fun p => { p with aged := p.aged ||| (1#16 <<< lam.val) })

/-- LINK_RETRAINING (R185). -/
def execLinkRetraining (port : Fin 64) (s : State) : Result :=
  .next (s.modPort port.val fun p => { p with down := p.down <|> some s.time })

/-- The rate of sr.clock, MHz: the clock of P0, or 1.0 GHz when partitions run and all of them are in P1 (R16). DEDUCED,
unsafe (log 39). -/
def State.rate (s : State) : Nat :=
  let runs (p : Power) : Bool := s.parts.any fun e => e.2.halves != 0 && e.2.power == p
  if runs .p1 && !runs .p0 then 1000 else s.mgmt.mhz

/-- Core clocks in a time span. -/
def State.clocksIn (s : State) (ps : Nat) : Nat := ps * s.rate / Config.microsecond

/-- PORT_RECOVERY (R185), with event 0x06: what waited for a port is sent. -/
def execPortRecovery (port : Fin 64) (s : State) : Result :=
  .next (match (s.port port.val).down with
    | none => s
    | some t =>
      ((s.modPort port.val fun p => { p with down := none }).postAll (s.farParts port.val) 0x06 port.val
        (s.clocksIn (s.time - t)) 0).sendWaiting (port.val / 8))

/-! ## Release notices and promotions (R202 to R204) -/

/-- RELEASE_NOTICE (R202). -/
def execReleaseNotice (core slice : Fin 512) (s : State) : Result := .next (s.flushNotices core.val slice.val)

/-- PROMOTION_REQUEST (R203): the core writes back its L1, for the oldest request that it has. -/
def execPromotionRequest (core : Fin 512) (s : State) : Result :=
  .next (match s.promotions.find? fun p => p.core == core.val && !p.wrote with
    | none => s
    | some q =>
      let s := (s.count core.val 0x0F 1).writeBackAll core.val
      { s with promotions := s.promotions.map fun (p : Promotion) => if p.id = q.id then { p with wrote := true } else p })

/-- PROMOTION_ACKNOWLEDGEMENT (R202, R203): an acquire may be performed; a retired record makes room for the
notice that needed it. An acquire that no split waits for is forgotten. -/
def execPromotionAcknowledgement (id : Nat) (s : State) : Result :=
  .next (match s.promotions.find? (·.id == id) with
    | none => s
    | some q =>
      s.when (q.wrote && !q.acked) fun s =>
        match q.notice with
        | some n =>
          let rs := (s.recordsOf q.slice).filter (·.line != q.line)
          let s := { s with
            promotions := s.promotions.filter (·.id != id)
            records := s.records.put q.slice rs }
          s.record n
        | none =>
          let waited := s.cores.any fun e => e.2.ctx.strands.any fun t => t.2.splits.any fun p =>
            p.2.stall == (match q.ticket with | some k => Stall.promotion k | none => Stall.none)
          if waited then
            { s with promotions := s.promotions.map fun (p : Promotion) => if p.id = id then { p with acked := true } else p }
          else { s with promotions := s.promotions.filter (·.id != id) })

/-! ## The edge (R219, R229, R230, R337) -/

/-- A run in its edge, at a stage, that goes on. -/
def TaskRun.atStage (r : TaskRun) (n : Nat) : Bool := r.phase == .edge && r.stage == n && !r.preempted && !r.aborted

/-- TASK_EDGE_BEGIN (R219). -/
def execTaskEdgeBegin (run : Nat) (s : State) : Result :=
  .next (match s.run? run with
    | none => s
    | some r => s.when (s.canEdge r) fun s => s.beginEdge r)

/-- EDGE_LINE_WRITEBACK (R229). -/
def execEdgeLineWriteback (run : Nat) (s : State) : Result :=
  .next (match s.run? run with
    | none => s
    | some r => s.when (r.atStage 1 && r.region < 8 && (r.regionAt r.region).isHarbour) fun s => s.edgeLine r)

/-- DRAIN_REPORT (R229). -/
def execDrainReport (run : Nat) (s : State) : Result :=
  .next (match s.run? run with
    | none => s
    | some r => s.when (r.atStage 1 && r.region < 8 && !(r.regionAt r.region).isHarbour) fun s => s.nextRegion run)

/-- EDGE_DECREMENT (R337): one batch in a clock. -/
def execEdgeDecrement (run : Nat) (s : State) : Result :=
  .next (match s.run? run with
    | none => s
    | some r => s.when (r.atStage 2 && r.stepped != some s.clock) fun s => s.edgeDecrement r)

/-! ## Clocks (R289) -/

/-- A strand waits in BARWAIT. -/
def Strand.inBarwait (t : Strand) : Bool := t.splits.any fun p => p.2.valid && p.2.wait == 2 &&
  (match p.2.stall with | .barrier _ _ => true | .groupBarrier _ _ _ => true | _ => false)
/-- A strand waits for an allowance. -/
def Strand.inAllowance (t : Strand) : Bool := t.splits.any fun p => p.2.valid && p.2.wait == 2 && p.2.stall.ticket?.isSome

/-- An MMX round of a core waits on a ring barrier. -/
def State.ringWait (s : State) (core : Nat) : Bool :=
  (s.ctx core).queue.any fun o => o.mmx && o.runnable && !o.inputsReady fun off => (s.barrier core off).phase

/-- The strands of a core of which a fetch waits on an allowance: a split does, or a command in the window manager. -/
def State.fetchWaiters (s : State) (core : Nat) : List Nat :=
  let splits : List Nat := ((s.ctx core).strands.filter fun t => t.2.inAllowance).map fun t => t.2.uid
  let cmds : List Nat := (s.cmds.filter fun c => c.core == core && c.phase == .admission && !c.frozen).map (·.uid)
  (splits ++ cmds).eraseDups

/-- Issue cycles of `n` clocks in which a quadrant has no split ready; the one of the present clock has been counted as it
passed, if it has. A core that does not issue has no issue cycles. -/
def State.idleCycles (s : State) (core quad n : Nat) : Nat :=
  if !s.issuing core || (s.select core quad).isSome then 0
  else if s.issued.contains (4 * core + quad) then n - 1
  else n

/-- Count `n` clocks of a core: events 0x01, 0x03, 0x07, 0x0B and 0x12. -/
def State.countClocks (s : State) (core n : Nat) : State :=
  let ts := (s.ctx core).strands
  let idle := (List.range 4).foldl (fun k q => k + s.idleCycles core q n) 0
  let waits := n * (s.fetchWaiters core).length
  let s := ((s.count core 0x01 n).count core 0x03 idle).count core 0x07 (if s.ringWait core then n else 0)
  (s.count core 0x0B waits).count core 0x12 (n * (ts.filter fun t => t.2.inBarwait).length)

/-- Clocks of a partition while `n` clocks of sr.clock pass, from one time to another: 1.0 GHz in P1, none in P2 (R16,
R284). -/
def Partition.span (p : Partition) (n t0 t1 : Nat) : Nat :=
  match p.power with
  | .p0 => n
  | .p1 => t1 / 1000 - t0 / 1000
  | .p2 => 0

/-- The cores of partitions whose counters are in use, each with its clocks while `n` clocks of sr.clock pass. -/
def State.countedCores (s : State) (n t : Nat) : List (Nat × Nat) :=
  (s.parts.filter fun p => !p.2.pmsel.isEmpty).flatMap fun p => p.2.cores.map fun c => (c, p.2.span n s.time t)

/-- Let `n` clocks of sr.clock pass (R16, R289). -/
def State.passClocks (s : State) (n : Nat) : State :=
  let t := s.time + n * Config.microsecond / s.rate
  let s := if n = 0 then s else s.endBatch
  let s := s.retimeReqs.retimeChunks
  let s := (s.countedCores n t).foldl (fun s (c : Nat × Nat) => s.countClocks c.1 c.2) s
  let ran (p : Partition) : Partition := { p with clocks := p.clocks + p.span n s.time t }
  { s with
    clock := s.clock + n
    time := t
    parts := s.parts.map fun (e : Nat × Partition) => (e.1, ran e.2)
    issued := if n = 0 then s.issued else [] }

/-! ## Uncorrectable words (R151, R187) -/

/-- Change the operations in a core's matrix queue. -/
def State.modOps (s : State) (core : Nat) (f : MatOp → MatOp) : State :=
  s.modCtx core fun x => { x with queue := x.queue.map f }

/-- Change the members of an operation. -/
def MatOp.modMembers (o : MatOp) (f : MatMember → MatMember) : MatOp := { o with members := o.members.map f }

/-- A word of a tile at a byte is zero. -/
def Tile.zeroAt (t : Tile) (i : Nat) : Tile := { t with data := Mem.putBytes t.data (i / 4 * 4) (bytesOf 4 0) }

/-- A word of scales is zero: two factors. -/
def zeroScales (l : List (BitVec 16)) (i : Nat) : List (BitVec 16) := (l.set (2 * i) 0).set (2 * i + 1) 0

/-- A queued MMA reads tile `n` of a workgroup as it is now, with a word that is zero (R151). -/
def MatOp.zeroTile (o : MatOp) (wg n i : Nat) : MatOp :=
  if o.wg = wg then { o with btile := o.btile.map fun b => if b.1 = n then (n, b.2.zeroAt i) else b } else o

/-- A queued MMA reads scale entry `e` with a word that is zero (R151). -/
def MatOp.zeroEntry (o : MatOp) (e i : Nat) : MatOp :=
  { o with sb := if o.bentry = some e then zeroScales o.sb i else o.sb }.modMembers fun m =>
    if m.sentry = some e then { m with sa := zeroScales m.sa i } else m

/-- A queued MMA reads a word of a strand's vector registers as zero (R151): `i` is 32 × register + lane. -/
def MatOp.zeroA (o : MatOp) (uid i : Nat) : MatOp :=
  o.modMembers fun m =>
    if m.uid = uid && 32 * m.abase ≤ i && i < 32 * (m.abase + 16) then { m with a := Store.write 0 m.a (i - 32 * m.abase) 0 } else m

/-- Zero the word of a storage of a core at an address or index (log 5), also as the queued MMAs hold it that have read it at
issue. -/
def State.zeroWord (s : State) (storage core addr : Nat) : State :=
  match storage with
  | 0 => s.modShelf core fun m => m.putBytes (addr % 2 ^ 20 / 4 * 4) (bytesOf 4 0)
  | 1 => (s.flushLine core (addr % 2 ^ 30 / 128)).homeStore (addr % 2 ^ 30 / 4 * 4) 4 0
  | 2 =>
    let n := addr / 2 ^ 11 % 16
    let i := addr % 2 ^ 11
    match (s.ctx core).wgs[addr / 2 ^ 15]? with
    | none => s
    | some w =>
      (s.modOps core fun o => o.zeroTile w.id n i).modWg core w.id fun w =>
        { w with tiles := Store.modify w.tiles n fun t => t.zeroAt i }
  | 3 => s.modStrand core (addr / 2 ^ 14) fun t => { t with accs := Store.write 0 t.accs (addr % 2 ^ 14) 0 }
  | 4 =>
    let e := addr / 32
    let i := addr % 32
    (s.modOps core fun o => o.zeroEntry e i).modCtx core fun x =>
      x.setEntry e { x.entry e with data := zeroScales (x.entry e).data i }
  | 5 =>
    let i := addr % 2 ^ 14
    let s := match s.strand? core (addr / 2 ^ 14) with
      | some t => s.modOps core fun o => o.zeroA t.uid i
      | none => s
    s.modStrand core (addr / 2 ^ 14) fun t => { t with vregs := Store.write 0 t.vregs i 0 }
  | 6 => s.modCore core fun k => { k with icache := k.icache.del (addr % 2 ^ 30 / 32) }
  | 7 => s.modStrand core (addr / 128) fun t =>
      let v := t.x (addr / 2 % 64)
      t.setX (addr / 2 % 64) (if addr % 2 = 0 then v &&& 0xFFFFFFFF00000000#64 else v &&& 0xFFFFFFFF#64)
  | 8 => s.modStrand core (addr / 8) fun t => t.setP (addr % 8) 0xFFFFFFFF#32 0
  | _ => s.modCtx core fun x => { x with shadows := Store.write 0 x.shadows addr 0 }

/-- The storage that event 0x01 names (Table 10-5): a uniform register or a predicate is a register, and a shadow an
accumulator. -/
def storageCode : Nat → Nat
  | 7 | 8 => 5
  | 9 => 3
  | n => n

/-- An uncorrectable word is read: it reads as zero, is counted and posts event 0x01 (R187). One of the instruction cache
is fetched from harbour again (R301). -/
def State.badWord (s : State) (storage core addr : Nat) : State :=
  if storage = 6 then s.zeroWord storage core addr
  else
  let s := (s.zeroWord storage core addr).modCore core fun k => { k with sramuc := sat16 k.sramuc }
  let s := match s.partOf? core with
    | some p => s.modPart p fun p =>
      let n := p.memerr.toNat
      { p with memerr := BitVec.ofNat 64 (min (n / 2 ^ 32 + 1) 0xFFFFFFFF * 2 ^ 32 + n % 2 ^ 32) }
    | none => s
  s.postCore core 0x01 (storageCode storage) addr

end Sys2Proof.Machine
end

