-- ==== Sys2Proof/Machine/Power.lean ====
section
/-!
DEFINITION. The beginning of a halt (R252), entry to P2 and P3 (R284, R285), the ebb before P3 (R274).
-/

namespace Sys2Proof.Machine

/-- RUNNING and EDGE tasks of a partition become PREEMPTED (R219, R252). -/
def State.preempt (s : State) (part : Nat) : State :=
  (s.runs.filter fun r => r.part == part && (r.phase == .running || r.phase == .edge) && !r.preempted && !r.aborted).foldl
    (fun s r => (s.modRun r.id fun r => { r with preempted := true }).setTask part r.tcb tPreempted) s

/-- Begin to halt a partition that runs (R252). -/
def State.beginHalt (s : State) (part : Nat) : State :=
  if (s.part part).pstat = PStat.running then
    (s.modPart part fun p => { p with pstat := .halting }).preempt part
  else s

/-- The L1s of a partition's cores write back (R204). -/
def State.writeBackPart (s : State) (part : Nat) : State :=
  (s.cores.filter fun e => (s.part part).hasCore e.1).foldl (fun s (e : Nat × Core) => s.writeBackAll e.1) s

/-- A partition that waits for P2 goes on: a debug halt holds it up; one that runs halts first (R284,
R285). Its L1s are written back before its cores are gated (R204). -/
def State.tryP2 (s : State) (part : Nat) : State :=
  let p := s.part part
  if !p.wantP2 || p.debugHalt then s
  else match p.pstat with
    | .running => s.beginHalt part
    | .halting => s
    | .halted | .parked => (s.writeBackPart part).modPart part fun p => { p with power := .p2, wantP2 := false }

/-- Partitions that have half-dies (R249). -/
def State.assigned (s : State) : List Nat := (s.parts.filter fun e => e.2.halves != 0).map (·.1)

/-- Some group runs the ebb before P3, which has no personality to go to (R274). -/
def State.ebbing (s : State) : Bool :=
  s.groups.any fun g => (g.2.change.map fun (c : Change) => c.pers == 3).getD false

/-- Ask every assigned partition for P2 (R284). -/
def State.gateAll (s : State) : State :=
  s.assigned.foldl (fun s p =>
    if (s.part p).power = Power.p2 then s
    else (s.modPart p fun q => { q with wantP2 := true }).tryP2 p) s

/-- The ports go idle: far units on their way are sent again when the ports are up (R284; DEDUCED, unsafe, log 63). -/
def State.idlePorts (s : State) : State :=
  let again (c : Cmd) : Cmd :=
    if c.kind.fetch || c.kind.module then
      { c with units := c.units.map fun (u : CmdUnit) => if u.landed || u.acked then u else { u with sent := none } }
    else c
  { s with cmds := s.cmds.map again }

/-- Every port retrains: it is down until its recovery (R185, R285, R295). What has failed for good stays (R19). -/
def State.retrain (s : State) : State :=
  let again (p : Port) : Port := { p with warming := [], down := some s.time }
  { s with ports := (List.range 64).map fun n => (n, again (s.ports.read {} n)) }

/-- A request for P3 goes on: after the ebb, every partition goes to P2, then the package to P3 (R284,
R285). -/
def State.proceedP3 (s : State) : State :=
  if !s.mgmt.wantP3 || s.ebbing then s
  else
    let s := s.gateAll
    if s.assigned.all fun p => (s.part p).power == .p2 then
      s.idlePorts.modMgmt fun m => { m with p3 := true, wantP3 := false }
    else s

/-- Peer traffic is queued (R285). -/
def State.traffic (s : State) : Bool := s.requests.any (fun r => !r.state.closed) || !s.colls.isEmpty

/-- A request for P3: with peer traffic queued, an ebb runs first on every UAL and UET group (R285). -/
def State.requestP3 (s : State) : State :=
  let s := s.modMgmt fun m => { m with wantP3 := true }
  let gs := (List.range 16).filter fun g =>
    ((s.group g).pers == 1 || (s.group g).pers == 2) && (s.group g).change.isNone && (s.group g).phase == 0
  let s := if s.traffic then
    gs.foldl (fun s g => s.beginChange
      { issuer := none, lead := g, pers := 3, bond := false, commit := false, newver := 0, start := 0, began := 0 } [g] 1) s
    else s
  s.proceedP3

end Sys2Proof.Machine
end

