-- ==== Sys2Proof/Machine/LinkEvents.lean ====
section
/-!
DEFINITION. EGMODE and the device steps of the links: the phases of a change, peer requests and replies,
collective chunks, credits and completion (R262 to R280, R388).
-/

namespace Sys2Proof.Machine

/-! ## EGMODE (R269, R388) -/

/-- A change request (Table 11-5). -/
structure ChangeReq where
  group : Nat
  pers : Nat
  bond : Bool
  commit : Bool
  bar : Nat
  newver : BitVec 16
  deriving DecidableEq, Repr

/-- Read it; of BAR the low 20 bits count. -/
def ChangeReq.ofBytes (b : List Byte) : ChangeReq where
  group := field b 0 1
  pers := field b 1 1
  bond := (field b 2 1).testBit 0
  commit := (field b 2 1).testBit 1
  bar := field b 4 4 % 2 ^ 20
  newver := BitVec.ofNat 16 (field b 8 2)

/-- The groups that a request changes. -/
def ChangeReq.groups (r : ChangeReq) : List Nat := if r.bond then [r.group, r.group + 1] else [r.group]

/-- ILLSTATE of a request by a partition (R269, step 2). -/
def State.badChange (s : State) (part : Nat) (r : ChangeReq) : Bool :=
  s.linkOwner != some part || 15 < r.group || 2 < r.pers || (r.bond && (r.pers != 0 || r.group % 2 == 1)) ||
    r.groups.any (fun g => (s.group g).change.isSome) ||
    (r.commit && (s.committing || r.newver == s.topover))

/-- EGMODE (R388). -/
def execEgmode (x : XReg) (s : State) : Result :=
  .next (s.issue true [] fun s =>
    let a := s.xn x.val
    s.check (s.shelfRangeCheck a 32 16 true false) fun s =>
    let r := ChangeReq.ofBytes (s.myShelf a 32)
    s.check (trapIf (r.bar % 16 != 0) (rangeTrap .misalign r.bar 16 true true)) fun s =>
    let part := s.me.part
    s.check (s.badValue (s.badChange part r)) fun s =>
    (s.beginChange { issuer := some (part, s.cur.core, r.bar, a), lead := r.group, pers := r.pers, bond := r.bond
                     commit := r.commit, newver := r.newver, start := 0, began := 0 } r.groups 1).retire)

/-! ## The phases of a change (R270 to R273) -/

/-- Act on the change of a group that stands in a phase. -/
def State.inPhase (s : State) (g ph : Nat) (f : State → Change → State) : State :=
  match (s.group g).change with
  | some c => s.when ((s.group g).phase == ph) fun s => f s c
  | none => s

/-- The ebb before P3 (R274) has no personality to go to. -/
def Change.ebbOnly (c : Change) : Bool := c.pers == 3

/-- Ebb ends: slack, or, in the ebb before P3, PHASE 0. -/
def State.finishEbb (s : State) (c : Change) : State :=
  if c.ebbOnly then ((s.unsend (s.changing c.lead)).endChange c.lead 0 0).proceedP3 else s.leaveEbb c.lead

/-- EBB_END (R270): no accepted request on the groups is unanswered. -/
def execEbbEnd (g : Fin 16) (s : State) : Result :=
  .next (s.inPhase g.val 1 fun s c => s.when (!s.owes (s.changing c.lead)) fun s => s.finishEbb c)

/-- EBB_DEADLINE (R270, R271): 50 µs have passed. -/
def execEbbDeadline (g : Fin 16) (s : State) : Result :=
  .next (s.inPhase g.val 1 fun s c => s.when (c.start + 50 * Config.microsecond ≤ s.time) fun s => s.finishEbb c)

/-- The auth phase begins: this package sends a nonce, which the change keeps (R270). -/
def State.sendNonce (s : State) (lead : Nat) : State :=
  let (n, s) := s.draw
  let s := (s.changing lead).foldl (fun s g =>
    s.modGroup g fun e => { e with change := e.change.map fun (c : Change) => { c with nonce := n } }) s
  { s with wire := Config.nonce n }

/-- SLACK_END (R270, R272): the PHY has locked in the new personality within 100 µs, or slack has failed. -/
def execSlackEnd (g : Fin 16) (ok : Bool) (s : State) : Result :=
  .next (s.inPhase g.val 2 fun s c =>
    let gs := s.changing c.lead
    if ok && decide (s.time ≤ c.start + 100 * Config.microsecond) then
      let s := gs.foldl (fun s k => s.modGroup k fun e => { e with pers := c.pers }) s
      let s := (s.setUp gs true).setBond gs c.bond
      if c.pers = 0 then s.toPhase c.lead 4 else (s.toPhase c.lead 3).sendNonce c.lead
    else s.endChange c.lead 5 6)

/-- The package identity public key; on entry to RETIRED it changes (R291). -/
def State.identity (s : State) : List Byte := Config.identityKey (s.mgmt.lifecycle == .retired)

/-- What a side signs in the auth phase: the other's nonce, its own identity and node id (R270). -/
def authMessage (nonce key : List Byte) (node : Nat) : List Byte := nonce ++ key ++ bytesOf 2 node

/-- A peer's answer authenticates it: its key is an allowed peer's, it has signed this package's nonce, and its node is
routed through the groups of the change in the table that flood will make active (R270). -/
def State.authOk (s : State) (c : Change) (a : AuthAnswer) : Bool :=
  let e := (Store.read 0 (if c.commit then s.routesNext else s.routes) a.node.val).toNat
  s.mgmt.peers.contains a.key && a.sig.length == 96 &&
    Config.verifies a.key (authMessage (Config.nonce c.nonce) a.key a.node.val) a.sig &&
    hasRoute e && (s.changing c.lead).all (routeMask e (c.pers == 2)).testBit

/-- This package's answer to a peer's nonce. -/
def State.signNonce (s : State) (nonce : BitVec 384) : State :=
  let (n, s) := s.draw
  let m := authMessage (bytesOf 48 nonce.toNat) s.identity s.nodeId.toNat
  { s with wire := s.identity ++ bytesOf 2 s.nodeId.toNat ++ Config.signature n m }

/-- AUTH_END (R270, R272): a peer's answer, or none within 200 µs. Authentication alone ends a quarantine when EGMODE asked
for the change. -/
def execAuthEnd (g : Fin 16) (a : Option AuthAnswer) (s : State) : Result :=
  .next (s.inPhase g.val 3 fun s c =>
    let limit := c.start + 200 * Config.microsecond
    match a with
    | none => s.when (limit ≤ s.time) fun s => s.quarantine c.lead
    | some a =>
      let s := s.signNonce a.nonce
      if s.authOk c a && s.time ≤ limit then
        let s := if c.issuer.isSome then
          (s.changing c.lead).foldl (fun s k => s.modGroup k fun e => { e with quar := false }) s else s
        s.toPhase c.lead 4
      else s.quarantine c.lead)

/-- FLOOD (R270, R273); a group that has retrained by itself posts event 0x06. -/
def execFlood (g : Fin 16) (s : State) : Result :=
  .next (s.inPhase g.val 4 fun s c =>
    let s := if c.issuer.isNone then
      s.postAll (s.groupParts c.lead) 0x06 (0x100 + c.lead) (s.clocksIn (s.time - c.began)) 0 else s
    s.floodChange c.lead c)

/-- LOSS_OF_LOCK (R273): a UAL or UET group outside a change goes to slack by itself. -/
def execLossOfLock (g : Fin 16) (s : State) : Result :=
  let e := s.group g.val
  .next (s.when (e.change.isNone && e.phase == 0 && e.up && (e.pers == 1 || e.pers == 2)) fun s =>
    let s := ((s.unsend [g.val]).unsendChunks [g.val]).setUp [g.val] false
    s.beginChange { issuer := none, lead := g.val, pers := e.pers, bond := false, commit := false, newver := 0
                    start := 0, began := 0 } [g.val] 2)

/-! ## Peer requests and replies (R266 to R268) -/

/-- A reply as it is sent: node, tag, generation, status, data. -/
def replyBytes (node : Nat) (tag : BitVec 8) (gen : BitVec 4) (status : Nat) (data : List Byte) : List Byte :=
  bytesOf 2 node ++ [tag] ++ bytesOf 1 gen.toNat ++ bytesOf 1 status ++ data

/-- A request has a size that the personality supports: 1 to 256 bytes (R259). -/
def supportedReq (r : PeerReq) : Bool := 0 < peerBytes r.op && peerBytes r.op ≤ 256

/-- A replay record is no longer kept: twice PEERTO has passed (R266). -/
def State.expired (s : State) (q : Replay) : Bool := q.time + 2 * s.peerLimit ≤ s.time

/-- A peer's request arrives (R266, R268): a known one is answered from its record; one of a size that is not supported
is not served (R259, log 38). DEDUCED, unsafe (log 62): a STALE reply leaves no record, since the request is sent again
under the same tag and generation to be performed then. -/
def State.serveRequest (s : State) (r : PeerReq) : State :=
  let send (s : State) (st : Nat) (d : List Byte) : State :=
    { s with wire := replyBytes r.node.val r.tag r.gen st d }
  let keep (s : State) (st : Nat) (d : List Byte) : State :=
    let q : Replay := { node := r.node.val, tag := r.tag, gen := r.gen, status := st, data := d, time := s.time }
    send { s with replays := s.replays ++ [q] } st d
  match s.replays.find? fun q => q.node == r.node.val && q.tag == r.tag && q.gen == r.gen && !s.expired q with
  | some q => send s q.status q.data
  | none =>
    if !supportedReq r then s
    else if !s.inPeerwin r.addr (peerBytes r.op) then keep s 3 []
    else if r.ver != s.stamp then send s 5 []
    else
      let (d, s) := s.performPeer r.addr r.op
      keep s 0 d

/-- The target's link layer may accept a request: it is on its way, PEERTO has not passed, and every earlier one to the node has
been accepted (R210, R266). -/
def State.acceptable (s : State) (r : Request) : Bool :=
  r.state == .sent && !s.late r && !s.requests.any fun q => q.id < r.id && q.node == r.node && q.state.open?

/-- PEER_REQUEST (R266, R268): the target's link layer has accepted a request of ours, or a request arrives. -/
def execPeerRequest (r : PeerIn) (s : State) : Result :=
  .next (match r with
    | .accepted id => s.modReq id fun q => if s.acceptable q then { q with state := .accepted } else q
    | .inbound r => s.serveRequest r)

/-- The request that a reply answers: the tag's generation is current (R267). -/
def State.repliedTo (s : State) (r : PeerAnswer) : Option Request :=
  s.requests.find? fun q => q.node == r.node.val && q.tag == some r.tag.toNat && q.gen == r.gen && !q.state.closed

/-- A late reply is dropped, counted and posted (R267). -/
def State.lateReply (s : State) (r : PeerAnswer) : State :=
  let core := Store.read 0 s.tagCore r.tag.toNat
  (s.modCore core fun k => { k with late := sat16 k.late }).postCore core 0x0A r.node.val r.tag.toNat

/-- PEER_REPLY (R266 to R268). A request refused as stale is sent again at once if this package has
committed since it was stamped, else after its next commit. -/
def execPeerReply (r : PeerAnswer) (s : State) : Result :=
  .next (match s.repliedTo r with
    | none => s.lateReply r
    | some q =>
      let s := if r.status.val = 0 then s.closeReq q (.answered r.data)
        else if r.status.val = 5 then
          s.modReq q.id fun q => { q with state := if s.stamp = q.ver then .stale else .queued }
        else s.closeReq q (.failed r.status.val)
      s.resumeTraffic)

/-- PEER_TIMEOUT (R266). -/
def execPeerTimeout (req : Nat) (s : State) : Result :=
  .next (match s.req? req with
    | none => s
    | some r => s.when (s.late r) fun s => (s.closeReq r (.failed r.lateStatus)).resumeTraffic)

/-- REPLAY_RECORD_EXPIRY (R266): after twice PEERTO. -/
def execReplayRecordExpiry (node : Fin 4096) (tag : BitVec 8) (gen : BitVec 4) (s : State) : Result :=
  .next { s with replays := s.replays.filter fun q =>
    !(q.node == node.val && q.tag == tag && q.gen == gen && s.expired q) }

/-! ## Chunks (R278, R279) -/

/-- Operations that have a chunk ready for a link: the node is their ring successor. -/
def State.offers (s : State) (node : Nat) : List (CollOp × Chunk) :=
  (s.colls.filter fun o => o.successor == node).filterMap fun o => (s.readyChunk o).map fun c => (o, c)

/-- The next communicator after the one last served, round-robin by id. -/
def nextComm (last : Nat) (l : List (CollOp × Chunk)) : Option (CollOp × Chunk) :=
  let rank (o : CollOp) : Nat := (o.comm + 64 - (last + 1) % 64) % 64
  l.foldl (fun (b : Option (CollOp × Chunk)) x => match b with
    | none => some x
    | some y => if rank x.1 < rank y.1 then some x else some y) none

/-- What a link sends at its chunk boundary (R278); 63 stands for none served yet. -/
def State.nextChunk (s : State) (node : Nat) : Option (CollOp × Chunk) :=
  let pick (high : Bool) : Option (CollOp × Chunk) :=
    nextComm (Store.read 63 s.turns (2 * node + flag high)) ((s.offers node).filter fun x => x.1.ring.high == high)
  pick true <|> pick false

/-- A chunk as it is sent: communicator, version, key, sequence number, index, data (R279). -/
def State.packet (s : State) (o : CollOp) (c : Chunk) : List Byte :=
  bytesOf 1 o.comm ++ [s.stamp] ++ bytesOf 4 s.uetkey.toNat ++ bytesOf 2 o.seq.toNat ++ bytesOf 4 c.idx ++ c.data

/-- CHUNK_SEND (R278, R279): the chunk is stamped and admitted to the node's group. -/
def execChunkSend (node : Fin 4096) (s : State) : Result :=
  let n := node.val
  .next (match s.groupFor n true, s.nextChunk n with
    | some g, some (o, c) =>
      let s := if c.carried then s else s.modChannel o.comm fun h => { h with credits := h.credits - 1 }
      let s := s.modColl o.cmd fun o => o.modChunk c.idx fun c => { c with
        sent := true, group := g, ver := s.stamp, carried := true, counting := true }
      { s.routeTo n true g with
        turns := s.turns.put (2 * n + flag o.ring.high) o.comm
        wire := s.packet o c }.retimeChunks
    | _, _ => s)

/-- How a sequence number stands to the operation whose turn it is: past, present or to come. -/
def State.seqPast (s : State) (comm : Nat) (seq : BitVec 16) : Bool :=
  let cur := match s.headColl comm with
    | some o => o.seq
    | none => (s.channel comm).seq
  let d := (cur - seq).toNat
  1 ≤ d && d < 2 ^ 15

/-- A received chunk is a duplicate (R279). -/
def State.duplicate (s : State) (ch : ChunkIn) : Bool :=
  let comm := ch.comm.val
  s.seqPast comm ch.seq || (s.channel comm).bufs.any (fun b => b.1 == ch.seq.toNat && b.2.1 == ch.idx) ||
    (match s.headColl comm with
      | some o => o.seq == ch.seq && decide (ch.idx < o.received)
      | none => false)

/-- An answer to a chunk: status, version, sequence number, index. -/
def chunkAnswer (status : Nat) (ver : BitVec 8) (ch : ChunkIn) : List Byte :=
  bytesOf 1 status ++ [ver] ++ bytesOf 2 ch.seq.toNat ++ bytesOf 4 ch.idx

/-- CHUNK_RECEIVE (R278, R279, R346): refused for its key or version, acknowledged as a duplicate, or
accepted into a buffer, which drains when the operation takes it. -/
def execChunkReceive (ch : ChunkIn) (s : State) : Result :=
  let comm := ch.comm.val
  let answer (s : State) (st : Nat) : State := { s with wire := chunkAnswer st s.stamp ch }
  .next (
    if ch.key ≠ s.uetkey then answer s 3
    else if ch.ver ≠ s.stamp then answer s 5
    else if s.duplicate ch then answer s 0
    else if 2 ≤ (s.channel comm).bufs.length then s
    else
      let s := s.modChannel comm fun h => { h with bufs := h.bufs ++ [(ch.seq.toNat, ch.idx, ch.data)] }
      let s := match s.headColl comm with
        | some o => if o.send.isSome && o.status == 0 then s.drainBufs comm o.cmd 4 else s
        | none => s
      answer s.retimeChunks 0)

/-- The operation that a chunk belongs to. -/
def State.collOf (s : State) (k : ChunkId) : Option CollOp := s.colls.find? fun o => o.comm == k.comm.val && o.seq == k.seq

/-- Act on a chunk that has been sent and not accepted. -/
def State.onChunk (s : State) (k : ChunkId) (f : State → CollOp → Chunk → State) : State :=
  match s.collOf k with
  | none => s
  | some o => match o.chunks.find? (·.idx == k.idx) with
    | none => s
    | some c => s.when (!c.accepted && o.status == 0) fun s => f s o c

/-- A version is ahead of another (R347). -/
def ahead (nack own : BitVec 8) : Bool :=
  let d := (nack - own).toNat
  1 ≤ d && d ≤ 127

/-- STALE_NACK (R279). A chunk that is refused for its key is not sent again, and its operation fails in time (R265). -/
def execStaleNack (n : NackIn) (s : State) : Result :=
  .next (s.onChunk n.id fun s o c => s.when c.sent fun s =>
    let own := s.stamp
    if n.refused then s.modColl o.cmd fun o => o.modChunk c.idx fun c => { c with stale := false, refused := true }
    else (s.modColl o.cmd fun o => o.modChunk c.idx fun c => { c with
      sent := false, stale := true, refused := false
      awaitsCommit := ahead n.ver own
      resend := if n.ver ≠ own && !ahead n.ver own then some (s.time + 20 * Config.microsecond) else none }).retimeChunks)

/-- PEERTO has passed for a chunk that is not accepted (R279). -/
def State.lateChunk (s : State) (c : Chunk) : Bool :=
  !c.accepted && c.counting && s.peerLimit ≤ elapsed s.time c.waited c.since

/-- CHUNK_ACCEPTED (R280), before PEERTO has passed (R279). -/
def execChunkAccepted (k : ChunkId) (s : State) : Result :=
  .next (s.onChunk k fun s o c => s.when (c.sent && !s.lateChunk c) fun s =>
    (s.modColl o.cmd fun o => o.modChunk c.idx fun c => { c with accepted := true, since := none }).retimeChunks)

/-- The 20 µs before a chunk is sent again have passed (R279). -/
def Chunk.resends (c : Chunk) (now : Nat) : Bool := c.resend.any (· ≤ now)

/-- CHUNK_RESEND (R279). -/
def execChunkResend (k : ChunkId) (s : State) : Result :=
  .next (s.onChunk k fun s o c => s.when (c.resends s.time) fun s =>
      (s.modColl o.cmd fun o => o.modChunk c.idx fun c => { c with resend := none }).retimeChunks)

/-- The status with which a chunk's operation fails in time (R265, R279). -/
def Chunk.lateStatus (c : Chunk) : Nat := if !c.carried then 1 else if c.stale then 5 else if c.refused then 3 else 2

/-- CHUNK_TIMEOUT (R279). -/
def execChunkTimeout (k : ChunkId) (s : State) : Result :=
  .next (s.onChunk k fun s o c =>
    s.when (s.lateChunk c) fun s => s.failColl o c.lateStatus)

/-- CREDIT_RETURN (R278): to the ring predecessor, or from the successor. -/
def execCreditReturn (comm : Fin 64) (inbound : Bool) (s : State) : Result :=
  let c := comm.val
  .next (if inbound then (s.modChannel c fun h => { h with credits := min 2 (h.credits + 1) }).retimeChunks
    else s.when (0 < (s.channel c).owed) fun s =>
      { s.modChannel c (fun h => { h with owed := h.owed - 1 }) with wire := [BitVec.ofNat 8 c] })

/-! ## Completion (R254, R280) -/

/-- Free values for the bytes of RECV in a chunk that a failed operation has not accepted (R280). -/
def State.openRecv (s : State) (c : Cmd) (o : CollOp) : State :=
  let d := CollDesc.ofBytes c.desc
  let n := o.ring.nrank
  let from' := (o.ring.rank + n - 1) % max 1 n
  ((d.plan n from').drop o.received).foldl (fun s (k, i) =>
    if d.op = 4 || (d.reduces && k + 2 < n) then s
    else
      let b := d.block n k from'
      let (lo, cnt) := d.part n k b i
      let base := match d.op with
        | 0 => (d.span n b).1
        | 2 => b * d.count
        | _ => 0
      let len := cnt * d.esize
      let bs := (List.range len).map fun j => Config.recvByte (s.free + j)
      { s with free := s.free + len }.bufWrite c (d.recv + (base + lo) * d.esize) bs) s

/-- The issuing strand learns of a completed operation: STATUS, the arrival, the counter (R280). -/
def State.tellColl (s : State) (cmd status : Nat) : State :=
  match s.cmd? cmd with
  | none => s
  | some c =>
    let off := ((c.words.head?).map (·.2)).getD 0
    let s := s.modShelf c.core fun m => Mem.store m (off + 0x1C) 2 status
    let s := match c.bar with
      | some b => s.engineArrive c.bcore b (status != 0)
      | none => s
    (s.endCmd c).reap c.run

/-- COLL_COMPLETION (R280): of the oldest operation of a communicator; the next one begins. -/
def execCollCompletion (comm : Fin 64) (s : State) : Result :=
  .next (match s.headColl comm.val with
    | none => s
    | some o => s.when (s.collDone o) fun s =>
      match s.cmd? o.cmd with
      | none => { s with colls := s.colls.filter (·.cmd != o.cmd) }.beginColl comm.val
      | some c =>
        let s := if o.status ≠ 0 then s.openRecv c o else s
        let s := { s with colls := s.colls.filter (·.cmd != o.cmd) }
        let s := if s.holding c.part then s.modPart c.part fun p => { p with held := p.held ++ [.coll o.cmd o.status] }
          else s.tellColl o.cmd o.status
        (s.beginColl comm.val).retimeChunks)

end Sys2Proof.Machine
end

