-- ==== Sys2Proof/Machine/Halts.lean ====
section
/-!
DEFINITION. Device steps that halt a partition, park it and resume it, and that change its power state (R15,
R16, R145, R213, R233, R252 to R258, R284, R285).
-/

namespace Sys2Proof.Machine

/-! ## Halting (R252 to R254) -/

/-- HALT_REQUEST (R252). -/
def execHaltRequest (part : Fin 16) (s : State) : Result := .next (s.beginHalt part.val)

/-- The matrix engine of a core has stopped (R145): every MMA is complete, and no MMX can run. DESIGN CHOICE, unsafe (log 77):
a queued MMA that the order of R138 keeps behind a stopped MMX, or R436 behind a held one, stays queued across the halt. -/
def State.engineIdle (s : State) (core : Nat) : Bool :=
  let x := s.ctx core
  (s.nextOp core true).isNone && x.completeOp.isNone && x.queue.all fun o => !o.mmx || o.finished || o.isStopped

/-- A strand at its instruction boundary: a split in WAIT 2 is interrupted with no effect and reissues later; the keep latch
is empty (R71, R252). -/
def Strand.halt (t : Strand) : Strand :=
  { t with
    keep := none
    splits := t.splits.map fun (e : Nat × Split) =>
      if e.2.wait = 2 then (e.1, { e.2 with wait := 0, stall := .none }) else e }

/-- A halt empties every rendezvous latch; members that have still to take GANGMISMATCH do so later (R51). -/
def Context.halt (x : Context) : Context :=
  { x with
    strands := x.strands.map fun (e : Nat × Strand) => (e.1, e.2.halt)
    latches := (x.latches.map fun (l : Latch) => { l with waiting := [] }).filter fun l => l.mismatch.isSome }

/-- Change every listed core of a partition. -/
def State.modCores (s : State) (part : Nat) (f : Core → Core) : State :=
  let p := s.part part
  { s with cores := s.cores.map fun (e : Nat × Core) => if p.hasCore e.1 then (e.1, f e.2) else e }

/-- Change every command of a partition. -/
def State.modCmds (s : State) (part : Nat) (f : Cmd → Cmd) : State :=
  { s with cmds := s.cmds.map fun (c : Cmd) => if c.part = part then f c else c }

/-- Every engine of a partition has stopped. -/
def State.stopped (s : State) (part : Nat) : Bool :=
  s.cores.all fun e => !(s.part part).hasCore e.1 || s.engineIdle e.1

/-- HALTED (R252): splits stand at their instructions, commands are frozen, PSTAT is 2. -/
def execHalted (part : Fin 16) (s : State) : Result :=
  let p := part.val
  .next (s.when ((s.part p).pstat == .halting && s.stopped p) fun s =>
    let s := (s.modCores p fun k => { k with ctx := k.ctx.halt }).modCmds p Cmd.freeze
    ((s.modPart p fun q => { q with pstat := .halted }).tryP2 p).proceedP3)

/-! ## Configuration that waits (R249, R293) -/

/-- A context holds a workgroup or a strand. -/
def Context.used (x : Context) : Bool := !x.wgs.isEmpty || !x.strands.isEmpty

/-- A partition holds a running or parked context (R249). -/
def State.holdsContext (s : State) (part : Nat) : Bool :=
  (s.part part).pstat != .running ||
    s.cores.any fun e => (s.part part).hasCore e.1 && (e.2.ctx.used || e.2.parked.used)

/-- The stack depth of a partition may change: it is parked, or there is none (R249, R293). -/
def State.depthFree (s : State) (part : Nat) : Bool := (s.part part).halves == 0 || (s.part part).pstat == .parked

/-- A setting of a record may be applied now (R293). -/
def State.itemFree (s : State) : ConfigItem → Bool
  | .partition p h _ => if (s.part p.val).halves = h then s.depthFree p.val else !s.holdsContext p.val
  | .depth p _ => s.depthFree p.val
  | _ => true

/-- Hand an answer to the host: a byte that is 1 for a refusal, then what was asked for (log 5). -/
def State.answer (s : State) (refused : Bool) (bs : List Byte) : State :=
  s.modMgmt fun m => { m with reply := bytesOf 1 (flag refused) ++ bs }

/-- A partition that is assigned anew: its registers are at their reset values, and grants are gone (R249,
R283, R289). One that had no half-die is in P0, or in P1 beyond the budget (R16), or halted and gated in P3 and in a RETIRED
package (R252, R284, R285). -/
def State.freshPart (s : State) (p : Partition) (halves : BitVec 16) (depth : Nat) : Partition :=
  if p.halves != 0 then { halves, depth, power := p.power, budgeted := p.budgeted }
  else if s.mgmt.p3 || s.mgmt.lifecycle == .retired then { halves, depth, power := .p2, pstat := .halted }
  else { halves, depth, power := if s.mgmt.fits then .p0 else .p1, budgeted := !s.mgmt.fits }

/-- Lifecycle moves forward only (R282). -/
def Lifecycle.next : Lifecycle → Lifecycle → Bool
  | .open, .secured => true
  | .secured, .retired => true
  | _, _ => false

/-- Apply a setting of a record (R249, R282, R293). -/
def State.applyItem (s : State) : ConfigItem → State
  | .partition p h d => s.modPart p.val fun q =>
      if q.halves = h then { q with depth := d.val } else s.freshPart q h d.val
  | .depth p d => s.modPart p.val fun q => { q with depth := d.val }
  | .linkOwner p => { s with linkOwner := some p.val }
  | .nodeId n => { s with nodeId := BitVec.ofNat 12 n.val }
  | .allowedPeers ks => s.modMgmt fun m => { m with peers := ks }
  | .debugAuthorities ks => s.modMgmt fun m => { m with authorities := ks }
  | .lifecycle l => s.modMgmt fun m => if Lifecycle.next m.lifecycle l then { m with nextLifecycle := some l } else m
  | .edgeGroup _ _ => s

/-- Apply a record (R293). -/
def State.applyRecord (s : State) (r : ConfigRecord) : State :=
  (r.items.foldl State.applyItem s).modMgmt fun m => { m with applied := m.applied ++ [r] }

/-- What a record would set can stand: no half-die has two partitions, and depths are 1 to 16 (R249). -/
def State.recordOk (s : State) (r : ConfigRecord) : Bool :=
  let t := r.items.foldl State.applyItem s
  let ps := t.parts.filter fun e => e.2.halves != 0
  ps.all (fun e => 1 ≤ e.2.depth && e.2.depth ≤ 16) &&
    ps.all fun e => ps.all fun f => e.1 == f.1 || e.2.halves &&& f.2.halves == 0

/-- A record that waits no longer is applied, unless it cannot stand by now: then it is refused (R249, log 37). -/
def State.settleRecord (s : State) (r : ConfigRecord) : State :=
  let s := s.modMgmt fun m => { m with waiting := m.waiting.erase r }
  if s.recordOk r then s.applyRecord r else s.answer true []

/-- Apply the records that wait and may now be applied, in order of arrival (R293). -/
def State.applyWaiting (s : State) : State :=
  s.mgmt.waiting.foldl (fun s r => if r.items.all s.itemFree then s.settleRecord r else s) s

/-! ## The exchange (R15, R255) -/

/-- A peer access of a partition is outstanding (R255). -/
def State.peersOpen (s : State) (part : Nat) : Bool := s.requests.any fun r => r.part == part && !r.state.closed

/-- Exchange a core's context with its shadow; both caches are invalid after it (R15). -/
def Core.exchange (k : Core) : Core := { k with ctx := k.parked, parked := k.ctx, l1 := [], icache := [] }

/-- The cores of a partition write back their L1 and exchange their contexts; each writes a trace record (R255,
R290). -/
def State.exchange (s : State) (part arg : Nat) : State :=
  let p := s.part part
  let s := (s.cores.filter fun e => p.hasCore e.1).foldl (fun s e => s.dropAll e.1) s
  let s := s.modCores part Core.exchange
  if p.trctl.getLsbD 0 then p.cores.foldl (fun s c => s.trace part 7 c arg 0 0) s else s

/-- CONTEXT_EXCHANGE (R255): not while a peer access is outstanding; PSTAT is 3. -/
def execContextExchange (part : Fin 16) (s : State) : Result :=
  let p := part.val
  let q := s.part p
  .next (s.when (q.pstat == .halted && q.power != .p2 && !q.wantP2 && !s.peersOpen p) fun s =>
    ((s.exchange p 0).modPart p fun q => { q with pstat := .parked }).applyWaiting)

/-! ## Resuming (R256, R258) -/

/-- RESUME_REQUEST (R256): it takes effect once the partition has parked. -/
def execResumeRequest (part : Fin 16) (s : State) : Result :=
  .next (s.when ((s.part part.val).pstat != .running) fun s => s.modPart part.val fun p => { p with resume := true })

/-- Apply an event that was held (R254, R256). -/
def State.applyHeld (s : State) : HeldEvent → State
  | .ack cmd unit dropped =>
    match s.cmd? cmd with
    | some c => (s.ackUnit c unit dropped).reap c.run
    | none => s
  | .coll cmd status => s.tellColl cmd status
  | .change core bar request status => s.signalChange core bar request status

/-- Strands with more stack entries in use than the partition's depth: core, slot, strand (R258). -/
def State.tooDeep (s : State) (part : Nat) : List (Nat × Nat × Strand) :=
  let p := s.part part
  (s.cores.filter fun e => p.hasCore e.1).flatMap fun e =>
    (e.2.ctx.strands.filter fun t => p.depth < t.2.stack.length).map fun t => (e.1, t.1, t.2)

/-- Refuse a strand at resume: its task is FAULTED with RESTORECAP, and event 0x0C is posted (R258). -/
def State.refuseStrand (s : State) (part core slot : Nat) (t : Strand) : State :=
  let wg := (s.wgOf core t).index
  let tcb := ((s.run? t.run).map (·.tcb)).getD 0
  let s := s.faultTask t.run (t.split 0).pc.toNat TrapCode.restorecap.num core wg
  s.post part 0x0C core 0xFFFF (generic tcb) slot

/-- PREEMPTED tasks return to the state they left (R219, R233). -/
def State.unpreempt (s : State) (part : Nat) : State :=
  (s.runs.filter fun r => r.part == part && r.preempted && !r.aborted && r.phase != .faulted).foldl (fun s r =>
    (s.modRun r.id fun r => { r with preempted := false }).setTask part r.tcb (if r.stage = 0 then tRunning else tEdge)) s

/-- A core's strands are ready again, and its MMX go on (R146, R256). -/
def Core.restart (k : Core) : Core :=
  { k with ctx := { k.ctx with
      strands := k.ctx.strands.map fun (e : Nat × Strand) =>
        (e.1, { e.2 with splits := e.2.splits.map fun (p : Nat × Split) =>
          (p.1, { p.2 with since := k.cycles.read 0 (e.1 / 64), promoted := false }) })
      queue := k.ctx.queue.map fun (o : MatOp) => { o with stopped := false } } }

/-- The exchange back and what follows it, in the order of R256. DESIGN CHOICE, unsafe (log 79): what different units hold is
applied in the order of its arrival at the partition. -/
def State.resumePart (s : State) (part : Nat) : State :=
  let s := s.exchange part 1
  let s := (s.tooDeep part).foldl (fun s (c, k, t) => s.refuseStrand part c k t) s
  let held := (s.part part).held
  let s := held.foldl State.applyHeld (s.modPart part fun p => { p with held := [] })
  let s := s.modCmds part fun c => c.thaw (s.sendTime c.core)
  let s := (s.modPart part fun p => { p with pstat := .running, resume := false }).modCores part Core.restart
  s.unpreempt part

/-- RESUME_COMPLETE (R256, R285): a debug halt or P2 holds it up. -/
def execResumeComplete (part : Fin 16) (s : State) : Result :=
  let p := s.part part.val
  .next (s.when (p.pstat == .parked && p.resume && !p.debugHalt && p.power != .p2 && !p.wantP2) fun s =>
    s.resumePart part.val)

/-! ## Power (R16, R284, R285) -/

/-- A partition leaves P2, or changes between P0 and P1; P0 waits in P1 for the budget (R16). One that has halted for P2
resumes (R256). -/
def State.wake? (s : State) (part : Nat) (pw : Power) : State :=
  if s.mgmt.lifecycle = .retired || s.mgmt.p3 || s.mgmt.wantP3 then s
  else s.modPart part fun p =>
    let beyond := pw == .p0 && !s.mgmt.fits
    { p with
      power := if beyond then .p1 else pw
      budgeted := beyond
      wantP2 := false
      resume := p.resume || ((p.power == .p2 || p.wantP2) && p.pstat != .running) }

/-- Leave P3: the lasers light, and each port retrains (R285). -/
def State.leaveP3 (s : State) : State :=
  let t := s.modMgmt fun m => { m with p3 := false, wantP3 := false }
  if s.mgmt.p3 then t.retrain else t

/-- What a port keeps without power: only replacing the package repairs it (R19). -/
def Port.worn (p : Port) : Port := { p with warming := [], down := none }

/-- The ports without power, with what has failed for good. -/
def State.wornPorts (s : State) : Store Port := s.ports.map fun (e : Nat × Port) => (e.1, e.2.worn)

/-- P4: all state is lost but what the records and the boot ROM hold, and the wear of the ports (R19, R284). -/
def State.powerOff (s : State) : State :=
  let m := s.mgmt
  { State.reset with
    far := s.far
    ports := s.wornPorts
    mgmt := { lifecycle := m.lifecycle, nextLifecycle := m.nextLifecycle, applied := m.applied, firmware := m.firmware, p4 := true }
    inputs := s.inputs
    free := s.free
    nextId := s.nextId }

/-- POWER_STATE_REQUEST (R284, R285). -/
def execPowerStateRequest (r : PowerRequest) (s : State) : Result :=
  .next (match r with
    | .p0 p => s.wake? p.val .p0
    | .p1 p => s.wake? p.val .p1
    | .p2 p => s.when ((s.part p.val).power != .p2) fun s =>
        (s.modPart p.val fun q => { q with wantP2 := true }).tryP2 p.val
    | .p3 => s.requestP3
    | .leaveP3 => s.leaveP3
    | .p4 => s.powerOff)

/-- POWER_BUDGET_CHANGE (R16). -/
def execPowerBudgetChange (b : BudgetChange) (s : State) : Result :=
  let move (p : Partition) : Partition :=
    if !b.fits && p.power == .p0 then { p with power := .p1, budgeted := true }
    else if b.fits && p.power == .p1 && p.budgeted then { p with power := .p0, budgeted := false }
    else p
  let mhz := if !b.fits then 2000 else if 2000 ≤ b.mhz && b.mhz ≤ 2200 then b.mhz else s.mgmt.mhz
  let parts := s.assigned.foldl (fun (ps : Store Partition) p => Store.modify ps p move) s.parts
  .next ({ s with parts := parts }.modMgmt fun m => { m with fits := b.fits, mhz := mhz })

end Sys2Proof.Machine
end

