-- ==== Sys2Proof/Machine/Host.lean ====
section
/-!
DEFINITION. What the host and the management core do: CXL.mem accesses (R211, R259), attestation, firmware,
configuration, debug (R282 to R294), clocks (R289), RESET and bring-up (R295).
-/

namespace Sys2Proof.Machine

/-! ## Host accesses (R211, R259) -/

/-- The group through which the host reaches the package: the lowest that is in the CXL personality and up. -/
def State.cxlGroup (s : State) : Option Nat :=
  (List.range 16).find? fun g => (s.group g).pers == 0 && (s.group g).up && (s.group g).phase == 0

/-- The die whose last-level TLB translates for the host. DESIGN CHOICE, unsafe (log 36): the first die that the group's edge
die attaches to, CD0 for ED0 and CD3 for ED1 (R12). -/
def hostDie (g : Nat) : Nat := if g < 8 then 0 else 3

/-- Translate a far address for the host, through a die's last-level TLB (R163, R481): the page, if the partition's tables
permit the access. -/
def State.hostPage (s : State) (die part va : Nat) (write : Bool) : Option Page × State :=
  let root := (s.part part).fptroot.toNat
  let allow (leaf size : Nat) : Option Page :=
    if leaf.testBit (if write then 3 else 2) then some (pageOf va leaf size) else none
  if !root.testBit 63 || 2 ^ 52 ≤ va then (none, s)
  else match tlbFind (s.dieTlb.read [] die) part va with
    | some t => (allow t.leaf.toNat t.size, s)
    | none => match s.walkFrom va 4 (bits root 29 19 * 2 ^ 19) with
      | .error _ => (none, s)
      | .ok (leaf, size) =>
        (allow leaf size, s.keepDie die { part, base := va / size * size, size, leaf := BitVec.ofNat 64 leaf })

/-- The pages of `n` far bytes, one for each byte. -/
def State.hostPages (s : State) (die part va : Nat) (write : Bool) : Nat → Option (List Page) × State
  | 0 => (some [], s)
  | n + 1 =>
    match s.hostPage die part va write with
    | (none, s) => (none, s)
    | (some p, s) =>
      let (ps, s) := s.hostPages die part (va + 1) write n
      (ps.map (p :: ·), s)

/-- A range lies in the far aperture, which maps one partition's far space (R259). -/
def State.inAperture (s : State) (part va n : Nat) : Bool :=
  s.mgmt.aperture.any fun a => a.1 == part && decide (a.2.1 ≤ va) && decide (va + n ≤ a.2.1 + a.2.2)

/-- HOST_CXL_MEM_ACCESS (R211, R259): harbour at its home, or far memory in the aperture, through a partition's tables.
No CXL group up, nothing is answered but a refusal. -/
def execHostCxlMemAccess (h : HostAccess) (s : State) : Result :=
  .next (match s.cxlGroup with
    | none => s.answer true []
    | some g => match h with
      | .readHarbour a n =>
        if a + n ≤ Config.harbourBytes then s.answer false (s.homeBytes a n) else s.answer true []
      | .writeHarbour a d =>
        if a + d.length ≤ Config.harbourBytes then (s.homeWrite a d).answer false [] else s.answer true []
      | .readFar p va n =>
        if s.inAperture p.val va n then
          match s.hostPages (hostDie g) p.val va false n with
          | (some ps, s) => s.answer false ((List.range n).map fun i => s.farByte ps (va + i))
          | (none, s) => s.answer true []
        else s.answer true []
      | .writeFar p va d =>
        if s.inAperture p.val va d.length then
          match s.hostPages (hostDie g) p.val va true d.length with
          | (some ps, s) => (s.farWrite ps va d).answer false []
          | (none, s) => s.answer true []
        else s.answer true [])

/-- The management core chooses the far aperture, of at most 512 GiB (R259). -/
def State.setAperture (s : State) (part base size : Nat) : State :=
  if size ≤ 2 ^ 39 && base + size ≤ 2 ^ 52 then s.modMgmt fun m => { m with aperture := some (part, base, size) } else s

/-! ## The capability list (R294) -/

/-- A record of the capability list (Table 12-3), by position: IDs 0x01 to 0x05, version 1, EXP 1 except for the
collective engine, then the offset of the next. -/
def capabilityRecord (k : Nat) : List Byte :=
  bytesOf 2 (k + 1) ++ bytesOf 1 1 ++ bytesOf 1 (flag (k != 4))
  ++ bytesOf 4 (if k = 4 then 0 else Config.capabilityOffset (k + 1)) ++ bytesOf 8 0

/-- The host reads the record at an offset, or in the vendor-specific extended capability the offset of the first. -/
def State.readCapability (s : State) (offset : Nat) : State :=
  if offset = Config.vendorOffset then s.answer false (bytesOf 4 (Config.capabilityOffset 0))
  else match (List.range 5).find? fun k => Config.capabilityOffset k == offset with
    | some k => s.answer false (capabilityRecord k)
    | none => s.answer true []

/-- The host uses the rest of the CXL function: the public key can be read (R291); a BAR and an MSI-X vector hold what is
written to them (R259, log 45). -/
def State.config (s : State) : ConfigAccess → State
  | .key => s.answer false s.identity
  | .readBar i => s.answer false (bytesOf 8 (s.mgmt.bars.read 0 i.val).toNat)
  | .writeBar i v => (s.modMgmt fun m => { m with bars := Store.write 0 m.bars i.val v }).answer false []
  | .readVector n => s.answer false (bytesOf 16 (s.mgmt.msix.read 0 n.val).toNat)
  | .writeVector n v => (s.modMgmt fun m => { m with msix := Store.write 0 m.msix n.val v }).answer false []

/-! ## Attestation, firmware, configuration (R291 to R293) -/

/-- Codes of lifecycle states in a report. -/
def lifecycleCode : Lifecycle → Nat
  | .open => 0 | .secured => 1 | .retired => 2

/-- What a report says: lifecycle, digests of firmware and of the applied records, nonce (R291). -/
def State.reportBytes (s : State) (nonce : BitVec 384) : List Byte :=
  bytesOf 1 (lifecycleCode s.mgmt.lifecycle) ++ Config.sha384 s.mgmt.firmware
  ++ Config.sha384 (s.mgmt.applied.flatMap (·.message)) ++ bytesOf 48 nonce.toNat

/-- ATTESTATION_REPORT (R291): the report, then its signature. -/
def execAttestationReport (nonce : BitVec 384) (s : State) : Result :=
  let (n, t) := s.draw
  let r := s.reportBytes nonce
  .next (t.answer false (r ++ Config.signature n r))

/-- An image verifies: its last 96 bytes sign the rest (R292). -/
def imageOk (img : List Byte) : Bool :=
  Config.verifies Config.firmwareKey (img.take (img.length - 96)) (img.drop (img.length - 96))

/-- An edge group that has trained at bring-up (R295). -/
def trained (pers : Nat) : EdgeGroup := { up := true, phase := 0, pers }

/-- The part of a record that bring-up applies: a lifecycle change has taken effect once. -/
def bringItem (s : State) : ConfigItem → State
  | .lifecycle _ => s
  | i => s.applyItem i

/-- An edge group that a record sets trains, if it is of the CXL personality, or of another, as asked. -/
def trainItem (cxl : Bool) (s : State) : ConfigItem → State
  | .edgeGroup g p => if (p.val == 0) == cxl then s.modGroup g.val fun _ => trained p.val else s
  | _ => s

/-- Bring-up once an image has verified (R295): records are applied, the edge groups train, the CXL group first, the ports
light and retrain; the partitions are in P0, in a RETIRED package they stay gated (R285). -/
def State.bringUp (s : State) : State :=
  let s := s.modMgmt fun m => { m with p3 := false, wantP3 := false }
  let items := s.mgmt.applied.flatMap (·.items)
  let s := items.foldl bringItem s
  (items.foldl (trainItem false) (items.foldl (trainItem true) s)).retrain

/-- The state with which a reset begins (R295): the package is in P3, and all of it is at reset but its identity, its
lifecycle, the records and the wear of its ports (R19); what comes from outside stays. -/
def State.afterReset (s : State) : State :=
  let m := s.mgmt
  { State.reset with
    far := s.far
    ports := s.wornPorts
    mgmt := { lifecycle := m.nextLifecycle.getD m.lifecycle, applied := m.applied, firmware := m.firmware, p3 := true }
    inputs := s.inputs
    free := s.free
    nextId := s.nextId }

/-- RESET (R292, R295): an image that fails opens the mailbox, and nothing else starts. -/
def execResetPackage (s : State) : Result :=
  let t := s.afterReset
  .next (if imageOk t.mgmt.firmware then t.bringUp else t.modMgmt fun m => { m with mailbox := true })

/-- FIRMWARE_IMAGE (R292): with the mailbox open, the image is verified, without a limit on attempts. -/
def execFirmwareImage (img : List (BitVec 8)) (s : State) : Result :=
  .next (s.when (s.mgmt.mailbox && imageOk img) fun s =>
    (s.modMgmt fun m => { m with mailbox := false, firmware := img }).bringUp)

/-- CONFIGURATION_RECORD (R293): ignored and reported when its signature fails; it waits as long as it must. -/
def execConfigurationRecord (r : ConfigRecord) (s : State) : Result :=
  .next (
    if !Config.verifies Config.configurationKey r.message r.sig then s.answer true []
    else ((s.modMgmt fun m => { m with waiting := m.waiting ++ [r] }).answer false []).applyWaiting)

/-! ## Debug (R283 to R287) -/

/-- Codes of debug levels. -/
def levelCode : DebugLevel → Nat
  | .none => 0 | .observe => 1 | .invasive => 2 | .full => 3

/-- The bytes of a token that its signature covers (R286). -/
def tokenBytes (t : DebugToken) : List Byte := t.digest ++ [t.part, t.level] ++ t.reserved

/-- A token is for this package and partition, of the level at least, signed by a debug authority; it is 160 bytes long
(R286). -/
def State.tokenOk (s : State) (part level : Nat) (t : DebugToken) : Bool :=
  (tokenBytes t).length == 64 && t.reserved.length == 14 && t.sig.length == 96 && t.digest == Config.sha384 s.identity && t.part.toNat == part && level ≤ t.level.toNat &&
    s.mgmt.authorities.any fun k => Config.verifies k (tokenBytes t) t.sig

/-- A level is granted (Table 12-1). -/
def State.grants (s : State) (part : Nat) (l : DebugLevel) (t : Option DebugToken) : Bool :=
  match s.mgmt.lifecycle, l with
  | _, .none => true
  | .open, _ => true
  | .secured, .full => false
  | .secured, l => t.any (s.tokenOk part (levelCode l))
  | .retired, _ => false

/-- A debug halt ends: what waited for it goes on, else the partition resumes (R285). -/
def State.releaseDebug (s : State) (part : Nat) : State :=
  if !(s.part part).debugHalt then s
  else
    let s := s.modPart part fun p => { p with debugHalt := false }
    if (s.part part).wantP2 then (s.tryP2 part).proceedP3
    else s.modPart part fun p => { p with resume := p.resume || p.pstat != .running }

/-- DEBUG_GRANT (R283, R285): a grant lasts until reset or reassignment, so a lower one changes nothing. -/
def execDebugGrant (d : DebugRequest) (s : State) : Result :=
  .next (match d with
    | .grant p l t =>
      if s.grants p.val l t then
        (s.modPart p.val fun q => { q with debugLevel := if levelCode q.debugLevel < levelCode l then l else q.debugLevel }).answer
          false []
      else s.answer true []
    | .halt p =>
      let q := s.part p.val
      if q.debugLevel.steps && q.power != .p2 then
        ((s.modPart p.val fun q => { q with debugHalt := true }).beginHalt p.val).answer false []
      else s.answer true []
    | .release p =>
      if (s.part p.val).debugLevel.steps then (s.releaseDebug p.val).answer false [] else s.answer true [])

/-- Change the shelf of a core for its partition's debugger: that of a parked context lies in the shadow. -/
def State.modDebugShelf (s : State) (part core : Nat) (f : Mem → Mem) : State :=
  s.modCore core fun k =>
    if (s.part part).pstat = .parked then { k with parked := { k.parked with shelf := f k.parked.shelf } }
    else { k with ctx := { k.ctx with shelf := f k.ctx.shelf } }

/-- The shelf as its partition's debugger sees it. -/
def State.debugShelf (s : State) (part core : Nat) : Mem :=
  if (s.part part).pstat = .parked then (s.core core).parked.shelf else (s.core core).ctx.shelf

/-- FULL is granted (R283). -/
def State.full (s : State) (part : Nat) : Bool := (s.part part).debugLevel == .full

/-- The partition of a core whose shelf a debugger may reach, for `n` bytes from an address. -/
def State.debugPart (s : State) (core a n : Nat) : Option Nat :=
  (s.partOf? core).filter fun p => s.full p && decide (a + n ≤ Config.shelfBytes)

/-- A strand as its partition's debugger sees it: that of a parked context lies in the shadow. -/
def State.debugStrand (s : State) (part core slot : Nat) : Option Strand :=
  let k := s.core core
  (if (s.part part).pstat = .parked then k.parked else k.ctx).strands.at? slot

/-- Change it. -/
def State.setDebugStrand (s : State) (part core slot : Nat) (t : Strand) : State :=
  s.modCore core fun k =>
    let put (x : Context) : Context := { x with strands := x.strands.put slot t }
    if (s.part part).pstat = .parked then { k with parked := put k.parked } else { k with ctx := put k.ctx }

/-- The strand of a slot whose registers a debugger may reach, with its partition (R283). -/
def State.debugged (s : State) (core slot : Nat) : Option (Nat × Strand) :=
  ((s.partOf? core).filter s.full).bind fun p => (s.debugStrand p core slot).map fun t => (p, t)

/-- HOST_DEBUG_ACCESS (R283). -/
def execHostDebugAccess (d : DebugAccess) (s : State) : Result :=
  .next (match d with
    | .readShelf c a n =>
      match s.debugPart c.val a n with
      | some p => s.answer false ((s.debugShelf p c.val).bytes a n)
      | none => s.answer true []
    | .writeShelf c a bs =>
      match s.debugPart c.val a bs.length with
      | some p => (s.modDebugShelf p c.val fun m => m.putBytes a bs).answer false []
      | none => s.answer true []
    | .readHarbour p a n =>
      if s.full p.val && (s.part p.val).inWindow a n then s.answer false (s.homeBytes a n) else s.answer true []
    | .writeHarbour p a bs =>
      if s.full p.val && (s.part p.val).inWindow a bs.length then (s.homeWrite a bs).answer false []
      else s.answer true []
    | .readCsr p c =>
      match (if s.full p.val then s.partCsr? p.val c.val else none) with
      | some v => s.answer false (bytesOf 8 v.toNat)
      | none => s.answer true []
    | .writeCsr p c v =>
      match (if s.full p.val then s.setPartCsr? p.val c.val v else none) with
      | some s => s.answer false []
      | none => s.answer true []
    | .readStrandCsr c k n =>
      match (s.debugged c.val k.val).bind fun d => d.2.csr? true n.val with
      | some v => s.answer false (bytesOf 8 v.toNat)
      | none => s.answer true []
    | .writeStrandCsr c k n v =>
      match (s.debugged c.val k.val).bind fun d => (d.2.setCsr? true v n.val).map fun t => (d.1, t) with
      | some (p, t) => (s.setDebugStrand p c.val k.val t).answer false []
      | none => s.answer true [])

/-! ## Clocks and commits -/

/-- CORE_CLOCKS (R289). -/
def execCoreClocks (n : Nat) (s : State) : Result := .next ((s.passClocks n).applyWaiting)

/-- TOPOCMT_WRITE (R263). -/
def execTopocmtWrite (part : Fin 16) (v : BitVec 16) (s : State) : Result := .next (s.topoWrite part.val v)

/-! ## What software outside the model does (log 1) -/

/-- A graph is launched for a partition, as by LAUNCH (R222). -/
def State.launchFor (s : State) (part g : Nat) : State :=
  let g := g % 2 ^ 30
  if g % 64 = 0 && (s.part part).inWindow g 64 && !(s.gstate g).testBit 0 && !s.badGraph part g &&
      s.mgmt.lifecycle != .retired && (s.part part).halves != 0 then
    (s.startGraph part g).trace part 6 0xFFFF 0 (generic g) 0
  else s

end Sys2Proof.Machine
end

