-- ==== Sys2Proof/Machine/Tiles.lean ====
section
/-!
DEFINITION. Tiles and what writes them: TLD, TSTR, TZERO, TCVT, TQNT (R106, R107, R109 to R114, R127, R148 to
R150, R473, R474, R482 to R487, R490, R491), with scale allocation and binding (R118, R119, R125).
-/

namespace Sys2Proof.Machine

/-! ## Allocation and binding -/

/-- Go on with an allocation for scale register `d`, wait, or take SCALEEXHAUST (R125). One that waits is counted once (event
0x14 of Table 12-5). -/
def State.allocating (s : State) (d : Nat) (body : State → State) : State :=
  match (s.ctx s.cur.core).canAlloc s.myWg (s.me.sregs.at? d) with
  | .ready => body s
  | .wait => (match s.mySplit.stall with | .scales _ => s | _ => s.count s.cur.core 0x14 1).hold (.scales d)
  | .exhausted => s.takeTrap { code := .scaleexhaust, d0 := s.myWg.pool.length }

/-- Write a scale register of the issuing strand (R118). -/
def State.putScales (s : State) (d : Nat) (data : List (BitVec 16)) : State :=
  s.modCtx s.cur.core fun x => x.writeScale s.cur.slot d data

/-- Geometry code of a width class (Table 5-3). -/
def geomOf (wide : Bool) : Word := if wide then 0x00202002#32 else 0x00204001#32

/-- A tile register of a workgroup. -/
def Workgroup.tile (w : Workgroup) (n : Nat) : Tile := w.tiles.read {} n
/-- A tile register of the issuing strand's workgroup. -/
def State.tile (s : State) (n : Nat) : Tile := s.myWg.tile n
/-- Write a tile register. -/
def State.setTile (s : State) (n : Nat) (t : Tile) : State := s.modMyWg fun w => { w with tiles := w.tiles.put n t }

/-- Drop a tile's reference, if it has a current one (R117). -/
def Context.dropBinding (x : Context) (t : Tile) : Context := if t.bound then x.dropRef t.tag else x

/-- Bind a tile by a tag (R119): a current tag gains a reference before the tile's old one goes. DESIGN CHOICE, unsafe (log
55): so does a current tag of an entry in another workgroup's pool. -/
def State.bind (s : State) (n : Nat) (tag : BitVec 16) : State :=
  let t := s.tile n
  let s := s.modCtx s.cur.core fun x =>
    (if x.current tag then x.addRef tag else x).dropBinding t
  s.setTile n { t with bound := true, tag, geom := geomOf t.efmt.wide }

/-- Write a scale register and bind a tile to the new entry (R119, R127). -/
def State.bindFresh (s : State) (n d : Nat) (data : List (BitVec 16)) : State :=
  let s := s.putScales d data
  match s.me.sregs.at? d with
  | some tag => s.bind n tag
  | none => s

/-! ## Tile contents -/

/-- Columns of a width class (R109). -/
def Fmt.cols (f : Fmt) : Nat := if f.wide then 32 else 64

/-- The bytes of a tile, each element from its row and column; padding is zero (R106, R109). -/
def tileData (f : Fmt) (rowv : BitVec 32) (colv : BitVec 64) (elem : Nat → Nat → Nat) : Store Byte :=
  Store.listed 0 0 ((List.range 32).flatMap fun r => (List.range (Fmt.cols f)).flatMap fun c =>
    bytesOf (if f.wide then 2 else 1) (if rowv.getLsbD r && colv.getLsbD c then elem r c else 0))

/-- The zero bitmap of a tile (R112). -/
def Tile.bitmap (t : Tile) : Store Word :=
  let wide := t.efmt.wide
  Store.listed 0 0 ((List.range (if wide then 32 else 64)).map fun b =>
    BitVec.ofNat 32 ((List.range 32).foldl (fun n k =>
      let (r, c) := if wide then (b, k) else (b / 2, 32 * (b % 2) + k)
      if t.valid r c && presentElem t.efmt (t.elem wide r c) then n + 2 ^ k else n) 0))

/-- Write the contents of a tile: the binding is kept, the bitmap is computed or marked invalid
(Table 5-2). -/
def Tile.rewrite (t : Tile) (f : Fmt) (rowv : BitVec 32) (colv : BitVec 64) (zb : Bool)
    (elem : Nat → Nat → Nat) : Tile :=
  let t := { t with data := tileData f rowv colv elem, efmt := f, rowv, colv, zbv := zb }
  if zb then { t with zbm := t.bitmap } else t

/-- Bytes of a tile image (R484). -/
def imageBytes (f : Fmt) : Nat := 32 * slotRow f

/-- The low `n` columns. -/
def colMask (n : Nat) : BitVec 64 := BitVec.ofNat 64 (2 ^ min n 64 - 1)

/-! ## TLD (R482 to R486) -/

/-- A shape operand is refused (R483). -/
def badShape (v : Nat) : Bool :=
  bits v 63 44 != 0 || v.testBit 39 ||
  match Fmt.ofCode (bits v 43 40) with
  | none => true
  | some f => f == .fp32 || Fmt.cols f < bits v 38 32

/-- The effect of a load on a tile: the image lies at a shelf address. -/
def State.loadTile (s : State) (n : Nat) (f : Fmt) (rowv : BitVec 32) (colv : BitVec 64) (zb : Bool) (a : Nat) : State :=
  s.setTile n ((s.tile n).rewrite f rowv colv zb (ringElem f (s.shelf s.cur.core) a))

/-- TLD and TLD.ZB (R484). -/
def State.tld (s : State) (t : TReg) (a b : XReg) (zb : Bool) : State :=
  s.issue false [.tile t.val] fun s =>
    let v := s.xn b.val
    let f := (Fmt.ofCode (bits v 43 40)).getD .l6
    s.check (s.badValue (badShape v)) fun s =>
    s.check (s.shelfRanges [(s.xn a.val, imageBytes f)] 16 true false) fun s =>
    s.passing .lds fun s => s.unlocked [.tile t.val] fun s =>
    (s.loadTile t.val f (BitVec.ofNat 32 v) (colMask (bits v 38 32)) zb (s.xn a.val)).retire

/-- 64 scales from 128 shelf bytes (R111). -/
def State.shelfScales (s : State) (a : Nat) : List (BitVec 16) :=
  (List.range 64).map fun b => BitVec.ofNat 16 ((s.shelf s.cur.core).load (a + 2 * b) 2)

/-- TLD.SC and TLD.SC.ZB (R127, R485). -/
def State.tldSc (s : State) (t : TReg) (m : SReg) (a b : XReg) (zb : Bool) : State :=
  s.issue false [.tile t.val] fun s =>
    let code := fmtB s.fmt
    let f := (Fmt.ofCode code).getD .l6
    s.check (s.badValue (code == 0 || 5 < code)) fun s =>
    s.check (s.shelfRanges [(s.xn a.val, imageBytes f), (s.xn b.val, 128)] 16 true false) fun s =>
    s.passing .lds fun s => s.unlocked [.tile t.val] fun s =>
    s.allocating m.val fun s =>
    let scales := s.shelfScales (s.xn b.val)
    ((s.loadTile t.val f 0xFFFFFFFF#32 (colMask (Fmt.cols f)) zb (s.xn a.val)).bindFresh t.val m.val scales).retire

/-- TLD (R484). -/
def execTld (t : TReg) (a b : XReg) (s : State) : Result := .next (s.tld t a b false)
/-- TLD.ZB (R484). -/
def execTldZb (t : TReg) (a b : XReg) (s : State) : Result := .next (s.tld t a b true)
/-- TLD.SC (R485). -/
def execTldSc (t : TReg) (m : SReg) (a b : XReg) (s : State) : Result := .next (s.tldSc t m a b false)
/-- TLD.SC.ZB (R485). -/
def execTldScZb (t : TReg) (m : SReg) (a b : XReg) (s : State) : Result := .next (s.tldSc t m a b true)

/-! ## TSTR, TZERO -/

/-- The tile image of a tile: padding is zero, L6 is packed (R484, R490). -/
def Tile.image (t : Tile) : List Byte :=
  let f := t.efmt
  let e (r c : Nat) : Nat := if t.valid r c then t.elem f.wide r c else 0
  (List.range 32).flatMap fun r =>
    if f = .l6 then (List.range 4).flatMap fun g =>
      bytesOf 12 ((List.range 16).foldl (fun n k => n + e r (16 * g + k) % 64 * 2 ^ (6 * k)) 0)
    else (List.range (Fmt.cols f)).flatMap fun c => bytesOf (if f.wide then 2 else 1) (e r c)

/-- TSTR (R490). -/
def execTstr (x : XReg) (t : TReg) (s : State) : Result :=
  .next (s.issue false [.tile t.val] fun s =>
    let a := s.xn x.val
    s.check (s.shelfRanges [(a, imageBytes (s.tile t.val).efmt)] 16 false true) fun s =>
    s.passing .sts fun s =>
    (s.modShelf s.cur.core fun m => m.putBytes a (s.tile t.val).image).retire)

/-- TZERO (R491). -/
def execTzero (t : TReg) (s : State) : Result :=
  .next (s.issue false [.tile t.val] fun s => s.unlocked [.tile t.val] fun s =>
    let u := s.tile t.val
    (s.setTile t.val { u with
      data := [], rowv := 0xFFFFFFFF#32, colv := colMask (Fmt.cols u.efmt), zbv := false }).retire)

/-! ## TCVT (R473, R474) -/

/-- TCVT and TCVT.ZB (R474). -/
def State.tcvt (s : State) (n m : TReg) (f : Fmt) (zb : Bool) : State :=
  s.issue false [.tile n.val, .tile m.val] fun s => s.unlocked [.tile n.val] fun s =>
    let src := s.tile m.val
    let w := min (Fmt.cols src.efmt) (Fmt.cols f)
    let conv (r c : Nat) : Nat × Flags :=
      if c < w && src.valid r c then convert (s.rm none) (s.ftz false) f src.efmt (src.elem src.efmt.wide r c) else (0, 0)
    let fl := (List.range 32).foldl (fun (g : Flags) r => (List.range w).foldl (fun g c => g ||| (conv r c).2) g) 0
    let t := (s.tile n.val).rewrite f src.rowv (src.colv &&& colMask w) zb fun r c => (conv r c).1
    ((s.setTile n.val t).flags fl).retire

/-- TCVT (R474). -/
def execTcvt (n m : TReg) (f : Fmt) (s : State) : Result := .next (s.tcvt n m f false)
/-- TCVT.ZB (R474). -/
def execTcvtZb (n m : TReg) (f : Fmt) (s : State) : Result := .next (s.tcvt n m f true)

/-! ## TQNT (R107, R150, R487) -/

/-- The largest code of a target of TQNT, and the value it stands for as mantissa and exponent. -/
def vmax (f : Fmt) : Nat × Int :=
  let c := match f with
    | .l6 => 31 | .l8 => 127 | _ => 0x7E
  match (f.decode c).1 with
  | .fin _ m e => (m, e)
  | _ => (1, 0)

/-- The block scale for a largest magnitude, and SC if it is clamped (R107, step 3). -/
def blockScale (f : Fmt) (m : Num) : Nat × Flags :=
  match m with
  | .inf _ => (0x7F7F, flagSC)
  | .nan _ => (bf16One, 0)
  | .fin _ n e =>
    if n = 0 then (bf16One, 0)
    else
      let (d, q) := vmax f
      let (s, _) := Fmt.bf16.roundQuot .ru false false n d (e - q)
      if 0x7F7F < s then (0x7F7F, flagSC) else (s, 0)

/-- An element divided by the scale, in the target format (R107, step 4). -/
def quantise (f : Fmt) (rm : Rm) (ftz : Bool) (s : Nat) (x : Num) : Nat × Flags :=
  match x, (Fmt.bf16.decode s).1 with
  | .fin neg m e, .fin _ d q => f.roundQuot rm ftz neg m d (e - q)
  | x, _ => f.round rm ftz x

/-- The larger of two magnitudes, NaN left out. -/
def maxMag (a b : Num) : Num := if b.isNan then a else if a.magLt b then b else a

/-- A block of 32 accumulator elements, an invalid one none: scale, codes, flags (R107). -/
def quantBlock (f : Fmt) (rm : Rm) (ftz : Bool) (xs : List (Option Nat)) : Nat × List Nat × Flags :=
  let vs := xs.map fun x => x.map fun v => (Fmt.fp32.src ftz v).1
  let m := vs.foldl (fun m v => match v with
    | some v => maxMag m v
    | none => m) (Num.zero false)
  let (s, sc) := blockScale f m
  let rs := vs.map fun v => match v with
    | some v => quantise f rm ftz s v
    | none => (0, 0)
  (s, rs.map (·.1), rs.foldl (fun (g : Flags) r => g ||| r.2) sc)

/-- An element of an accumulator. -/
def Strand.acc (t : Strand) (a i j : Nat) : Nat := (Store.read 0 t.accs (1024 * a + 32 * i + j)).toNat

/-- Go on once no matrix operation of the strand has an accumulator as its target (R139). -/
def State.afterAcc (s : State) (a : Nat) (body : State → State) : State := s.unlocked [.acc a] body

/-- TQNT (R150, R487). DESIGN CHOICE, unsafe (log 52): the tile and the accumulators, which share field a, are checked for
REGRANGE in that order. -/
def State.tqnt (s : State) (f : Fmt) (zb : Bool) (t : TReg) (k : PReg) (sx : SReg) (x : XReg) : State :=
  let a := 2 * k.val
  s.issue false [.tile t.val, .acc a, .acc (a + 1)] fun s =>
    let v := s.xn x.val
    s.check s.divergent fun s =>
    s.check (s.badValue (64 < bits v 38 32)) fun s =>
    s.afterAcc a fun s => s.afterAcc (a + 1) fun s => s.unlocked [.tile t.val] fun s =>
    s.allocating sx.val fun s =>
    let rowv := BitVec.ofNat 32 v
    let colv := colMask (bits v 38 32)
    let qs := (List.range 64).map fun b => quantBlock f (s.rm none) (s.ftz false)
      ((List.range 32).map fun n =>
        if rowv.getLsbD (b / 2) && colv.getLsbD (32 * (b % 2) + n) then some (s.me.acc (a + b % 2) (b / 2) n) else none)
    let codes := qs.map fun (q : Nat × List Nat × Flags) => q.2.1
    let elem (r c : Nat) : Nat := (codes.getD (2 * r + c / 32) []).getD (c % 32) 0
    let s := s.setTile t.val ((s.tile t.val).rewrite f rowv colv zb elem)
    let s := s.bindFresh t.val sx.val (qs.map fun (q : Nat × List Nat × Flags) => BitVec.ofNat 16 q.1)
    (s.flags (qs.foldl (fun (g : Flags) q => g ||| q.2.2) 0)).retire

/-- TQNT.L6 (R150). -/
def execTqntL6 (t : TReg) (k : PReg) (sx : SReg) (x : XReg) (s : State) : Result := .next (s.tqnt .l6 false t k sx x)
/-- TQNT.L6.ZB (R150). -/
def execTqntL6Zb (t : TReg) (k : PReg) (sx : SReg) (x : XReg) (s : State) : Result := .next (s.tqnt .l6 true t k sx x)
/-- TQNT.L8 (R150). -/
def execTqntL8 (t : TReg) (k : PReg) (sx : SReg) (x : XReg) (s : State) : Result := .next (s.tqnt .l8 false t k sx x)
/-- TQNT.L8.ZB (R150). -/
def execTqntL8Zb (t : TReg) (k : PReg) (sx : SReg) (x : XReg) (s : State) : Result := .next (s.tqnt .l8 true t k sx x)
/-- TQNT.F8 (R150). -/
def execTqntF8 (t : TReg) (k : PReg) (sx : SReg) (x : XReg) (s : State) : Result := .next (s.tqnt .f8 false t k sx x)
/-- TQNT.F8.ZB (R150). -/
def execTqntF8Zb (t : TReg) (k : PReg) (sx : SReg) (x : XReg) (s : State) : Result := .next (s.tqnt .f8 true t k sx x)

end Sys2Proof.Machine
end

