-- ==== Sys2Proof/Machine/MatrixIssue.lean ====
section
/-!
DEFINITION. Issuing matrix operations: MMA, MMX, its guarded and speculative forms, alone or jointly through
the rendezvous latch (R48 to R51, R132 to R137, R141 to R143, R147, R433 to R436), and the accumulator moves (R148,
R149, R354).
-/

namespace Sys2Proof.Machine

/-! ## What an operation is -/

/-- A matrix operation as its instruction gives it, the same for every member of a gang. -/
structure MatPlan where
  mmx : Bool
  spec : Bool
  guard : Option Nat
  keep : Bool
  /-- target accumulator -/
  acc : Nat
  /-- first vector field of A, or the uniform register of the A descriptor -/
  a : Nat
  /-- tile, or the uniform register of the B descriptor -/
  b : Nat
  deriving DecidableEq, Repr

/-- The stream descriptor that a uniform register of a strand names. -/
def State.streamAt (s : State) (core : Nat) (t : Strand) (x : Nat) : Stream :=
  .ofBytes ((s.shelf core).bytes (t.x x).toNat 32)

/-- What "the same tile that supplies B" compares (R48, R142). -/
def State.bKey (s : State) (p : MatPlan) : List Nat :=
  if p.mmx then (s.myShelf (s.xn p.b) 32).map (·.toNat) else [p.b]

/-- FMT of a split that waits or issues. -/
def State.fmtOf (s : State) (c : Cur) : Word := ((s.strand c.core c.slot).split c.entry).fmt

/-- The A operand of an MMA: lane `i` of register `r` at 32 r + i. -/
def Strand.regsA (t : Strand) (base : Nat) : Store Word :=
  (Store.range t.vregs (32 * base) (32 * base + 512)).map fun e => (e.1 - 32 * base, e.2)

/-- The A scale tag of a member, when ASC is set: none is unbound. -/
def Strand.tagA (t : Strand) (f : Word) : Option (BitVec 16) := t.sregs.at? (fmtAsr f)

/-- SCALESTALE of a member's A scales (R122). -/
def State.staleA (s : State) (c : Cur) : Option Trap :=
  let f := s.fmtOf c
  if !fmtAsc f then none
  else match (s.strand c.core c.slot).tagA f with
    | some tag => trapIf (!(s.ctx c.core).current tag) { code := .scalestale, d0 := tag.toNat }
    | none => some { code := .scalestale }

/-- SCALESTALE of the B tile (R122). -/
def State.staleB (s : State) (f : Word) (n : Nat) : Option Trap :=
  let t := s.tile n
  trapIf (fmtBsc f &&
      !(t.bound && (s.ctx s.cur.core).current t.tag && t.geom == geomOf t.efmt.wide))
    { code := .scalestale, d0 := t.tag.toNat, d1 := t.geom.toNat }

/-- Guard of a member. -/
def State.guardOfCur (s : State) (p : MatPlan) (c : Cur) : Guard :=
  match p.guard with
  | some g => (s.strand c.core c.slot).guard g
  | none => .isTrue

/-! ## Issue to the engine -/

/-- One member as it issues. -/
def State.member (s : State) (p : MatPlan) (c : Cur) (flight : Nat) (shadow : Option Nat) : MatMember :=
  let t := s.strand c.core c.slot
  let f := s.fmtOf c
  let tag := if fmtAsc f && !p.mmx then t.tagA f else none
  { slot := c.slot, uid := t.uid, flight, acc := p.acc, mask := c.act, fmt := f
    a := if p.mmx then [] else t.regsA (t.wb + p.a)
    abase := if p.mmx then 0 else t.wb + p.a
    slices := t.slices
    sa := (tag.map (s.ctx c.core).scalesOf).getD [], sentry := tag.map tagEntry
    stream := if p.mmx then some (s.streamAt c.core t p.a) else none
    guard := p.guard, shadow, gone := false, flg := 0 }

/-- Give a member a shadow that starts with its target's elements (R55). -/
def Context.openShadow (x : Context) (slot acc n : Nat) : Context :=
  let accs := ((x.strands.at? slot).map (·.accs)).getD []
  { x with
    shadowsUsed := x.shadowsUsed ++ [n]
    shadows := Store.paste 0 x.shadows (1024 * n) (Store.slice 0 accs (1024 * acc) 1024) }

/-- Members that run into a shadow at issue: those of a speculative form whose guard is unresolved. -/
def State.wantShadow (s : State) (p : MatPlan) (cs : List Cur) : List Cur :=
  if p.spec then cs.filter fun c => s.guardOfCur p c == .unresolved else []

/-- Put an operation of these members into the engine's queue: counters rise, locks are taken, shadows
given; a member whose guard is FALSE is discarded, and with all of them the operation completes at once (R53, R55, R137, R139,
R436). -/
def State.enqueue (s : State) (p : MatPlan) (cs : List Cur) : State :=
  let core := s.cur.core
  let w := s.myWg
  let tile := s.tile p.b
  let f := s.fmt
  let useB := !p.mmx && fmtBsc f
  let bst := if p.mmx then some (s.streamAt core s.me p.b) else none
  let want := (s.wantShadow p cs).map (·.slot)
  let held := (p.guard.isSome && !p.spec && cs.any fun c => s.guardOfCur p c == .unresolved) ||
    (p.spec && cs.length == 1 && !want.isEmpty && (s.ctx core).shadowsFree.isEmpty)
  let (id, s) := s.fresh
  let gang := s.me.gang
  let (ms, s) := cs.foldl (fun (r : List MatMember × State) c =>
    let (ms, s) := r
    let (fl, s) := s.fresh
    let s := s.modStrand core c.slot fun t => t.depart .mat fl
    if s.guardOfCur p c = .isFalse then (ms, s.modStrand core c.slot fun t => t.arrive fl)
    else
      let sh := if want.contains c.slot then (s.ctx core).shadowsFree.head? else none
      let m := s.member p c fl sh
      let s := match sh with
        | some n => s.modCtx core fun x => x.openShadow c.slot p.acc n
        | none => s
      (ms ++ [m], s)) ([], s)
  let o : MatOp :=
    { id, run := w.run, pc := s.cur.pc, mmx := p.mmx, spec := p.spec, word := s.cur.word, gang, members := ms, wg := w.id
      btile := if p.mmx then none else some (p.b, tile)
      bentry := if useB then some (tagEntry tile.tag) else none
      sb := if useB then (s.ctx core).scalesOf tile.tag else []
      bstream := bst, step := 0, nstep := match bst with
        | some d => d.nstep
        | none => 1
      held, stopped := false, holders := [], joining := none, finished := false }
  if ms.isEmpty then s.traceMmx core o 2
  else (s.modCtx core fun x => { x with queue := x.queue ++ [o] }).traceMmx core o 0

/-- The keep latch after an MMA (R71). -/
def State.setKeep (s : State) (p : MatPlan) (c : Cur) : State :=
  if p.mmx then s
  else
    let f := s.fmtOf c
    s.modStrand c.core c.slot fun t => { t with keep := if p.keep then some (t.wb + p.a, fmtA f) else none }

/-- A member that waited goes on to its next instruction. -/
def State.letGo (s : State) (c : Cur) : State :=
  let t := s.strand c.core c.slot
  s.as c fun s => s.retire.finish (!t.sup)

/-- Issue an operation for its members, the issuing strand among them. -/
def State.issueMat (s : State) (p : MatPlan) (cs : List Cur) : State :=
  let s := s.enqueue p cs
  let s := cs.foldl (fun s c => s.setKeep p c) s
  let s := (cs.filter fun c => c.slot != s.cur.slot).foldl State.letGo s
  s.retire

/-! ## The rendezvous latch (R48 to R50) -/

/-- The strands of a workgroup that have ended, among those a gang lists. -/
def State.endedMember (s : State) : Option Nat :=
  let x := s.ctx s.cur.core
  (gangList s.me.gang).find? fun k => !x.strands.any fun e => e.2.wg == s.me.wg && e.2.index == k

/-- Set the latches of the issuing core. -/
def State.setLatches (s : State) (f : List Latch → List Latch) : State :=
  s.modCtx s.cur.core fun x => { x with latches := f x.latches }

/-- A latch of the workgroup that records a mismatch which the issuing strand has still to take. -/
def State.pendingMismatch (s : State) : Option Latch :=
  (s.ctx s.cur.core).latches.find? fun l =>
    l.wg == s.me.wg && (match l.mismatch with | some k => k.contains s.me.index | none => false)

/-- Take the mismatch that a latch records; it clears with the last strand (R49). -/
def State.takeMismatch (s : State) (l : Latch) : State :=
  let i := s.me.index
  let wg := s.me.wg
  let s := s.setLatches fun ls => (ls.map fun (m : Latch) =>
    if m.wg == wg && (match m.mismatch with | some k => k.contains i | none => false)
    then { m with mismatch := m.mismatch.map fun k => k.filter (· != i) } else m).filter fun m =>
      !(m.mismatch == some [])
  s.takeTrap { code := .gangmismatch, d0 := s.me.gang.toNat, d1 := l.word.toNat }

/-- Two gang registers list a common strand. -/
def overlapping (a b : DWord) : Bool := (gangList a).any (gangList b).contains

/-- Everyone in some latches, and the arriving strand, takes GANGMISMATCH; what is left of the union of the
listed strands is recorded (R49). -/
def State.mismatch (s : State) (met : List Latch) : State :=
  let union := (gangList s.me.gang ++ met.flatMap fun l => gangList l.gang).eraseDups
  let waiting := met.flatMap (·.waiting)
  let taken := s.me.index :: waiting.map fun c => (s.strand c.core c.slot).index
  let rest := union.filter fun k => !taken.contains k
  let word := (met.head?.map (·.word)).getD 0
  let wg := s.me.wg
  let gang := s.me.gang
  let s := s.setLatches fun ls => ls.filter (fun l => !met.contains l) ++
    (if rest.isEmpty then [] else
      [{ wg, word, fields := 0, gang, bkey := [], waiting := [], mismatch := some rest }])
  let tr (s : State) : Trap := { code := .gangmismatch, d0 := s.me.gang.toNat, d1 := word.toNat }
  let s := waiting.foldl (fun s c => s.as c fun s => s.takeTrap (tr s)) s
  s.takeTrap (tr s)

/-- Members of a complete latch leave it as they trap; the others wait on (R124). -/
def State.staleMembers (s : State) (bad : List (Cur × Trap)) : State :=
  let me := s.cur.slot
  let s := (bad.filter fun b => b.1.slot != me).foldl (fun s b =>
    (s.modCtx b.1.core fun x => x.leaveLatch b.1.slot).as b.1 fun s => s.takeTrap b.2) s
  match bad.find? fun b => b.1.slot == me with
  | some b => (s.modCtx s.cur.core fun x => x.leaveLatch me).takeTrap b.2
  | none => s.hold .latch

/-- SCALESTALE of the members of an operation: of B for all, else of A for those it concerns (R124). DESIGN CHOICE, unsafe
(log 72): a member for which both fail reports its A scales. -/
def State.stale (s : State) (p : MatPlan) (cs : List Cur) : List (Cur × Trap) :=
  if p.mmx then []
  else
    let as := cs.filterMap fun c => (s.staleA c).map fun t => (c, t)
    match s.staleB s.fmt p.b with
    | some t => cs.map fun c => (c, (s.staleA c).getD t)
    | none => as

/-- Every listed member waits in the latch, or is the one that arrives: issue, unless scales are stale or
shadows are short (R48, R124, R147). -/
def State.meet (s : State) (p : MatPlan) (cs : List Cur) : State :=
  match s.stale p cs with
  | [] =>
    if p.spec && (s.ctx s.cur.core).shadowsFree.length < (s.wantShadow p cs).length then s.hold .shadow
    else
      let slots := cs.map (·.slot)
      (s.setLatches fun ls => ls.filter fun l => !l.waiting.any fun c => slots.contains c.slot).issueMat p cs
  | bad => s.staleMembers bad

/-- Enter the latch (R48, R49). -/
def State.enterLatch (s : State) (p : MatPlan) : State :=
  match s.pendingMismatch with
  | some l => s.takeMismatch l
  | none =>
    match s.endedMember with
    | some k => s.takeTrap { code := .gangexit, d0 := k }
    | none =>
      let slot := s.cur.slot
      let s := s.modCtx s.cur.core fun x => x.leaveLatch slot
      let t := s.me
      let key := s.bKey p
      let met := (s.ctx s.cur.core).latches.filter fun l =>
        l.wg == t.wg && l.mismatch.isNone && overlapping l.gang t.gang
      let same (l : Latch) : Bool :=
        l.word == s.cur.word && l.fields == fmtFields s.fmt && l.gang == t.gang && l.bkey == key
      match met with
      | [] =>
        let l : Latch := { wg := t.wg, word := s.cur.word, fields := fmtFields s.fmt, gang := t.gang, bkey := key
                           waiting := [s.cur], mismatch := none }
        (s.setLatches (· ++ [l])).hold .latch
      | [l] =>
        if !same l then s.mismatch met
        else
          let all := l.waiting ++ [s.cur]
          let s := s.setLatches fun ls => ls.map fun m => if m = l then { m with waiting := all } else m
          let byIndex := (gangList t.gang).filterMap fun k =>
            all.find? fun c => (s.strand c.core c.slot).index == k
          if byIndex.length = (gangList t.gang).length then s.meet p byIndex else s.hold .latch
      | _ => s.mismatch met

/-- A speculative run holds an accumulator as its target until its guard resolves (R55). -/
def State.specLock (s : State) (a : Nat) : Bool :=
  (s.ctx s.cur.core).queue.any fun o => o.members.any fun m =>
    m.uid == s.me.uid && m.acc == a && !m.gone && (m.shadow.isSome || (o.spec && o.held))

/-- Issue a checked matrix operation: its own waits, then alone or through the latch (R138, R143, R181). -/
def State.matrix (s : State) (p : MatPlan) : State :=
  s.counted .mat fun s =>
  if s.specLock p.acc then s.hold (.acc p.acc)
  else if p.mmx && (s.ctx s.cur.core).mmxBusy s.me.uid then s.hold .mmx
  else if Config.matrixQueue ≤ (s.ctx s.cur.core).queue.length then s.hold .queue
  else if (gangList s.me.gang).isEmpty then
    match s.stale p [s.cur] with
    | b :: _ => s.takeTrap b.2
    | [] => s.issueMat p [s.cur]
  else s.enterLatch p

/-! ## MMA -/

/-- MMA (R136, R137). -/
def execMma (k : Bool) (d : AReg) (a : VReg) (t : TReg) (s : State) : Result :=
  .next (s.issue false [.acc d.val, vrs a 16, .tile t.val] fun s =>
    s.check s.divergent fun s =>
    s.check (s.badValue (match acceptedPair s.fmt with
      | some (_, fb) => fb != (s.tile t.val).efmt
      | none => true)) fun s =>
    s.matrix { mmx := false, spec := false, guard := none, keep := k, acc := d.val, a := a.val, b := t.val })

/-! ## MMX (R141, R142) -/

/-- ILLSTATE of the descriptors (R142, step 3). -/
def badStreams (f : Word) (a b : Stream) : Bool :=
  let ring (d : Stream) : Bool := d.slots == 0 || 64 < d.slots || d.slots ≤ d.first
  ring a || ring b || b.nstep == 0 || 1024 < b.nstep || (fmtAsc f && !a.scs) || (fmtBsc f && !b.scs)

/-- The rings in use of a stream: offset and bytes, read, write. -/
def Stream.rings (d : Stream) (f : Fmt) : List (Nat × Nat × Bool × Bool) :=
  [(d.data, d.slots * slotBytes f, true, false)]
  ++ (if d.scs then [(d.scale, d.slots * 128, true, false)] else [])
  ++ [(d.bar, d.slots * 16, true, false)]
  ++ (if d.rel then [(d.rbar, d.slots * 16, true, true)] else [])

/-- MISALIGN, then SHELFRANGE, of rings (R142, step 4). -/
def ringTrap (rs : List (Nat × Nat × Bool × Bool)) : Option Trap :=
  firstTrap (rs.map fun r => trapIf (r.1 % 16 != 0) (rangeTrap .misalign r.1 r.2.1 r.2.2.1 r.2.2.2))
  <|> firstTrap (rs.map fun r =>
    trapIf (Config.shelfBytes < r.1 + r.2.1) (rangeTrap .shelfrange r.1 r.2.1 r.2.2.1 r.2.2.2))

/-- The three forms of MMX. -/
def State.mmxForm (s : State) (d : AReg) (a b : XReg) (guard : Option GReg) (spec : Bool) : State :=
  s.issue false [.acc d.val] fun s =>
    s.check s.divergent fun s =>
    s.check (s.shelfRanges [(s.xn a.val, 32), (s.xn b.val, 32)] 16 true false) fun s =>
    let da := s.streamAt s.cur.core s.me a.val
    let db := s.streamAt s.cur.core s.me b.val
    let fa := (Fmt.ofCode (fmtA s.fmt)).getD .fp32
    let fb := (Fmt.ofCode (fmtB s.fmt)).getD .fp32
    s.check (s.badValue (badStreams s.fmt da db)) fun s =>
    s.check (ringTrap (da.rings fa ++ db.rings fb)) fun s =>
    s.check (s.badValue (acceptedPair s.fmt).isNone) fun s =>
    s.matrix { mmx := true, spec, guard := guardArg guard, keep := false, acc := d.val, a := a.val, b := b.val }

/-- MMX (R435). -/
def execMmx (d : AReg) (a b : XReg) (s : State) : Result := .next (s.mmxForm d a b none false)
/-- MMX with a guard (R436). -/
def execMmxGuard (d : AReg) (g : GReg) (a b : XReg) (s : State) : Result := .next (s.mmxForm d a b (some g) false)
/-- MMX.SPEC (R436). -/
def execMmxSpec (d : AReg) (g : GReg) (a b : XReg) (s : State) : Result := .next (s.mmxForm d a b (some g) true)

/-! ## Accumulator moves (R148, R149, R354) -/

/-- Write elements of an accumulator, in order from element (0, 0). -/
def Strand.setAcc (t : Strand) (a : Nat) (vs : List Word) : Strand := { t with accs := Store.paste 0 t.accs (1024 * a) vs }
/-- The 1,024 elements of an accumulator. -/
def Strand.accList (t : Strand) (a : Nat) : List Word := Store.slice 0 t.accs (1024 * a) 1024

/-- ACCZ (R354). -/
def execAccz (d : AReg) (s : State) : Result :=
  .next (s.issue false [.acc d.val] fun s => s.check s.divergent fun s => s.unlocked [.acc d.val] fun s =>
    (s.modMe fun t => t.setAcc d.val (List.replicate 1024 0)).retire)

/-- Registers that ACCRD writes (R135). -/
def accRegs (f : Fmt) : Nat := if f = .fp32 then 32 else if f.wide then 16 else 8

/-- An element as ACCRD converts it (R149). -/
def accConvert (f : Fmt) (rm : Rm) (ftz : Bool) (x : Nat) : Nat × Flags :=
  if f = .fp32 then (if ftz && Fmt.fp32.isSubnormal x then x / 2 ^ 31 * 2 ^ 31 else x, 0) else convert rm ftz f .fp32 x

/-- Register `r` of a packed row (R149). -/
def packRow (f : Fmt) (r : Nat) (e : Nat → Nat) : Nat :=
  if f = .fp32 then e r
  else if f.wide then e (2 * r) + e (2 * r + 1) * 2 ^ 16
  else (List.range 4).foldl (fun n k => n + e (4 * r + k) * 2 ^ (8 * k)) 0

/-- ACCRD (R149, R354). -/
def execAccrd (d : VReg) (a : AReg) (s : State) : Result :=
  let f := (Fmt.ofCode (fmtO s.fmt)).getD .fp32
  let regs := vrs d (accRegs f)
  .next (s.issue false [regs, .acc a.val] fun s => s.check s.divergent fun s => s.afterAcc a.val fun s =>
    s.unlocked [regs] fun s =>
    let conv (l j : Nat) : Nat × Flags := accConvert f (s.rm none) (s.ftz false) (s.me.acc a.val l j)
    let out := (List.range (accRegs f)).foldl (fun (t : State) r =>
      t.putV (d.val + r) fun l => BitVec.ofNat 32 (packRow f r fun j => (conv l j).1)) s
    (out.flags (s.laneFlags fun l => (List.range 32).foldl (fun (g : Flags) j => g ||| (conv l j).2) 0)).retire)

/-- ACCWR (R354). -/
def execAccwr (d : AReg) (a : VReg) (s : State) : Result :=
  .next (s.issue false [.acc d.val, vrs a 32] fun s => s.check s.divergent fun s => s.afterAcc d.val fun s =>
    let old := s.me.accList d.val
    let new := (old.zipIdx).map fun (w, k) =>
      if s.cur.act.getLsbD (k / 32) then s.v (a.val + k % 32) (k / 32) else w
    (s.modMe fun t => t.setAcc d.val new).retire)

/-- ACCLD (R354). -/
def execAccld (d : AReg) (x : XReg) (imm : Fin 128) (s : State) : Result :=
  .next (s.issue false [.acc d.val] fun s => s.check s.divergent fun s =>
    let o := s.xn x.val + 128 * imm.val
    s.check (s.shelfRangeCheck o 4096 128 true false) fun s =>
    s.passing .lds fun s => s.unlocked [.acc d.val] fun s =>
    let shelf := s.shelf s.cur.core
    (s.modMe fun t => t.setAcc d.val ((List.range 1024).map fun k => BitVec.ofNat 32 (shelf.load (o + 4 * k) 4))).retire)

/-- ACCST (R354). -/
def execAccst (d : AReg) (x : XReg) (imm : Fin 128) (s : State) : Result :=
  .next (s.issue false [.acc d.val] fun s => s.check s.divergent fun s =>
    let o := s.xn x.val + 128 * imm.val
    s.check (s.shelfRangeCheck o 4096 128 false true) fun s =>
    s.passing .sts fun s => s.afterAcc d.val fun s =>
    (s.modShelf s.cur.core fun m => m.putBytes o ((s.me.accList d.val).flatMap fun w => bytesOf 4 w.toNat)).retire)

end Sys2Proof.Machine
end

