-- ==== Sys2Proof/Machine/Images.lean ====
section
/-!
DEFINITION. Strand images and tile images: what CTXST writes and CTXLD restores (R78 to R83, R131, R145, R379 to
R383, Tables 3-7, 3-8, 6-4, 18-10, 18-11).
-/

namespace Sys2Proof.Machine

/-! ## Writing (R380) -/

/-- 64 scales as 128 bytes; missing ones are zero. -/
def scaleBytes (d : List (BitVec 16)) : List Byte := (List.range 64).flatMap fun k => bytesOf 2 (d.getD k 0).toNat

/-- `n` bytes of zero. -/
def zeros (n : Nat) : List Byte := List.replicate n 0

/-- The record of a tile (Table 3-8); a binding that is not usable is saved as unbound (R131). -/
def Context.tileRecord (x : Context) (t : Tile) : List Byte :=
  let live := t.bound && x.current t.tag
  Mem.bytes t.data 0 2048
  ++ (if live then scaleBytes (x.scalesOf t.tag) else zeros 128)
  ++ (Store.slice 0 t.zbm 0 64).flatMap (fun w => bytesOf 4 w.toNat)
  ++ bytesOf 2 (if live then t.tag.toNat else 0) ++ bytesOf 2 (flag live + flag t.zbv * 2)
  ++ bytesOf 4 (if live then t.geom.toNat else 0) ++ bytesOf 4 t.rowv.toNat
  ++ bytesOf 1 t.efmt.code ++ zeros 3 ++ bytesOf 8 t.colv.toNat ++ zeros 104

/-- The tile image of a workgroup (R80). -/
def Context.tileImage (x : Context) (w : Workgroup) : List Byte :=
  (List.range w.ntiles).flatMap fun n => x.tileRecord (w.tile n)

/-- The MMX of a strand that has rounds left, with its member (R143). -/
def Context.runningMmx (x : Context) (uid : Nat) : Option (MatOp × MatMember) :=
  x.queue.findSome? fun o =>
    if o.mmx && !o.finished then (o.members.find? fun m => m.uid == uid && !m.gone).map fun m => (o, m) else none

/-- MMX sequencer state (Table 6-4). DEDUCED, unsafe (log 71): GUARDED is set as long as the guard still decides, that is
while the MMX is held or runs into a shadow; one that has been released goes on whatever its guard slot holds later (R52,
R146). -/
def Context.sequencer (x : Context) (uid : Nat) : List Byte :=
  match x.runningMmx uid with
  | none => zeros 128
  | some (o, m) =>
    padTo 32 ((m.stream.map (·.image)).getD []) ++ padTo 32 ((o.bstream.map (·.image)).getD [])
    ++ bytesOf 4 o.word.toNat ++ bytesOf 2 o.step ++ bytesOf 1 (1 + flag o.spec * 2 + flag (m.guard.isSome && (o.held || m.shadow.isSome)) * 4)
    ++ bytesOf 1 (m.guard.getD 0) ++ bytesOf 4 m.fmt.toNat ++ zeros 4 ++ bytesOf 8 o.gang.toNat ++ zeros 40

/-- Scale registers S0 to S31: bound and tag, then contents (Table 3-7, R131). -/
def Context.scaleRegs (x : Context) (t : Strand) : List Byte :=
  let live (k : Nat) : Option (BitVec 16) := (t.sregs.at? k).filter x.current
  (List.range 32).flatMap (fun k => match live k with
    | some tag => bytesOf 4 (2 ^ 31 + tag.toNat)
    | none => zeros 4)
  ++ (List.range 32).flatMap fun k => match live k with
    | some tag => scaleBytes (x.scalesOf tag)
    | none => zeros 128

/-- Physical register `n` as an image holds it: lanes of released slices are zero (R79). -/
def Strand.imageV (t : Strand) (n : Nat) : List Byte :=
  (List.range 32).flatMap fun l => bytesOf 4 (if t.slices.getLsbD (l / 8) then (t.vphys n l).toNat else 0)

/-- Layout of a strand image, by its header: accumulators, pending shadows, allotment. -/
structure ImageSize where
  naccs : Nat
  nsh : Nat
  allot : Nat
  deriving DecidableEq, Repr

/-- Read from the first bytes of an image. -/
def ImageSize.ofBytes (b : List Byte) : ImageSize where
  naccs := field b 0x0F 1
  nsh := field b 0x10 1
  allot := field b 0x08 2

/-- VBASE (Table 3-7). -/
def ImageSize.vbase (z : ImageSize) : Nat := 0x1600 + (z.naccs + z.nsh) * 4096
/-- Bytes of a strand image (R78). -/
def ImageSize.bytes (z : ImageSize) : Nat := z.vbase + z.allot * 128

/-- The strand image: the control part with bit 1 at 0x004 set, then the live state, in the layout that the
control part gives. -/
def Context.strandImage (x : Context) (t : Strand) (c : List Byte) : List Byte :=
  let z := ImageSize.ofBytes c
  let sh := (x.pendingShadows t.uid).take z.nsh
  c.take 4 ++ bytesOf 1 3 ++ (c.drop 5).take 1019 ++ x.sequencer t.uid ++ x.scaleRegs t
  ++ padTo 64 (sh.flatMap fun r => bytesOf 4 (2 ^ 31 + r.1 % 8 * 2 ^ 8 + r.2.1 % 16)) ++ zeros 192
  ++ (Store.slice 0 t.accs 0 (1024 * z.naccs)).flatMap (fun w => bytesOf 4 w.toNat)
  ++ padTo (4096 * z.nsh)
      (sh.flatMap fun r => (Store.slice 0 x.shadows (1024 * r.2.2) 1024).flatMap fun w => bytesOf 4 w.toNat)
  ++ (List.range z.allot).flatMap t.imageV

/-! ## The checks of R379 -/

/-- ILLSTATE of a selector (Table 18-10). -/
def badSelector (v : Nat) (load : Bool) : Bool :=
  let kind := bits v 1 0
  let nt := bits v 20 16
  bits v 63 21 != 0 || bits v 15 9 != 0 || bits v 7 2 != 0 || 1 < kind ||
    (!load && (v.testBit 8 || nt != 0)) || (kind == 0 && nt != 0)

/-- SPACE, MISALIGN and HARBRANGE of an image (R379), then the comparators (R288). -/
def State.imageFaults (s : State) (a n : Nat) (load : Bool) : Option Trap :=
  s.harbourChecks [(0, a)] n 128 load (!load) false false

/-- The issuing strand's control area, as its core sees it. -/
def State.myControl (s : State) : List Byte := s.view s.cur.core (s.ctlArea s.cur.core s.cur.slot) 1024

/-! ## CTXST -/

/-- The issuing strand stops its running MMX, for all members (R380). -/
def State.stopMine (s : State) : State :=
  let uid := s.me.uid
  (s.ctx s.cur.core).queue.foldl (fun (s : State) o =>
    if o.mmx && !o.finished && o.members.any (·.uid == uid) && !o.holders.contains uid then
      let s := if o.isStopped then s else s.traceMmx s.cur.core o 1
      s.modCtx s.cur.core fun x => (x.postFlags o).modOp o.id fun p => { p with holders := p.holders ++ [uid] }
    else s) s

/-- Write an image: a release at PKG scope (R380). -/
def State.putImage (s : State) (a : Nat) (bs : List Byte) : State :=
  (s.release s.cur.core true).storeHome s.cur.core (harbourOf a) bs

/-- CTXST (R380). An MMX.SPEC whose steps are done and whose guard is unresolved is not waited for: its pending shadow is
saved (R147). -/
def execCtxst (a b : XReg) (s : State) : Result :=
  .next (s.issue true [] fun s =>
    let v := s.xn b.val
    let addr := s.xn a.val
    s.check (s.badValue (badSelector v false)) fun s =>
    if v.testBit 0 then
      s.check (s.imageFaults addr (2560 * s.myWg.ntiles) false) fun s => s.passing .sts fun s =>
      (s.putImage addr ((s.ctx s.cur.core).tileImage s.myWg)).retire
    else
      let c := s.myControl
      s.check (s.imageFaults addr (ImageSize.ofBytes c).bytes false) fun s => s.passing .sts fun s =>
      if (s.ctx s.cur.core).mmaBusy s.me.uid then s.hold .mma
      else s.afterReqs s.me.loading fun s =>
        let s := s.stopMine
        (s.putImage addr ((s.ctx s.cur.core).strandImage s.me c)).retire)

/-! ## Bindings of an image (R81, R381) -/

/-- A bound tile or scale register of an image: its number, the saved tag, the saved contents. -/
structure Saved where
  idx : Nat
  tag : Nat
  data : List (BitVec 16)
  deriving DecidableEq, Repr

/-- 64 scales from 128 bytes. -/
def scalesOfBytes (b : List Byte) : List (BitVec 16) := (List.range 64).map fun k => BitVec.ofNat 16 (field b (2 * k) 2)

/-- Bound scale registers of a strand image. -/
def savedScales (b : List Byte) : List Saved :=
  (List.range 32).filterMap fun k =>
    let w := field b (0x480 + 4 * k) 4
    if w.testBit 31 then some { idx := k, tag := w % 2 ^ 16, data := scalesOfBytes (b.drop (0x500 + 128 * k)) } else none

/-- Bound tiles of a tile image of `n` records. -/
def savedTiles (b : List Byte) (n : Nat) : List Saved :=
  (List.range n).filterMap fun k =>
    let r := (b.drop (2560 * k)).take 2560
    if (field r 0x982 2).testBit 0 then
      some { idx := k, tag := field r 0x980 2, data := scalesOfBytes (r.drop 0x800) } else none

/-- The fresh tag that a restore map gives a saved tag, if it is current (R381). -/
def Context.remapped (x : Context) (map : List (Nat × Nat)) (tag : Nat) : Option (BitVec 16) :=
  ((map.find? (·.1 == tag)).map fun p => BitVec.ofNat 16 p.2).filter x.current

/-- The distinct tags of an image that need a fresh entry, ascending (R381). -/
def Context.newTags (x : Context) (map : List (Nat × Nat)) (items : List Saved) : List Nat :=
  (sortBy (fun a b => decide (a ≤ b)) (items.map (·.tag)).eraseDups).filter fun t => (x.remapped map t).isNone

/-- Allocate and fill fresh entries for the new tags of an image, recorded in the restore map. -/
def Context.allocSaved (x : Context) (wg : Nat) (items : List Saved) : Context :=
  match x.wg? wg with
  | none => x
  | some w =>
    (x.newTags w.restore items).foldl (fun (x : Context) tag =>
      let data := ((items.find? (·.tag == tag)).map (·.data)).getD []
      let (x, new) := x.alloc wg data
      let x := x.setEntry (tagEntry new) { x.entry (tagEntry new) with refs := 0 }
      { x with wgs := x.wgs.map fun (w : Workgroup) =>
          if w.id = wg then { w with restore := w.restore.filter (·.1 != tag) ++ [(tag, new.toNat)] } else w }) x

/-- Count the bindings of an image: what each item is bound to (R81). -/
def Context.bindSaved (x : Context) (wg : Nat) (items : List Saved) : Context × List (Nat × BitVec 16) :=
  let map := ((x.wg? wg).map (·.restore)).getD []
  items.foldl (fun (r : Context × List (Nat × BitVec 16)) i =>
    match x.remapped map i.tag with
    | some tag => (r.1.addRef tag, r.2 ++ [(i.idx, tag)])
    | none => r) (x, [])

/-! ## CTXLD (R382) -/

/-- RESTORECAP with the number of the check that failed (Table 18-11). -/
def restoreCap (n : Nat) : Trap := { code := .restorecap, d0 := n }

/-- Check 5 of Table 18-11: new tags against the free entries of the pool. -/
def State.tooManyTags (s : State) (clearMap : Bool) (items : List Saved) : Bool :=
  let w := s.myWg
  decide (w.free.length < ((s.ctx s.cur.core).newTags (if clearMap then [] else w.restore) items).length)

/-- The group-slot bytes of an image differ from the strand's slots (check 7). -/
def Strand.otherSlots (t : Strand) (b : List Byte) : Bool :=
  (List.range 4).any fun k =>
    (field b 0x24 1).testBit k != (t.gslots.at? k).isSome ||
      (match t.gslots.at? k with | some e => field b (0x20 + k) 1 != e % 256 | none => false)

/-- A gang value lists a strand that a workgroup of `n` strands does not have (check 7, R146). -/
def foreignGang (g n : Nat) : Bool := (gangList (BitVec.ofNat 64 g)).any fun k => decide (n ≤ k)

/-- ACTIVE of an image's sequencer state (Table 6-4). -/
def imageActive (b : List Byte) : Bool := (field b 0x446 1).testBit 0

/-- The checks of a strand image, in order (Table 18-11). -/
def State.strandCap (s : State) (b : List Byte) (clearMap : Bool) : Option Trap :=
  let t := s.me
  let w := s.myWg
  let z := ImageSize.ofBytes b
  firstTrap [
    trapIf (field b 0 4 != 1 || !(field b 4 4).testBit 1) (restoreCap 8),
    trapIf (w.vregs < z.allot) (restoreCap 1),
    trapIf (w.naccs < z.naccs) (restoreCap 2),
    trapIf ((s.part t.part).depth < field b 0x0D 1) (restoreCap 3),
    trapIf (s.tooManyTags clearMap (savedScales b)) (restoreCap 5),
    trapIf ((s.ctx s.cur.core).shadowsFree.length < z.nsh) (restoreCap 6),
    trapIf (t.otherSlots b || foreignGang (field b 0x18 8) w.nstr ||
      (imageActive b && foreignGang (field b 0x450 8) w.nstr)) (restoreCap 7)]

/-- The checks of a tile image, in order. -/
def State.tileCap (s : State) (b : List Byte) (n : Nat) (clearMap : Bool) : Option Trap :=
  firstTrap [
    trapIf (s.myWg.ntiles < n) (restoreCap 4),
    trapIf (s.tooManyTags clearMap (savedTiles b n)) (restoreCap 5)]

/-- Clear the restore map, if NEWMAP says so (R381): a restore of the workgroup begins, in which no strand has returned
(R146, log 67). -/
def State.newMap (s : State) (clearMap : Bool) : State :=
  if clearMap then
    let wg := s.me.wg
    (s.modMyWg fun w => { w with restore := [] }).modCtx s.cur.core fun x => { x with
      strands := x.strands.map fun (e : Nat × Strand) => if e.2.wg = wg then (e.1, { e.2 with restored := none }) else e }
  else s

/-- The tile format of a record: only the codes 1 to 5 occur (R108); another code gives L6 (log 21). -/
def tileFmt (n : Nat) : Fmt := if n = 0 then .l6 else (Fmt.ofCode n).getD .l6

/-- A tile from its record, bound to a tag (Table 3-8). COLV bits that a 16-bit tile does not use are zero (R108). -/
def tileOf (r : List Byte) (tag : Option (BitVec 16)) : Tile where
  data := Store.listed 0 0 (r.take 2048)
  efmt := tileFmt (field r 0x98C 1)
  rowv := BitVec.ofNat 32 (field r 0x988 4)
  colv := BitVec.ofNat 64 (field r 0x990 (if (tileFmt (field r 0x98C 1)).wide then 4 else 8))
  zbm := Store.listed 0 0 ((List.range 64).map fun k => BitVec.ofNat 32 (field r (0x880 + 4 * k) 4))
  zbv := (field r 0x982 2).testBit 1
  bound := tag.isSome
  tag := tag.getD 0
  geom := if tag.isSome then BitVec.ofNat 32 (field r 0x984 4) else 0

/-- Restore a tile image of `n` records (R382). New references are counted before old ones go. -/
def State.loadTiles (s : State) (b : List Byte) (n : Nat) : State :=
  let core := s.cur.core
  let wg := s.me.wg
  let items := savedTiles b n
  let old := (List.range n).map s.tile
  let (x, bound) := ((s.ctx core).allocSaved wg items).bindSaved wg items
  let x := old.foldl Context.dropBinding x
  let s := s.modCtx core fun _ => x
  (List.range n).foldl (fun s k =>
    s.setTile k (tileOf ((b.drop (2560 * k)).take 2560) ((bound.find? (·.1 == k)).map (·.2)))) s

/-- Words from bytes. -/
def wordsOf (n : Nat) (b : List Byte) : List Word := (List.range n).map fun k => BitVec.ofNat 32 (field b (4 * k) 4)

/-- Pending shadows of an image: guard slot, target, place among its records. A record that is not valid holds none
(Table 3-7). -/
def imageShadows (b : List Byte) (n : Nat) : List ((Nat × Nat) × Nat) :=
  (List.range n).filterMap fun k =>
    let w := field b (0x1500 + 4 * k) 4
    if w.testBit 31 then some ((bits w 10 8, bits w 3 0), k) else none

/-- The MMX that an image's sequencer state and shadow records install (R382, R383): the running one with its
shadow if it has one, stopped until its strand returns; each further shadow as a finished one. -/
def State.installMmx (s : State) (b : List Byte) : State :=
  let core := s.cur.core
  let t := s.me
  let z := ImageSize.ofBytes b
  let word := BitVec.ofNat 32 (field b 0x440 4)
  let fl := field b 0x446 1
  let sa := Stream.ofBytes ((b.drop 0x400).take 32)
  let sb := Stream.ofBytes ((b.drop 0x420).take 32)
  let step := field b 0x444 2
  let acc := bits word.toNat 17 14
  let mk (s : State) (active : Bool) (guard : Option Nat) (acc : Nat) (shadow : Option Nat) : State :=
    let (id, s) := s.fresh
    let (f, s) := s.fresh
    let m : MatMember :=
      { slot := s.cur.slot, uid := t.uid, flight := f, acc, mask := 0xFFFFFFFF#32
        fmt := BitVec.ofNat 32 (field b 0x448 4), a := [], abase := 0, sa := [], sentry := none
        stream := some sa, guard, shadow, gone := false, flg := 0 }
    let o : MatOp :=
      { id, run := t.run, mmx := true, spec := fl.testBit 1 || !active, word
        gang := if active then BitVec.ofNat 64 (field b 0x450 8) else 0, members := [m], wg := t.wg, btile := none
        bentry := none, sb := [], bstream := some sb, step := if active then step else sb.nstep, nstep := sb.nstep
        held := active && guard.isSome && shadow.isNone, stopped := false, holders := []
        joining := if active then some false else none, finished := !active || sb.nstep ≤ step }
    (s.modMe fun t => t.depart .mat f).modCtx core fun x => { x with queue := x.queue ++ [o] }
  let take (s : State) (k : Nat) : Option Nat × State :=
    match (s.ctx core).shadowsFree.head? with
    | none => (none, s)
    | some n => (some n, s.modCtx core fun x => { x with
        shadowsUsed := x.shadowsUsed ++ [n]
        shadows := Store.paste 0 x.shadows (1024 * n) (wordsOf 1024 (b.drop (0x1600 + 4096 * (z.naccs + k)))) })
  let shs := imageShadows b z.nsh
  let own (r : (Nat × Nat) × Nat) : Bool := imageActive b && fl.testBit 1 && r.1.2 == acc
  let (mine, s) := match shs.find? own with
    | some r => take s r.2
    | none => (none, s)
  let s := if imageActive b then
    mk s true (if fl.testBit 2 then some (field b 0x447 1 % 8) else none) acc mine else s
  let rest := match shs.find? own with
    | some r => shs.filter fun (q : (Nat × Nat) × Nat) => q.2 != r.2
    | none => shs
  rest.foldl (fun (s : State) (r : (Nat × Nat) × Nat) =>
    let (n, s) := take s r.2
    mk s false (some r.1.1) r.1.2 n) s

/-- Restore a strand image (R382). -/
def State.loadStrand (s : State) (b : List Byte) : State :=
  let core := s.cur.core
  let z := ImageSize.ofBytes b
  let items := savedScales b
  let s := s.storeHome core (s.ctlArea core s.cur.slot) (b.take 1024)
  let old := s.me.sregs
  let (x, bound) := ((s.ctx core).allocSaved s.me.wg items).bindSaved s.me.wg items
  let x := old.foldl (fun x e => x.dropRef e.2) x
  let s := s.modCtx core fun _ => x
  let live := BitVec.ofNat 32 (field b 0x14 4)
  let s := s.modMySplit fun p => { p with mask := live }
  let s := s.modMe fun t =>
    let slices := t.slices &&& BitVec.ofNat 4 (field b 0x0C 1)
    let words := wordsOf (32 * z.allot) (b.drop z.vbase)
    { t with
      live, slices, allot := z.allot, keep := none
      vregs := (Store.listed 0 0 words).filter fun e => slices.getLsbD (e.1 % 32 / 8)
      accs := Store.listed 0 0 (wordsOf (1024 * z.naccs) (b.drop 0x1600))
      sregs := bound
      restored := some false }
  s.installMmx b

/-- Read an image at its home, as a PKG-scope acquire. -/
def State.getImage (s : State) (a n : Nat) : List Byte × State :=
  let s := s.acquire s.cur.core true
  (s.homeBytes (harbourOf a) n, s)

/-- Bytes of the image that CTXLD reads, by its header when the window holds that. The header is read as the image is:
at its home, behind the core's own write-backs (R382). -/
def State.loadSize (s : State) (a : Nat) : Nat :=
  if (s.harbourFaults [(0, a)] 1024 128 true false false false).isSome then 1024
  else (ImageSize.ofBytes ((s.acquire s.cur.core true).homeBytes (harbourOf a) 64)).bytes

/-- CTXLD (R381, R382). -/
def execCtxld (a b : XReg) (s : State) : Result :=
  .next (s.issue true [] fun s =>
    let v := s.xn b.val
    let addr := s.xn a.val
    let clearMap := v.testBit 8
    s.check (s.badValue (badSelector v true)) fun s =>
    if v.testBit 0 then
      let n := bits v 20 16
      s.check (s.imageFaults addr (2560 * n) true) fun s => s.passing .lds fun s =>
      let (img, s) := s.getImage addr (2560 * n)
      s.check (s.tileCap img n clearMap) fun s =>
      s.unlocked ((List.range n).map Reg.tile) fun s =>
      ((s.newMap clearMap).loadTiles img n).retire
    else
      let n := s.loadSize addr
      s.check (s.imageFaults addr n true) fun s => s.passing .lds fun s =>
      let (img, s) := s.getImage addr n
      s.check (s.strandCap img clearMap) fun s =>
      s.unlocked ((List.range s.me.naccs).map Reg.acc) fun s => s.afterReqs s.me.loading fun s =>
      ((s.newMap clearMap).loadStrand img).retire)

end Sys2Proof.Machine
end

