-- ==== Sys2Proof/Machine/ScaleOps.lean ====
section
/-!
DEFINITION. Scale registers: SLD, SST, SMOV, SMUL, SMAX, SCVT, SBIND, SREL, SQRY (R117 to R126, R451, R452, R456,
R457).
-/

namespace Sys2Proof.Machine

/-- SCALESTALE of a scale register as a source (R122). -/
def State.staleReg (s : State) (a : Nat) : Option Trap :=
  match s.me.sregs.at? a with
  | some tag => trapIf (!(s.ctx s.cur.core).current tag) { code := .scalestale, d0 := tag.toNat }
  | none => some { code := .scalestale }

/-- The 64 scales of a scale register. -/
def State.scales (s : State) (a : Nat) : List (BitVec 16) :=
  let data := match s.me.sregs.at? a with
    | some tag => (s.ctx s.cur.core).scalesOf tag
    | none => []
  (List.range 64).map fun b => data.getD b 0

/-- An instruction that writes a scale register with a result and flags (R118). -/
def State.allocate (s : State) (d : SReg) (data : List (BitVec 16)) (fl : Flags) : State :=
  s.allocating d.val fun s => ((s.putScales d.val data).flags fl).retire

/-- Address of SLD and SST (R457). -/
def State.scaleAddr (s : State) (x : XReg) (imm : Fin 128) : Nat := s.xn x.val + 16 * imm.val

/-- SLD (R457). -/
def execSld (d : SReg) (x : XReg) (imm : Fin 128) (s : State) : Result :=
  .next (s.issue false [] fun s =>
    let a := s.scaleAddr x imm
    s.check (s.shelfRangeCheck a 128 16 true false) fun s =>
    s.passing .lds fun s => s.allocate d (s.shelfScales a) 0)

/-- SST (R457). -/
def execSst (a : SReg) (x : XReg) (imm : Fin 128) (s : State) : Result :=
  .next (s.issue false [] fun s =>
    let o := s.scaleAddr x imm
    s.check (s.shelfRangeCheck o 128 16 false true) fun s =>
    s.check (s.staleReg a.val) fun s =>
    s.passing .sts fun s =>
    (s.modShelf s.cur.core fun m => m.putBytes o ((s.scales a.val).flatMap fun w => bytesOf 2 w.toNat)).retire)

/-- SMOV from a scale register (R126). -/
def execSmovS (d a : SReg) (s : State) : Result :=
  .next (s.issue false [] fun s => s.check (s.staleReg a.val) fun s => s.allocate d (s.scales a.val) 0)

/-- SMOV from a uniform register (R126). -/
def execSmovX (d : SReg) (a : XReg) (s : State) : Result :=
  .next (s.issue false [] fun s => s.allocate d (List.replicate 64 ((s.x a.val).setWidth 16)) 0)

/-- Clamp a BF16 result of scale arithmetic (R126); `over` tells that rounding overflowed. -/
def clampScale (v : Nat) (fl : Flags) : Nat × Flags :=
  let beyond := fl &&& flagOF != 0
  if beyond || v % 2 ^ 15 = 0x7F80 then
    (v / 2 ^ 15 * 2 ^ 15 + 0x7F7F, fl ||| flagSC)
  else (v, fl)

/-- One product of SMUL (R126). -/
def scaleMul (rm : Rm) (a b : Nat) : Nat × Flags :=
  let (p, f) := Num.mul (Fmt.bf16.decode a).1 (Fmt.bf16.decode b).1
  let (v, g) := Fmt.bf16.round rm false p
  clampScale v (f ||| g)

/-- Element by element, with the OR of the flags. -/
def scaleMap (f : Nat → Nat × Flags) : List (BitVec 16) × Flags :=
  let rs := (List.range 64).map f
  (rs.map fun r => BitVec.ofNat 16 r.1, rs.foldl (fun (g : Flags) r => g ||| r.2) 0)

/-- SMUL and SMAX. DESIGN CHOICE, unsafe (log 72): with both sources stale the first one is reported. -/
def State.scaleBinary (s : State) (d a b : SReg) (f : State → Nat → Nat → Nat × Flags) : State :=
  s.issue false [] fun s =>
    s.check (s.staleReg a.val <|> s.staleReg b.val) fun s =>
    let xs := s.scales a.val
    let ys := s.scales b.val
    let (data, fl) := scaleMap fun k => f s (xs.getD k 0).toNat (ys.getD k 0).toNat
    s.allocate d data fl

/-- SMUL (R126). -/
def execSmul (d a b : SReg) (s : State) : Result := .next (s.scaleBinary d a b fun s => scaleMul (s.rm none))

/-- SMAX of two elements (R126): an infinite one is clamped. -/
def scaleMax (a b : Nat) : Nat × Flags :=
  let (v, f) := minMax .bf16 true false a b
  clampScale v f

/-- SMAX (R126). -/
def execSmax (d a b : SReg) (s : State) : Result := .next (s.scaleBinary d a b fun _ => scaleMax)

/-- SCVT to a scale register (R126): a lane that is not active counts as +0.0. -/
def execScvtToS (d : SReg) (a : VReg) (s : State) : Result :=
  .next (s.issue false [vrs a 2] fun s =>
    let (data, fl) := scaleMap fun k =>
      if s.cur.act.getLsbD (k % 32) then
        let (v, f) := convert (s.rm none) false .bf16 .fp32 (s.v (a.val + k / 32) (k % 32)).toNat
        clampScale v f
      else (0, 0)
    s.allocate d data fl)

/-- SCVT to a vector register pair (R126): widened exactly, a NaN canonical. -/
def execScvtToV (d : VReg) (a : SReg) (s : State) : Result :=
  .next (s.issue false [vrs d 2] fun s =>
    s.check (s.staleReg a.val) fun s => s.unlocked [vrs d 2] fun s =>
    let xs := s.scales a.val
    let wide (k : Nat) : Nat × Flags := convert .rne false .fp32 .bf16 (xs.getD k 0).toNat
    let out := (s.putV d.val fun l => BitVec.ofNat 32 (wide l).1).putV (d.val + 1) fun l => BitVec.ofNat 32 (wide (32 + l)).1
    (out.flags (s.laneFlags fun l => (wide l).2 ||| (wide (32 + l)).2)).retire)

/-! ## Binding, query, release (R119 to R121, R452) -/

/-- SBIND by a scale register (R119). -/
def execSbindS (t : TReg) (m : SReg) (s : State) : Result :=
  .next (s.issue false [.tile t.val] fun s =>
    s.check (s.staleReg m.val) fun s => s.unlocked [.tile t.val] fun s =>
    (s.bind t.val ((s.me.sregs.at? m.val).getD 0)).retire)

/-- SBIND by a tag in a uniform register (R119). -/
def execSbindX (t : TReg) (m : XReg) (s : State) : Result :=
  .next (s.issue false [.tile t.val] fun s => s.unlocked [.tile t.val] fun s =>
    (s.bind t.val ((s.x m.val).setWidth 16)).retire)

/-- SBIND.U (R119). -/
def execSbindU (t : TReg) (s : State) : Result :=
  .next (s.issue false [.tile t.val] fun s => s.unlocked [.tile t.val] fun s =>
    let u := s.tile t.val
    ((s.modCtx s.cur.core fun x => x.dropBinding u).setTile t.val
      { u with bound := false, tag := 0, geom := 0 }).retire)

/-- SREL (R121). -/
def execSrel (m : SReg) (s : State) : Result :=
  .next (s.issue false [] fun s =>
    match s.me.sregs.at? m.val with
    | none => s.retire
    | some tag =>
      let s := s.modCtx s.cur.core fun x => if x.current tag then x.freeEntry (tagEntry tag) else x
      (s.modMe fun t => { t with sregs := t.sregs.del m.val }).retire)

/-- What SQRY reports (Table 5-4). -/
def State.query (s : State) (n : Nat) : Nat :=
  let t := s.tile n
  let x := s.ctx s.cur.core
  let cur := t.bound && x.current t.tag
  (if t.bound then t.tag.toNat else 0) + flag t.bound * 2 ^ 16 + flag cur * 2 ^ 17 + flag t.zbv * 2 ^ 18
    + flag (t.bound && t.geom == geomOf t.efmt.wide) * 2 ^ 19 + t.efmt.code * 2 ^ 24
    + (if cur then (x.entry (tagEntry t.tag)).refs % 2 ^ 12 * 2 ^ 32 else 0)

/-- SQRY (R120). -/
def execSqry (d : XReg) (t : TReg) (s : State) : Result :=
  .next (s.issue false [.tile t.val] fun s => (s.putX d.val (BitVec.ofNat 64 (s.query t.val))).retire)

end Sys2Proof.Machine
end

