-- ==== Sys2Proof/Machine/Sync.lean ====
section
/-!
DEFINITION. Barriers, in-flight counters and guards: BARINIT, BAREXP, BARARR, BARDROP, BARWAIT, BARTEST, WAITC
and GRES (R52, R177 to R182, R360 to R365, R409 to R411, R495, R496).
-/

namespace Sys2Proof.Machine

/-- A scope by its code (Table 8-1). -/
def scopeOf : Nat → Scope
  | 0 => .core | 1 => .die | 2 => .pkg | _ => .sys

/-- Shelf offset of a target; none for a group barrier. -/
def BarTarget.offset? : BarTarget → Option Nat
  | .object _ off => some off
  | _ => none

/-- The trap of a target that fails R361 or R45, or a comparator on its object (R288). -/
def State.barCheck (s : State) (t : BarTarget) (rd wr : Bool) : Option Trap :=
  match t with
  | .trap tr => some tr
  | _ => t.offset?.bind fun off => s.watch 1 rd wr [(0, off)] 16 false

/-- A barrier instruction: its target is checked, then the body has it (R364). -/
def State.onBarrier (s : State) (sel : BarSel) (rem rd wr : Bool) (body : State → BarTarget → State) : State :=
  s.issue false [] fun s =>
    let t := s.barTarget sel rem
    s.check (s.barCheck t rd wr) fun s => s.afterAcquires fun s => body s t

/-- BARINIT (R363). -/
def execBarinit (a b : XReg) (s : State) : Result :=
  .next (s.onBarrier (.object a) false false true fun s t =>
    let v := s.xn b.val
    s.check (s.badValue (bits v 63 19 != 0)) fun s =>
    (s.setBarObj t
      { pend := 0, cnt := v % 2 ^ 16, exp := v % 2 ^ 16, drop := 0, phase := v.testBit 18, err := false
        scope := bits v 17 16 }).retire)

/-- The trap of an event that the object refuses (Table 10-1). -/
def State.barTrap (s : State) (code : TrapCode) (t : BarTarget) (d1 : Nat) : Trap :=
  { code, addr := t.offset?.getD 0, d0 := (s.barObj t).encode % 2 ^ 64, d1 }

/-- Apply an event, or take its trap; then go on. -/
def State.applyEvent (s : State) (t : BarTarget) (b : Option BarrierObj) (tr : Trap) : State :=
  match b with
  | some b => (s.setBarObj t b).retire
  | none => s.takeTrap tr

/-- BAREXP (R363). -/
def execBarexp (a b : XReg) (s : State) : Result :=
  .next (s.onBarrier (.object a) false true true fun s t =>
    s.applyEvent t ((s.barObj t).expect? (s.xn b.val)) (s.barTrap .barovf t (s.xn b.val)))

/-- BARARR and BARDROP: the release at the object's scope, then the event (R363). A release at SYS waits
for the strand's peer accesses (R210). -/
def State.signal (s : State) (sel : BarSel) (event : BarrierObj → Option BarrierObj) : State :=
  s.onBarrier sel true true true fun s t =>
    let sc := scopeOf (s.barObj t).scope
    s.afterReqs (if sc = .sys then s.me.openReqs else []) fun s =>
    let s := s.release s.cur.core sc.wide
    let o := s.barObj t
    s.applyEvent t (event o) (s.barTrap .barover t (o.encode / 2 ^ 64))

/-- BARARR (R363). -/
def execBararr (sel : BarSel) (s : State) : Result := .next (s.signal sel BarrierObj.arrive?)
/-- BARDROP (R363). -/
def execBardrop (sel : BarSel) (s : State) : Result := .next (s.signal sel BarrierObj.drop?)

/-- What a BARWAIT waits for. -/
def BarTarget.stall (t : BarTarget) (phase : Bool) : Stall :=
  match t with
  | .object _ off => .barrier off phase
  | .group c k => .groupBarrier c k phase
  | .trap _ => .none

/-- BARWAIT (R363). -/
def execBarwait (sel : BarSel) (b : XReg) (s : State) : Result :=
  .next (s.onBarrier sel false true false fun s t =>
    let phase := (s.x b.val).getLsbD 0
    let o := s.barObj t
    if o.phase == phase then s.hold (t.stall phase)
    else (s.acquire s.cur.core (scopeOf o.scope).wide).retire)

/-- BARTEST (R363). -/
def execBartest (p : PReg) (sel : BarSel) (x : XReg) (s : State) : Result :=
  .next (s.onBarrier sel false true false fun s t =>
    let o := s.barObj t
    let yes := o.phase != (s.x x.val).getLsbD 0
    let s := s.acquire s.cur.core (yes && (scopeOf o.scope).wide)
    (s.putP p.val (if yes then 0xFFFFFFFF#32 else 0)).retire)

/-- WAITC (R182, R496). A WAITC that has waited keeps the bound that it read when it issued. -/
def execWaitc (c : CClass) (n : XReg) (s : State) : Result :=
  .next (s.issue false [] fun s =>
    let k := match s.mySplit.stall with
      | .counter d k => if d = c then k else min (s.xn n.val) 63
      | _ => min (s.xn n.val) 63
    if s.me.counter c ≤ k then s.retire else s.hold (.counter c k))

/-- Set a guard of the issuing strand, then go on (R410). -/
def State.resolve (s : State) (g : GReg) (v : State → Guard) : State :=
  s.issue false [] fun s => (s.setGuard s.cur.core s.cur.slot g.val (v s)).retire

/-- A guard by a truth value. -/
def Guard.of (b : Bool) : Guard := if b then .isTrue else .isFalse

/-- GRES to UNRESOLVED (R410). -/
def execGresOpen (g : GReg) (s : State) : Result := .next (s.resolve g fun _ => .unresolved)
/-- GRES by a uniform condition (R410). -/
def execGresX (g : GReg) (x : XReg) (s : State) : Result := .next (s.resolve g fun s => .of (s.x x.val != 0))
/-- GRES.ANY (R410). -/
def execGresAny (g : GReg) (p : PReg) (s : State) : Result :=
  .next (s.resolve g fun s => .of (s.p p.val &&& s.cur.act != 0))
/-- GRES.ALL (R410). -/
def execGresAll (g : GReg) (p : PReg) (s : State) : Result :=
  .next (s.resolve g fun s => .of (s.p p.val &&& s.cur.act == s.cur.act))

end Sys2Proof.Machine
end

