-- ==== Sys2Proof/Machine/Dispatch.lean ====
section
/-!
DEFINITION. One arm per instruction and device step: the call of its meaning.
-/

namespace Sys2Proof.Machine

/-- The effect of one instruction or device step. -/
def exec (i : Instr) (s : State) : Host.Outcome State Fault Refusal :=
  match i with
  | .nop => Sys2Proof.Machine.execNop s
  | .bra off => Sys2Proof.Machine.execBra off s
  | .brx x => Sys2Proof.Machine.execBrx x s
  | .call off => Sys2Proof.Machine.execCall off s
  | .ret => Sys2Proof.Machine.execRet s
  | .exit => Sys2Proof.Machine.execExit s
  | .syncs => Sys2Proof.Machine.execSyncs s
  | .loopx x off => Sys2Proof.Machine.execLoopx x off s
  | .winb base => Sys2Proof.Machine.execWinb base s
  | .shrinkV n => Sys2Proof.Machine.execShrinkV n s
  | .shrinkL => Sys2Proof.Machine.execShrinkL s
  | .yield => Sys2Proof.Machine.execYield s
  | .trap imm => Sys2Proof.Machine.execTrap imm s
  | .tret => Sys2Proof.Machine.execTret s
  | .brk => Sys2Proof.Machine.execBrk s
  | .setfmt x => Sys2Proof.Machine.execSetfmt x s
  | .setfmtF x => Sys2Proof.Machine.execSetfmtF x s
  | .gangset x => Sys2Proof.Machine.execGangset x s
  | .movsV d src => Sys2Proof.Machine.execMovsV d src s
  | .movsX d src => Sys2Proof.Machine.execMovsX d src s
  | .iadd d a b => Sys2Proof.Machine.execIadd d a b s
  | .iaddImm d a imm => Sys2Proof.Machine.execIaddImm d a imm s
  | .isub d a b => Sys2Proof.Machine.execIsub d a b s
  | .imul d a b => Sys2Proof.Machine.execImul d a b s
  | .imulhS32 d a b => Sys2Proof.Machine.execImulhS32 d a b s
  | .imulhU32 d a b => Sys2Proof.Machine.execImulhU32 d a b s
  | .imad d a b c => Sys2Proof.Machine.execImad d a b c s
  | .iabs d a => Sys2Proof.Machine.execIabs d a s
  | .iminS32 d a b => Sys2Proof.Machine.execIminS32 d a b s
  | .iminU32 d a b => Sys2Proof.Machine.execIminU32 d a b s
  | .imaxS32 d a b => Sys2Proof.Machine.execImaxS32 d a b s
  | .imaxU32 d a b => Sys2Proof.Machine.execImaxU32 d a b s
  | .iscmp sg cmp p a b => Sys2Proof.Machine.execIscmp sg cmp p a b s
  | .select d a b p => Sys2Proof.Machine.execSelect d a b p s
  | .mov d a => Sys2Proof.Machine.execMov d a s
  | .movi d imm => Sys2Proof.Machine.execMovi d imm s
  | .and d a b => Sys2Proof.Machine.execAnd d a b s
  | .andImm d a imm => Sys2Proof.Machine.execAndImm d a imm s
  | .or d a b => Sys2Proof.Machine.execOr d a b s
  | .orImm d a imm => Sys2Proof.Machine.execOrImm d a imm s
  | .xor d a b => Sys2Proof.Machine.execXor d a b s
  | .xorImm d a imm => Sys2Proof.Machine.execXorImm d a imm s
  | .lut3 d a b c lut => Sys2Proof.Machine.execLut3 d a b c lut s
  | .shl d a b => Sys2Proof.Machine.execShl d a b s
  | .shlImm d a imm => Sys2Proof.Machine.execShlImm d a imm s
  | .shr d a b => Sys2Proof.Machine.execShr d a b s
  | .shrImm d a imm => Sys2Proof.Machine.execShrImm d a imm s
  | .shra d a b => Sys2Proof.Machine.execShra d a b s
  | .shraImm d a imm => Sys2Proof.Machine.execShraImm d a imm s
  | .funs d a b c => Sys2Proof.Machine.execFuns d a b c s
  | .bfxU d a b => Sys2Proof.Machine.execBfxU d a b s
  | .bfxS d a b => Sys2Proof.Machine.execBfxS d a b s
  | .bfi d a b c => Sys2Proof.Machine.execBfi d a b c s
  | .popc d a => Sys2Proof.Machine.execPopc d a s
  | .clz d a => Sys2Proof.Machine.execClz d a s
  | .brev d a => Sys2Proof.Machine.execBrev d a s
  | .xadd d a b => Sys2Proof.Machine.execXadd d a b s
  | .xaddImm d a imm => Sys2Proof.Machine.execXaddImm d a imm s
  | .xsub d a b => Sys2Proof.Machine.execXsub d a b s
  | .xmul d a b => Sys2Proof.Machine.execXmul d a b s
  | .xlop op d a b => Sys2Proof.Machine.execXlop op d a b s
  | .xshl d a b => Sys2Proof.Machine.execXshl d a b s
  | .xshlImm d a imm => Sys2Proof.Machine.execXshlImm d a imm s
  | .xshr d a b => Sys2Proof.Machine.execXshr d a b s
  | .xshrImm d a imm => Sys2Proof.Machine.execXshrImm d a imm s
  | .xmov d a => Sys2Proof.Machine.execXmov d a s
  | .xmovi d imm => Sys2Proof.Machine.execXmovi d imm s
  | .xscmp sg cmp p a b => Sys2Proof.Machine.execXscmp sg cmp p a b s
  | .xld d a imm => Sys2Proof.Machine.execXld d a imm s
  | .xst b a imm => Sys2Proof.Machine.execXst b a imm s
  | .xget d k => Sys2Proof.Machine.execXget d k s
  | .plop op p a b => Sys2Proof.Machine.execPlop op p a b s
  | .ptov d p => Sys2Proof.Machine.execPtov d p s
  | .vtop p a => Sys2Proof.Machine.execVtop p a s
  | .fadd d a b => Sys2Proof.Machine.execFadd d a b s
  | .faddM d a b md => Sys2Proof.Machine.execFaddM d a b md s
  | .fsub d a b => Sys2Proof.Machine.execFsub d a b s
  | .fsubM d a b md => Sys2Proof.Machine.execFsubM d a b md s
  | .fmul d a b => Sys2Proof.Machine.execFmul d a b s
  | .fmulM d a b md => Sys2Proof.Machine.execFmulM d a b md s
  | .ffma d a b md => Sys2Proof.Machine.execFfma d a b md s
  | .fmin d a b => Sys2Proof.Machine.execFmin d a b s
  | .fmax d a b => Sys2Proof.Machine.execFmax d a b s
  | .fscmp cmp p a b => Sys2Proof.Machine.execFscmp cmp p a b s
  | .fclass d a => Sys2Proof.Machine.execFclass d a s
  | .fcvt d a cv => Sys2Proof.Machine.execFcvt d a cv s
  | .frnd d a rm => Sys2Proof.Machine.execFrnd d a rm s
  | .frcp d a => Sys2Proof.Machine.execFrcp d a s
  | .frsq d a => Sys2Proof.Machine.execFrsq d a s
  | .fex2 d a => Sys2Proof.Machine.execFex2 d a s
  | .flg2 d a => Sys2Proof.Machine.execFlg2 d a s
  | .fsin d a => Sys2Proof.Machine.execFsin d a s
  | .fcos d a => Sys2Proof.Machine.execFcos d a s
  | .hadd2 d a bf b => Sys2Proof.Machine.execHadd2 d a bf b s
  | .hadd2M d a b md => Sys2Proof.Machine.execHadd2M d a b md s
  | .hmul2 d a bf b => Sys2Proof.Machine.execHmul2 d a bf b s
  | .hmul2M d a b md => Sys2Proof.Machine.execHmul2M d a b md s
  | .hfma2 d a b md => Sys2Proof.Machine.execHfma2 d a b md s
  | .vote w => Sys2Proof.Machine.execVote w s
  | .voteMask w m => Sys2Proof.Machine.execVoteMask w m s
  | .sred d a op => Sys2Proof.Machine.execSred d a op s
  | .sredMask d a op m => Sys2Proof.Machine.execSredMask d a op m s
  | .matchLanes d a => Sys2Proof.Machine.execMatchLanes d a s
  | .matchMask d a m => Sys2Proof.Machine.execMatchMask d a m s
  | .scan d a op => Sys2Proof.Machine.execScan d a op s
  | .shfl d a b => Sys2Proof.Machine.execShfl d a b s
  | .shflp d a t => Sys2Proof.Machine.execShflp d a t s
  | .ptld t x => Sys2Proof.Machine.execPtld t x s
  | .ldS d ad => Sys2Proof.Machine.execLdS d ad s
  | .ldSFull d l => Sys2Proof.Machine.execLdSFull d l s
  | .ldH d ad => Sys2Proof.Machine.execLdH d ad s
  | .ldHFull d l => Sys2Proof.Machine.execLdHFull d l s
  | .stS v ad => Sys2Proof.Machine.execStS v ad s
  | .stSFull v l => Sys2Proof.Machine.execStSFull v l s
  | .stH v ad => Sys2Proof.Machine.execStH v ad s
  | .stHFull v l => Sys2Proof.Machine.execStHFull v l s
  | .atom d b c l => Sys2Proof.Machine.execAtom d b c l s
  | .red b l => Sys2Proof.Machine.execRed b l s
  | .fence scope acq rel => Sys2Proof.Machine.execFence scope acq rel s
  | .cflush x => Sys2Proof.Machine.execCflush x s
  | .cinv x => Sys2Proof.Machine.execCinv x s
  | .pld d l => Sys2Proof.Machine.execPld d l s
  | .pst b l => Sys2Proof.Machine.execPst b l s
  | .patom d b c l => Sys2Proof.Machine.execPatom d b c l s
  | .copy x g => Sys2Proof.Machine.execCopy x g s
  | .puts x g b => Sys2Proof.Machine.execPuts x g b s
  | .tfetch x g => Sys2Proof.Machine.execTfetch x g s
  | .tstore x g => Sys2Proof.Machine.execTstore x g s
  | .mcopy x g => Sys2Proof.Machine.execMcopy x g s
  | .mfill x g => Sys2Proof.Machine.execMfill x g s
  | .mreduce x g => Sys2Proof.Machine.execMreduce x g s
  | .coll x g => Sys2Proof.Machine.execColl x g s
  | .barinit a b => Sys2Proof.Machine.execBarinit a b s
  | .barexp a b => Sys2Proof.Machine.execBarexp a b s
  | .bararr sel => Sys2Proof.Machine.execBararr sel s
  | .bardrop sel => Sys2Proof.Machine.execBardrop sel s
  | .barwait sel b => Sys2Proof.Machine.execBarwait sel b s
  | .bartest p sel x => Sys2Proof.Machine.execBartest p sel x s
  | .waitc c n => Sys2Proof.Machine.execWaitc c n s
  | .gresOpen g => Sys2Proof.Machine.execGresOpen g s
  | .gresX g x => Sys2Proof.Machine.execGresX g x s
  | .gresAny g p => Sys2Proof.Machine.execGresAny g p s
  | .gresAll g p => Sys2Proof.Machine.execGresAll g p s
  | .tld t a b => Sys2Proof.Machine.execTld t a b s
  | .tldZb t a b => Sys2Proof.Machine.execTldZb t a b s
  | .tldSc t m a b => Sys2Proof.Machine.execTldSc t m a b s
  | .tldScZb t m a b => Sys2Proof.Machine.execTldScZb t m a b s
  | .tstr x t => Sys2Proof.Machine.execTstr x t s
  | .tzero t => Sys2Proof.Machine.execTzero t s
  | .tcvt n m f => Sys2Proof.Machine.execTcvt n m f s
  | .tcvtZb n m f => Sys2Proof.Machine.execTcvtZb n m f s
  | .tqntL6 t k sx x => Sys2Proof.Machine.execTqntL6 t k sx x s
  | .tqntL6Zb t k sx x => Sys2Proof.Machine.execTqntL6Zb t k sx x s
  | .tqntL8 t k sx x => Sys2Proof.Machine.execTqntL8 t k sx x s
  | .tqntL8Zb t k sx x => Sys2Proof.Machine.execTqntL8Zb t k sx x s
  | .tqntF8 t k sx x => Sys2Proof.Machine.execTqntF8 t k sx x s
  | .tqntF8Zb t k sx x => Sys2Proof.Machine.execTqntF8Zb t k sx x s
  | .mma k d a t => Sys2Proof.Machine.execMma k d a t s
  | .mmx d a b => Sys2Proof.Machine.execMmx d a b s
  | .mmxGuard d g a b => Sys2Proof.Machine.execMmxGuard d g a b s
  | .mmxSpec d g a b => Sys2Proof.Machine.execMmxSpec d g a b s
  | .accz d => Sys2Proof.Machine.execAccz d s
  | .accrd d a => Sys2Proof.Machine.execAccrd d a s
  | .accwr d a => Sys2Proof.Machine.execAccwr d a s
  | .accld d x imm => Sys2Proof.Machine.execAccld d x imm s
  | .accst d x imm => Sys2Proof.Machine.execAccst d x imm s
  | .sld d x imm => Sys2Proof.Machine.execSld d x imm s
  | .sst a x imm => Sys2Proof.Machine.execSst a x imm s
  | .sbindS t m => Sys2Proof.Machine.execSbindS t m s
  | .sbindX t m => Sys2Proof.Machine.execSbindX t m s
  | .sbindU t => Sys2Proof.Machine.execSbindU t s
  | .srel m => Sys2Proof.Machine.execSrel m s
  | .sqry d t => Sys2Proof.Machine.execSqry d t s
  | .smovS d a => Sys2Proof.Machine.execSmovS d a s
  | .smovX d a => Sys2Proof.Machine.execSmovX d a s
  | .smul d a b => Sys2Proof.Machine.execSmul d a b s
  | .smax d a b => Sys2Proof.Machine.execSmax d a b s
  | .scvtToS d a => Sys2Proof.Machine.execScvtToS d a s
  | .scvtToV d a => Sys2Proof.Machine.execScvtToV d a s
  | .launch p x => Sys2Proof.Machine.execLaunch p x s
  | .taskarm a b => Sys2Proof.Machine.execTaskarm a b s
  | .tasksig a b => Sys2Proof.Machine.execTasksig a b s
  | .taskretry a => Sys2Proof.Machine.execTaskretry a s
  | .taskabort a => Sys2Proof.Machine.execTaskabort a s
  | .csrr d csr => Sys2Proof.Machine.execCsrr d csr s
  | .csrw a csr => Sys2Proof.Machine.execCsrw a csr s
  | .dtload x => Sys2Proof.Machine.execDtload x s
  | .tlbinv x => Sys2Proof.Machine.execTlbinv x s
  | .ctxst a b => Sys2Proof.Machine.execCtxst a b s
  | .ctxld a b => Sys2Proof.Machine.execCtxld a b s
  | .egmode x => Sys2Proof.Machine.execEgmode x s
  | .evpop d x => Sys2Proof.Machine.execEvpop d x s
  | .topocmtWrite part v => Sys2Proof.Machine.execTopocmtWrite part v s
  | .splitPromotion w => Sys2Proof.Machine.execSplitPromotion w s
  | .stallEnd w => Sys2Proof.Machine.execStallEnd w s
  | .workgroupPlacement part => Sys2Proof.Machine.execWorkgroupPlacement part s
  | .cohortPlacement part => Sys2Proof.Machine.execCohortPlacement part s
  | .cohortWaitTimeout run => Sys2Proof.Machine.execCohortWaitTimeout run s
  | .matrixStep core => Sys2Proof.Machine.execMatrixStep core s
  | .matrixCompletion core => Sys2Proof.Machine.execMatrixCompletion core s
  | .matrixEngineStop core => Sys2Proof.Machine.execMatrixEngineStop core s
  | .commandAdmission die => Sys2Proof.Machine.execCommandAdmission die s
  | .fetchReleasePhase cmd => Sys2Proof.Machine.execFetchReleasePhase cmd s
  | .transferUnitLanded cmd unit => Sys2Proof.Machine.execTransferUnitLanded cmd unit s
  | .unitAcknowledged cmd unit => Sys2Proof.Machine.execUnitAcknowledged cmd unit s
  | .transferUnitDropped cmd unit cause => Sys2Proof.Machine.execTransferUnitDropped cmd unit cause s
  | .copyExecution cmd => Sys2Proof.Machine.execCopyExecution cmd s
  | .putsDelivery cmd => Sys2Proof.Machine.execPutsDelivery cmd s
  | .wavelengthFailure port lam => Sys2Proof.Machine.execWavelengthFailure port lam s
  | .spareWarmed port spare => Sys2Proof.Machine.execSpareWarmed port spare s
  | .laserAgeing port lam => Sys2Proof.Machine.execLaserAgeing port lam s
  | .linkRetraining port => Sys2Proof.Machine.execLinkRetraining port s
  | .portRecovery port => Sys2Proof.Machine.execPortRecovery port s
  | .releaseNotice core slice => Sys2Proof.Machine.execReleaseNotice core slice s
  | .promotionRequest core => Sys2Proof.Machine.execPromotionRequest core s
  | .promotionAcknowledgement id => Sys2Proof.Machine.execPromotionAcknowledgement id s
  | .taskEdgeBegin run => Sys2Proof.Machine.execTaskEdgeBegin run s
  | .edgeLineWriteback run => Sys2Proof.Machine.execEdgeLineWriteback run s
  | .drainReport run => Sys2Proof.Machine.execDrainReport run s
  | .edgeDecrement run => Sys2Proof.Machine.execEdgeDecrement run s
  | .haltRequest part => Sys2Proof.Machine.execHaltRequest part s
  | .halted part => Sys2Proof.Machine.execHalted part s
  | .contextExchange part => Sys2Proof.Machine.execContextExchange part s
  | .resumeRequest part => Sys2Proof.Machine.execResumeRequest part s
  | .resumeComplete part => Sys2Proof.Machine.execResumeComplete part s
  | .ebbEnd g => Sys2Proof.Machine.execEbbEnd g s
  | .ebbDeadline g => Sys2Proof.Machine.execEbbDeadline g s
  | .slackEnd g ok => Sys2Proof.Machine.execSlackEnd g ok s
  | .authEnd g a => Sys2Proof.Machine.execAuthEnd g a s
  | .flood g => Sys2Proof.Machine.execFlood g s
  | .lossOfLock g => Sys2Proof.Machine.execLossOfLock g s
  | .peerRequest r => Sys2Proof.Machine.execPeerRequest r s
  | .peerReply r => Sys2Proof.Machine.execPeerReply r s
  | .peerTimeout req => Sys2Proof.Machine.execPeerTimeout req s
  | .replayRecordExpiry node tag gen => Sys2Proof.Machine.execReplayRecordExpiry node tag gen s
  | .chunkSend node => Sys2Proof.Machine.execChunkSend node s
  | .chunkReceive ch => Sys2Proof.Machine.execChunkReceive ch s
  | .staleNack n => Sys2Proof.Machine.execStaleNack n s
  | .chunkAccepted k => Sys2Proof.Machine.execChunkAccepted k s
  | .chunkResend k => Sys2Proof.Machine.execChunkResend k s
  | .chunkTimeout k => Sys2Proof.Machine.execChunkTimeout k s
  | .creditReturn comm inbound => Sys2Proof.Machine.execCreditReturn comm inbound s
  | .collCompletion comm => Sys2Proof.Machine.execCollCompletion comm s
  | .hostCxlMemAccess h => Sys2Proof.Machine.execHostCxlMemAccess h s
  | .attestationReport nonce => Sys2Proof.Machine.execAttestationReport nonce s
  | .firmwareImage img => Sys2Proof.Machine.execFirmwareImage img s
  | .configurationRecord r => Sys2Proof.Machine.execConfigurationRecord r s
  | .debugGrant d => Sys2Proof.Machine.execDebugGrant d s
  | .powerStateRequest p => Sys2Proof.Machine.execPowerStateRequest p s
  | .powerBudgetChange b => Sys2Proof.Machine.execPowerBudgetChange b s
  | .resetPackage => Sys2Proof.Machine.execResetPackage s
  | .hostDebugAccess d => Sys2Proof.Machine.execHostDebugAccess d s
  | .coreClocks n => Sys2Proof.Machine.execCoreClocks n s

end Sys2Proof.Machine
end

