-- ==== Sys2Proof/Machine/Next.lean ====
section
/-!
DEFINITION. What the package does next when no input says it (log 5): a device step that is due, else an
issue cycle of a quadrant that has a ready split, each in turn, else a clock.
-/

namespace Sys2Proof.Machine

/-- A device step, if it is due. -/
def due (c : Bool) (i : Instr) : Option Instr := if c then some i else none

/-- The device step that is due on a core's engine. -/
def State.engineDue (s : State) (core : Nat) : Option Instr :=
  match s.engineRuns core with
  | none => none
  | some halting =>
    let x := s.ctx core
    let c := Fin.ofNat 512 core
    due x.completeOp.isSome (.matrixCompletion c)
    <|> due (s.nextOp core halting).isSome (.matrixStep c)
    <|> due (halting && x.queue.any fun o => o.mmx && !o.finished && !o.isStopped) (.matrixEngineStop c)

/-- The device step that is due for a partition. -/
def State.partDue (s : State) (part : Nat) : Option Instr :=
  let q := s.part part
  let p := Fin.ofNat 16 part
  due (q.pstat == .halting && s.stopped part) (.halted p)
  <|> due (q.pstat == .halted && q.power != .p2 && !q.wantP2 && !s.peersOpen part) (.contextExchange p)
  <|> due (q.pstat == .parked && q.resume && !q.debugHalt && q.power != .p2 && !q.wantP2) (.resumeComplete p)
  <|> (if s.open? then
        match (s.reserveLate part).nextPlacement part with
        | some (r, _) => some (if r.cohort = 0 then .workgroupPlacement p else .cohortPlacement p)
        | none => none
      else none)

/-- The device step that is due for a command. -/
def State.cmdDue (s : State) (c : Cmd) : Option Instr :=
  due (s.slotReleased c) (.fetchReleasePhase c.id)
  <|> due (c.kind == .copy && c.phase == .active && !c.frozen) (.copyExecution c.id)
  <|> due (c.kind == .puts && c.phase == .active && !c.frozen) (.putsDelivery c.id)

/-- The device step that is due for a far unit of a command: a drop, once its time is over or every port has been down
for long, else its completion (R186). -/
def State.unitDue (s : State) (c : Cmd) : Option Instr :=
  ((List.range c.units.length).find? c.pending).bind fun u =>
    let x := (c.unit? u).getD { off := 0, len := 0 }
    due (s.deadline c x < s.time) (.transferUnitDropped c.id u .timeout)
    <|> due (!s.farOpen c.core && s.heldUnit c x) (.transferUnitDropped c.id u .portEvent)
    <|> due (c.kind == .tfetch && s.inTime c x) (.transferUnitLanded c.id u)
    <|> due ((c.kind == .tstore || c.kind.module) && s.inTime c x) (.unitAcknowledged c.id u)

/-- The device step that is due for a task in its edge, or about to enter it. -/
def State.runDue (s : State) (r : TaskRun) : Option Instr :=
  due (s.cohortLate r && !(s.candidates r).isEmpty) (.cohortWaitTimeout r.id)
  <|> due (s.canEdge r) (.taskEdgeBegin r.id)
  <|> due (r.atStage 1 && r.region < 8 && (r.regionAt r.region).isHarbour) (.edgeLineWriteback r.id)
  <|> due (r.atStage 1 && r.region < 8 && !(r.regionAt r.region).isHarbour) (.drainReport r.id)
  <|> due (r.atStage 2 && r.stepped != some s.clock) (.edgeDecrement r.id)

/-- The device step that is due for a promotion. -/
def promotionDue (p : Promotion) : Option Instr :=
  due (!p.wrote) (.promotionRequest (Fin.ofNat 512 p.core))
  <|> due (p.wrote && !p.acked) (.promotionAcknowledgement p.id)

/-- The device step that is due for a group in a change: the end of ebb or its deadline, a phase that has lasted too long,
or flood (R270). -/
def State.groupDue (s : State) (g : Nat) (e : EdgeGroup) : Option Instr :=
  e.change.bind fun c =>
    let k := Fin.ofNat 16 g
    let lasts (us : Nat) : Bool := decide (c.start + us * Config.microsecond < s.time)
    due (e.phase == 1 && !s.owes (s.changing c.lead)) (.ebbEnd k)
    <|> due (e.phase == 1 && lasts 50) (.ebbDeadline k)
    <|> due (e.phase == 2 && lasts 100) (.slackEnd k false)
    <|> due (e.phase == 3 && lasts 200) (.authEnd k none)
    <|> due (e.phase == 4) (.flood k)

/-- The device step that is due for a chunk of a collective operation: PEERTO has passed, or its resend is due (R279). -/
def State.chunkDue (s : State) (o : CollOp) (c : Chunk) : Option Instr :=
  let k : ChunkId := { comm := Fin.ofNat 64 o.comm, seq := o.seq, idx := c.idx }
  due (o.status == 0 && s.lateChunk c) (.chunkTimeout k)
  <|> due (o.status == 0 && !c.accepted && c.resends s.time) (.chunkResend k)

/-- A port has been down for the 100 µs in which it retrains (R185). -/
def State.portDue (s : State) (n : Nat) (p : Port) : Option Instr :=
  p.down.bind fun t => due (t + 100 * Config.microsecond ≤ s.time) (.portRecovery (Fin.ofNat 64 n))

/-- A split whose stall has ended. -/
def State.stallDue (s : State) (core slot entry : Nat) : Option Instr :=
  due (s.stallEnds core slot entry)
    (.stallEnd { core := Fin.ofNat 512 core, slot := Fin.ofNat 256 slot, entry := Fin.ofNat 4 entry })

/-- The first device step that is due. -/
def State.autoEvent (s : State) : Option Instr :=
  s.cores.findSome? (fun e => s.engineDue e.1)
  <|> s.parts.findSome? (fun e => s.partDue e.1)
  <|> (List.range 8).findSome? (fun d => due (s.admissible d).isSome (.commandAdmission (Fin.ofNat 8 d)))
  <|> s.cmds.findSome? s.cmdDue
  <|> (s.cmds.filter (·.high)).findSome? s.unitDue
  <|> (s.cmds.filter fun c => !c.high).findSome? s.unitDue
  <|> (s.notices.head?).map (fun n => .releaseNotice (Fin.ofNat 512 n.core) (Fin.ofNat 512 (sliceOf n.line)))
  <|> s.promotions.findSome? promotionDue
  <|> s.runs.findSome? s.runDue
  <|> s.requests.findSome? (fun r => due (s.late r) (.peerTimeout r.id))
  <|> s.replays.findSome? (fun q => due (s.expired q) (.replayRecordExpiry (Fin.ofNat 4096 q.node) q.tag q.gen))
  <|> s.colls.findSome? (fun o => o.chunks.findSome? (s.chunkDue o))
  <|> s.colls.findSome? (fun o => due (s.isHead o && s.collDone o) (.collCompletion (Fin.ofNat 64 o.comm)))
  <|> s.groups.findSome? (fun g => s.groupDue g.1 g.2)
  <|> s.ports.findSome? (fun e => s.portDue e.1 e.2)
  <|> s.cores.findSome? (fun e => e.2.ctx.strands.findSome? fun t =>
        t.2.splits.findSome? fun p => s.stallDue e.1 t.1 p.1)

/-- The input that the next step acts on, and the state without it. -/
def State.takeInput (s : State) : Input × State :=
  match s.inputs with
  | i :: rest => (i, { s with inputs := rest })
  | [] =>
    match s.autoEvent with
    | some e => (.event e, s)
    | none =>
      match s.busyQuads.find? (s.cursor ≤ ·) with
      | some q => (.cycle (Fin.ofNat 512 (q / 4)) (Fin.ofNat 4 (q % 4)), { s with cursor := q + 1 })
      | none => (.event (.coreClocks 1), { s with cursor := 0 })

end Sys2Proof.Machine
end

