-- ==== Sys2Proof/Machine/Step.lean ====
section
/-!
DEFINITION. One step: an issue cycle of a quadrant, in which the split that it selects executes its
instruction, or one device step (log 5).
-/

namespace Sys2Proof.Machine

/-- The outcome of an issue cycle: what the instruction leaves, with the cycle counted. -/
def closeCycle (core quad : Nat) (o : Host.Outcome State Fault Refusal) : Host.Outcome State Fault Refusal :=
  match o with
  | .next s => .next (s.endCycle core quad)
  | o => o

/-- An issue cycle of a quadrant. -/
def State.issueCycle (s : State) (core quad : Nat) : Host.Outcome State Fault Refusal :=
  match s.select core quad with
  | none => .next (s.idleCycle core quad)
  | some (slot, entry) =>
    match s.openIssue core slot entry with
    | (none, s) => .next (s.endCycle core quad)
    | (some i, s) => closeCycle core quad (s.compared (exec i s))

/-- Inputs that a package acts on while the boot ROM waits for an image (R292). -/
def Input.boots : Input → Bool
  | .event .resetPackage => true
  | .event (.firmwareImage _) => true
  | _ => false

/-- Act on an input. A package that is off takes nothing but RESET (R284); one whose mailbox waits for an image
starts nothing (R292). An encoded instruction is no device step. -/
def State.act (s : State) (a : Input) : Host.Outcome State Fault Refusal :=
  if s.mgmt.p4 && a != .event .resetPackage then .fault .poweredOff
  else if s.mgmt.mailbox && !a.boots then .next s
  else match a with
  | .cycle c q => s.issueCycle c.val q.val
  | .event i => if (encodeFields i).isSome then .next s else exec i s
  | .launch p g => .next (s.launchFor p.val g)
  | .evict c line => .next (s.flushLine c.val line)
  | .uncorrectable k c a => .next (s.badWord k.val c.val a)
  | .capability a => .next (s.readCapability a)
  | .config c => .next (s.config c)
  | .aperture p base size => .next (s.setAperture p.val base size)

/-- One step of the package. -/
def step (s : State) : Host.Outcome State Fault Refusal :=
  let (a, s) := s.takeInput
  s.act a

/-- The workgroup of `State.withFetchWord`: one strand with all the tiles, accumulators and vector
registers that an instruction can name. -/
def probeWg : Workgroup :=
  { Workgroup.absent with nstr := 1, alive := 1, shelfBytes := Config.shelfBytes, ntiles := 16, naccs := 16, vregs := 128
                          pool := List.range 8, free := List.range 8 }

/-- The strand of `State.withFetchWord`, in supervisor mode, about to fetch at 0x104. -/
def probeStrand : Strand :=
  { sup := true, splits := [(0, { valid := true, pc := 0x104#48, mask := 0xFFFFFFFF#32 })]
    naccs := 16, allot := 128, index := 0 }

/-- The state with an instruction where the next step fetches (log 1): partition 0 runs on core 0 with
all of harbour as its window, one strand stands at 0x104 in a group of header 0, and the next input is an issue cycle of its
quadrant. This stands for the placement of a task, which takes many steps from reset. -/
def State.withFetchWord (s : State) (_nbits w : Nat) : State :=
  let word := Mem.store (Mem.store s.harbour 0x100 4 0) 0x104 8 (w % 2 ^ 64)
  let core : Core := { ctx := { strands := [(0, probeStrand)], wgs := [probeWg] } }
  let part : Partition := { halves := 1#16, hwlimit := 0x3FFFF000#64 }
  { s with
    harbour := word
    cores := s.cores.put 0 core
    parts := s.parts.put 0 part
    mgmt := { s.mgmt with p4 := false }
    inputs := [.cycle 0 0] }

end Sys2Proof.Machine
end

