-- ==== Sys2Proof/Safety.lean ====
section
/-!
DEFINITION. What counts as a safe run, and the terms in which the statements about instructions are put: when an
instruction may issue, what every completed instruction may move, and what it leaves as it was.
-/

namespace Sys2Proof

/-- `n` steps from a state end in a next state: none stops with a fault or a refusal. -/
def safeFor (n : Nat) (s : Machine.State) : Prop :=
  ∃ t, core.run n s = .next t

end Sys2Proof

namespace Sys2Proof.Machine

/-! ## When an instruction issues with its own effect -/

/-- The issuing strand holds its slot, some lane is active (R239), and no STEP follows the instruction
(R288). -/
structure State.Runs (s : State) : Prop where
  slot : (s.strand? s.cur.core s.cur.slot).isSome = true
  lane : s.cur.act ≠ 0
  step : s.me.sup = true ∨ s.me.dbgstep = false

/-- `n` vector registers from field `f` lie in the strand's allotment (R60, R65), and no PLD or PATOM of the strand has one of
them still to write (R70, R442). -/
def State.Holds (s : State) (f n : Nat) : Prop :=
  f + n ≤ 128 ∧ s.me.wb + f + n ≤ s.me.allot ∧ ∀ k < n, ∀ w ∈ s.me.peers, w.writes (s.me.wb + f + k) = false

/-- No matrix operation holds one of `n` vector registers from field `f` (R72). -/
def State.Free (s : State) (f n : Nat) : Prop :=
  ∀ k < n, (s.ctx s.cur.core).lockedV s.me.uid (s.me.wb + f + k) = false

/-! ## The canonical form of the state -/

/-- The register files of a strand ascend and list nothing that an unlisted entry reads as. -/
def Strand.canonical (t : Strand) : Bool :=
  t.vregs.canonical 0 && t.xregs.canonical 0 && t.preds.canonical 0 && t.accs.canonical 0 &&
    t.guards.canonical .isTrue && t.sregs.sorted
/-- So do the elements and the zero bitmap of a tile. -/
def Tile.canonical (u : Tile) : Bool := u.data.canonical 0 && u.zbm.canonical 0
/-- So do those of the strands of a context, its strand slots, its shelf, its shadow accumulators, the tiles of its
workgroups and its scale entries, which hold 64 values at most. -/
def Context.canonical (x : Context) : Bool :=
  (x.strands.all fun e => e.2.canonical) && x.shelf.wf && x.strands.sorted && x.shadows.canonical 0 &&
    (x.wgs.all fun w => w.tiles.sorted && w.tiles.all fun e => e.2.canonical) && x.scales.sorted &&
    x.scales.all fun e => decide (e.2.data.length ≤ 64)
/-- So do those of both contexts of a core; the lines of its L1 ascend and hold 128 bytes each. -/
def Core.canonical (k : Core) : Bool :=
  k.ctx.canonical && k.parked.canonical && k.l1.sorted && k.l1.all fun e => e.2.data.length == 128
/-- Every memory and every register file is in its canonical form, and the cores ascend. -/
def State.canonical (s : State) : Bool :=
  s.harbour.wf && s.far.wf && (s.cores.all fun e => e.2.canonical) && s.cores.sorted

/-! ## What stays -/

/-- A state without what any completed instruction may move: the split table and stack of the issuing strand,
the marks of completion and of a taken branch, and the event counters. `f` leaves out more of the issuing strand. -/
def State.rest (f : Strand → Strand) (s : State) : State :=
  { s.modMe (fun t => f { t with splits := [], stack := [] }) with
    cur := { s.cur with done := false, out := false }
    parts := s.parts.map fun (e : Nat × Partition) => (e.1, { e.2 with pmc := [] }) }

/-- One byte of each memory: harbour at home, far memory, each shelf. -/
def SameBytes (s t : State) : Prop :=
  ∀ a, t.harbour.byte a = s.harbour.byte a ∧ t.far.byte a = s.far.byte a ∧
    ∀ c, (t.shelf c).byte a = (s.shelf c).byte a

/-- Apart from the flow of the issuing strand and what `f` leaves out of it, nothing differs. -/
def Same (f : Strand → Strand) (s t : State) : Prop := State.rest f t = State.rest f s

/-- Nothing is left out. -/
def whole (t : Strand) : Strand := t
/-- The vector registers are left out, and the keep latch, which a write may empty (R71). -/
def butV (t : Strand) : Strand := { t with vregs := [], keep := none }
/-- The vector registers and FLG are left out. -/
def butVF (t : Strand) : Strand := { butV t with flg := 0 }
/-- The uniform registers are left out. -/
def butX (t : Strand) : Strand := { t with xregs := [] }
/-- The uniform registers and FLG are left out. -/
def butXF (t : Strand) : Strand := { butX t with flg := 0 }
/-- The predicates and FLG are left out. -/
def butPF (t : Strand) : Strand := { t with preds := [], flg := 0 }
/-- The predicates are left out. -/
def butP (t : Strand) : Strand := { t with preds := [] }

/-- Vector registers other than those of `n` fields from `d`, and inactive lanes of those, are as before. -/
def OtherV (d n : Nat) (s t : State) : Prop :=
  ∀ p l, l < 32 → (¬(s.me.wb + d ≤ p ∧ p < s.me.wb + d + n) ∨ s.cur.act.getLsbD l = false) →
    t.me.vphys p l = s.me.vphys p l

/-- Uniform registers other than one are as before. -/
def OtherX (d : Nat) (s t : State) : Prop := ∀ x, x ≠ d → t.x x = s.x x

/-- Predicates other than one are as before, and P0 is true. -/
def OtherP (d : Nat) (s t : State) : Prop := (∀ p, p ≠ d → t.p p = s.p p) ∧ t.p 0 = 0xFFFFFFFF#32

end Sys2Proof.Machine
end

