-- ==== Sys2Proof/Certificates/Slice0/Obligations.lean ====
section
/-!
DEFINITION. The statements about the model, each with the rule of spec/ that it formalises. Where one statement covers
many instructions of one shape, a table written from the spec's entries gives each its operands and its result.
-/

namespace Sys2Proof.Machine

/-! ## Vector instructions without flags -/

/-- What a vector instruction without flags does: destination, sources, the value of an active lane. -/
structure LaneSpec where
  dest : VReg
  srcs : List VReg
  val : State → Nat → Word

/-- An unsigned number modulo 2^32. -/
def wordOf (n : Nat) : Word := BitVec.ofNat 32 n
/-- A signed number modulo 2^32. -/
def intWord (n : Int) : Word := BitVec.ofInt 32 n

/-- One register in. -/
def lane1 (d a : VReg) (f : Word → Word) : LaneSpec := ⟨d, [a], fun s l => f (s.v a.val l)⟩
/-- Two registers in. -/
def lane2 (d a b : VReg) (f : Word → Word → Word) : LaneSpec := ⟨d, [a, b], fun s l => f (s.v a.val l) (s.v b.val l)⟩
/-- Three registers in. -/
def lane3 (d a b c : VReg) (f : Word → Word → Word → Word) : LaneSpec :=
  ⟨d, [a, b, c], fun s l => f (s.v a.val l) (s.v b.val l) (s.v c.val l)⟩

/-- A field of `n` bits at `p` of a word that goes on with its sign, or with zeros (R367). -/
def bitField (sg : Bool) (x y : Word) : Word :=
  let p := min (y.toNat % 256) 32
  let n := min (y.toNat / 256 % 256) 32
  let e : Nat := if sg && x.msb then 0xFFFFFFFF00000000 + x.toNat else x.toNat
  let f := e / 2 ^ p % 2 ^ n
  if n = 0 then 0 else if sg && f.testBit (n - 1) then intWord (f - 2 ^ n) else wordOf f

/-- A field inserted (R366). -/
def bitInsert (x y z : Word) : Word :=
  let p := z.toNat % 256
  let n := z.toNat / 256 % 256
  if n = 0 ∨ 32 ≤ p then y
  else
    let m := wordOf ((2 ^ min n (32 - p) - 1) * 2 ^ p)
    (y &&& ~~~m) ||| (wordOf (x.toNat * 2 ^ p) &&& m)

/-- The class bit of an FP32 encoding (R395). -/
def classBit (x : Word) : Nat :=
  let e := x.toNat / 2 ^ 23 % 256
  let m := x.toNat % 2 ^ 23
  let neg := x.msb
  if e = 255 ∧ m ≠ 0 then (if m < 2 ^ 22 then 0 else 1)
  else if e = 255 then (if neg then 2 else 9)
  else if e ≠ 0 then (if neg then 3 else 8)
  else if m ≠ 0 then (if neg then 4 else 7)
  else (if neg then 5 else 6)

/-- The vector instructions without flags (R355, R366, R367, R370, R395, R407, R414 to R418, R427, R437, R446,
R458, R462). -/
def laneSpec : Instr → Option LaneSpec
  | .iadd d a b => some (lane2 d a b fun x y => wordOf (x.toNat + y.toNat))
  | .iaddImm d a k => some (lane1 d a fun x => wordOf (x.toNat + k.val))
  | .isub d a b => some (lane2 d a b fun x y => intWord (x.toNat - y.toNat))
  | .imul d a b => some (lane2 d a b fun x y => wordOf (x.toNat * y.toNat))
  | .imulhS32 d a b => some (lane2 d a b fun x y => intWord (x.toInt * y.toInt / 2 ^ 32))
  | .imulhU32 d a b => some (lane2 d a b fun x y => wordOf (x.toNat * y.toNat / 2 ^ 32))
  | .imad d a b c => some (lane3 d a b c fun x y z => wordOf (x.toNat * y.toNat + z.toNat))
  | .iabs d a => some (lane1 d a fun x => intWord x.toInt.natAbs)
  | .iminS32 d a b => some (lane2 d a b fun x y => intWord (min x.toInt y.toInt))
  | .iminU32 d a b => some (lane2 d a b fun x y => wordOf (min x.toNat y.toNat))
  | .imaxS32 d a b => some (lane2 d a b fun x y => intWord (max x.toInt y.toInt))
  | .imaxU32 d a b => some (lane2 d a b fun x y => wordOf (max x.toNat y.toNat))
  | .select d a b p => some ⟨d, [a, b], fun s l => if (s.p p.val).getLsbD l then s.v a.val l else s.v b.val l⟩
  | .mov d a => some (lane1 d a fun x => x)
  | .movi d w => some ⟨d, [], fun _ _ => w⟩
  | .and d a b => some (lane2 d a b fun x y => x &&& y)
  | .andImm d a k => some (lane1 d a fun x => x &&& wordOf k.val)
  | .or d a b => some (lane2 d a b fun x y => x ||| y)
  | .orImm d a k => some (lane1 d a fun x => x ||| wordOf k.val)
  | .xor d a b => some (lane2 d a b fun x y => x ^^^ y)
  | .xorImm d a k => some (lane1 d a fun x => x ^^^ wordOf k.val)
  | .lut3 d a b c t => some (lane3 d a b c fun x y z => maskOf ((List.range 32).filter fun i =>
      t.getLsbD (flag (x.getLsbD i) + 2 * flag (y.getLsbD i) + 4 * flag (z.getLsbD i))))
  | .shl d a b => some (lane2 d a b fun x n => wordOf (x.toNat * 2 ^ n.toNat))
  | .shlImm d a k => some (lane1 d a fun x => wordOf (x.toNat * 2 ^ k.val))
  | .shr d a b => some (lane2 d a b fun x n => wordOf (x.toNat / 2 ^ n.toNat))
  | .shrImm d a k => some (lane1 d a fun x => wordOf (x.toNat / 2 ^ k.val))
  | .shra d a b => some (lane2 d a b fun x n => intWord (x.toInt / 2 ^ n.toNat))
  | .shraImm d a k => some (lane1 d a fun x => intWord (x.toInt / 2 ^ k.val))
  | .funs d a b c => some (lane3 d a b c fun x y z => wordOf ((y.toNat * 2 ^ 32 + x.toNat) / 2 ^ (z.toNat % 64)))
  | .bfxU d a b => some (lane2 d a b (bitField false))
  | .bfxS d a b => some (lane2 d a b (bitField true))
  | .bfi d a b c => some (lane3 d a b c bitInsert)
  | .popc d a => some (lane1 d a fun x => wordOf ((List.range 32).countP fun k => x.getLsbD k))
  | .clz d a => some (lane1 d a fun x => wordOf (if x = 0 then 32 else 31 - x.toNat.log2))
  | .brev d a => some (lane1 d a fun x => x.reverse)
  | .ptov d p => some ⟨d, [], fun s l => wordOf (flag ((s.p p.val).getLsbD l))⟩
  | .fclass d a => some (lane1 d a fun x => wordOf (2 ^ classBit x))
  | _ => none

/-- A word with three fields ORed into a base word, and the literal of form E (R305). -/
def abc (base a b c : Nat) (lit : Option Nat) : Option (Nat × Option Nat) :=
  some (base + a * 2 ^ 14 + b * 2 ^ 7 + c, lit)

/-- Words of vector instructions (R366, R367, R370, R395, R407, R414, R416 to R418, R446, R458). -/
def laneWord : Instr → Option (Nat × Option Nat)
  | .imul d a b => abc 0x08C00000 d.val a.val b.val none
  | .imulhS32 d a b => abc 0x09000000 d.val a.val b.val none
  | .imulhU32 d a b => abc 0x09400000 d.val a.val b.val none
  | .imad d a b c => abc 0x09800000 d.val a.val b.val (some c.val)
  | .iabs d a => abc 0x09C00000 d.val a.val 0 none
  | .iminS32 d a b => abc 0x0A000000 d.val a.val b.val none
  | .iminU32 d a b => abc 0x0A400000 d.val a.val b.val none
  | .imaxS32 d a b => abc 0x0A800000 d.val a.val b.val none
  | .imaxU32 d a b => abc 0x0AC00000 d.val a.val b.val none
  | .select d a b p => abc 0x0B400000 d.val a.val b.val (some p.val)
  | .funs d a b c => abc 0x0F800000 d.val a.val b.val (some c.val)
  | .bfxU d a b => abc 0x10000000 d.val a.val b.val none
  | .bfxS d a b => abc 0x10400000 d.val a.val b.val none
  | .bfi d a b c => abc 0x10800000 d.val a.val b.val (some c.val)
  | .popc d a => abc 0x10C00000 d.val a.val 0 none
  | .clz d a => abc 0x11000000 d.val a.val 0 none
  | .brev d a => abc 0x11400000 d.val a.val 0 none
  | .ptov d p => abc 0x18400000 d.val p.val 0 none
  | .fclass d a => abc 0x1EC00000 d.val a.val 0 none
  | _ => none

/-- The words of a table are those of the encoder. -/
def EncodedBy (words : Instr → Option (Nat × Option Nat)) : Prop :=
  ∀ (i : Instr) (w : Nat) (l : Option Nat), words i = some (w, l) →
    encode i = some (BitVec.ofNat 32 w, l.map (BitVec.ofNat 32))

/-! ## Vector instructions with flags -/

/-- What a vector instruction with flags does: destination, sources, value and flags of an active lane. -/
structure FlagSpec where
  dest : VReg
  srcs : List VReg
  val : State → Nat → Nat × Flags

/-- An FP32 operation on two registers, in the rounding mode and flushing of the instruction or of FMT (R99,
R104). -/
def fpTwo (op : ArithOp) (rm : Option Rm) (ftz : Bool) (d a b : VReg) : FlagSpec :=
  ⟨d, [a, b], fun s l => arith .fp32 op (s.rm rm) (s.ftz ftz) (s.v a.val l).toNat (s.v b.val l).toNat 0⟩

/-- A function of one FP32 register under FMT.FZ. -/
def fpOne (d a : VReg) (f : State → Nat → Nat × Flags) : FlagSpec := ⟨d, [a], fun s l => f s (s.v a.val l).toNat⟩

/-- A paired operation: low halves give the low half, high halves the high half, flags joined (R413). -/
def pairOf (f : Nat → Nat → Nat → Nat × Flags) (x y z : Nat) : Nat × Flags :=
  let lo := f (x % 65536) (y % 65536) (z % 65536)
  let hi := f (x / 65536) (y / 65536) (z / 65536)
  (lo.1 + hi.1 * 65536, lo.2 ||| hi.2)

/-- Paired addition or multiplication. -/
def halfTwo (op : ArithOp) (bf : Bool) (rm : Option Rm) (ftz : Bool) (d a b : VReg) : FlagSpec :=
  ⟨d, [a, b], fun s l => pairOf (arith (if bf then .bf16 else .fp16) op (s.rm rm) (s.ftz ftz))
    (s.v a.val l).toNat (s.v b.val l).toNat 0⟩

/-- The vector instructions with flags (R394, R397, R401, R403, R405, R413). -/
def flagSpec : Instr → Option FlagSpec
  | .fadd d a b => some (fpTwo .add none false d a b)
  | .faddM d a b m => some (fpTwo .add m.rm m.ftz d a b)
  | .fsub d a b => some (fpTwo .sub none false d a b)
  | .fsubM d a b m => some (fpTwo .sub m.rm m.ftz d a b)
  | .fmul d a b => some (fpTwo .mul none false d a b)
  | .fmulM d a b m => some (fpTwo .mul m.rm m.ftz d a b)
  | .ffma d a b m => some ⟨d, [a, b, m.vc], fun s l => arith .fp32 .fma (s.rm m.rm) (s.ftz m.ftz)
      (s.v a.val l).toNat (s.v b.val l).toNat (s.v m.vc.val l).toNat⟩
  | .fmin d a b => some ⟨d, [a, b], fun s l => minMax .fp32 false (fmtFz s.fmt) (s.v a.val l).toNat (s.v b.val l).toNat⟩
  | .fmax d a b => some ⟨d, [a, b], fun s l => minMax .fp32 true (fmtFz s.fmt) (s.v a.val l).toNat (s.v b.val l).toNat⟩
  | .fcvt d a c => some (fpOne d a fun s x => fcvt (s.rm c.rm) (s.ftz c.ftz) c.dst c.src x)
  | .frnd d a rm => some (fpOne d a fun s x => roundIntegral (s.rm rm) (fmtFz s.fmt) x)
  | .frcp d a => some (fpOne d a fun s x => frcp (fmtFz s.fmt) x)
  | .frsq d a => some (fpOne d a fun s x => frsq (fmtFz s.fmt) x)
  | .fex2 d a => some (fpOne d a fun s x => fex2 (fmtFz s.fmt) x)
  | .flg2 d a => some (fpOne d a fun s x => flg2 (fmtFz s.fmt) x)
  | .fsin d a => some (fpOne d a fun s x => fsin (fmtFz s.fmt) x)
  | .fcos d a => some (fpOne d a fun s x => fcos (fmtFz s.fmt) x)
  | .hadd2 d a bf b => some (halfTwo .add bf none false d a (lowReg b))
  | .hadd2M d a b m => some (halfTwo .add m.bf m.rm m.ftz d a b)
  | .hmul2 d a bf b => some (halfTwo .mul bf none false d a (lowReg b))
  | .hmul2M d a b m => some (halfTwo .mul m.bf m.rm m.ftz d a b)
  | .hfma2 d a b m => some ⟨d, [a, b, m.vc], fun s l =>
      pairOf (arith (if m.bf then .bf16 else .fp16) .fma (s.rm m.rm) (s.ftz m.ftz))
        (s.v a.val l).toNat (s.v b.val l).toNat (s.v m.vc.val l).toNat⟩
  | _ => none

/-- FLG after an instruction whose lanes set flags: a flag is one that was set, or that an active lane sets
(R76, R105). -/
def FlagsJoined (s t : State) (fl : Nat → Flags) : Prop :=
  ∀ k < 16, t.me.flg.getLsbD k = true ↔
    s.me.flg.getLsbD k = true ∨ k < 6 ∧ ∃ l < 32, s.cur.act.getLsbD l = true ∧ (fl l).getLsbD k = true

/-! ## Predicates -/

/-- What a predicate-producing instruction does: destination, vector sources, lanes written, the bit and the flags
of a lane. -/
structure PredSpec where
  dest : PReg
  srcs : List VReg
  lanes : State → Mask
  val : State → Nat → Bool
  fl : State → Nat → Flags

/-- A comparison by its name (R406, R419, R500). -/
def compares (c : Cmp) (x y : Int) : Bool :=
  match c with
  | .eq => x = y | .ne => x ≠ y | .lt => x < y | .le => x ≤ y | .gt => y < x | .ge => y ≤ x

/-- A word as a signed or unsigned number. -/
def asInt (sg : Bool) {w : Nat} (x : BitVec w) : Int := if sg then x.toInt else x.toNat

/-- A logical operation on two bits (R443). -/
def bitLogic (op : LogOp) (x y : Bool) : Bool :=
  match op with
  | .and => x && y | .or => x || y | .xor => x != y | .andn => x && !y

/-- The predicate-producing instructions (R406, R419, R443, R494, R500). -/
def predSpec : Instr → Option PredSpec
  | .iscmp sg c p a b => some ⟨p, [a, b], fun s => s.cur.act,
      fun s l => compares c (asInt sg (s.v a.val l)) (asInt sg (s.v b.val l)), fun _ _ => 0⟩
  | .fscmp c p a b => some ⟨p, [a, b], fun s => s.cur.act,
      fun s l => (compareF c (fmtFz s.fmt) (s.v a.val l).toNat (s.v b.val l).toNat).1,
      fun s l => (compareF c (fmtFz s.fmt) (s.v a.val l).toNat (s.v b.val l).toNat).2⟩
  | .vtop p a => some ⟨p, [a], fun s => s.cur.act, fun s l => (s.v a.val l).toNat ≠ 0, fun _ _ => 0⟩
  | .plop op p a b => some ⟨p, [], fun s => s.cur.act,
      fun s l => bitLogic op ((s.p a.val).getLsbD l) ((s.p b.val).getLsbD l), fun _ _ => 0⟩
  | .xscmp sg c p a b => some ⟨p, [], fun s => s.mySplit.mask,
      fun s _ => compares c (asInt sg (s.x a.val)) (asInt sg (s.x b.val)), fun _ _ => 0⟩
  | _ => none

/-- The code of a comparison (R406). -/
def cmpNum : Cmp → Nat
  | .eq => 0 | .ne => 1 | .lt => 2 | .le => 3 | .gt => 4 | .ge => 5
/-- The code of a logical operation (R443). -/
def logNum : LogOp → Nat
  | .and => 0 | .or => 1 | .xor => 2 | .andn => 3

/-- Words of predicate-producing instructions (R419, R443, R494, Table 21-8). -/
def predWord : Instr → Option (Nat × Option Nat)
  | .iscmp sg c p a b => abc 0x0B000000 (p.val + 8 * cmpNum c + 64 * flag sg) a.val b.val none
  | .plop op p a b => abc 0x18000000 (p.val + 8 * logNum op) a.val b.val none
  | .vtop p a => abc 0x18800000 p.val a.val 0 none
  | .xscmp sg c p a b => abc 0x16C00000 (p.val + 8 * cmpNum c + 64 * flag sg) a.val b.val none
  | _ => none

/-! ## Uniform instructions -/

/-- What a uniform instruction does: destination, value, and what beside the issue it needs. -/
structure UniSpec where
  dest : XReg
  val : State → DWord
  ok : State → Prop

/-- A uniform instruction that needs nothing. -/
def uni (d : XReg) (f : State → DWord) : UniSpec := ⟨d, f, fun _ => True⟩

/-- The bits of a logical operation on two uniform registers (R499). -/
def wordLogic (op : LogOp) (x y : DWord) : DWord :=
  match op with
  | .and => x &&& y | .or => x ||| y | .xor => x ^^^ y | .andn => x &&& ~~~y

/-- The uniform instructions that only write a uniform register (R120, R378, R438, R499, R502). -/
def uniSpec : Instr → Option UniSpec
  | .xadd d a b => some (uni d fun s => BitVec.ofNat 64 (s.xn a.val + s.xn b.val))
  | .xaddImm d a k => some (uni d fun s => BitVec.ofNat 64 (s.xn a.val + k.val))
  | .xsub d a b => some (uni d fun s => BitVec.ofInt 64 ((s.xn a.val : Int) - s.xn b.val))
  | .xmul d a b => some (uni d fun s => BitVec.ofNat 64 (s.xn a.val * s.xn b.val))
  | .xlop op d a b => some (uni d fun s => wordLogic op (s.x a.val) (s.x b.val))
  | .xshl d a b => some (uni d fun s => BitVec.ofNat 64 (s.xn a.val * 2 ^ s.xn b.val))
  | .xshlImm d a k => some (uni d fun s => BitVec.ofNat 64 (s.xn a.val * 2 ^ k.val))
  | .xshr d a b => some (uni d fun s => BitVec.ofNat 64 (s.xn a.val / 2 ^ s.xn b.val))
  | .xshrImm d a k => some (uni d fun s => BitVec.ofNat 64 (s.xn a.val / 2 ^ k.val))
  | .xmov d a => some (uni d fun s => s.x a.val)
  | .xmovi d w => some (uni d fun _ => BitVec.ofInt 64 w.toInt)
  | .xget d k => some (uni d fun s => BitVec.ofNat 64 (s.taskValue k.val))
  | .movsX d c => some ⟨d, fun s => s.special c.val 0, fun s => c.val = 0x12 → s.flagsOpen = false⟩
  | .csrr d n => some ⟨d, fun s => (s.csr? n.val).getD 0, fun s =>
      s.me.sup = true ∧ s.me.openReqs = [] ∧ (s.csr? n.val).isSome = true⟩
  | .sqry d t => some ⟨d, fun s => BitVec.ofNat 64 (s.query t.val), fun s => t.val < s.myWg.ntiles⟩
  | _ => none

/-- Words of the uniform instructions (Table 21-8). -/
def uniWord : Instr → Option (Nat × Option Nat)
  | .xadd d a b => abc 0x14000000 d.val a.val b.val none
  | .xaddImm d a k => abc 0x14400000 d.val a.val k.val none
  | .xsub d a b => abc 0x14800000 d.val a.val b.val none
  | .xmul d a b => abc 0x14C00000 d.val a.val b.val none
  | .xlop op d a b => abc 0x15000000 (d.val + 64 * (logNum op / 2)) (a.val + 64 * (logNum op % 2)) b.val none
  | .xshl d a b => abc 0x15400000 d.val a.val b.val none
  | .xshlImm d a k => abc 0x15800000 d.val a.val k.val none
  | .xshr d a b => abc 0x15C00000 d.val a.val b.val none
  | .xshrImm d a k => abc 0x16000000 d.val a.val k.val none
  | .xmov d a => abc 0x16400000 d.val a.val 0 none
  | .xmovi d w => abc 0x16800000 d.val 0 0 (some w.toNat)
  | .xscmp sg c p a b => abc 0x16C00000 (p.val + 8 * cmpNum c + 64 * flag sg) a.val b.val none
  | .xld d a k => abc 0x17000000 d.val a.val k.val none
  | .xst b a k => abc 0x17400000 b.val a.val k.val none
  | .xget d k => abc 0x17800000 d.val 0 k.val none
  | _ => none

/-! ## Memory accesses -/

/-- The number that `n` little-endian bytes of a memory hold (R3). -/
def loadOf (m : Nat → Byte) (a n : Nat) : Nat := ofBytes ((List.range n).map fun i => m (a + i))
/-- A memory with the low `n` bytes of a number at an address. -/
def storeOf (m : Nat → Byte) (a n v : Nat) : Nat → Byte := fun b =>
  if a ≤ b ∧ b < a + n then BitVec.ofNat 8 (v / 2 ^ (8 * (b - a))) else m b

/-- A byte of harbour as a core meets it (R199). At CORE scope: what its L1 holds, else its home. At a wider scope:
a dirty byte of its L1, else its home. -/
def State.seen (s : State) (core : Nat) (wide : Bool) (a : Nat) : Byte :=
  match (s.core core).l1.at? (a / 128) with
  | some l => if !wide || l.dirty.getLsbD (a % 128) then l.data.getD (a % 128) 0 else s.harbour.byte a
  | none => s.harbour.byte a

/-- A number in harbour as the issuing core meets it at home. -/
def State.seenLoad (s : State) (a n : Nat) : Nat := loadOf (s.seen s.cur.core true) a n

/-- A state without what moves when a line enters or leaves the issuing core's L1: harbour and that L1 (their bytes
are compared as they are seen), notices, release records and promotions, names, arguments of free values. -/
def State.uncached (s : State) : State :=
  { s.modCore s.cur.core (fun k => { k with l1 := [] }) with
    harbour := [], notices := [], records := [], promotions := [], nextId := 0, free := 0 }

/-- Like `Same`, but lines of the issuing core's L1 may have entered or left; shelves and far memory are as before. -/
def SameApartL1 (f : Strand → Strand) (s t : State) : Prop :=
  Same f s.uncached t.uncached ∧
    ∀ a, t.far.byte a = s.far.byte a ∧ ∀ c, (t.shelf c).byte a = (s.shelf c).byte a

/-- Every byte of harbour is seen as before. -/
def SameSeen (s t : State) : Prop := ∀ a, t.seen s.cur.core true a = s.seen s.cur.core true a

/-- An access of a counter's class may go on (R181, R194): the counter stands below 63, and no acquiring peer access of the
strand is open. -/
abbrev State.countRoom (s : State) (c : CClass) : Prop := s.me.counter c < 63 ∧ s.me.acquiring = []
/-- A state whose issuing strand has passed an access, complete as it issues, through a counter (R181). -/
def State.passed (s : State) (c : CClass) : State := s.modMe fun t => t.through c
/-- The counter of a class after such an access: it rises only behind an access of the class that is not complete
(R181). -/
def CountedAs (c : CClass) (s t : State) : Prop :=
  t.me.counter c = if s.me.counter c = 0 then 0 else s.me.counter c + 1

/-- `n` bytes at a generic address are harbour of the strand's partition, aligned and declared (R153, R154, R224). -/
structure HarbourOk (s : State) (a n : Nat) (rd wr : Bool) : Prop where
  tag : a / 2 ^ 30 = 0xE * 2 ^ 30
  aligned : a % n = 0
  window : (s.part s.me.part).hwbase.toNat ≤ a % 2 ^ 30 ∧ a % 2 ^ 30 + n ≤ (s.part s.me.part).hwlimit.toNat
  declared : s.declared true rd wr (a % 2 ^ 30) n = true

/-- A load or store: data registers, width, offset registers, address of a lane, order. -/
structure Access where
  data : VReg
  width : Width
  offs : List VReg
  addr : State → Nat → Nat
  strong : Bool
  scope : Scope
  rsp : Bool

/-- The vector register that an offset names. -/
def offReg : Off → List VReg
  | .imm _ => []
  | .reg v => [v]
/-- A compact access (R421, R465). -/
def compact (v : VReg) (a : CAddr) : Access :=
  ⟨v, .b32, match a with | .reg _ o => [o] | .imm _ _ => [], fun s => s.caddr a, false, .core, false⟩
/-- A full access (R422, R465). -/
def full (v : VReg) (l : LdLit) : Access :=
  ⟨v, l.w, offReg l.off, fun s => s.offAddr l.xa l.off, l.strong, l.scope, l.rsp⟩

/-- Loads from the shelf. -/
def shelfLoad : Instr → Option Access
  | .ldS d a => some (compact d a) | .ldSFull d l => some (full d l) | _ => none
/-- Loads from harbour. -/
def harbourLoad : Instr → Option Access
  | .ldH d a => some (compact d a) | .ldHFull d l => some (full d l) | _ => none
/-- Stores to the shelf. -/
def shelfStore : Instr → Option Access
  | .stS b a => some (compact b a) | .stSFull b l => some (full b l) | _ => none
/-- Stores to harbour. -/
def harbourStore : Instr → Option Access
  | .stH b a => some (compact b a) | .stHFull b l => some (full b l) | _ => none

/-- What every access needs, beside its addresses: registers in the allotment, a counter with room (R181), no
comparator set; if it is strong, for a load no open releasing peer access of the strand, for a store no open one at all
(R194). -/
structure Access.Ready (x : Access) (c : CClass) (s : State) : Prop where
  runs : s.Runs
  canonical : s.canonical = true
  held : s.Holds x.data.val x.width.regs ∧ ∀ r ∈ x.offs, s.Holds r.val 1
  room : s.countRoom c
  debug : (s.part s.me.part).dbgctl = []
  peers : x.strong = true → (if c = .lds then s.me.releasing else s.me.openReqs) = []

/-- The lines that up to 32 accesses bring into the issuing core's L1 find room. -/
def State.roomL1 (s : State) : Prop := (s.core s.cur.core).l1.length + 32 ≤ Config.l1Lines

/-- No acquire of the split is under way, and no other core has released one of the lines (R203). -/
def State.unreleased (s : State) : Prop :=
  (∀ k, s.mySplit.stall ≠ .promotion k) ∧ s.notices = [] ∧
    ∀ e ∈ s.records, ∀ r ∈ e.2, r.core = s.cur.core

/-- Every active lane's access lies in the shelf, aligned (R154, R155). -/
def Access.InShelf (x : Access) (s : State) : Prop :=
  ∀ l < 32, s.cur.act.getLsbD l = true →
    x.addr s l % x.width.bytes = 0 ∧ x.addr s l + x.width.bytes ≤ Config.shelfBytes
/-- Every active lane's access is harbour. -/
def Access.InHarbour (x : Access) (s : State) (rd wr : Bool) : Prop :=
  ∀ l < 32, s.cur.act.getLsbD l = true → HarbourOk s (x.addr s l) x.width.bytes rd wr

/-- A load's lanes take the numbers that a memory holds at their addresses, zero-extended, low word first (R424). -/
def Access.Loaded (x : Access) (s t : State) (m : Nat → Byte) (at_ : Nat → Nat) : Prop :=
  ∀ l < 32, s.cur.act.getLsbD l = true → ∀ k < x.width.regs,
    t.v (x.data.val + k) l = wordOf (loadOf m (at_ (x.addr s l)) x.width.bytes / 2 ^ (32 * k))

/-- An active lane stores to a byte. -/
def Access.Covers (x : Access) (s : State) (at_ : Nat → Nat) (l a : Nat) : Prop :=
  l < 32 ∧ s.cur.act.getLsbD l = true ∧ at_ (x.addr s l) ≤ a ∧ a < at_ (x.addr s l) + x.width.bytes

/-- A stored byte is that of the highest active lane that stores to it (R193, R466); every other byte is as before. -/
def Access.Stored (x : Access) (s : State) (at_ : Nat → Nat) (before after : Nat → Byte) : Prop :=
  (∀ a l, x.Covers s at_ l a → (∀ m, l < m → ¬x.Covers s at_ m a) →
    after a = BitVec.ofNat 8 (s.laneData x.data x.width l / 2 ^ (8 * (a - at_ (x.addr s l))))) ∧
  ∀ a, (∀ l, ¬x.Covers s at_ l a) → after a = before a

/-- The harbour address of a generic address (Table 7-2). -/
def inHarbourAt (a : Nat) : Nat := a % 2 ^ 30

/-- The new value of an atomic operation on `n` bytes (R358). -/
def atomValue (op : AtomOp) (sg : Bool) (n old b c : Nat) : Nat :=
  let z (x : Nat) : Int := if sg then signed (8 * n) x else x
  match op with
  | .add => (old + b) % 2 ^ (8 * n)
  | .min => if z b < z old then b else old
  | .max => if z b > z old then b else old
  | .and => old &&& b
  | .or => old ||| b
  | .xor => old ^^^ b
  | .xchg => b
  | .cas => if old = b then c else old

/-- Atomic operations of lanes, one after the other, on a memory: the old values by lane, and the memory after. -/
def atomics (n : Nat) (at_ : Nat → Nat) (op : Nat → Nat → Nat) : List Nat → (Nat → Byte) → (Nat → Nat) × (Nat → Byte)
  | [], m => (fun _ => 0, m)
  | l :: ls, m =>
    let old := loadOf m (at_ l) n
    let r := atomics n at_ op ls (storeOf m (at_ l) n (op l old))
    (fun k => if k = l then old else r.1 k, r.2)

/-- A lane's operand of 4 or 8 bytes, in one register or a pair (R357). -/
def State.operand (s : State) (f : VReg) (w64 : Bool) (l : Nat) : Nat :=
  (s.v f.val l).toNat + if w64 then (s.v (f.val + 1) l).toNat * 2 ^ 32 else 0

/-- The atomics of an instruction, lanes ascending, from the bytes that its core meets at home. -/
def State.atomRun (s : State) (l : AtomLit) (b c : VReg) : (Nat → Nat) × (Nat → Byte) :=
  let n := if l.w64 then 8 else 4
  atomics n (fun k => inHarbourAt (s.offAddr l.xa l.off k))
    (fun k old => atomValue l.op l.sg n old (s.operand b l.w64 k) (s.operand c l.w64 k))
    ((List.range 32).filter fun k => s.cur.act.getLsbD k) (s.seen s.cur.core true)

/-- What ATOM and RED need. -/
structure AtomReady (s : State) (l : AtomLit) (regs : List VReg) (c : CClass) (rd : Bool) : Prop where
  runs : s.Runs
  canonical : s.canonical = true
  held : ∀ r ∈ regs, s.Holds r.val (if l.w64 then 2 else 1)
  offs : ∀ r ∈ offReg l.off, s.Holds r.val 1
  room : s.countRoom c
  debug : (s.part s.me.part).dbgctl = []
  peers : (l.rel = true → s.me.openReqs = []) ∧ (l.acq = true → l.rel = false → s.me.releasing = [])
  lanes : ∀ k < 32, s.cur.act.getLsbD k = true → HarbourOk s (s.offAddr l.xa l.off k) (if l.w64 then 8 else 4) rd true
  rsp : l.rsp = true → s.unreleased

/-- The bytes that the lanes of ATOM and RED store to. -/
def atomCovers (s : State) (l : AtomLit) (a : Nat) : Prop :=
  ∃ k < 32, s.cur.act.getLsbD k = true ∧ inHarbourAt (s.offAddr l.xa l.off k) ≤ a ∧
    a < inHarbourAt (s.offAddr l.xa l.off k) + if l.w64 then 8 else 4

/-- What XLD and XST need at their address (R501). -/
structure UniformReady (s : State) (a : XReg) (k : Fin 128) (rd wr : Bool) : Prop where
  runs : s.Runs
  canonical : s.canonical = true
  debug : (s.part s.me.part).dbgctl = []
  ok : HarbourOk s ((s.xn a.val + 8 * k.val) % 2 ^ 64) 8 rd wr
  acquired : s.me.acquiring = []
  room : s.roomL1

/-- What CFLUSH and CINV need (R372). -/
structure LineReady (s : State) (x : XReg) : Prop where
  runs : s.Runs
  canonical : s.canonical = true
  ok : HarbourOk s (s.xn x.val) 1 true false
  room : s.countRoom .sts

/-! ## Strand-wide instructions -/

/-- A strand-wide instruction runs: the strand has converged (R32), and its member mask names no exited lane (R34). -/
structure StrandWide (s : State) (m : Option XReg) : Prop where
  runs : s.Runs
  canonical : s.canonical = true
  converged : s.me.converged = true
  members : ∀ x ∈ m, (s.x x.val).setWidth 32 &&& ~~~s.me.live = 0

/-- The lanes that take part, ascending (R34). -/
def State.taking (s : State) (m : Option XReg) : List Nat :=
  (List.range 32).filter fun l => s.cur.act.getLsbD l && (match m with | some x => (s.x x.val).getLsbD l | none => true)

/-- The reductions of Table 20-5, as a number before it is cut to the destination. -/
def reduction (s : State) (op : RedOp) (xs : List Word) : Int × Flags :=
  match op with
  | .addU => (((xs.map BitVec.toNat).foldl (· + ·) 0 : Nat), 0)
  | .addS => ((xs.map BitVec.toInt).foldl (· + ·) 0, 0)
  | .minU => (((xs.map BitVec.toNat).foldl min (2 ^ 32 - 1) : Nat), 0)
  | .minS => ((xs.map BitVec.toInt).foldl min (2 ^ 31 - 1), 0)
  | .maxU => (((xs.map BitVec.toNat).foldl max 0 : Nat), 0)
  | .maxS => ((xs.map BitVec.toInt).foldl max (-2 ^ 31), 0)
  | .and => ((xs.foldl (· &&& ·) 0xFFFFFFFF#32).toNat, 0)
  | .or => ((xs.foldl (· ||| ·) 0#32).toNat, 0)
  | .xor => ((xs.foldl (· ^^^ ·) 0#32).toNat, 0)
  | .addF => if xs = [] then (0, 0) else
      let r := Num.sum (s.rm none) (xs.map fun x => (Fmt.fp32.src (fmtFz s.fmt) x.toNat).1)
      let q := Fmt.fp32.round (s.rm none) (fmtFz s.fmt) r.1
      (q.1, r.2 ||| q.2)
  | .minF | .maxF =>
      let r := xs.foldl (fun (r : Nat × Flags) x =>
        let q := minMax .fp32 (op == .maxF) (fmtFz s.fmt) r.1 x.toNat
        (q.1, r.2 ||| q.2)) (0x7FC00000, 0)
      (r.1, r.2)

/-- The reduction of a register over lanes. -/
def State.reductionOf (s : State) (op : RedOp) (a : VReg) (ls : List Nat) : Int × Flags :=
  reduction s op (ls.map fun l => s.v a.val l)

/-- Strand-wide instructions that write a vector register (R428, R455, R461), with their member mask. -/
def crossSpec : Instr → Option (Option XReg × FlagSpec)
  | .scan d a op => some (none, ⟨d, [a], fun s l =>
      let r := s.reductionOf op a ((s.taking none).filter (· ≤ l))
      ((intWord r.1).toNat, r.2)⟩)
  | .matchLanes d a => some (none, ⟨d, [a], fun s l =>
      ((maskOf ((s.taking none).filter fun k => s.v a.val k = s.v a.val l)).toNat, 0)⟩)
  | .matchMask d a m => some (some m, ⟨d, [a], fun s l =>
      ((maskOf ((s.taking (some m)).filter fun k => s.v a.val k = s.v a.val l)).toNat, 0)⟩)
  | .shfl d a b => some (none, ⟨d, [a, b], fun s l =>
      let k := (s.v b.val l).toNat % 32
      ((if s.me.live.getLsbD k then s.v a.val k else 0).toNat, 0)⟩)
  | .shflp d a n => some (none, ⟨d, [a], fun s l =>
      let k := s.myWg.pattern n.val l
      ((if s.me.live.getLsbD k then s.v a.val k else 0).toNat, 0)⟩)
  | _ => none

/-- SRED with its member mask: destination, source, operation (R454). -/
def sredSpec : Instr → Option (Option XReg × XReg × VReg × RedOp)
  | .sred d a op => some (none, d, a, op)
  | .sredMask d a op m => some (some ⟨m.val, Nat.lt_trans m.isLt (by decide)⟩, d, a, op)
  | _ => none

/-- VOTE with its member mask (R493). -/
def voteSpec : Instr → Option (Option XReg × VoteArg)
  | .vote w => some (none, w)
  | .voteMask w m => some (some m, w)
  | _ => none

/-- Whether ANY or ALL holds of a predicate over lanes. -/
def voted (op : VoteOp) (ls : List Nat) (p : Mask) : Bool :=
  match op with | .all => ls.all fun l => p.getLsbD l | _ => ls.any fun l => p.getLsbD l

/-- A state without the permutation patterns of the issuing workgroup. -/
def State.sansPatterns (s : State) : State := s.modMyWg fun w => { w with patterns := [] }

/-! ## Strand state -/

/-- What an instruction that only sets fields of its strand does: what it needs beside the issue, the strand it leaves
(its flow apart), and the FMT of its split. -/
structure StrandSpec where
  ok : State → Prop
  set : State → Strand → Strand
  fmt : State → Word

/-- An instruction that leaves FMT. -/
def strandOnly (ok : State → Prop) (set : State → Strand → Strand) : StrandSpec := ⟨ok, set, State.fmt⟩

/-- The bound of a WAITC: the one that it read when it issued first, if it has waited since (R496). -/
def State.waitBound (s : State) (c : CClass) (n : Nat) : Nat :=
  match s.mySplit.stall with
  | .counter d k => if d = c then k else n
  | _ => n

/-- A lane slice of four stays held as long as one of its eight lanes has not exited (R463). -/
def sliceStays (t : Strand) (k : Nat) : Bool :=
  t.slices.getLsbD k && (List.range 32).any fun l => decide (l / 8 = k) && t.live.getLsbD l

/-- The instructions that only set fields of their strand (R182, R408, R439, R459, R460, R463, R496, R497, R503). -/
def strandSpec : Instr → Option StrandSpec
  | .nop => some (strandOnly (fun _ => True) fun _ t => t)
  | .yield => some (strandOnly (fun _ => True) fun _ t => t)
  | .waitc c n => some (strandOnly (fun s => s.me.counter c ≤ s.waitBound c (min (s.xn n.val) 63)) fun _ t => t)
  | .winb b => some (strandOnly (fun s => b.val % 8 = 0 ∧ b.val < s.me.allot) fun _ t =>
      { t with wb := b.val, keep := none })
  | .setfmt x => some ⟨fun s => fmtOk (s.xn x.val % 2 ^ 32) = true, fun _ t => t, fun s => (s.x x.val).setWidth 32⟩
  | .setfmtF x => some (strandOnly (fun s => s.flagsOpen = false) fun s t =>
      { t with flg := t.flg &&& ~~~((s.x x.val).setWidth 16 &&& 0x3F#16) })
  | .gangset x => some (strandOnly (fun s => gangOk (s.xn x.val % 2 ^ 39) s.myWg.nstr s.me.index = true) fun s t =>
      { t with gang := gangValue (s.xn x.val % 2 ^ 39), keep := none })
  | .shrinkV n => some (strandOnly
      (fun s => n.val ≠ 0 ∧ n.val % 8 = 0 ∧ n.val ≤ s.me.allot ∧ s.me.wb < n.val ∧ s.me.loading = []) fun _ t =>
      { t with allot := n.val, vregs := t.vregs.filter (fun e => e.1 < 32 * n.val), keep := none })
  | .shrinkL => some (strandOnly (fun s => s.me.loading = []) fun _ t =>
      { t with slices := BitVec.ofNat 4 (flag (sliceStays t 0) + flag (sliceStays t 1) * 2 + flag (sliceStays t 2) * 4
                 + flag (sliceStays t 3) * 8)
               vregs := t.vregs.filter (fun e => sliceStays t (e.1 % 32 / 8) || !t.slices.getLsbD (e.1 % 32 / 8))
               keep := none })
  | _ => none

/-- The issuing split is the only one, and the reconvergence stack is empty (R32). -/
structure State.Alone (s : State) : Prop where
  converged : s.me.converged = true
  valid : s.mySplit.valid = true
  entry : s.cur.entry < 4

/-- The issuing split stands ready at a PC. -/
structure State.StandsAt (t : State) (pc : PC) (m : Mask) (fmt : Word) : Prop where
  valid : t.mySplit.valid = true
  wait : t.mySplit.wait = 0
  pc : t.mySplit.pc = pc
  mask : t.mySplit.mask = m
  fmt : t.mySplit.fmt = fmt

/-! ## Branches -/

/-- A branch: its target, whether it is taken, and the uniform register it writes with it (R299, R369, R426). -/
structure BranchSpec where
  target : State → PC
  taken : State → Prop
  set : State → Strand → Strand

/-- The branches. -/
def branchSpec : Instr → Option BranchSpec
  | .bra off => some ⟨fun s => s.cur.pc + BitVec.ofInt 48 (4 * signed 21 off.val), fun _ => True, fun _ t => t⟩
  | .brx x => some ⟨fun s => BitVec.ofNat 48 (s.xn x.val / 4 * 4), fun _ => True, fun _ t => t⟩
  | .call off => some ⟨fun s => s.cur.pc + BitVec.ofInt 48 (4 * signed 21 off.val), fun _ => True,
      fun s t => t.setX 63 (s.cur.npc.setWidth 64)⟩
  | .ret => some ⟨fun s => BitVec.ofNat 48 (s.xn 63 / 4 * 4), fun _ => True, fun _ t => t⟩
  | .loopx x off => some ⟨fun s => s.cur.pc + BitVec.ofInt 48 (4 * signed 14 off.val), fun s => s.x x.val ≠ 1,
      fun s t => t.setX x.val (s.x x.val - 1)⟩
  | _ => none

/-- Every entry of the issuing strand's table is in use, at a PC of its own. -/
structure State.FullTable (s : State) : Prop where
  entry : s.cur.entry < 4
  valid : ∀ e < 4, (s.me.split e).valid = true
  apart : ∀ e f, e < f → f < 4 → (s.me.split e).pc ≠ (s.me.split f).pc

/-- A target is an instruction's place, not a header (R238). -/
def placeOk (t : PC) : Prop := t.toNat / 4 % 8 ≠ 0

/-- The keep latch is left out (R71). -/
def butKeep (t : Strand) : Strand := { t with keep := none }

/-- The strand's live lanes are left out. -/
def butLive (t : Strand) : Strand := { t with live := 0 }

/-! ## Traps -/

/-- What a trap frame holds, at the strand's control area `a` (Table 10-2). -/
structure FrameAt (t : State) (a : Nat) (code kind d0 : Nat) (s : State) (npc : PC) : Prop where
  code : t.harbour.load (a + 0x1A0) 2 = code
  entry : t.harbour.load (a + 0x1A2) 1 = s.cur.entry
  kind : t.harbour.load (a + 0x1A3) 1 = kind
  mask : t.harbour.load (a + 0x1A4) 4 = s.mySplit.mask.toNat
  pc : t.harbour.load (a + 0x1A8) 8 = s.cur.pc.toNat
  npc : t.harbour.load (a + 0x1B0) 8 = npc.toNat
  word : t.harbour.load (a + 0x1BC) 4 = s.cur.word.toNat
  detail : t.harbour.load (a + 0x1D0) 8 = d0
  detail1 : t.harbour.load (a + 0x1D8) 8 = 0
  xregs : ∀ k < 64, t.harbour.load (a + 0x200 + 8 * k) 8 = s.xn k
  flg : t.harbour.load (a + 0x12) 2 = s.me.flg.toNat

/-- Supervisor mode and the keep latch are left out. -/
def butMode (t : Strand) : Strand := { t with sup := false, keep := none }

/-- The strand has taken a trap from user mode (R242): the frame stands in its control area, all live lanes are one
split at TVEC, and beside these nothing has changed. -/
structure Entered (s t : State) (code kind d0 : Nat) (npc : PC) : Prop where
  sup : t.me.sup = true
  stack : t.me.stack = []
  entries : t.me.validEntries = [0]
  pc : (t.me.split 0).pc = (s.part s.me.part).tvec.setWidth 48
  mask : (t.me.split 0).mask = s.me.live
  frame : FrameAt t (s.ctlArea s.cur.core s.cur.slot) code kind d0 s npc
  rest : SameApartL1 butMode s t
  bytes : ∀ a, ¬(s.ctlArea s.cur.core s.cur.slot ≤ a ∧ a < s.ctlArea s.cur.core s.cur.slot + 1024) →
    t.seen s.cur.core true a = s.seen s.cur.core true a

/-- A user-mode strand that has somewhere to enter a trap (R251): its slot and entry are in range, its half-die is ready, no
trace is written. -/
structure State.MayEnter (s : State) : Prop where
  slot : (s.strand? s.cur.core s.cur.slot).isSome = true
  range : s.cur.entry < 4
  user : s.me.sup = false
  canonical : s.canonical = true
  ready : s.trapReady s.cur.core s.me.part (s.part s.me.part).tvec = true
  quiet : (s.part s.me.part).trctl.getLsbD 0 = false
/-- And no PLD or PATOM has a register still to write: it can take a trap at once (R83). -/
structure State.MayTrapBut (s : State) : Prop extends s.MayEnter where
  loading : s.me.loading = []
/-- And no latch is held on its core. -/
structure State.MayTrap (s : State) : Prop extends s.MayTrapBut where
  latches : (s.ctx s.cur.core).latches = []

/-- Words of TRAP and BRK (R371, R488). -/
def trapWord : Instr → Option (Nat × Option Nat)
  | .trap n => some (0x03000000 + n.val, none)
  | .brk => some (0x03800000, none)
  | _ => none

/-- The instructions whose effect is a trap: code, kind, DETAIL0, saved next PC (R371, R488). -/
def trapSpec (s : State) : Instr → Option (Nat × Nat × Nat × PC)
  | .trap n => some (0x5A, 1, n.val, s.cur.npc)
  | .brk => some (0x58, 0, 0, s.cur.pc)
  | _ => none

/-- The saved state of a nested trap is left out. -/
def butSt (t : Strand) : Strand := { t with stcode := 0, stpc := 0, staddr := 0, stdetail := 0 }

/-- The control area as its core sees it. -/
def State.area (s : State) : List Byte := s.view s.cur.core (s.ctlArea s.cur.core s.cur.slot) 1024

/-- The number in `n` bytes of the control area (Table 3-7). -/
def State.areaField (s : State) (off n : Nat) : Nat := field s.area off n

/-! ## Barriers -/

/-- A shelf object that a barrier instruction names, on the issuing core or, with bit 48 of the operand, at a position
of its cohort (R361). -/
def State.objectAt (s : State) (x : XReg) (rem : Bool) (core off : Nat) : Prop :=
  off < 2 ^ 20 ∧ off % 16 = 0 ∧
    ((s.xn x.val = off ∧ core = s.cur.core) ∨
      rem = true ∧ ∃ pos < 16, s.xn x.val = off + pos * 2 ^ 44 + 2 ^ 48 ∧ s.cohortCore pos = some core)

/-- What barrier instructions need: an issuing strand, no comparator set, no open acquiring peer access (R194). -/
structure BarReady (s : State) : Prop where
  runs : s.Runs
  canonical : s.canonical = true
  debug : (s.part s.me.part).dbgctl = []
  acquired : s.me.acquiring = []

/-- The object at a shelf offset has become another; every other byte of every shelf is as before. -/
def ObjectBecomes (s t : State) (core off : Nat) (b : BarrierObj) : Prop :=
  t.barrier core off = b ∧
    ∀ c a, ¬(c = core ∧ off ≤ a ∧ a < off + 16) → (t.shelf c).byte a = (s.shelf c).byte a

/-- A state without the shelf of one core. -/
def State.sansShelf (s : State) (c : Nat) : State := s.modShelf c fun _ => []

/-- A scope code wider than CORE. -/
def wideCode (n : Nat) : Bool := decide (n ≠ 0)

/-- BARWAIT and BARTEST on a barrier (R363): `beyond` tells that its phase is not the one asked about, `wide` that its scope
is wider than CORE, `why` what a wait is for. -/
structure PhaseTested (s : State) (sel : BarSel) (b : XReg) (p : PReg) (beyond wide : Bool) (why : Stall) : Prop where
  passed : beyond = true → ∃ t, exec (.barwait sel b) s = .next t ∧ t.cur.done = true ∧ SameApartL1 whole s t ∧
    SameSeen s t ∧ (wide = false → Same whole s t ∧ SameBytes s t) ∧ (wide = true → (t.core s.cur.core).l1 = [])
  waits : beyond = false → s.cur.done = false → ∃ t, exec (.barwait sel b) s = .next t ∧ t.mySplit.wait = 2 ∧ t.mySplit.stall = why ∧
    t.mySplit.pc = s.mySplit.pc ∧ Same whole s t ∧ SameBytes s t
  tested : ∃ t, exec (.bartest p sel b) s = .next t ∧ t.cur.done = true ∧
    (p.val ≠ 0 → ∀ l < 32, (t.p p.val).getLsbD l = if s.cur.act.getLsbD l then beyond else (s.p p.val).getLsbD l) ∧
    OtherP p.val s t ∧ SameApartL1 butP s t ∧ SameSeen s t ∧
    (beyond = true → wide = true → (t.core s.cur.core).l1 = []) ∧
    (beyond = false ∨ wide = false → Same butP s t ∧ SameBytes s t)

/-- An arrival (`false`) or a drop (`true`) on an object with an arrival awaited (Table 7-8). -/
def signalled (b : BarrierObj) (drop : Bool) : BarrierObj :=
  let d := b.drop + flag drop
  if b.cnt = 1 ∧ b.pend = 0 then { b with phase := !b.phase, exp := b.exp - d, cnt := b.exp - d, drop := 0 }
  else { b with cnt := b.cnt - 1, drop := d }

/-- BARARR and BARDROP. -/
def signalSpec : Instr → Option (BarSel × Bool)
  | .bararr b => some (b, false)
  | .bardrop b => some (b, true)
  | _ => none

/-! ## Guards and special registers -/

/-- GRES: the guard and what it becomes (R410). -/
def gresSpec (s : State) : Instr → Option (GReg × Guard)
  | .gresOpen g => some (g, .unresolved)
  | .gresX g x => some (g, if s.x x.val = 0 then .isFalse else .isTrue)
  | .gresAny g p => some (g, if s.p p.val &&& s.cur.act = 0 then .isFalse else .isTrue)
  | .gresAll g p => some (g, if s.p p.val &&& s.cur.act = s.cur.act then .isTrue else .isFalse)
  | _ => none

/-- The guards are left out. -/
def butGuards (t : Strand) : Strand := { t with guards := [] }
/-- The guards, the counters and the accumulators are left out. -/
def butGuarded (t : Strand) : Strand := { t with guards := [], flights := [], accs := [] }

/-- An instruction in flight is the oldest of a strand, and the only one of its class and name. -/
def Oldest (fs : List Flight) (id : Nat) : Prop :=
  ∃ f rest, fs = f :: rest ∧ f.id = id ∧ ∀ g ∈ rest, g.id ≠ f.id ∧ g.cls ≠ f.cls

/-- A command on a guard of the issuing strand is held, and the strand has no other command (R53). -/
structure HeldAlone (s : State) (c : Cmd) (g : GReg) : Prop where
  found : c ∈ s.cmds
  names : ∀ d ∈ s.cmds, d.id = c.id → d = c
  alone : ∀ d ∈ s.cmds, d.uid = s.me.uid → d = c
  held : c.uid = s.me.uid ∧ c.core = s.cur.core ∧ c.guard = some g.val ∧ c.phase = .held ∧ c.frozen = false
  fresh : ∀ u ∈ c.units, u.landed = false ∧ u.acked = false
  slot : s.slotOf s.cur.core s.me.uid = some s.cur.slot
  bar : c.kind.fetch = true ∨ c.kind.module = true → c.bar.isSome = true

/-- A command as it starts: a fetch takes its charge and with RW waits for the release phase; else the units are sent, far
ones as soon as a port of the die is up (R173, R175, R185, R431). -/
def Cmd.begun (s : State) (c : Cmd) : Cmd :=
  let far := c.kind.fetch || c.kind.module
  let c := { c with charge := if c.kind.fetch then c.bytes else c.charge }
  if c.kind.fetch && c.tensor.rw then { c with phase := .release }
  else { c with
    phase := .active
    units := c.units.map fun (x : CmdUnit) => { x with sent := if far then s.sendTime c.core else some s.time } }

/-- The only operation in the engine's queue is one of the issuing strand, under a guard (R53, R55). -/
structure GuardedAlone (s : State) (o : MatOp) (m : MatMember) (g : GReg) : Prop where
  queue : (s.ctx s.cur.core).queue = [o]
  member : o.members = [m] ∧ m.uid = s.me.uid ∧ m.slot = s.cur.slot ∧ m.guard = some g.val ∧ m.gone = false
  open_ : s.me.guard g.val = .unresolved ∧ m.flg = 0
  flight : Oldest s.me.flights m.flight

/-- A state without the matrix queue and the shadows of the issuing core. -/
def State.sansShadows (s : State) : State :=
  s.modCtx s.cur.core fun x => { x with queue := [], shadowsUsed := [], shadows := [] }

/-- The bits that a CSR takes from a write, for registers that take them without further rule (Tables 7-4, 10-4,
12-2, 12-4); `none` for the others. -/
def csrBits (d : DebugLevel) (n : Nat) : Option DWord :=
  let obs := d != .none
  let inv := d == .invasive || d == .full
  match n with
  | 0x204 => some 0x3FFFFFE0#64
  | 0x206 => some 0xFFFFFFFF#64
  | 0x208 => some 0xFFFFFFFF#64
  | 0x20C => some 0xFFFF#64
  | 0x20D => some 0xFFFFFFFFFFFF#64
  | 0x20E => some 0xFFFFFFFFFFFFFFFF#64
  | 0x20F => some 0xFFFFFFFFFFFFFFFF#64
  | 0x238 => some (if inv then 1#64 else 0)
  | 0x240 => some 0x3FFFF000#64
  | 0x241 => some 0x3FFFF000#64
  | 0x242 => some 0x800000003FF80000#64
  | 0x243 => some 0x3FFFFF1#64
  | 0x245 => some 0xFFFFFFFFFFFFFFFF#64
  | 0x250 => if obs then some 0x3FFFF000#64 else none
  | 0x252 => if obs then some 0xFFFFFFFF#64 else none
  | 0x254 => if obs then some 0xFF03#64 else none
  | 0x255 => if obs then some 0xFFFFFFFF#64 else none
  | _ => none

/-! ## Tiles -/

/-- What an instruction that writes or reads a tile needs: the workgroup is placed and has the tile. -/
structure TileReady (s : State) (n : TReg) : Prop where
  runs : s.Runs
  canonical : s.canonical = true
  debug : (s.part s.me.part).dbgctl = []
  wg : ((s.ctx s.cur.core).wg? s.me.wg).isSome = true
  tile : n.val < s.myWg.ntiles

/-- No matrix operation holds a tile (R72). -/
def State.tileFree (s : State) (n : TReg) : Prop := (s.ctx s.cur.core).lockedT s.me.wg n.val = false

/-- An element of a tile image (R484): L6 packs 16 elements in 12 bytes, rows of 48; a row of another format takes
64 bytes. -/
def packed (f : Fmt) (m : Nat → Byte) (a r c : Nat) : Nat :=
  if f = .l6 then loadOf m (a + 48 * r + 12 * (c / 16)) 12 / 2 ^ (6 * (c % 16)) % 64
  else if f.wide then loadOf m (a + 64 * r + 2 * c) 2 else loadOf m (a + 64 * r + c) 1

/-- Bytes of a tile image. -/
def packedBytes (f : Fmt) : Nat := if f = .l6 then 1536 else 2048
/-- Columns of a tile (R109). -/
def tileCols (f : Fmt) : Nat := if f.wide then 32 else 64

/-- An element that the zero bitmap marks as present (R112): not a zero of its format. -/
def isPresent (f : Fmt) (x : Nat) : Bool :=
  match f with
  | .l6 => x % 64 != 0
  | .l8 => x % 256 != 0
  | .f8 => x % 128 != 0
  | _ => x % 2 ^ 15 != 0

/-- A tile after its contents have been written (Table 5-2, R106, R109, R112): shape, elements with padding zero, the
zero bitmap computed or marked invalid. -/
structure Filled (u t : Tile) (f : Fmt) (rowv : BitVec 32) (colv : BitVec 64) (zb : Bool) (elem : Nat → Nat → Nat) :
    Prop where
  fmtOf : t.efmt = f
  rows : t.rowv = rowv
  cols : t.colv = colv
  valid : t.zbv = zb
  elems : ∀ r < 32, ∀ c < tileCols f, t.elem f.wide r c = if rowv.getLsbD r && colv.getLsbD c then elem r c else 0
  bitmap : zb = true → ∀ r < 32, ∀ c < tileCols f,
    (Store.read 0 t.zbm (if f.wide then r else 2 * r + c / 32)).getLsbD (c % 32) =
      (rowv.getLsbD r && colv.getLsbD c && isPresent f (elem r c))
  stale : zb = false → t.zbm = u.zbm

/-- A tile's binding. -/
def Tile.binding (t : Tile) : Bool × BitVec 16 × Word := (t.bound, t.tag, t.geom)

/-- A state without the tiles of the issuing workgroup. -/
def State.sansTiles (s : State) : State := s.modMyWg fun w => { w with tiles := [] }

/-- Every other tile of the workgroup is as before. -/
def OtherTiles (n : TReg) (s t : State) : Prop := ∀ k, k ≠ n.val → t.tile k = s.tile k

/-- The columns below `n`. -/
def lowCols (n : Nat) : BitVec 64 := BitVec.ofNat 64 (2 ^ min n 64 - 1)

/-- TLD (R484): tile, address, shape operand, whether the bitmap is computed. -/
def tldSpec : Instr → Option (TReg × XReg × XReg × Bool)
  | .tld t a b => some (t, a, b, false)
  | .tldZb t a b => some (t, a, b, true)
  | _ => none

/-- TLD.SC (R485): tile, scale register, addresses, bitmap. -/
def tldScSpec : Instr → Option (TReg × SReg × XReg × XReg × Bool)
  | .tldSc t m a b => some (t, m, a, b, false)
  | .tldScZb t m a b => some (t, m, a, b, true)
  | _ => none

/-- TCVT (R474): destination, source, format, bitmap. -/
def tcvtSpec : Instr → Option (TReg × TReg × Fmt × Bool)
  | .tcvt n m f => some (n, m, f, false)
  | .tcvtZb n m f => some (n, m, f, true)
  | _ => none

/-- TQNT (R150, R487): format, bitmap, tile, accumulator pair, scale register, shape operand. -/
def tqntSpec : Instr → Option (Fmt × Bool × TReg × PReg × SReg × XReg)
  | .tqntL6 t k d x => some (.l6, false, t, k, d, x)
  | .tqntL6Zb t k d x => some (.l6, true, t, k, d, x)
  | .tqntL8 t k d x => some (.l8, false, t, k, d, x)
  | .tqntL8Zb t k d x => some (.l8, true, t, k, d, x)
  | .tqntF8 t k d x => some (.f8, false, t, k, d, x)
  | .tqntF8Zb t k d x => some (.f8, true, t, k, d, x)
  | _ => none

/-- The conversion of an element of a source tile (R474). -/
def State.converted (s : State) (m : TReg) (f : Fmt) (r c : Nat) : Nat × Flags :=
  let u := s.tile m.val
  if c < min (tileCols u.efmt) (tileCols f) && (u.rowv.getLsbD r && u.colv.getLsbD c) then
    convert (s.rm none) (fmtFz s.fmt) f u.efmt (u.elem u.efmt.wide r c) else (0, 0)

/-- The quantisation of block `b` of an accumulator pair (R107): scale, codes, flags. -/
def State.block (s : State) (f : Fmt) (k : PReg) (v b : Nat) : Nat × List Nat × Flags :=
  quantBlock f (s.rm none) (fmtFz s.fmt) ((List.range 32).map fun n =>
    if v.testBit (b / 2) && decide (32 * (b % 2) + n < v / 2 ^ 32 % 128)
    then some (s.me.acc (2 * k.val + b % 2) (b / 2) n) else none)

/-! ## Scale registers -/

/-- The workgroup's pool has a free entry at the head of its list (R116, R125). -/
structure PoolReady (s : State) : Prop where
  wg : ((s.ctx s.cur.core).wg? s.me.wg).isSome = true
  head : ∃ e < 1024, s.myWg.free.head? = some e ∧ ((s.ctx s.cur.core).entry e).use ≠ .used

/-- A scale register names current scales (R122). -/
def State.scalesLive (s : State) (a : SReg) : Prop :=
  ∃ tag, s.me.sregs.at? a.val = some tag ∧ (s.ctx s.cur.core).current tag = true

/-- A scale of a scale register. -/
def State.scaleAt (s : State) (a : SReg) (k : Nat) : Nat :=
  match s.me.sregs.at? a.val with
  | some tag => (((s.ctx s.cur.core).scalesOf tag).getD k 0).toNat
  | none => 0

/-- A scale register has been mapped to a fresh entry of the pool that holds 64 values (R116, R118). -/
def Allocated (s t : State) (d : SReg) (val : Nat → Nat) : Prop :=
  (∃ tag, t.me.sregs.at? d.val = some tag ∧ (t.ctx s.cur.core).current tag = true ∧
    s.myWg.free.head? = some (tagEntry tag)) ∧
  (∀ k < 64, t.scaleAt d k = val k % 65536) ∧
  ∀ k, k ≠ d.val → t.me.sregs.at? k = s.me.sregs.at? k

/-- The scale registers are left out. -/
def butS (t : Strand) : Strand := { t with sregs := [] }
/-- The scale registers and FLG are left out. -/
def butSF (t : Strand) : Strand := { t with sregs := [], flg := 0 }

/-- A state without the scale entries of the issuing core and the free lists of its workgroups. -/
def State.sansScales (s : State) : State :=
  s.modCtx s.cur.core fun x => { x with scales := [], wgs := x.wgs.map fun (w : Workgroup) => { w with free := [] } }

/-- A BF16 result of scale arithmetic: an infinity or an overflow becomes the largest number, with SC (R126). -/
def clamped (r : Nat × Flags) : Nat × Flags :=
  if r.2 &&& flagOF ≠ 0 ∨ r.1 % 32768 = 0x7F80 then (r.1 / 32768 * 32768 + 0x7F7F, r.2 ||| flagSC) else r

/-- What an instruction that writes a scale register does: destination, vector and scale sources, counter, what else it
needs, and the values with their flags (R126, R457). -/
structure ScaleSpec where
  dest : SReg
  vregs : List (VReg × Nat)
  sregs : List SReg
  cls : Option CClass
  ok : State → Prop
  val : State → Nat → Nat × Flags

/-- The instructions that write a scale register. -/
def scaleSpec : Instr → Option ScaleSpec
  | .sld d x k => some ⟨d, [], [], some .lds,
      fun s => (s.xn x.val + 16 * k.val) % 16 = 0 ∧ s.xn x.val + 16 * k.val + 128 ≤ Config.shelfBytes,
      fun s n => (loadOf (s.shelf s.cur.core).byte (s.xn x.val + 16 * k.val + 2 * n) 2, 0)⟩
  | .smovS d a => some ⟨d, [], [a], none, fun _ => True, fun s n => (s.scaleAt a n, 0)⟩
  | .smovX d a => some ⟨d, [], [], none, fun _ => True, fun s _ => (s.xn a.val % 65536, 0)⟩
  | .smul d a b => some ⟨d, [], [a, b], none, fun _ => True, fun s n =>
      clamped (arith .bf16 .mul (s.rm none) false (s.scaleAt a n) (s.scaleAt b n) 0)⟩
  | .smax d a b => some ⟨d, [], [a, b], none, fun _ => True, fun s n =>
      clamped (minMax .bf16 true false (s.scaleAt a n) (s.scaleAt b n))⟩
  | .scvtToS d a => some ⟨d, [(a, 2)], [], none, fun _ => True, fun s n =>
      if s.cur.act.getLsbD (n % 32) then
        clamped (convert (s.rm none) false .bf16 .fp32 (s.v (a.val + n / 32) (n % 32)).toNat) else (0, 0)⟩
  | _ => none

/-- FLG after an instruction that makes 64 values: each flag that was set, or that a value sets. -/
def FlagsOf64 (s t : State) (fl : Nat → Flags) : Prop :=
  ∀ k < 16, t.me.flg.getLsbD k = true ↔
    s.me.flg.getLsbD k = true ∨ k < 6 ∧ ∃ n < 64, (fl n).getLsbD k = true

/-- The tag by which SBIND binds (R119): of a scale register, or the low half-word of a uniform register. -/
def bindSpec (s : State) : Instr → Option (TReg × Option SReg × BitVec 16)
  | .sbindS t m => some (t, some m, (s.me.sregs.at? m.val).getD 0)
  | .sbindX t x => some (t, none, (s.x x.val).setWidth 16)
  | _ => none

/-! ## The matrix engine -/

/-- What an instruction on an accumulator needs: a converged strand (R32) that has the accumulator, no matrix operation
with it as its target (R72, R139), and no comparator set. -/
structure AccReady (s : State) (a : AReg) : Prop where
  runs : s.Runs
  canonical : s.canonical = true
  converged : s.me.converged = true
  debug : (s.part s.me.part).dbgctl = []
  acc : a.val < s.me.naccs
  free : (s.ctx s.cur.core).lockedA s.me.uid a.val = false

/-- The accumulators are left out. -/
def butA (t : Strand) : Strand := { t with accs := [] }

/-- Accumulators other than one are as before. -/
def OtherA (a : AReg) (s t : State) : Prop :=
  ∀ b i j, b ≠ a.val → i < 32 → j < 32 → t.me.acc b i j = s.me.acc b i j

/-- ACCZ, ACCWR and ACCLD: the accumulator, what else they need, element (i, j) (R354). -/
def accSpec : Instr → Option (AReg × (State → Prop) × (State → Nat → Nat → Nat))
  | .accz d => some (d, fun _ => True, fun _ _ _ => 0)
  | .accwr d a => some (d, fun s => s.Holds a.val 32, fun s i j =>
      if s.cur.act.getLsbD i then (s.v (a.val + j) i).toNat else s.me.acc d.val i j)
  | .accld d x k => some (d, fun s => (s.xn x.val + 128 * k.val) % 128 = 0 ∧
        s.xn x.val + 128 * k.val + 4096 ≤ Config.shelfBytes ∧ s.countRoom .lds,
      fun s i j => loadOf (s.shelf s.cur.core).byte (s.xn x.val + 128 * k.val + 4 * (32 * i + j)) 4)
  | _ => none

/-- The format that ACCRD writes (R135). -/
def State.outFmt (s : State) : Fmt := (Fmt.ofCode (fmtO s.fmt)).getD .fp32
/-- Registers that ACCRD writes. -/
def State.outRegs (s : State) : Nat := match s.outFmt with | .fp32 => 32 | .bf16 => 16 | .fp16 => 16 | _ => 8

/-- Element j of row `l` as ACCRD converts it (R149): FP32 as it is, subnormals flushed under FZ. -/
def State.outElem (s : State) (a : AReg) (l j : Nat) : Nat × Flags := accConvert s.outFmt (s.rm none) (fmtFz s.fmt) (s.me.acc a.val l j)

/-- Bits of a format. -/
def outBits (f : Fmt) : Nat := match f with | .fp32 => 32 | .bf16 => 16 | .fp16 => 16 | _ => 8

/-- What a matrix operation needs (R32, R55, R138, R143, R181): converged, its counter and the queue have room, its target not
held by a speculative run. -/
structure MatReady (s : State) (d : AReg) : Prop where
  runs : s.Runs
  canonical : s.canonical = true
  converged : s.me.converged = true
  debug : (s.part s.me.part).dbgctl = []
  wg : ((s.ctx s.cur.core).wg? s.me.wg).isSome = true
  acc : d.val < s.me.naccs
  room : s.countRoom .mat
  queue : (s.ctx s.cur.core).queue.length < 16
  spec : s.specLock d.val = false
  pair : (acceptedPair s.fmt).isSome = true

/-- The counters and the keep latch are left out. -/
def butFlight (t : Strand) : Strand := { t with flights := [], keep := none }

/-- A state without the matrix queue and shadows of the issuing core, and without names. -/
def State.sansQueue (s : State) : State :=
  { s.modCtx s.cur.core (fun x => { x with queue := [], shadowsUsed := [], shadows := [] }) with nextId := 0 }

/-- The guard under which a form of MMX issues, and whether it speculates: accumulator, descriptor registers (R436). -/
def mmxSpec : Instr → Option (AReg × XReg × XReg × Option GReg × Bool)
  | .mmx d a b => some (d, a, b, none, false)
  | .mmxGuard d g a b => some (d, a, b, some g, false)
  | .mmxSpec d g a b => some (d, a, b, some g, true)
  | _ => none

/-- The descriptors of MMX pass the checks of R142. -/
structure MmxChecks (s : State) (a b : XReg) : Prop where
  ranges : s.xn a.val % 16 = 0 ∧ s.xn b.val % 16 = 0 ∧ s.xn a.val + 32 ≤ Config.shelfBytes ∧ s.xn b.val + 32 ≤ Config.shelfBytes
  streams : badStreams s.fmt (s.streamAt s.cur.core s.me a.val) (s.streamAt s.cur.core s.me b.val) = false
  rings : ringTrap ((s.streamAt s.cur.core s.me a.val).rings ((Fmt.ofCode (fmtA s.fmt)).getD .fp32) ++
    (s.streamAt s.cur.core s.me b.val).rings ((Fmt.ofCode (fmtB s.fmt)).getD .fp32)) = none
  idle : (s.ctx s.cur.core).mmxBusy s.me.uid = false
  trace : ∀ e ∈ s.parts, e.2.trctl.getLsbD 0 = false

/-- A matrix instruction as the operation that it issues (R48). -/
def matSpec : Instr → Option (AReg × MatPlan)
  | .mma k d a n => some (d, ⟨false, false, none, k, d.val, a.val, n.val⟩)
  | .mmx d a b => some (d, ⟨true, false, none, false, d.val, a.val, b.val⟩)
  | .mmxGuard d g a b => some (d, ⟨true, false, some g.val, false, d.val, a.val, b.val⟩)
  | .mmxSpec d g a b => some (d, ⟨true, true, some g.val, false, d.val, a.val, b.val⟩)
  | _ => none

/-- The checks of a matrix instruction pass (R137, R142). -/
def MatChecks (s : State) : Instr → Prop
  | .mma _ _ a n => s.Holds a.val 16 ∧ n.val < s.myWg.ntiles ∧
      ∀ fa fb, acceptedPair s.fmt = some (fa, fb) → fb = (s.tile n.val).efmt
  | .mmx _ a b => MmxChecks s a b
  | .mmxGuard _ _ a b => MmxChecks s a b
  | .mmxSpec _ _ a b => MmxChecks s a b
  | _ => False

/-- A strand of the issuing one's workgroup has an index. -/
def State.hasMember (s : State) (k : Nat) : Prop :=
  ∃ e ∈ (s.ctx s.cur.core).strands, e.2.wg = s.me.wg ∧ e.2.index = k
/-- A latch holds an operation that the issuing strand's gang meets (R48). -/
def State.meets (s : State) (l : Latch) : Prop :=
  l.wg = s.me.wg ∧ l.mismatch = none ∧ ∃ k, k ∈ gangList l.gang ∧ k ∈ gangList s.me.gang
/-- It holds the same operation (R48). -/
def State.sameAs (s : State) (p : MatPlan) (l : Latch) : Prop :=
  l.word = s.cur.word ∧ l.fields = fmtFields s.fmt ∧ l.gang = s.me.gang ∧ l.bkey = s.bKey p
/-- The index of a waiting member. -/
def State.indexOf (s : State) (c : Cur) : Nat := (s.strand c.core c.slot).index

/-- A joint operation: the strand's gang lists it and others, none has ended, it has no mismatch to take, it waits in no
latch, another strand in one at most, and no latch is empty (R47 to R50). -/
structure Joint (s : State) : Prop where
  own : s.me.index ∈ gangList s.me.gang
  living : ∀ k ∈ gangList s.me.gang, s.hasMember k
  clean : ∀ l ∈ (s.ctx s.cur.core).latches, l.wg = s.me.wg → ∀ ks, l.mismatch = some ks → s.me.index ∉ ks
  out : ∀ l ∈ (s.ctx s.cur.core).latches, (∀ c ∈ l.waiting, c.slot ≠ s.cur.slot) ∧ (l.waiting ≠ [] ∨ l.mismatch.isSome = true)
  places : (((s.ctx s.cur.core).latches.flatMap (·.waiting)).map (·.slot)).Nodup

/-- The members of a complete latch, in the order of the gang: each stands converged at its instruction (R32, R48). -/
structure Gathered (s : State) (l : Latch) (cs : List Cur) : Prop where
  order : cs.map s.indexOf = gangList s.me.gang
  all : ∀ c, c ∈ cs ↔ c ∈ l.waiting ∨ c = s.cur
  once : ∀ c ∈ l.waiting, ∀ d ∈ l.waiting ++ [s.cur], s.indexOf c = s.indexOf d → c = d
  places : (cs.map (·.slot)).Nodup ∧ ∀ c ∈ cs, c.core = s.cur.core
  stand : ∀ c ∈ l.waiting, ∃ u, s.strand? c.core c.slot = some u ∧ u.validEntries = [c.entry] ∧ c.entry < 4 ∧ u.stack = [] ∧
    (u.sup = true ∨ u.dbgstep = false)

/-- A state without the latches of the issuing core. -/
def State.sansLatches (s : State) : State := s.modCtx s.cur.core fun x => { x with latches := [] }
/-- The issuing split waits at its instruction, and nothing but latches has changed (R48). -/
def WaitsFor (s t : State) (why : Stall) : Prop :=
  t.mySplit.wait = 2 ∧ t.mySplit.stall = why ∧ t.mySplit.pc = s.mySplit.pc ∧ Same whole s.sansLatches t.sansLatches ∧
    SameBytes s t
/-- A strand in a slot has entered supervisor mode with a trap (Table 10-2). -/
def TrapsAt (s t : State) (slot code : Nat) : Prop :=
  (∃ u, t.strand? s.cur.core slot = some u ∧ u.sup = true ∧ u.validEntries = [0] ∧
    (u.split 0).pc = (s.part s.me.part).tvec.setWidth 48) ∧
  t.harbour.load (s.ctlArea s.cur.core slot + 0x1A0) 2 = code
/-- A strand in a slot can take a trap, as the issuing one can (R251). -/
def State.canTrap (s : State) (slot : Nat) : Prop :=
  ∃ u, s.strand? s.cur.core slot = some u ∧ u.sup = false ∧ u.part = s.me.part ∧ u.loading = []

/-! ## Peer accesses -/

/-- A peer access: its literal, counter, destination and sources; what it does to the bytes that its core meets at home: the
numbers that the lanes get, and the bytes after; what a request asks at its place `j` for a lane. -/
structure PeerSpec where
  lit : PeerLit
  cls : CClass
  dest : Option VReg
  srcs : List VReg
  run : State → (Nat → Nat) × (Nat → Byte)
  asks : State → Nat → Nat → PeerOp → Prop

/-- The active lanes, ascending. -/
def State.active (s : State) : List Nat := (List.range 32).filter fun k => s.cur.act.getLsbD k

/-- The harbour address of a lane's peer access (Table 7-2). -/
def State.peerPlace (s : State) (l : PeerLit) (k : Nat) : Nat := inHarbourAt (s.offAddr l.xa l.off k)

/-- PLD, PST and PATOM (R441). -/
def peerSpec : Instr → Option PeerSpec
  | .pld d l => some ⟨l, .lds, some d, [], fun s =>
      (fun k => loadOf (s.seen s.cur.core true) (s.peerPlace l k) l.w.bytes, s.seen s.cur.core true),
      fun _ _ j op => ∃ n, op = .read n ∧ l.w.bytes * j + l.w.bytes ≤ n⟩
  | .pst b l => some ⟨l, .sts, none, [b], fun s =>
      (fun _ => 0, s.active.foldl
        (fun m k => storeOf m (s.peerPlace l k) l.w.bytes (s.operand b (l.w == .b64) k)) (s.seen s.cur.core true)),
      fun s k j op => ∃ d, op = .write d ∧ loadOf (fun a => d.getD a 0) (l.w.bytes * j) l.w.bytes =
        s.operand b (l.w == .b64) k % 2 ^ (8 * l.w.bytes)⟩
  | .patom d b c l => some ⟨l, .lds, some d, b :: (if l.op = .cas then [c] else []), fun s =>
      atomics l.w.bytes (s.peerPlace l)
        (fun k old => atomValue l.op l.sg l.w.bytes old (s.operand b (l.w == .b64) k) (s.operand c (l.w == .b64) k))
        s.active (s.seen s.cur.core true),
      fun s k j op => ∃ args, op = .atomic l.op l.sg (l.w == .b64) args ∧
        args[j]? = some (s.operand b (l.w == .b64) k, s.operand c (l.w == .b64) k)⟩
  | _ => none

/-- Registers of a lane's datum. -/
def PeerSpec.regs (x : PeerSpec) : Nat := if x.lit.w = .b64 then 2 else 1
/-- The registers that it writes: first field and number. -/
def PeerSpec.writes (x : PeerSpec) : Nat × Nat := match x.dest with | some d => (d.val, x.regs) | none => (0, 0)

/-- What a peer access needs of its registers and addresses (R441), with its counter below 63; no other peer access is open,
no trap of the strand is to be entered, and the strand has a name of its own on its core. -/
structure PeerSpec.Ready (x : PeerSpec) (s : State) : Prop where
  runs : s.Runs
  canonical : s.canonical = true
  room : s.countRoom x.cls
  quiet : s.requests = [] ∧ s.me.peers = [] ∧ s.me.entering = none
  slot : s.slotOf s.cur.core s.me.uid = some s.cur.slot
  held : ∀ r ∈ x.dest.toList ++ x.srcs, s.Holds r.val x.regs
  offs : ∀ r ∈ offReg x.lit.off, s.Holds r.val 1
  free : s.Free x.writes.1 x.writes.2
  lanes : ∀ k < 32, s.cur.act.getLsbD k = true →
    s.offAddr x.lit.xa x.lit.off k / 2 ^ 60 = 0xD ∧ s.offAddr x.lit.xa x.lit.off k % x.lit.w.bytes = 0 ∧
      s.offAddr x.lit.xa x.lit.off k / 2 ^ 30 % 2 ^ 18 = 0

/-- Every lane names this package, within PEERWIN. -/
def PeerSpec.AtHome (x : PeerSpec) (s : State) : Prop :=
  ∀ k < 32, s.cur.act.getLsbD k = true →
    s.offAddr x.lit.xa x.lit.off k / 2 ^ 48 % 2 ^ 12 = s.nodeId.toNat ∧
      s.peerwin.toNat % 2 ^ 18 * 4096 ≤ s.peerPlace x.lit k ∧
      s.peerPlace x.lit k + x.lit.w.bytes ≤ s.peerwin.toNat / 2 ^ 32 % 2 ^ 18 * 4096

/-- Every lane names another node, to which the active table has a route. -/
def PeerSpec.Away (x : PeerSpec) (s : State) : Prop :=
  ∀ k < 32, s.cur.act.getLsbD k = true →
    s.offAddr x.lit.xa x.lit.off k / 2 ^ 48 % 2 ^ 12 ≠ s.nodeId.toNat ∧
      (s.route (s.offAddr x.lit.xa x.lit.off k / 2 ^ 48 % 2 ^ 12)).testBit 63 = true

/-- The access as the strand holds it while its requests are on their way (log 20): its lanes, the physical register that its
replies go to, its order; for each lane an open request, or the one of a lane with the same address, asks at the lane's place
(R264, R441). -/
structure PeerSpec.Posted (x : PeerSpec) (s t : State) (w : PeerWait) : Prop where
  held : t.me.peers = [w] ∧ w.failed = false
  lanes : w.lanes = s.cur.act
  dest : w.dest = x.dest.map fun d => (s.me.wb + d.val, x.lit.w.bytes)
  order : w.acq = x.lit.acq ∧ w.rel = x.lit.rel
  asked : ∀ k < 32, s.cur.act.getLsbD k = true → ∃ r j, t.laneReq w k = some (r, j) ∧ r ∈ t.requests ∧
    r.state.open? = true ∧ r.node = s.offAddr x.lit.xa x.lit.off k / 2 ^ 48 % 2 ^ 12 ∧
    r.addr + x.lit.w.bytes * j = s.peerPlace x.lit k ∧ x.asks s k j r.op

/-- The vector registers, the counters and the open peer accesses are left out. -/
def butPeer (t : Strand) : Strand := { butV t with flights := [], peers := [] }
/-- A state without edge groups and the requests and chunks that a change moves. -/
def State.sansGroups (s : State) : State :=
  { s with groups := [], requests := [], colls := [], tagGen := [], tagCore := [], routed := [], leaving := [] }
/-- A state without requests to peers. -/
def State.sansReqs (s : State) : State := { s with requests := [] }

/-! ## Engine commands -/

/-- Bytes of the issuing core's shelf. -/
def State.shelfList (s : State) (a n : Nat) : List Byte := (List.range n).map fun k => (s.shelf s.cur.core).byte (a + k)

/-- A descriptor of `n` bytes lies in the shelf, aligned. -/
def State.descOk (s : State) (x : XReg) (n al : Nat) : Prop := s.xn x.val % al = 0 ∧ s.xn x.val + n ≤ Config.shelfBytes

/-- What an instruction that posts a command needs (R53, R181): its counter has room, and no other command of the strand
stands in a queue. -/
structure CmdReady (s : State) (cls : CClass) : Prop where
  runs : s.Runs
  canonical : s.canonical = true
  debug : (s.part s.me.part).dbgctl = []
  room : s.countRoom cls
  slot : s.slotOf s.cur.core s.me.uid = some s.cur.slot
  own : ∀ c ∈ s.cmds, c.uid ≠ s.me.uid
  names : ∀ c ∈ s.cmds, c.id < s.nextId
  flights : ∀ f ∈ s.me.flights, f.id < s.nextId

/-- Offsets and lengths of the units of at most 4 KiB that `n` bytes on a boundary of 16 make (R176). -/
def unitSpans (n : Nat) : List (Nat × Nat) :=
  (List.range ((n + 4095) / 4096)).map fun u => (4096 * u, min 4096 (n - 4096 * u))

/-- Units over the `n` bytes of a slot at a shelf offset, as offsets in the command, where the slot's bytes stand from `off`
on, and lengths (R176, R478): one behind the other, of 1 to 4096 bytes; none begins within 16 bytes of the shelf that an
earlier one moves a part of, or within a group of `g` bytes of the slot. -/
structure Spans (base g off n : Nat) (us : List (Nat × Nat)) : Prop where
  first : us.head?.map (·.1) = if n = 0 then none else some off
  next : ∀ k u v, us[k]? = some u → us[k + 1]? = some v → v.1 = u.1 + u.2
  all : (us.map (·.2)).sum = n
  size : ∀ u ∈ us, 1 ≤ u.2 ∧ u.2 ≤ 4096
  whole : ∀ u ∈ us, u.1 = off ∨ (base + (u.1 - off)) % 16 = 0 ∧ (u.1 - off) % g = 0

/-- What an instruction that posts a command does: kind, guard, counter, what it needs, what its command holds, the
barrier object and the bytes that a command expects when it starts, and what it needs to start at once. -/
structure CmdSpec where
  kind : CmdKind
  guard : Option GReg
  cls : CClass
  ready : State → Prop
  holds : State → Cmd → Prop
  expects : State → Option (Nat × Nat)
  now : State → Prop

/-- COPY (R375). -/
def copySpec (x : XReg) (g : Option GReg) : CmdSpec where
  kind := .copy
  guard := g
  cls := .cpy
  ready := fun s =>
    let d := CopyDesc.ofBytes (s.shelfList (s.xn x.val) 32)
    s.descOk x 32 16 ∧ 0 < d.bytes ∧ d.bytes ≤ 2 ^ 20 ∧ d.bytes % 16 = 0 ∧
      copyReserved (s.shelfList (s.xn x.val) 32) = false ∧ d.src % 16 = 0 ∧ d.dst % 16 = 0 ∧
      (d.bar.testBit 31 = true ∨ d.bar % 16 = 0) ∧
      (s.cohortCore (d.src / 2 ^ 20 % 16)).isSome = true ∧ (s.cohortCore (d.dst / 2 ^ 20 % 16)).isSome = true ∧
      d.src % 2 ^ 20 + d.bytes ≤ Config.shelfBytes ∧ d.dst % 2 ^ 20 + d.bytes ≤ Config.shelfBytes
  holds := fun s c =>
    let d := CopyDesc.ofBytes (s.shelfList (s.xn x.val) 32)
    c.desc = s.shelfList (s.xn x.val) 32 ∧ c.args.head? = s.cohortCore (d.src / 2 ^ 20 % 16) ∧
      some c.bcore = s.cohortCore (d.dst / 2 ^ 20 % 16) ∧
      c.bar = (if d.bar.testBit 31 then none else some (d.bar % 2 ^ 20)) ∧
      c.units.map (fun u => (u.off, u.len)) = unitSpans d.bytes
  expects := fun _ => none
  now := fun _ => True

/-- PUTS (R448). -/
def putsSpec (x : XReg) (g : Option GReg) (b : VReg) : CmdSpec where
  kind := .puts
  guard := g
  cls := .cpy
  ready := fun s =>
    let v := s.xn x.val
    s.Holds b.val 1 ∧ v / 2 ^ 49 = 0 ∧ v / 2 ^ 40 % 16 = 0 ∧ v % 4 = 0 ∧
      (v.testBit 48 = true ∨ v / 2 ^ 20 % 16 = 0) ∧ (s.cohortCore (v / 2 ^ 44 % 16)).isSome = true ∧
      ∀ l < 32, s.cur.act.getLsbD l = true → v % 2 ^ 20 + 4 * l + 4 ≤ Config.shelfBytes
  holds := fun s c =>
    let v := s.xn x.val
    c.args = [v % 2 ^ 20] ∧ some c.bcore = s.cohortCore (v / 2 ^ 44 % 16) ∧
      c.bar = (if v.testBit 48 then none else some (v / 2 ^ 20 % 2 ^ 20)) ∧
      c.words = s.active.map fun l => (l, (s.v b.val l).toNat)
  expects := fun _ => none
  now := fun _ => True

/-- TFETCH and TSTORE (R168, R171, R172 to R174, R476): the descriptor passes its checks, every byte is declared and
translated, and the charge fits. -/
def tensorSpec (kind : CmdKind) (x : XReg) (g : Option GReg) : CmdSpec where
  kind := kind
  guard := g
  cls := .fet
  ready := fun s =>
    let d := Tensor.ofBytes (s.shelfList (s.xn x.val) 256)
    let n := d.dataBytes + d.scaleBytes
    let lim := s.fetchLimits d
    s.descOk x 256 64 ∧ d.refused = false ∧ d.ringTrap (kind == .tstore) = none ∧ d.spaceTrap (kind == .tstore) = none ∧
      n ≤ s.allowance s.me.run (dieOf s.cur.core) ∧ (lim.2.1 = 0 ∨ n ≤ lim.2.1) ∧ (lim.2.2 = true ∨ n ≤ lim.1) ∧
      s.mySplit.stall = .none ∧
      ∃ ps, (s.probe s.cur.core s.me.part s.probeRun (d.ranges (kind == .tstore))).1 = .ok ps
  holds := fun s c =>
    let d := Tensor.ofBytes (s.shelfList (s.xn x.val) 256)
    c.desc = s.shelfList (s.xn x.val) 256 ∧ c.bar = some (d.bar + 16 * d.slot) ∧
      (s.probe s.cur.core s.me.part s.probeRun (d.ranges (kind == .tstore))).1 = .ok c.pages ∧
      (c.limit, c.scap, c.high) = s.fetchLimits d ∧
      ∃ data scales, c.units.map (fun u => (u.off, u.len)) = (if d.scaleAt < d.dataAt then scales ++ data else data ++ scales) ∧
        Spans d.dataAt (if d.fmt = .l6 then 12 else 1) 0 d.dataBytes data ∧ Spans d.scaleAt 1 d.dataBytes d.scaleBytes scales
  expects := fun s =>
    let d := Tensor.ofBytes (s.shelfList (s.xn x.val) 256)
    some (d.bar + 16 * d.slot, d.dataBytes + d.scaleBytes)
  now := fun s =>
    let d := Tensor.ofBytes (s.shelfList (s.xn x.val) 256)
    let lim := s.fetchLimits d
    s.tickets (dieOf s.cur.core) = [] ∧
      s.fits (dieOf s.cur.core) s.me.run s.me.uid (d.dataBytes + d.scaleBytes) lim.1 lim.2.1 lim.2.2 = true

/-- MCOPY, MFILL and MREDUCE (R430, R431). -/
def moduleSpec (kind : CmdKind) (x : XReg) (g : Option GReg) : CmdSpec where
  kind := kind
  guard := g
  cls := .cpy
  ready := fun s =>
    let b := s.shelfList (s.xn x.val) 96
    let d := ModuleCmd.ofBytes b
    s.descOk x 96 32 ∧ d.refused kind b = false ∧ d.bar % 16 = 0 ∧ d.addrTrap kind = none ∧
      ∃ ps, (s.probe s.cur.core s.me.part s.probeRun (d.ranges kind)).1 = .ok ps
  holds := fun s c =>
    let d := ModuleCmd.ofBytes (s.shelfList (s.xn x.val) 96)
    c.desc = s.shelfList (s.xn x.val) 96 ∧ c.bar = some (d.bar % 2 ^ 20) ∧
      (s.probe s.cur.core s.me.part s.probeRun (d.ranges kind)).1 = .ok c.pages ∧
      c.units.map (fun u => (u.off, u.len)) =
        (moduleUnits d.dst (d.bytes kind) 0 (d.bytes kind / 4096 + 2)).map fun u => (u.off, u.len)
  expects := fun s =>
    let d := ModuleCmd.ofBytes (s.shelfList (s.xn x.val) 96)
    some (d.bar % 2 ^ 20, d.bytes kind)
  now := fun _ => True

/-- The instructions that post a command, COLL apart. -/
def cmdSpec : Instr → Option CmdSpec
  | .copy x g => some (copySpec x g)
  | .puts x g b => some (putsSpec x g b)
  | .tfetch x g => some (tensorSpec .tfetch x g)
  | .tstore x g => some (tensorSpec .tstore x g)
  | .mcopy x g => some (moduleSpec .mcopy x g)
  | .mfill x g => some (moduleSpec .mfill x g)
  | .mreduce x g => some (moduleSpec .mreduce x g)
  | _ => none

/-- A command is the issuing strand's (R53). -/
def Cmd.ownedBy (c : Cmd) (s : State) (k : CmdKind) (g : Option GReg) : Prop :=
  c.kind = k ∧ c.guard = g.map (·.val) ∧ c.core = s.cur.core ∧ c.slot = s.cur.slot ∧ c.uid = s.me.uid ∧
    c.run = s.me.run ∧ c.part = s.me.part ∧ c.frozen = false

/-- The counters are left out. -/
def butCount (t : Strand) : Strand := { t with flights := [] }

/-- A state without translations kept, names and arguments of free values. -/
def State.sansTlb (s : State) : State :=
  { s with
    cores := s.cores.map fun (e : Nat × Core) => (e.1, { e.2 with tlb := [] })
    dieTlb := [], nextId := 0, free := 0 }

/-- A state without commands and the issuing core's shelf. -/
def State.sansCmds (s : State) : State := { (s.sansShelf s.cur.core).sansTlb with cmds := [] }

/-- The cell of far memory behind a virtual address. -/
def farCell (ps : List Page) (va : Nat) : Option Nat := (findPage ps va).map fun p => farKey p va
/-- The window manager's probe of a COLL's far buffers (R171): it comes after the record has been read (R207). -/
def State.collProbe (s : State) (d : CollDesc) (n : Nat) : Except Trap (List Page) × State :=
  let u := s.flushRange s.cur.core (s.commAt d.comm) (s.commAt d.comm + 64)
  u.probe u.cur.core u.me.part u.probeRun (farBuffers (d.buffers n))

/-- What COLL needs (R276): a communicator that is enabled, a descriptor and buffers that pass their checks, and nothing
received early for the operation. -/
structure CollReady (s : State) (x : XReg) (d : CollDesc) (n rank : Nat) (ps : List Page) : Prop where
  cmd : CmdReady s .col
  desc : s.descOk x 64 64
  read : d = CollDesc.ofBytes (s.shelfList (s.xn x.val) 64)
  bar : d.bar % 16 = 0
  comm : d.comm < 64
  enabled : (s.seenLoad (s.commAt d.comm) 1).testBit 0 = true
  size : n = s.seenLoad (s.commAt d.comm + 1) 1 ∧ rank = s.seenLoad (s.commAt d.comm + 2) 1
  fields : d.refused n rank = false
  buffers : s.bufferTrap (d.buffers n) = none
  declared : s.collGap (d.buffers n) = none
  pages : (s.collProbe d n).1 = .ok ps
  early : (s.channel d.comm).bufs = []
  begun : ∀ o ∈ s.colls, o.cmd < s.nextId ∧ (o.comm = d.comm → o.send.isSome = true)

/-- A state without what COLL may move beside the strand: commands, operations, channels, harbour. -/
def State.sansColl (s : State) : State := { s.sansTlb.uncached with cmds := [], colls := [], channels := [] }

/-! ## Tasks -/

/-- What a task instruction needs of its operand (R225, R472): a structure of `n` bytes in the partition's window. -/
structure TaskReady (s : State) (x : XReg) (n : Nat) : Prop where
  runs : s.Runs
  canonical : s.canonical = true
  room : s.countRoom .sts
  tag : s.xn x.val / 2 ^ 30 = 0xE * 2 ^ 30
  aligned : s.xn x.val % n = 0
  window : (s.part s.me.part).hwbase.toNat ≤ s.xn x.val % 2 ^ 30 ∧
    s.xn x.val % 2 ^ 30 + n ≤ (s.part s.me.part).hwlimit.toNat
  quiet : ∀ e ∈ s.parts, e.2.trctl.getLsbD 0 = false

/-- A graph that runs, in a harbour of bytes `m`, has a TCB (R470). -/
def Graph.has (m : Nat → Byte) (g : Graph) (tcb : Nat) : Prop :=
  (loadOf m (g.addr + 0x1C) 4).testBit 0 = true ∧ g.tcbs ≤ tcb ∧ (tcb - g.tcbs) % 256 = 0 ∧
    (tcb - g.tcbs) / 256 < g.ntcb

/-- One graph alone has a TCB; the TCB and every graph descriptor lie apart. -/
structure State.Belongs (s : State) (m : Nat → Byte) (g : Graph) (tcb : Nat) : Prop where
  mem : g ∈ s.graphs
  has : g.has m tcb
  only : ∀ q ∈ s.graphs, q.has m tcb → q = g
  apart : ∀ q ∈ s.graphs, q.addr + 64 ≤ tcb ∨ tcb + 256 ≤ q.addr
  names : ∀ r ∈ s.runs, r.id < s.nextId

/-- Harbour when a task has become READY (R226): its STATE, and its RCLK of 8 bytes. -/
def readyBytes (m : Nat → Byte) (tcb clock : Nat) : Nat → Byte :=
  storeOf (storeOf m (tcb + 8) 1 2) (tcb + 0x58) 8 clock

/-- The run of a task that becomes READY, with the snapshot of its TCB and its group table as harbour `m` holds them
(R217, R226), under a name; nothing of it is placed. -/
def State.readyRun (s : State) (m : Nat → Byte) (g : Graph) (tcb id : Nat) : TaskRun :=
  { id, part := g.part, graph := g.addr, tcb, index := (tcb - g.tcbs) / 256
    snap := (List.range 256).map fun k => m (tcb + k)
    groups := (List.range (loadOf m (tcb + 0x22) 2)).map fun k =>
      GroupEntry.ofBytes (loadOf m (inHarbourAt (loadOf m (tcb + 0x28) 8) + 16 * k) 16)
    rclk := s.clock, phase := .ready, preempted := false, placed := 0, last := none, lastDie := none
    waiting := some (s.part g.part).clocks, reserved := [], cores := [], alive := 0, stage := 0, region := 0, line := 0
    nexts := 0, aborted := false }

/-- The fault fields and EDGE of a TCB as LAUNCH and TASKRETRY leave them (R222, R235). -/
def unfaulted (m : Nat → Byte) (tcb : Nat) : Nat → Byte :=
  storeOf (storeOf (storeOf (storeOf (storeOf m (tcb + 0x40) 8 0) (tcb + 0x48) 2 0) (tcb + 0x4A) 2 0xFFFF)
    (tcb + 0x4C) 4 0xFFFFFFFF) (tcb + 0x50) 8 0

/-- A state without task runs, running graphs, TCBs that events have reached in the clock, and instruction caches. -/
def State.sansTasks (s : State) : State :=
  { s with
    runs := [], graphs := [], batch := [], opened := []
    cores := s.cores.map fun (e : Nat × Core) => (e.1, { e.2 with icache := [] }) }

/-- The issuing strand is as before, its flow and what `f` leaves out apart. -/
def SameStrand (f : Strand → Strand) (s t : State) : Prop :=
  f { t.me with splits := [], stack := [] } = f { s.me with splits := [], stack := [] }

/-- STATE of a TCB at the start of the clock, of which harbour `m` holds the present one (R225, R226): the model keeps it when an
update changes it. -/
def State.started (s : State) (m : Nat → Byte) (tcb : Nat) : Nat := (s.opened.at? tcb).getD (loadOf m (tcb + 8) 1 % 16)

/-- The successors of task `k` of a graph (R217, R236): by its snapshot if it has one, else by its TCB in harbour `m`. -/
def State.nexts (s : State) (m : Nat → Byte) (g : Graph) (k : Nat) : List Nat :=
  let (n, a) := match s.runOf (g.tcbs + 256 * k) with
    | some r => (r.field 0x24 2, r.field 0x30 8)
    | none => (loadOf m (g.tcbs + 256 * k + 0x24) 2, loadOf m (g.tcbs + 256 * k + 0x30) 8)
  ((List.range n).map fun j => loadOf m (inHarbourAt a + 4 * j) 4).filter (· < g.ntcb)
/-- A task is reached from another one over lists of successors, or is that one (R236). -/
inductive Leads (next : Nat → List Nat) (i : Nat) : Nat → Prop
  | here : Leads next i i
  | on {k j : Nat} : Leads next i k → j ∈ next k → Leads next i j

/-! ## Tables, queues and images -/

/-- A state without the issuing partition's decode table. -/
def State.sansTable (s : State) : State := s.modPart s.me.part fun p => { p with table := none }
/-- A state without the head of the issuing partition's event queue. -/
def State.sansHead (s : State) : State := s.modPart s.me.part fun p => { p with evhead := 0 }

/-- A supervisor-mode strand runs, with no comparator set. -/
structure SupReady (s : State) : Prop where
  runs : s.Runs
  canonical : s.canonical = true
  sup : s.me.sup = true
  debug : (s.part s.me.part).dbgctl = []

/-- A range of harbour of the issuing partition at a generic address. -/
def State.rangeOk (s : State) (a n al : Nat) : Prop :=
  a / 2 ^ 30 = 0xE * 2 ^ 30 ∧ a % al = 0 ∧ (s.part s.me.part).hwbase.toNat ≤ a % 2 ^ 30 ∧
    a % 2 ^ 30 + n ≤ (s.part s.me.part).hwlimit.toNat

/-- TLBINV removes an entry (R481): by its partition, and by ALL, or by size and address. -/
def tlbGoes (part v : Nat) (e : TlbEntry) : Bool :=
  e.part == part && (v.testBit 52 ||
    ((v / 2 ^ 53 % 8 == 5 || e.size == [2 ^ 16, 2 ^ 21, 2 ^ 26, 2 ^ 31, 2 ^ 36].getD (v / 2 ^ 53 % 8) 0) &&
      e.base ≤ v % 2 ^ 52 && v % 2 ^ 52 < e.base + e.size))

/-- The record of a tile stands at an address (Table 3-8); `live` says that its binding is usable (R131). -/
structure TileSaved (m : Nat → Byte) (a : Nat) (u : Tile) (live : Bool) (scales : List (BitVec 16)) : Prop where
  data : ∀ j < 2048, m (a + j) = Store.read 0 u.data j
  sc : ∀ k < 64, loadOf m (a + 0x800 + 2 * k) 2 = if live then (scales.getD k 0).toNat else 0
  zbm : ∀ k < 64, loadOf m (a + 0x880 + 4 * k) 4 = (Store.read 0 u.zbm k).toNat
  tag : loadOf m (a + 0x980) 2 = if live then u.tag.toNat else 0
  bits : loadOf m (a + 0x982) 2 = flag live + 2 * flag u.zbv
  geom : loadOf m (a + 0x984) 4 = if live then u.geom.toNat else 0
  rowv : loadOf m (a + 0x988) 4 = u.rowv.toNat
  fmtOf : loadOf m (a + 0x98C) 1 = u.efmt.code
  colv : loadOf m (a + 0x990) 8 = u.colv.toNat

/-- A tile that CTXLD has read from a record (Table 3-8, R382). That a format code that does not occur reads as L6, and that COLV
of a 16-bit format has 4 bytes, are the model's choices (log 21). -/
structure TileRestored (m : Nat → Byte) (a : Nat) (u : Tile) : Prop where
  data : ∀ j < 2048, Store.read 0 u.data j = m (a + j)
  zbm : ∀ k < 64, (Store.read 0 u.zbm k).toNat = loadOf m (a + 0x880 + 4 * k) 4
  valid : u.zbv = (loadOf m (a + 0x982) 2).testBit 1
  rowv : u.rowv.toNat = loadOf m (a + 0x988) 4
  colv : u.colv.toNat = loadOf m (a + 0x990) (if u.efmt.wide then 4 else 8)
  fmtOf : u.efmt = match Fmt.ofCode (loadOf m (a + 0x98C) 1) with
    | some .fp32 | none => .l6
    | some f => f
  bound : u.bound = (loadOf m (a + 0x982) 2).testBit 0
  geom : u.bound = true → u.geom.toNat = loadOf m (a + 0x984) 4

/-- A state without the tiles of the issuing workgroup, its restore map, and the scale entries of its core. -/
def State.sansBindings (s : State) : State := (s.modMyWg fun w => { w with tiles := [], restore := [] }).sansScales

/-- The tag that the restore map of the issuing workgroup gives a saved tag, if it is current; NEWMAP clears the map
(R381). -/
def State.kept (s : State) (newmap : Bool) (saved : Nat) : Option (BitVec 16) :=
  if newmap then none
  else ((s.myWg.restore.find? (·.1 == saved)).map fun p => BitVec.ofNat 16 p.2).filter (s.ctx s.cur.core).current

/-- What R115 to R117 keep true of the entries that CTXLD works on: the free list of the workgroup names entries that are not
in use, each once; the old bindings that go are counted, and none that is stale names a free entry. -/
structure EntriesSound (s : State) (old : List (BitVec 16)) : Prop where
  once : s.myWg.free.Nodup
  free : ∀ e ∈ s.myWg.free, e < 1024 ∧ ((s.ctx s.cur.core).entry e).use ≠ .used
  counted : ∀ e, old.countP (fun g => (s.ctx s.cur.core).current g && tagEntry g == e) ≤ ((s.ctx s.cur.core).entry e).refs
  gone : ∀ g ∈ old, (s.ctx s.cur.core).current g = true ∨ tagEntry g ∉ s.myWg.free

/-- The bindings `now` that CTXLD gives the `n` items of an image, of which `saved` holds the tags and memory `m` the
contents, at `place` (R81, R381): bound where the item was; the same tag for the same saved tag; the entry of the restore map
with its contents as they are; else a fresh entry with the contents of the first item of the tag, counted and mapped. -/
structure Rebound (s t : State) (newmap : Bool) (n : Nat) (saved : Nat → Option Nat) (m : Nat → Byte) (place : Nat → Nat)
    (now : Nat → Option (BitVec 16)) : Prop where
  bound : ∀ k < n, (now k).isSome = (saved k).isSome
  current : ∀ k < n, ∀ tag, now k = some tag → (t.ctx s.cur.core).current tag = true
  shared : ∀ j < n, ∀ k < n, saved j = saved k → now j = now k
  mapped : ∀ k < n, ∀ o, saved k = some o → (t.myWg.restore.find? (·.1 == o)).map (fun p => BitVec.ofNat 16 p.2) = now k
  kept : ∀ k < n, ∀ o tag, saved k = some o → s.kept newmap o = some tag → now k = some tag ∧
    (t.ctx s.cur.core).scalesOf tag = (s.ctx s.cur.core).scalesOf tag
  fresh : ∀ k < n, ∀ o, saved k = some o → s.kept newmap o = none → (∀ j < k, saved j ≠ some o) →
    ∃ tag, now k = some tag ∧ tagEntry tag ∈ s.myWg.free ∧
      (∀ j < 64, (((t.ctx s.cur.core).scalesOf tag).getD j 0).toNat = loadOf m (place k + 2 * j) 2) ∧
      ((t.ctx s.cur.core).entry (tagEntry tag)).refs = (List.range n).countP (fun j => saved j == some o) ∧
      ∀ j < n, saved j ≠ some o → now j ≠ some tag

/-- The layout of a strand image: accumulators, pending shadows, allotment (Table 3-7). -/
def imageSize (m : Nat → Byte) (a : Nat) : ImageSize :=
  ⟨loadOf m (a + 0x0F) 1, loadOf m (a + 0x10) 1, loadOf m (a + 8) 2⟩

/-- No matrix operation of the issuing strand is queued. -/
def State.noMatrix (s : State) : Prop :=
  ∀ o ∈ (s.ctx s.cur.core).queue, ∀ m ∈ o.members, m.uid ≠ s.me.uid

/-- What CTXLD writes of a strand, and the accesses in flight, are left out (R382). -/
def butImage (t : Strand) : Strand :=
  { t with live := 0, slices := 0, allot := 0, keep := none, vregs := [], accs := [], sregs := [], flights := [] }

/-! ## Changes of personality -/

/-- EGMODE's request passes the checks of R269; every open request has a route. -/
structure ChangeOk (s : State) (r : ChangeReq) : Prop where
  owner : s.linkOwner = some s.me.part
  group : r.group ≤ 15
  pers : r.pers ≤ 2
  bond : r.bond = true → r.pers = 0 ∧ r.group % 2 = 0
  idle : ∀ g, g = r.group ∨ r.bond = true ∧ g = r.group + 1 → (s.group g).change = none
  commit : r.commit = true → r.newver ≠ s.topover ∧ s.committing = false
  bar : r.bar % 16 = 0
  quiet : ∀ e ∈ s.parts, e.2.trctl.getLsbD 0 = false
  routed : ∀ q ∈ s.requests, q.state.closed = false → (s.route q.node).testBit 63 = true

/-! ## What events, trace records and counters move -/

/-- A partition without the registers that events, trace records and event counters move, and its clocks. -/
def Partition.sansRings (p : Partition) : Partition :=
  { p with evtail := 0, evlost := 0, trhead := 0, trtail := 0, trlost := 0, pmc := [], clocks := 0 }
/-- An address of a partition's event queue or trace ring (Tables 10-3, 12-6). -/
def State.inRing (s : State) (a : Nat) : Prop :=
  ∃ n, let p := s.part n
    (p.evbase.toNat ≤ a ∧ a < p.evbase.toNat + 32 * 2 ^ (p.evsize.toNat % 32)) ∨
    (p.trbase.toNat ≤ a ∧ a < p.trbase.toNat + 32 * 2 ^ (p.trsize.toNat % 32))
/-- A state without them. -/
def State.sansNews (s : State) : State := { s with harbour := [], parts := [], mgmt := { s.mgmt with events := [] } }
/-- Apart from the rings and their registers, from a set of harbour bytes and from what `f` leaves out, nothing
differs. -/
structure Quiet (f : State → State) (w : Nat → Prop) (s t : State) : Prop where
  parts : ∀ p, (t.part p).sansRings = (s.part p).sansRings
  home : ∀ a, ¬s.inRing a → ¬w a → t.harbour.byte a = s.harbour.byte a
  rest : (f t).sansNews = (f s).sansNews
/-- No byte. -/
def noByte (_ : Nat) : Prop := False

/-- An event that the package posts by itself reaches whom it concerns (R247): the management core when it affects no
partition; a partition by a record in its queue. -/
def Heard (s t : State) (ps : List Nat) (code port d0 d1 : Nat) : Prop :=
  (ps = [] → t.mgmt.events = s.mgmt.events ++ [(code, 0xFFFF, port, d0, d1)]) ∧
  ∀ p, ps ≠ [] → (∀ q ∈ ps, q = p) →
    let q := s.part p
    let size := 2 ^ (q.evsize.toNat % 32)
    q.trctl.getLsbD 0 = false → q.inWindow q.evbase.toNat (32 * size) = true →
    (q.evtail.toNat + 2 ^ 32 - q.evhead.toNat) % 2 ^ 32 ≠ size →
    let a := q.evbase.toNat + 32 * (q.evtail.toNat % size)
    (t.part p).evtail.toNat = (q.evtail.toNat + 1) % 2 ^ 32 ∧
      t.harbour.load a 2 = code ∧ t.harbour.load (a + 2) 2 = 0xFFFF ∧ t.harbour.load (a + 4) 2 = port % 2 ^ 16 ∧
      t.harbour.load (a + 8) 8 = s.clock % 2 ^ 64 ∧ t.harbour.load (a + 16) 8 = d0 % 2 ^ 64 ∧
      t.harbour.load (a + 24) 8 = d1 % 2 ^ 64

/-! ## Ports -/

/-- A command when the ports of a die are up again: of one that works with far memory there, the units that waited are sent
(R185). -/
def State.sentFrom (s : State) (die : Nat) (c : Cmd) : Cmd :=
  if (c.kind.fetch || c.kind.module) ∧ c.phase = .active ∧ c.frozen = false ∧ dieOf c.core = die then
    { c with units := c.units.map fun u => if u.sent = none then { u with sent := some s.time } else u }
  else c
/-- A state without its ports. -/
def State.sansPorts (s : State) : State := { s with ports := [] }
/-- One port becomes what is said; no other one changes. -/
def PortBecomes (s t : State) (n : Nat) (p : Port) : Prop :=
  t.port n = p ∧ (∀ m, m ≠ n → t.port m = s.port m) ∧ Quiet State.sansPorts noByte s t

/-- The L1 of a core without its lines, for states that are compared byte by byte as they are seen. -/
def State.sansL1 (c : Nat) (s : State) : State := s.modCore c fun k => { k with l1 := [] }
/-- A split waits for the promotion of a name. -/
def State.promotionWaited (s : State) (k : Nat) : Prop :=
  ∃ e ∈ s.cores, ∃ u ∈ e.2.ctx.strands, ∃ p ∈ u.2.splits, p.2.stall = .promotion k

/-! ## The dispatcher -/

/-- A split waits, and what it waits for has come about: its barrier has turned over, its counter has fallen, its registers,
accumulator or tile are free, its peer accesses are answered (R23, R72, R180, R181, R266). -/
def State.stallOver (s : State) (core : Nat) (t : Strand) : Stall → Prop
  | .barrier off ph => (s.barrier core off).phase ≠ ph
  | .counter c n => t.counter c ≤ n
  | .vregs lo n => ∀ k < n, (s.ctx core).lockedV t.uid (lo + k) = false
  | .acc a => (s.ctx core).lockedA t.uid a = false
  | .tile n => (s.ctx core).lockedT t.wg n = false
  | .peer reqs => ∀ r ∈ reqs, ∀ q, s.req? r = some q → q.state.closed = true
  | _ => False
/-- A workgroup has been placed on a core (R24, R35 to R37): its shelf range, its scale entries, and one strand of each
index, in the lowest free slot of its quadrant, at ENTRY with all lanes. -/
structure Placed (s t : State) (r : TaskRun) (core pos : Nat) (cohort : List Nat) : Prop where
  wg : ∃ w ∈ (t.ctx core).wgs, w.run = r.id ∧ w.index = r.placed + pos ∧ w.nstr = r.nstr ∧ w.alive = r.nstr ∧
    w.pos = pos ∧ w.cohort = cohort ∧ w.ntiles = r.field 0x1C 1 ∧ w.shelfBytes = r.field 0x18 4 ∧
    (s.ctx core).shelfRange w.shelfBytes = some w.shelfBase ∧
    w.pool = (s.ctx core).freeEntries.take (r.field 0x1E 2) ∧
    ∀ k < r.nstr, ∃ slot u, (s.strand? core slot) = none ∧ t.strand? core slot = some u ∧ slot / 64 = k % 4 ∧
      ((List.range slot).countP fun j => j / 64 == k % 4 && (s.strand? core j).isNone) = k / 4 ∧
      u.index = k ∧ u.wg = w.id ∧ u.run = r.id ∧ u.part = r.part ∧ u.live = 0xFFFFFFFF#32 ∧ u.sup = false ∧
      u.naccs = r.field 0x1D 1 ∧ u.allot = r.field 0x16 2 ∧ u.vregs = [] ∧ u.xregs = [] ∧ u.accs = [] ∧
      (u.split 0).valid = true ∧ (u.split 0).pc.toNat = r.field 0 8 % 2 ^ 48 ∧ (u.split 0).mask = 0xFFFFFFFF#32 ∧
      (∀ e, 1 ≤ e → (u.split e).valid = false)
  others : ∀ j u, s.strand? core j = some u → t.strand? core j = some u
  shelf : ∀ a, (t.shelf core).byte a = (s.shelf core).byte a
/-- The run of a name is the only one of it, and the rings do not overlap its TCB. -/
structure State.HasRun (s : State) (r : TaskRun) : Prop where
  found : s.run? r.id = some r
  one : ∀ q ∈ s.runs, q.id = r.id → q = r
  rings : ∀ a, r.tcb ≤ a → a < r.tcb + 256 → ¬s.inRing a
  wf : s.canonical = true
/-- The edge has passed over the records from `k` on that say nothing of stores (R229): it stands at the next one that does,
or at stage 2. -/
def TaskRun.EdgeAt (r q : TaskRun) (k nexts : Nat) : Prop :=
  ∃ j, k ≤ j ∧ j ≤ 8 ∧
    (∀ i, k ≤ i → i < j → (r.regionAt i).stores = false ∧ ((r.regionAt i).access ≠ 4 ∨ (r.regionAt i).isHarbour = false)) ∧
    (j = 8 ∧ q = { r with phase := .edge, stage := 2, region := 7, line := 0, nexts := 0 } ∨
      j < 8 ∧ (r.regionAt j).stores = true ∧ q = { r with phase := .edge, stage := 1, region := j, line := 0, nexts := nexts })
/-- A state without the places where a task's progress is held beside the TCB. -/
def State.sansRuns (s : State) : State := { s with runs := [], graphs := [], batch := [], opened := [] }
/-- The L1s of some cores without their lines. -/
def State.sansL1s (cs : List Nat) (s : State) : State := cs.foldl (fun s c => State.sansL1 c s) s
/-- The run becomes what is said, and no other run changes. -/
def RunBecomes (s t : State) (id : Nat) (r : TaskRun) : Prop :=
  t.runs = s.runs.map fun (q : TaskRun) => if q.id = id then r else q
/-- The 16 positions of a clock of stage 2 name successors, each its own one (R230, R337). -/
structure EdgeBatch (s : State) (r : TaskRun) (g : Graph) (stop : Nat) (succ : Nat → Nat) : Prop where
  graph : s.graphs.find? (·.addr == r.graph) = some g
  self : r.tcb = g.tcbs + 256 * r.index ∧ r.index < g.ntcb ∧ (g.addr + 64 ≤ g.tcbs ∨ g.tcbs + 256 * g.ntcb ≤ g.addr)
  stops : r.nexts ≤ stop ∧ stop = min (r.nexts + 16) (r.field 0x24 2)
  reads : ∀ k, r.nexts ≤ k → k < stop → s.homeLoad (harbourOf (r.field 0x30 8) + 4 * k) 4 = succ k
  inRange : ∀ k, r.nexts ≤ k → k < stop → succ k < g.ntcb
  distinct : ∀ j k, r.nexts ≤ j → j < stop → r.nexts ≤ k → k < stop → succ j = succ k → j = k
  rings : ∀ a, (g.addr ≤ a ∧ a < g.addr + 64) ∨ (g.tcbs ≤ a ∧ a < g.tcbs + 256 * g.ntcb) → ¬s.inRing a

/-! ## Engines -/

/-- No workgroup of a run waits only for the run's engine work, and the run was not aborted. -/
def State.noReap (s : State) (run : Nat) : Prop :=
  (∀ e ∈ s.cores, ∀ w ∈ e.2.ctx.wgs, w.run = run → w.alive ≠ 0) ∧ ∀ r ∈ s.runs, r.id = run → r.aborted = false
/-- A core of a state without its strands and its matrix queue. -/
def State.sansMatrix (core : Nat) (s : State) : State := s.modCtx core fun x => { x with strands := [], queue := [] }
/-- The oldest operation of a core's engine has one member, whose strand stands in its slot, and no other operation has
its name. -/
structure FirstOp (s : State) (core : Nat) (o : MatOp) (m : MatMember) (u : Strand) (rest : List MatOp) : Prop where
  queue : (s.ctx core).queue = o :: rest
  names : ∀ p ∈ rest, p.id ≠ o.id
  member : o.members = [m] ∧ m.gone = false
  strand : s.strand? core m.slot = some u ∧ u.uid = m.uid
  wf : s.canonical = true
/-- What becomes of the strands and the queue of a core; other strands stay. -/
structure MatrixMoves (s t : State) (core slot : Nat) (u : Strand) (q : List MatOp) : Prop where
  strand : t.strand? core slot = some u
  others : ∀ j, j ≠ slot → t.strand? core j = s.strand? core j
  queue : (t.ctx core).queue = q
/-- Element (i, j) of a shadow accumulator of a core. -/
def State.shadowAt (s : State) (core n i j : Nat) : Nat := (Store.read 0 (s.ctx core).shadows (1024 * n + 32 * i + j)).toNat
/-- A later operation has opened a shadow on a member's target, and has taken no step yet (R55). -/
def followed (rest : List MatOp) (m : MatMember) (n : Nat) : Prop :=
  ∃ p ∈ rest, p.step = 0 ∧ ∃ k ∈ p.members, k.uid = m.uid ∧ k.acc = m.acc ∧ k.gone = false ∧ k.shadow = some n
/-- The flags of a step's elements over some rows, joined. -/
def stepFlags (x : StepIn) (rows : List Nat) (old : Nat → Nat → Nat) (k : Nat) : Prop :=
  ∃ i ∈ rows, ∃ j < 32, (x.element i j (old i j)).2.getLsbD k = true
/-- A command at work, the only one of its strand's queue that has not started; nothing is to be reaped. -/
structure CmdAt (s : State) (c : Cmd) : Prop where
  found : s.cmd? c.id = some c
  one : ∀ d ∈ s.cmds, d.id = c.id → d = c
  alone : ∀ d ∈ s.cmds, d ≠ c → d.inQueue c.uid c.kind.engine = false
  stays : s.noReap c.run
  wf : s.canonical = true
/-- A command becomes what is said, and no other one changes. -/
def CmdBecomes (s t : State) (c d : Cmd) : Prop :=
  t.cmds = s.cmds.map fun (x : Cmd) => if x.id = c.id then d else x
/-- A command and the strands and shelf of its core left out. -/
def State.sansCmd (core : Nat) (s : State) : State :=
  { s.modCtx core (fun x => { x with shelf := [], strands := x.strands.map fun (e : Nat × Strand) => (e.1, butCount e.2) }) with cmds := [] }
/-- Unit `u` of a command, `x`, has landed, and `x.len` bytes with it: the charge falls, and after the last unit the
command is gone and its counter may fall (R53, R176, R181). -/
structure UnitLands (s t : State) (c : Cmd) (u : Nat) (x : CmdUnit) : Prop where
  more : (∃ k y, k ≠ u ∧ c.units[k]? = some y ∧ y.landed = false) →
    CmdBecomes s t c { c with units := c.units.set u { x with landed := true }, charge := c.charge - x.len } ∧
    ∀ k, t.strand? c.core k = s.strand? c.core k
  last : (∀ k y, k ≠ u → c.units[k]? = some y → y.landed = true) → t.cmds = s.cmds.filter (·.id ≠ c.id) ∧
    ∀ k w, s.strand? c.core k = some w → w.uid = c.uid → (∀ j v, s.strand? c.core j = some v → v.uid = c.uid → j = k) →
      ∀ f rest, w.flights = f :: rest → f.id = c.flight → (∀ g ∈ rest, g.id ≠ f.id ∧ g.cls ≠ f.cls) →
        t.strand? c.core k = some { w with flights := w.flights.tail }
/-- A barrier object on which bytes have landed (Table 7-8). -/
def landed (b : BarrierObj) (n : Nat) (dropped : Bool) : BarrierObj :=
  let e := b.err || dropped || decide (b.pend < n)
  if b.cnt = 0 ∧ b.pend ≤ n then
    { b with pend := 0, err := e, phase := !b.phase, exp := b.exp - b.drop, cnt := b.exp - b.drop, drop := 0 }
  else { b with pend := b.pend - n, err := e }
/-- `n` bytes are stored in far memory, at places with masks: a cell that one of them alone names takes it; a cell that
none names stays. -/
def FarStored (s t : State) (ps : List Page) (n : Nat) (place : Nat → Option (Nat × Byte)) (v : Nat → Byte) : Prop :=
  let cell := fun i => (place i).bind fun p => farCell ps p.1
  (∀ i < n, ∀ p k, place i = some p → cell i = some k → (∀ j < n, j ≠ i → cell j ≠ some k) →
    t.far.byte k = (s.far.byte k &&& ~~~p.2) ||| (v i &&& p.2)) ∧
  ∀ k, (∀ j < n, cell j ≠ some k) → t.far.byte k = s.far.byte k
/-- A state without far memory. -/
def State.sansFar (s : State) : State := { s with far := [] }
/-- Byte `i` of the destination of a module command (R184, R431). -/
def State.moduleByte (s : State) (c : Cmd) (i : Nat) : Byte :=
  let m := ModuleCmd.ofBytes c.desc
  match c.kind with
  | .mcopy => s.farByte c.pages (vaWrap (m.srcs.headD 0 + i))
  | .mfill => BitVec.ofNat 8 (m.pat / 2 ^ (8 * (i % 8)))
  | _ => BitVec.ofNat 8 (s.reduced c m (i / 4) / 2 ^ (8 * (i % 4)))

/-! ## Halting and power -/

/-- A run that a halt preempts (R219, R252). -/
def TaskRun.stopsIn (r : TaskRun) (part : Nat) : Bool :=
  r.part == part && (r.phase == .running || r.phase == .edge) && !r.preempted && !r.aborted
/-- A run that a resumption lets go on. -/
def TaskRun.goesOnIn (r : TaskRun) (part : Nat) : Bool :=
  r.part == part && r.preempted && !r.aborted && r.phase != .faulted
/-- The core's L1 holds a byte that its home has not. -/
def State.dirtyAt (s : State) (core a : Nat) : Prop :=
  ∃ l, (s.core core).l1.at? (a / 128) = some l ∧ l.dirty.getLsbD (a % 128) = true
/-- The runs of a state have names of their own, and no ring overlaps the TCB of one; each core is listed once. -/
structure State.RunsApart (s : State) : Prop where
  names : (s.runs.map (·.id)).Nodup
  once : s.cores.sorted = true
  rings : ∀ r ∈ s.runs, ∀ a, r.tcb ≤ a → a < r.tcb + 256 → ¬s.inRing a
  wf : s.canonical = true
/-- STATE bytes of the runs that satisfy a test. -/
def State.stateBytes (s : State) (p : TaskRun → Bool) (a : Nat) : Prop := ∃ r ∈ s.runs, p r = true ∧ a = r.tcb + 8
/-- A split at its instruction boundary in a halt (R252). -/
def Split.halted (p : Split) : Split := if p.wait = 2 then { p with wait := 0, stall := .none } else p
/-- A command as a halt freezes it: with a module controller or the collective engine it goes on (R253, R254). -/
def Cmd.halted (c : Cmd) : Cmd :=
  if (c.kind.module || c.kind == .coll) && (c.phase == .release || c.phase == .active) then c
  else { c with frozen := true, units := c.units.map fun (x : CmdUnit) => { x with sent := none } }
/-- A command as a resumption takes it up: the units that have not landed are sent again, or wait for a port (R185, R256). -/
def Cmd.resumed (c : Cmd) (now : Option Nat) : Cmd :=
  if !c.frozen then c
  else if c.phase = .active then
    { c with
      frozen := false
      units := c.units.map fun (x : CmdUnit) => if x.landed || x.acked then x else { x with sent := now } }
  else { c with frozen := false }
/-- A command when the ports go idle: a unit of far memory that has neither landed nor been acknowledged is to be sent again
(R284). -/
def Cmd.idled (c : Cmd) : Cmd :=
  if c.kind.fetch || c.kind.module then
    { c with units := c.units.map fun (x : CmdUnit) => if x.landed || x.acked then x else { x with sent := none } }
  else c
/-- A strand whose splits count as ready from a cycle. -/
def Strand.readyFrom (t : Strand) (now : Nat) : Strand :=
  { t with splits := t.splits.map fun (e : Nat × Split) => (e.1, { e.2 with since := now, promoted := false }) }
/-- A state without the cores of a partition, its commands, its runs and what its L1s may move (R199, R202). -/
def State.sansPart (part : Nat) (s : State) : State :=
  { s with
    cores := s.cores.filter fun e => !(s.part part).hasCore e.1
    cmds := s.cmds.filter fun c => c.part ≠ part
    runs := s.runs.filter fun r => r.part ≠ part
    opened := [], notices := [], records := [], promotions := [], nextId := 0 }

/-! ## Links -/

/-- A state without what closed requests end of peer accesses: values, counts, and the waits themselves. -/
def State.sansPosts (s : State) : State :=
  let strip (t : Strand) : Strand := { t with flights := [], peers := [], vregs := [], keep := none }
  { s with cores := s.cores.map fun (e : Nat × Core) =>
      (e.1, { e.2 with ctx := { e.2.ctx with strands := e.2.ctx.strands.map fun (t : Nat × Strand) => (t.1, strip t.2) } }) }
/-- A state without edge groups, the routing table, what moves on the links or ends with a request, and the arguments of free
values. -/
def State.sansLinks (s : State) : State :=
  { s.sansGroups.sansPosts with channels := [], routes := [], routesNext := [], topover := 0, wire := [], free := 0 }
/-- No strand is about to enter a trap, and no open peer access of one acquires: the end of a request changes its strand
alone. -/
def State.Calm (s : State) : Prop :=
  ∀ e ∈ s.cores, ∀ t ∈ e.2.ctx.strands, t.2.entering = none ∧ ∀ w ∈ t.2.peers, w.acq = false
/-- A peer's answer authenticates it (R270): its key is an allowed peer's; it has signed the nonce that this package sent, its
identity and its node; and the node is routed through each group of the change in the table that flood will make active. -/
structure Authentic (s : State) (c : Change) (gs : List Nat) (x : AuthAnswer) : Prop where
  allowed : x.key ∈ s.mgmt.peers
  length : x.sig.length = 96
  signed : Config.verifies x.key (Config.nonce c.nonce ++ x.key ++ bytesOf 2 x.node.val) x.sig = true
  routed : let e := (Store.read 0 (if c.commit then s.routesNext else s.routes) x.node.val).toNat
    e.testBit 63 = true ∧ ∀ k ∈ gs, k < 16 ∧ e.testBit (if c.pers = 2 then k + 16 else k) = true
/-- The groups of a change become what is said; no other group changes. -/
def GroupsBecome (s t : State) (gs : List Nat) (f : EdgeGroup → EdgeGroup) : Prop :=
  (∀ k ∈ gs, t.group k = f (s.group k)) ∧ ∀ k, k ∉ gs → t.group k = s.group k
/-- Routes and version are as before. -/
def SameTopo (s t : State) : Prop := t.topover = s.topover ∧ t.routes = s.routes ∧ t.routesNext = s.routesNext
/-- A change that stands in a phase, on the groups that it has. -/
structure InChange (s : State) (g : Nat) (c : Change) (ph : Nat) : Prop where
  change : (s.group g).change = some c
  phase : (s.group g).phase = ph
  same : ∀ k ∈ s.changing c.lead, (s.group k).change = some c
  wf : s.canonical = true
  calm : s.Calm
/-- The end of a change with a status is told to the strand that asked for it, at resume if it is halted (R272 to R274). -/
structure ChangeTold (s t : State) (c : Change) (status : Nat) : Prop where
  none : c.issuer = none → Quiet State.sansLinks noByte s t
  now : ∀ part core bar req, c.issuer = some (part, core, bar, req) → s.holding part = false →
    (bar + 16 ≤ req + 0x0A ∨ req + 0x0C ≤ bar) → (s.barrier core bar).cnt ≠ 0 →
    (t.shelf core).load (req + 0x0A) 2 = status ∧
      t.barrier core bar = signalled { s.barrier core bar with err := (s.barrier core bar).err || status != 0 } false ∧
      Quiet (fun u => (u.sansShelf core).sansLinks) noByte s t
  later : ∀ part core bar req, c.issuer = some (part, core, bar, req) → s.holding part = true →
    (t.part part).held = (s.part part).held ++ [.change core bar req status] ∧
      ∀ k, t.sansPosts.core k = s.sansPosts.core k

/-! ## Peer traffic -/

/-- What an inbound request asks is done at the home of its bytes: what it returns, and harbour after it (R268, R441). -/
def peerDone (s : State) (addr : Nat) : PeerOp → List Byte × (Nat → Byte)
  | .read n => (s.homeBytes addr n, s.harbour.byte)
  | .write d => ([], fun a => if addr ≤ a ∧ a < addr + d.length then d.getD (a - addr) 0 else s.harbour.byte a)
  | .atomic op sg w64 args =>
    let n := if w64 then 8 else 4
    let old := fun k => s.harbour.load (addr + n * k) n
    let new := fun k => let x := args.getD k (0, 0); atomNew op sg n (old k) x.1 x.2
    ((List.range args.length).flatMap fun k => bytesOf n (old k),
      fun a => if addr ≤ a ∧ a < addr + n * args.length then
        BitVec.ofNat 8 (new ((a - addr) / n) / 2 ^ (8 * ((a - addr) % n))) else s.harbour.byte a)
/-- A request of this package is the only open one. -/
structure OnlyOpen (s : State) (q : Request) : Prop where
  found : q ∈ s.requests
  names : (s.requests.map (·.id)).Nodup
  only : ∀ x ∈ s.requests, x.id ≠ q.id → x.state.closed = true
  awaited : s.awaited q = true
/-- A state in which a request has become what is said. -/
def State.told (s : State) (q : Request) (st : ReqState) : State :=
  { s with requests := s.requests.map fun (x : Request) => if x.id = q.id then { x with state := st } else x }
/-- A request is in what an access of a strand waits for, and the strand waits for nothing else. -/
structure State.AwaitedBy (s : State) (q : Request) (j : Nat) (u : Strand) (w : PeerWait) : Prop where
  strand : s.strand? q.core j = some u
  name : u.uid = q.uid ∧ ∀ n v, s.strand? q.core n = some v → v.uid = q.uid → n = j
  wait : u.peers = [w] ∧ w.failed = false ∧ q.id ∈ w.reqs
/-- The access `w` of a strand `u` is over, which leaves `v`; `r` is a state with the last request closed. Lanes that have been
answered take their values in the access's register, the others and every other register stay; the counter falls; failed
lanes that are live leave the access to its trap (R181, R265, R441, R442). -/
structure AccessEnds (r : State) (u v : Strand) (w : PeerWait) : Prop where
  values : ∀ l < 32, w.lanes.getLsbD l = true → ∀ x k d, r.laneReq w l = some (x, k) → x.state = .answered d →
    ∀ p n, w.dest = some (p, n) →
      v.vphys p l = wordOf (loadOf (fun a => d.getD a 0) (n * k) n) ∧
      (n = 8 → v.vphys (p + 1) l = wordOf (loadOf (fun a => d.getD a 0) (n * k) n / 2 ^ 32))
  others : ∀ p l, l < 32 → (∀ o n, w.dest = some (o, n) → p ≠ o ∧ (n = 8 → p ≠ o + 1)) ∨ w.lanes.getLsbD l = false ∨
    (∃ x k st, r.laneReq w l = some (x, k) ∧ x.state = .failed st) → v.vphys p l = u.vphys p l
  all : (∀ l < 32, w.lanes.getLsbD l = true → u.live.getLsbD l = true → ∀ x k, r.laneReq w l = some (x, k) →
    ∀ st, x.state ≠ .failed st) → v.peers = []
  failed : (∃ l < 32, w.lanes.getLsbD l = true ∧ u.live.getLsbD l = true ∧ ∃ x k st, r.laneReq w l = some (x, k) ∧
    x.state = .failed st) → v.peers = [{ w with failed := true }]
  rest : { butV v with peers := [] } = { butV (u.arrive w.flight) with peers := [] }
/-- A request becomes what is said, and a closed one gives its tag's generation up (R267); with the last request of an access
the access is over. -/
structure RequestBecomes (s t : State) (q : Request) (st : ReqState) : Prop where
  state : st.closed = false → (∃ x ∈ t.requests, x.id = q.id ∧ x.state = st) ∧ ∀ c k, t.strand? c k = s.strand? c k
  ended : st.closed = true → ∀ j u w, s.AwaitedBy q j u w →
    ∃ v, t.strand? q.core j = some v ∧ AccessEnds (s.told q st) u v w
  tag : ∀ k, q.tag = some k → Store.sorted s.tagGen = true → Store.read 0 t.tagGen k =
    Store.read 0 s.tagGen k + (if st.closed then 1 else 0)
  frame : SameTopo s t ∧ Quiet State.sansLinks noByte s t
/-- The bytes of a reply: node, tag, generation, status, data (log 5). -/
def replyOf (r : PeerReq) (status : Nat) (data : List Byte) : List Byte :=
  bytesOf 2 r.node.val ++ [r.tag] ++ bytesOf 1 r.gen.toNat ++ bytesOf 1 status ++ data

/-! ## Chunks -/

/-- Chunk `c` of operation `o` is on its way or waits to be sent, and the operation goes on. -/
structure ChunkOf (s : State) (k : ChunkId) (o : CollOp) (c : Chunk) : Prop where
  op : s.colls.find? (fun o => o.comm == k.comm.val && o.seq == k.seq) = some o
  names : (s.colls.map (·.cmd)).Nodup
  chunk : o.chunks.find? (·.idx == k.idx) = some c
  places : (o.chunks.map (·.idx)).Nodup
  open_ : c.accepted = false ∧ o.status = 0
/-- It becomes what is said, but for its clock, and with it no other field of an operation but clocks. -/
def ChunkBecomes (s t : State) (o : CollOp) (idx : Nat) (f : Chunk → Chunk) : Prop :=
  let clockless := fun (c : Chunk) => { c with waited := 0, since := none, counting := false }
  let bare := fun (os : List CollOp) => os.map fun (o : CollOp) => { o with chunks := o.chunks.map clockless }
  bare t.colls = bare (s.colls.map fun (x : CollOp) => if x.cmd = o.cmd then
    { x with chunks := x.chunks.map fun (c : Chunk) => if c.idx = idx then f c else c } else x) ∧
  { t with colls := [] } = { s with colls := [] }
/-- A state without collective operations, channels and what is on the wire. -/
def State.sansChunks (s : State) : State := { s with colls := [], channels := [], wire := [], turns := [], routed := [], leaving := [] }

/-! ## The host and the management core -/

/-- The host gets an answer: a byte that is 1 for a refusal, then bytes (log 5). -/
def Answered (s t : State) (refused : Bool) (bs : List Byte) : Prop :=
  t.mgmt.reply = BitVec.ofNat 8 (flag refused) :: bs ∧
    { t with mgmt := { t.mgmt with reply := [] } } = { s with mgmt := { s.mgmt with reply := [] } }
/-- It gets an answer, and harbour bytes are written. -/
def Wrote (s t : State) (a : Nat) (bs : List Byte) : Prop :=
  t.mgmt.reply = [0] ∧ (∀ b, t.harbour.byte b = if a ≤ b ∧ b < a + bs.length then bs.getD (b - a) 0 else s.harbour.byte b) ∧
    { t with harbour := [], mgmt := { t.mgmt with reply := [] } } = { s with harbour := [], mgmt := { s.mgmt with reply := [] } }
/-- The rights of Table 12-1: a level is granted in a lifecycle state, with or without a valid token. -/
def mayGrant (l : Lifecycle) (d : DebugLevel) (token : Bool) : Bool :=
  match l, d with
  | _, .none => true
  | .open, _ => true
  | .secured, .observe => token
  | .secured, .invasive => token
  | .secured, .full => false
  | .retired, _ => false
/-- A token of 160 bytes is for this package and partition, of the level at least, and one of the debug authorities has signed
it (R286). -/
def tokenHolds (s : State) (part level : Nat) (t : DebugToken) : Prop :=
  (t.digest ++ [t.part, t.level] ++ t.reserved).length = 64 ∧ t.reserved.length = 14 ∧ t.sig.length = 96 ∧
    t.digest = Config.sha384 (Config.identityKey (s.mgmt.lifecycle == .retired)) ∧ t.part.toNat = part ∧ level ≤ t.level.toNat ∧
    ∃ k ∈ s.mgmt.authorities, Config.verifies k (t.digest ++ [t.part, t.level] ++ t.reserved) t.sig = true
/-- A firmware image carries its signature in its last 96 bytes (R292). -/
def signedImage (img : List Byte) : Bool :=
  Config.verifies Config.firmwareKey (img.take (img.length - 96)) (img.drop (img.length - 96))

/-! ## Fetch and issue -/

/-- The eight words of a group come from the core's instruction cache, or from harbour into it (R300, R301). -/
def Fetched (s : State) (core group : Nat) (ws : List Word) (u : State) : Prop :=
  ((s.core core).icache.at? group = some ws ∧ u = s) ∨
  ((s.core core).icache.at? group = none ∧ (s.core core).icache.length < 3072 ∧
    ws = (List.range 8).map (fun k => BitVec.ofNat 32 (s.homeLoad (group * 32 + 4 * k) 4)) ∧
    u = s.modCore core fun k => { k with icache := k.icache.put group ws })
/-- A split stands at word `j` of a group that its partition may fetch, and nothing is due before its instruction: no trap of
a gang, no failed PST that the strand has left, no comparator, a header of a known version, the base table (R237, R288, R296 to R300, R309). -/
structure AtWord (s : State) (core slot entry : Nat) (t : Strand) (ws : List Word) (j : Nat) : Prop where
  strand : s.strand? core slot = some t
  due : t.due = none
  late : ∀ w ∈ t.peers, w.failed = false
  watch : (s.part t.part).dbgctl = []
  pc : (t.split entry).pc.toNat < 2 ^ 30 ∧ (t.split entry).pc.toNat / 4 % 8 = j ∧ j ≠ 0
  window : (s.part t.part).hwbase.toNat ≤ (t.split entry).pc.toNat / 32 * 32 ∧
    (t.split entry).pc.toNat / 32 * 32 + 32 ≤ (s.part t.part).hwlimit.toNat
  header : (ws.getD 0 0).toNat / 2 ^ 30 < 2 ∧ (ws.getD 0 0).getLsbD 28 = false
  table : t.sup = true ∨ (s.part t.part).table = none
  fits : isFormE ((ws.getD j 0).toNat / 2 ^ 22) = true → j ≠ 7
/-- The lanes of a split's mask that the predicate of its slot in the header selects (R25, R303). -/
def slotLanes (t : Strand) (p : Split) (hdr : Word) (j : Nat) : Mask :=
  let f := hdr.toNat % 2 ^ 28 / 16 ^ (j - 1) % 16
  p.mask &&& (if hdr.toNat / 2 ^ 30 = 0 ∧ f / 8 = 1 then ~~~(t.p (f % 8)) else t.p (f % 8))
/-- The vector registers of an instruction of a family of one shape. -/
def shapeRegs (i : Instr) (rs : List (Nat × Nat)) : Prop :=
  (∃ x, laneSpec i = some x ∧ rs = (x.dest :: x.srcs).map fun r => (r.val, 1)) ∨
  (∃ x, flagSpec i = some x ∧ rs = (x.dest :: x.srcs).map fun r => (r.val, 1)) ∨
  (∃ x, predSpec i = some x ∧ rs = x.srcs.map fun r => (r.val, 1)) ∨
  (∃ x, (shelfLoad i = some x ∨ harbourLoad i = some x ∨ shelfStore i = some x ∨ harbourStore i = some x) ∧
    rs = (x.data.val, x.width.regs) :: x.offs.map fun r => (r.val, 1)) ∨
  (∃ x, branchSpec i = some x ∧ rs = []) ∨ ((i = .exit ∨ i = .syncs ∨ i = .brk ∨ ∃ n, i = .trap n) ∧ rs = []) ∨
  ((∃ x g, i = .tfetch x g ∨ i = .tstore x g ∨ i = .mcopy x g ∨ i = .mfill x g ∨ i = .mreduce x g ∨ i = .copy x g ∨ i = .coll x g) ∧ rs = [])

end Sys2Proof.Machine

open Sys2Proof Sys2Proof.Machine

/-- R366, R367, R370, R395, R407, R414, R416 to R418, R446, R458 and the like: the word of an entry, and the value that each
active lane of the destination takes; nothing else changes. MOVS to a vector register reads FLG once no flags of the
strand are outstanding. -/
def Obligations.LaneValuesAreWritten : Prop :=
  EncodedBy laneWord ∧ (∀ (s : State) (i : Instr) (x : LaneSpec), laneSpec i = some x → s.Runs → s.canonical = true →
    (∀ r ∈ x.dest :: x.srcs, s.Holds r.val 1) → s.Free x.dest.val 1 →
    ∃ t, exec i s = .next t ∧ t.cur.done = true ∧
      (∀ l < 32, s.cur.act.getLsbD l = true → t.v x.dest.val l = x.val s l) ∧
      OtherV x.dest.val 1 s t ∧ Same butV s t ∧ SameBytes s t) ∧
  ∀ (s : State) (d : VReg) (k : Fin 26), s.Runs → s.canonical = true → s.Holds d.val 1 → s.Free d.val 1 →
    (k.val = 0x12 → s.flagsOpen = false) →
    ∃ t, exec (.movsV d k) s = .next t ∧ t.cur.done = true ∧
      (∀ l < 32, s.cur.act.getLsbD l = true → t.v d.val l = (s.special k.val l).setWidth 32) ∧
      OtherV d.val 1 s t ∧ Same butV s t ∧ SameBytes s t

/-- R394, R397, R401, R403, R405, R413: each active lane takes the value, and the flags of the active lanes join FLG. -/
def Obligations.LaneValuesAndFlagsAreWritten : Prop :=
  ∀ (s : State) (i : Instr) (x : FlagSpec), flagSpec i = some x → s.Runs → s.canonical = true →
    (∀ r ∈ x.dest :: x.srcs, s.Holds r.val 1) → s.Free x.dest.val 1 →
    ∃ t, exec i s = .next t ∧ t.cur.done = true ∧
      (∀ l < 32, s.cur.act.getLsbD l = true → t.v x.dest.val l = wordOf (x.val s l).1) ∧
      FlagsJoined s t (fun l => (x.val s l).2) ∧
      OtherV x.dest.val 1 s t ∧ Same butVF s t ∧ SameBytes s t

/-- R419, R443, R494, R500: the lanes that the entry names take the bit; a write to P0 is discarded; comparison codes 6 and 7
of ISCMP and XSCMP raise ILLENC. -/
def Obligations.PredicatesAreWritten : Prop :=
  EncodedBy predWord ∧
  (∀ (base p k sg b c : Nat), base = 0x0B000000 ∨ base = 0x16C00000 → p < 8 → k = 6 ∨ k = 7 → sg < 2 → b < 128 → c < 128 →
    decode (base + (p + 8 * k + 64 * sg) * 2 ^ 14 + b * 2 ^ 7 + c) 0 = .error .illenc) ∧
  (∀ (s : State) (l : Nat), l < 32 → (s.p 0).getLsbD l = true) ∧
  ∀ (s : State) (i : Instr) (x : PredSpec), predSpec i = some x → s.Runs → s.canonical = true →
    (∀ r ∈ x.srcs, s.Holds r.val 1) →
    ∃ t, exec i s = .next t ∧ t.cur.done = true ∧
      (x.dest.val ≠ 0 → ∀ l < 32, (t.p x.dest.val).getLsbD l =
        if (x.lanes s).getLsbD l then x.val s l else (s.p x.dest.val).getLsbD l) ∧
      FlagsJoined s t (x.fl s) ∧ OtherP x.dest.val s t ∧ Same butPF s t ∧ SameBytes s t

/-- R499, R502: the word of a uniform instruction, and the value that the uniform register takes; nothing else changes; a
number of XGET above 33 raises ILLENC. -/
def Obligations.UniformValuesAreWritten : Prop :=
  EncodedBy uniWord ∧
  (∀ d k : Nat, d < 128 → 33 < k → k < 128 → decode (0x17800000 + d * 2 ^ 14 + k) 0 = .error .illenc) ∧
  ∀ (s : State) (i : Instr) (x : UniSpec), uniSpec i = some x → s.Runs → s.canonical = true → x.ok s →
    ∃ t, exec i s = .next t ∧ t.cur.done = true ∧ t.x x.dest.val = x.val s ∧
      OtherX x.dest.val s t ∧ Same butX s t ∧ SameBytes s t

/-! ## Memory -/

/-- R424: a shelf load. R424, R199: a harbour load sees its core's L1 at CORE scope, the home at a wider one; a strong load
wider than CORE leaves the L1 empty. R181: its counter rises only behind an older load that is not complete. -/
def Obligations.LoadsRead : Prop :=
  (∀ (s : State) (i : Instr) (x : Access), shelfLoad i = some x → x.Ready .lds s → x.InShelf s →
      s.Free x.data.val x.width.regs →
      ∃ t, exec i s = .next t ∧ t.cur.done = true ∧
        x.Loaded s t (s.shelf s.cur.core).byte (fun a => a) ∧ OtherV x.data.val x.width.regs s t ∧
        CountedAs .lds s t ∧ SameApartL1 butV (s.passed .lds) t ∧ SameSeen s t ∧
        (x.strong = false ∨ x.scope = .core → Same butV (s.passed .lds) t ∧ SameBytes s t) ∧
        (x.strong = true → x.scope ≠ .core → (t.core s.cur.core).l1 = [])) ∧
  (∀ (s : State) (i : Instr) (x : Access), harbourLoad i = some x → x.Ready .lds s → x.InHarbour s true false →
      s.Free x.data.val x.width.regs → (x.scope = .core → s.roomL1) → (x.rsp = true → s.unreleased) →
      ∃ t, exec i s = .next t ∧ t.cur.done = true ∧
        x.Loaded s t (s.seen s.cur.core (x.scope != .core)) inHarbourAt ∧ OtherV x.data.val x.width.regs s t ∧
        CountedAs .lds s t ∧ SameApartL1 butV (s.passed .lds) t ∧ SameSeen s t ∧
        (x.scope = .core → ∀ a, t.seen s.cur.core false a = s.seen s.cur.core false a) ∧
        (x.strong = true → x.scope ≠ .core → (t.core s.cur.core).l1 = []))

/-- R466: a shelf store. R466, R199, R201: a harbour store. -/
def Obligations.StoresWrite : Prop :=
  (∀ (s : State) (i : Instr) (x : Access), shelfStore i = some x → x.Ready .sts s → x.InShelf s →
      ∃ t, exec i s = .next t ∧ t.cur.done = true ∧
        x.Stored s (fun a => a) (s.shelf s.cur.core).byte (t.shelf s.cur.core).byte ∧
        (∀ c a, c ≠ s.cur.core → (t.shelf c).byte a = (s.shelf c).byte a) ∧
        (∀ a, t.far.byte a = s.far.byte a) ∧
        CountedAs .sts s t ∧
        Same whole ((s.passed .sts).sansShelf s.cur.core).uncached (t.sansShelf s.cur.core).uncached ∧ SameSeen s t ∧
        (x.strong = true → x.scope ≠ .core → ∀ a, t.harbour.byte a = s.seen s.cur.core true a)) ∧
  (∀ (s : State) (i : Instr) (x : Access), harbourStore i = some x → x.Ready .sts s → x.InHarbour s false true →
      (x.scope = .core → s.roomL1) →
      ∃ t, exec i s = .next t ∧ t.cur.done = true ∧
        x.Stored s inHarbourAt (s.seen s.cur.core true) (t.seen s.cur.core true) ∧
        CountedAs .sts s t ∧ SameApartL1 whole (s.passed .sts) t ∧
        (x.scope = .core →
          x.Stored s inHarbourAt (s.seen s.cur.core false) (t.seen s.cur.core false) ∧
          (∀ a, t.harbour.byte a = s.harbour.byte a) ∧
          (x.strong = true → ∀ l < 32, s.cur.act.getLsbD l = true →
            { core := s.cur.core, line := inHarbourAt (x.addr s l) / 128 } ∈ t.notices)) ∧
        (x.scope ≠ .core → ∀ a, x.strong = true ∨ (∃ l, x.Covers s inHarbourAt l a) →
          t.harbour.byte a = t.seen s.cur.core true a))

/-- R358, R359, R450: ATOM and RED. -/
def Obligations.AtomicsUpdateHarbour : Prop :=
  (∀ (s : State) (d b c : VReg) (l : AtomLit),
    AtomReady s l (d :: b :: if l.op = .cas then [c] else []) .lds true → s.Free d.val (if l.w64 then 2 else 1) →
    ∃ t, exec (.atom d b c l) s = .next t ∧ t.cur.done = true ∧
      (∀ a, t.seen s.cur.core true a = (s.atomRun l b c).2 a) ∧
      (∀ a, ¬atomCovers s l a → t.seen s.cur.core true a = s.seen s.cur.core true a) ∧
      (∀ k < 32, s.cur.act.getLsbD k = true →
        t.v d.val k = wordOf ((s.atomRun l b c).1 k) ∧
        (l.w64 = true → t.v (d.val + 1) k = wordOf ((s.atomRun l b c).1 k / 2 ^ 32))) ∧
      OtherV d.val (if l.w64 then 2 else 1) s t ∧ SameApartL1 butV (s.passed .lds) t) ∧
  ∀ (s : State) (b : VReg) (l : AtomLit), AtomReady s l [b] .sts false →
    ∃ t, exec (.red b l) s = .next t ∧ t.cur.done = true ∧
      (∀ a, t.seen s.cur.core true a = (s.atomRun l b b).2 a) ∧
      (∀ a, ¬atomCovers s l a → t.seen s.cur.core true a = s.seen s.cur.core true a) ∧ SameApartL1 whole (s.passed .sts) t

/-- R501: XLD and XST. -/
def Obligations.UniformAccesses : Prop :=
  ∀ (s : State) (r a : XReg) (k : Fin 128),
    let h := inHarbourAt ((s.xn a.val + 8 * k.val) % 2 ^ 64)
    (UniformReady s a k true false →
      ∃ t, exec (.xld r a k) s = .next t ∧ t.cur.done = true ∧
        t.x r.val = BitVec.ofNat 64 (loadOf (s.seen s.cur.core false) h 8) ∧ OtherX r.val s t ∧
        SameApartL1 butX s t ∧ SameSeen s t) ∧
    (UniformReady s a k false true →
      ∃ t, exec (.xst r a k) s = .next t ∧ t.cur.done = true ∧
        (∀ w b, t.seen s.cur.core w b = storeOf (s.seen s.cur.core w) h 8 (s.xn r.val) b) ∧
        (∀ b, t.harbour.byte b = s.harbour.byte b) ∧ SameApartL1 whole s t)

/-- R400: FENCE; with neither bit it is a full fence; it waits for the peer accesses that it orders (R194, R210). R372: CFLUSH
writes the dirty bytes of a line home and keeps it; CINV drops it then. -/
def Obligations.FencesAndLines : Prop :=
  (∀ (s : State) (sc : Scope) (acq rel : Bool), s.Runs → s.canonical = true → s.me.acquiring = [] →
    (sc = .sys → (rel = true ∨ acq = false → s.me.openReqs = []) ∧ (acq = true → rel = false → s.me.loading = [])) →
    ∃ t, exec (.fence sc acq rel) s = .next t ∧ t.cur.done = true ∧
      SameApartL1 whole s t ∧ SameSeen s t ∧
      (sc = .core → Same whole s t ∧ SameBytes s t) ∧
      (sc ≠ .core → rel = true ∨ acq = false → ∀ a, t.harbour.byte a = s.seen s.cur.core true a) ∧
      (sc ≠ .core → acq = true ∨ rel = false → (t.core s.cur.core).l1 = [])) ∧
  (∀ (s : State) (sc : Scope) (acq rel : Bool), s.Runs → s.canonical = true → s.cur.done = false →
    let reqs := if s.me.acquiring ≠ [] then s.me.acquiring else if sc ≠ .sys then []
      else if rel || !acq then s.me.openReqs else s.me.loading
    reqs ≠ [] → ∃ t, exec (.fence sc acq rel) s = .next t ∧ t.mySplit.wait = 2 ∧ t.mySplit.stall = .peer reqs ∧
      t.mySplit.pc = s.mySplit.pc ∧ Same whole s t ∧ SameBytes s t) ∧
  ∀ (s : State) (x : XReg), LineReady s x →
    let line := inHarbourAt (s.xn x.val) / 128
    (∃ t, exec (.cflush x) s = .next t ∧ t.cur.done = true ∧ SameApartL1 whole (s.passed .sts) t ∧ SameSeen s t ∧
      (∀ a, t.harbour.byte a = if a / 128 = line then s.seen s.cur.core true a else s.harbour.byte a) ∧
      ∀ a, t.seen s.cur.core false a = s.seen s.cur.core false a) ∧
    (∃ t, exec (.cinv x) s = .next t ∧ t.cur.done = true ∧ SameApartL1 whole (s.passed .sts) t ∧ SameSeen s t ∧
      (∀ a, t.harbour.byte a = if a / 128 = line then s.seen s.cur.core true a else s.harbour.byte a) ∧
      ∀ k, (t.core s.cur.core).l1.at? k = if k = line then none else (s.core s.cur.core).l1.at? k)

/-! ## Strand-wide instructions -/

/-- R428, R455, R461: SCAN, MATCH, SHFL, SHFLP. The sign of a zero sum of SCAN's .ADD.F32 is the model's choice (log 12). -/
def Obligations.LanesExchangeValues : Prop :=
  ∀ (s : State) (i : Instr) (m : Option XReg) (x : FlagSpec), crossSpec i = some (m, x) → StrandWide s m →
    (∀ r ∈ x.dest :: x.srcs, s.Holds r.val 1) → s.Free x.dest.val 1 →
    ∃ t, exec i s = .next t ∧ t.cur.done = true ∧
      (∀ l < 32, s.cur.act.getLsbD l = true → t.v x.dest.val l = wordOf (x.val s l).1) ∧
      FlagsJoined s t (fun l => (x.val s l).2) ∧
      OtherV x.dest.val 1 s t ∧ Same butVF s t ∧ SameBytes s t

/-- R454: SRED. R493: VOTE. The sign of a zero sum of SRED's .ADD.F32 is the model's choice (log 12). -/
def Obligations.LanesReduceAndVote : Prop :=
  (∀ (s : State) (i : Instr) (m : Option XReg) (d : XReg) (a : VReg) (op : RedOp),
    sredSpec i = some (m, d, a, op) → StrandWide s m → s.Holds a.val 1 →
    ∃ t, exec i s = .next t ∧ t.cur.done = true ∧
      t.x d.val = BitVec.ofInt 64 (s.reductionOf op a (s.taking m)).1 ∧
      FlagsJoined s t (fun _ => (s.reductionOf op a (s.taking m)).2) ∧
      OtherX d.val s t ∧ Same butXF s t ∧ SameBytes s t) ∧
  ∀ (s : State) (i : Instr) (m : Option XReg) (w : VoteArg), voteSpec i = some (m, w) → StrandWide s m →
    ∃ t, exec i s = .next t ∧ t.cur.done = true ∧ SameBytes s t ∧
      (w.op ≠ .bal → OtherP w.d.val s t ∧ Same butP s t ∧
        (w.d.val ≠ 0 → ∀ l < 32, (t.p w.d.val).getLsbD l =
          if s.cur.act.getLsbD l then voted w.op (s.taking m) (s.p w.p.val) else (s.p w.d.val).getLsbD l)) ∧
      (w.op = .bal → OtherX w.d.val s t ∧ Same butX s t ∧
        ∀ l < 64, (t.x w.d.val).getLsbD l = decide (l ∈ s.taking m ∧ (s.p w.p.val).getLsbD l = true))

/-- R445: PTLD. -/
def Obligations.PatternsLoad : Prop :=
  ∀ (s : State) (n : Fin 16) (x : XReg), s.Runs → s.canonical = true → (s.part s.me.part).dbgctl = [] →
    ((s.ctx s.cur.core).wg? s.me.wg).isSome = true → s.countRoom .lds → s.xn x.val % 32 = 0 →
    s.xn x.val + 32 ≤ Config.shelfBytes →
    (∀ k < 32, ((s.shelf s.cur.core).byte (s.xn x.val + k)).toNat < 32) →
    ∃ t, exec (.ptld n x) s = .next t ∧ t.cur.done = true ∧
      (∀ l < 32, t.myWg.pattern n.val l = ((s.shelf s.cur.core).byte (s.xn x.val + l)).toNat) ∧
      (∀ k l, k ≠ n.val → t.myWg.pattern k l = s.myWg.pattern k l) ∧
      Same whole (s.passed .lds).sansPatterns t.sansPatterns ∧ SameBytes s t

/-! ## Strand state and control flow -/

/-- R297 and the entries of NOP, YIELD, WAITC, WINB, SETFMT, SETFMT.F, GANGSET, SHRINK. R304, R503: a split that yields counts
as ready from one issue cycle of its quadrant later than another, and none is selected before it does. -/
def Obligations.StrandFieldsAreSet : Prop :=
  (∀ (s : State) (i : Instr) (x : StrandSpec), strandSpec i = some x → s.Runs → s.canonical = true → x.ok s →
    let now := s.cycle s.cur.core (s.cur.slot / 64)
    ∃ t, exec i s = .next t ∧ t.cur.done = true ∧ Same whole (s.modMe (x.set s)) t ∧ SameBytes s t ∧
      (s.Alone → t.StandsAt s.cur.npc s.mySplit.mask (x.fmt s) ∧ (i = .yield → t.mySplit.since = now + 2) ∧
        (i ≠ .yield → s.cur.yields s.cur.npc = false → t.mySplit.since = now + 1))) ∧
  ∀ (s : State) (core quad slot entry : Nat), s.canonical = true → s.select core quad = some (slot, entry) →
    ((s.strand core slot).split entry).since ≤ s.cycle core quad

/-- R25 to R28, R238, R369: a branch of all lanes of a split moves it; one of some lanes sends them to the target in the lowest
free entry, and the others fall through; with the next PC as target they merge again. With a full table the path with the
higher PC is pushed onto the stack (with the next PC as target, the taken lanes: the model's choice, log 46); with a full
stack the branch traps with SPLITOVF. A target that is a header traps with HDRTARGET. -/
def Obligations.BranchesMoveAndSplit : Prop :=
  (∀ (s : State) (i : Instr) (x : BranchSpec), branchSpec i = some x → s.Runs → s.canonical = true → s.Alone →
    (x.taken s → s.mySplit.mask &&& ~~~s.cur.act = 0 ∧ placeOk (x.target s)) →
    ∃ t, exec i s = .next t ∧ t.cur.done = true ∧ Same whole (s.modMe (x.set s)) t ∧ SameBytes s t ∧
      (x.taken s → t.StandsAt (x.target s) s.mySplit.mask s.fmt) ∧
      (¬x.taken s → t.StandsAt s.cur.npc s.mySplit.mask s.fmt)) ∧
  (∀ (s : State) (i : Instr) (x : BranchSpec), branchSpec i = some x → s.Runs → s.canonical = true → s.Alone →
    x.taken s → s.mySplit.mask &&& ~~~s.cur.act ≠ 0 → placeOk (x.target s) → x.target s ≠ s.cur.npc →
    ∃ t, exec i s = .next t ∧ t.cur.done = true ∧ Same butKeep (s.modMe (x.set s)) t ∧ SameBytes s t ∧
      t.StandsAt s.cur.npc (s.mySplit.mask &&& ~~~s.cur.act) s.fmt ∧
      ∃ e < 4, (s.me.split e).valid = false ∧ (∀ f < e, (s.me.split f).valid = true) ∧ (t.me.split e).valid = true ∧
        (t.me.split e).wait = 0 ∧ (t.me.split e).pc = x.target s ∧ (t.me.split e).mask = s.cur.act ∧
        (t.me.split e).fmt = s.fmt) ∧
  (∀ (s : State) (i : Instr) (x : BranchSpec), branchSpec i = some x → s.Runs → s.canonical = true → s.Alone →
    x.taken s → s.mySplit.mask &&& ~~~s.cur.act ≠ 0 → placeOk (x.target s) → x.target s = s.cur.npc →
    ∃ t e, exec i s = .next t ∧ t.cur.done = true ∧ Same butKeep (s.modMe (x.set s)) t ∧ SameBytes s t ∧
      t.me.validEntries = [e] ∧ (t.me.split e).wait = 0 ∧ (t.me.split e).pc = s.cur.npc ∧
      (t.me.split e).mask = (s.mySplit.mask &&& ~~~s.cur.act) ||| s.cur.act ∧ (t.me.split e).fmt = s.fmt) ∧
  (∀ (s : State) (i : Instr) (x : BranchSpec), branchSpec i = some x → s.Runs → s.canonical = true → s.FullTable →
    x.taken s → s.mySplit.mask &&& ~~~s.cur.act ≠ 0 → placeOk (x.target s) →
    s.me.stack.length < (s.part s.me.part).depth →
    (∀ e < 4, e ≠ s.cur.entry → (s.me.split e).pc ≠ x.target s ∧ (s.me.split e).pc ≠ s.cur.npc) →
    let fall := (s.cur.npc, s.mySplit.mask &&& ~~~s.cur.act)
    let away := (x.target s, s.cur.act)
    let low := if s.cur.npc ≤ x.target s then fall else away
    let high := if s.cur.npc ≤ x.target s then away else fall
    ∃ t, exec i s = .next t ∧ t.cur.done = true ∧ Same butKeep (s.modMe (x.set s)) t ∧ SameBytes s t ∧
      t.StandsAt low.1 low.2 s.fmt ∧ t.me.stack = { pc := high.1, mask := high.2, fmt := s.fmt } :: s.me.stack ∧
      ∀ e < 4, e ≠ s.cur.entry → t.me.split e = s.me.split e) ∧
  ∀ (s : State) (i : Instr) (x : BranchSpec), branchSpec i = some x → s.MayTrap → s.cur.act ≠ 0 → x.taken s →
    (¬placeOk (x.target s) → ∃ t, exec i s = .next t ∧ Entered s t 0x02 0 s.cur.act.toNat s.cur.pc) ∧
    (placeOk (x.target s) → s.mySplit.mask &&& ~~~s.cur.act ≠ 0 → s.FullTable →
      (s.part s.me.part).depth ≤ s.me.stack.length →
      ∃ t, exec i s = .next t ∧ Entered s t 0x12 0 (s.part s.me.part).depth s.cur.pc)

/-- R30, R468: a split that issues SYNCS goes on past it when every other split waits at a SYNCS, at a higher PC; else it
waits, and of splits that then all wait the one at the lowest PC becomes ready at its SYNCS, to issue it again: that it does
so, and is not moved past it at once, is the model's reading (log 26). -/
def Obligations.SyncsWaits : Prop :=
  ∀ s : State, s.Runs → s.canonical = true → s.cur.entry < 4 → s.mySplit.valid = true → s.me.stack = [] →
    s.me.twins = none →
    ∃ t, exec .syncs s = .next t ∧ Same whole s t ∧ SameBytes s t ∧
      ((∀ e < 4, e ≠ s.cur.entry → (s.me.split e).valid = true → (s.me.split e).wait = 1 ∧
          s.mySplit.pc < (s.me.split e).pc ∧ (s.me.split e).pc ≠ nextPc s.mySplit.pc false) →
        t.StandsAt (nextPc s.mySplit.pc false) s.mySplit.mask s.fmt ∧ t.cur.done = true) ∧
      ((∃ e < 4, e ≠ s.cur.entry ∧ (s.me.split e).valid = true ∧ (s.me.split e).wait ≠ 1) →
        t.mySplit.wait = 1 ∧ t.mySplit.pc = s.mySplit.pc) ∧
      ∀ low < 4, (s.me.split low).valid = true → (s.me.split low).pc < s.mySplit.pc →
        (∀ e < 4, e ≠ s.cur.entry → (s.me.split e).valid = true → (s.me.split e).wait = 1 ∧
          (s.me.split low).pc ≤ (s.me.split e).pc) →
        t.mySplit.wait = 1 ∧ t.mySplit.pc = s.mySplit.pc ∧ (t.me.split low).wait = 0 ∧
          (t.me.split low).pc = (s.me.split low).pc

/-- R29, R50, R391, R392: EXIT ends the active lanes; in supervisor mode it ends the strand. When the last lanes of a strand
leave, members that wait in a latch that lists it have GANGEXIT to take. -/
def Obligations.ExitEndsLanes : Prop :=
  ∀ s : State, s.Runs → s.canonical = true →
    (s.me.sup = true → ∃ t, exec .exit s = .next t ∧ t.strand? s.cur.core s.cur.slot = none) ∧
    (s.me.sup = false → s.me.live &&& ~~~s.cur.act ≠ 0 →
      ∃ t, exec .exit s = .next t ∧ t.cur.done = true ∧ t.me.live = s.me.live &&& ~~~s.cur.act ∧
        Same butLive s t ∧ SameBytes s t ∧
        (s.Alone → s.mySplit.mask &&& ~~~s.cur.act ≠ 0 →
          t.StandsAt s.cur.npc (s.mySplit.mask &&& ~~~s.cur.act) s.fmt)) ∧
    (s.me.sup = false → s.me.live &&& ~~~s.cur.act = 0 → s.me.guards = [] →
      ∃ t, exec .exit s = .next t ∧ t.strand? s.cur.core s.cur.slot = none ∧ SameBytes s t ∧
        (∀ k, k ≠ s.cur.slot → (t.strand? s.cur.core k).isSome = (s.strand? s.cur.core k).isSome) ∧
        ∀ l ∈ (s.ctx s.cur.core).latches, l.wg = s.me.wg → l.mismatch = none → s.me.index ∈ gangList l.gang →
          ∀ c ∈ l.waiting, c.slot ≠ s.cur.slot → (s.strand? s.cur.core c.slot).isSome = true →
          ∃ u, t.strand? s.cur.core c.slot = some u ∧ u.due = some (.gangExit s.me.index) ∧ (u.split c.entry).wait = 0)

/-! ## Traps -/

/-- R371, R488: TRAP and BRK trap when a lane is active, from user mode under R242, from supervisor mode under R246 (to SVEC;
inside a nested trap the strand ends); with no active lane they do nothing. -/
def Obligations.TrapsAreTaken : Prop :=
  EncodedBy trapWord ∧
  (∀ (s : State) (i : Instr), (trapWord i).isSome = true → (s.strand? s.cur.core s.cur.slot).isSome = true →
      s.cur.act = 0 → s.me.sup = true ∨ s.me.dbgstep = false →
      ∃ t, exec i s = .next t ∧ t.cur.done = true ∧ Same whole s t ∧ SameBytes s t) ∧
  (∀ (s : State) (i : Instr) (code kind d0 : Nat) (npc : PC), trapSpec s i = some (code, kind, d0, npc) →
      s.MayTrap → s.cur.act ≠ 0 → ∃ t, exec i s = .next t ∧ Entered s t code kind d0 npc) ∧
  (∀ (s : State) (i : Instr) (code kind d0 : Nat) (npc : PC), trapSpec s i = some (code, kind, d0, npc) →
      s.Runs → s.canonical = true → s.me.sup = true →
      (s.me.stcode ≠ 0 → ∃ t, exec i s = .next t ∧ t.strand? s.cur.core s.cur.slot = none) ∧
      (s.Alone → s.me.stcode = 0 →
      s.trapReady s.cur.core s.me.part (s.part s.me.part).svec = true →
      (s.part s.me.part).trctl.getLsbD 0 = false → (s.ctx s.cur.core).latches = [] →
      ∃ t, exec i s = .next t ∧ t.me.stcode = BitVec.ofNat 16 code ∧ t.me.stpc = s.cur.pc ∧
        t.me.stdetail = BitVec.ofNat 64 d0 ∧ t.StandsAt ((s.part s.me.part).svec.setWidth 48) s.mySplit.mask s.fmt ∧
        Same butSt s t ∧ SameBytes s t))

/-- R6, R240: a privileged instruction in user mode traps with PRIV. -/
def Obligations.PrivilegedInstructionsTrap : Prop :=
  ∀ (s : State) (i : Instr), s.MayTrap →
    i ∈ [.tret] ∨ (∃ d n, i = .csrr d n) ∨ (∃ a n, i = .csrw a n) ∨ (∃ x, i = .dtload x) ∨ (∃ x, i = .tlbinv x) ∨
      (∃ d x, i = .evpop d x) ∨ (∃ a b, i = .ctxst a b) ∨ (∃ a b, i = .ctxld a b) ∨ (∃ x, i = .egmode x) ∨
      (∃ x, i = .taskretry x) ∨ (∃ x, i = .taskabort x) →
    ∃ t, exec i s = .next t ∧ Entered s t 0x06 0 0 s.cur.pc

/-- R245: TRET. -/
def Obligations.TretRestores : Prop :=
  ∀ s : State, s.Runs → s.canonical = true → s.me.sup = true → s.me.openReqs = [] → s.tretOk s.area = true →
    ∃ t, exec .tret s = .next t ∧ t.cur.done = true ∧ t.me.sup = false ∧ t.me.live = s.me.live ∧
      (∀ k < 64, t.xn k = s.areaField (0x200 + 8 * k) 8) ∧
      (∀ k < 8, k ≠ 0 → (t.p k).toNat = s.areaField (0x180 + 4 * k) 4) ∧
      t.me.flg = BitVec.ofNat 16 (s.areaField 0x12 2 % 64) ∧ t.me.wb = s.areaField 0x0A 2 ∧
      (∀ g < 8, (t.me.guard g).code = s.areaField 0x26 2 / 4 ^ g % 4) ∧
      (∀ p l, t.me.vphys p l = s.me.vphys p l) ∧
      (s.areaField 0x0D 1 = 0 →
        (∀ e f, e < 4 → f < 4 → e ≠ f → s.areaField (0x46 + 16 * e) 1 / 128 = 1 → s.areaField (0x46 + 16 * f) 1 / 128 = 1 →
          s.areaField (0x40 + 16 * e) 6 ≠ s.areaField (0x40 + 16 * f) 6) →
        t.me.stack = [] ∧ ∀ e < 4,
          (t.me.split e).valid = decide (s.areaField (0x46 + 16 * e) 1 / 128 = 1) ∧
          ((t.me.split e).valid = true → (t.me.split e).wait = 0 ∧ (t.me.split e).pc.toNat = s.areaField (0x40 + 16 * e) 6 ∧
            (t.me.split e).mask.toNat = s.areaField (0x48 + 16 * e) 4 ∧
            (t.me.split e).fmt.toNat = s.areaField (0x4C + 16 * e) 4))

/-! ## Barriers -/

/-- R363: BARINIT and BAREXP; BARWAIT and BARTEST on a shelf object. R362: BARWAIT and BARTEST on a group barrier, whose scope
is wider than CORE when it spans cores. -/
def Obligations.BarriersAreSetAndTested : Prop :=
  (∀ (s : State) (a b : XReg) (off : Nat), BarReady s → s.objectAt a false s.cur.core off →
      let v := s.xn b.val
      let o := s.barrier s.cur.core off
      (v < 2 ^ 19 → ∃ t, exec (.barinit a b) s = .next t ∧ t.cur.done = true ∧
        ObjectBecomes s t s.cur.core off
          { pend := 0, cnt := v % 2 ^ 16, exp := v % 2 ^ 16, drop := 0, phase := v.testBit 18, err := false
            scope := v / 2 ^ 16 % 4 } ∧
        Same whole (s.sansShelf s.cur.core) (t.sansShelf s.cur.core)) ∧
      (o.pend + v < 2 ^ 32 → ∃ t, exec (.barexp a b) s = .next t ∧ t.cur.done = true ∧
        ObjectBecomes s t s.cur.core off { o with pend := o.pend + v } ∧
        Same whole (s.sansShelf s.cur.core) (t.sansShelf s.cur.core))) ∧
  (∀ (s : State) (x b : XReg) (p : PReg) (off : Nat), BarReady s → s.objectAt x false s.cur.core off →
      let o := s.barrier s.cur.core off
      PhaseTested s (.object x) b p (o.phase != (s.x b.val).getLsbD 0) (wideCode o.scope) (.barrier off o.phase)) ∧
  ∀ (s : State) (n : Fin 4) (b : XReg) (p : PReg) (e home : Nat) (g : GroupBarrier), BarReady s →
    s.me.gslots.at? n.val = some e → s.groupBarrier? s.cur.core s.me e = some (home, g) →
    (∀ h ∈ (s.ctx home).gbars, h.key = g.key → h = g) →
    PhaseTested s (.group n) b p (g.phase != (s.x b.val).getLsbD 0) g.spans (.groupBarrier home g.key g.phase)

/-- R363: BARARR and BARDROP release at the object's scope, then arrive or drop; R362: on a group barrier. -/
def Obligations.BarriersAreSignalled : Prop :=
  (∀ (s : State) (i : Instr) (x : XReg) (drop : Bool) (core off : Nat), signalSpec i = some (.object x, drop) →
    BarReady s → s.objectAt x true core off → (s.barrier core off).cnt ≠ 0 →
    (s.barrier core off).drop < 0xFFFF →
    ((s.barrier core off).scope = 3 → s.me.openReqs = []) →
    ∃ t, exec i s = .next t ∧ t.cur.done = true ∧
      ObjectBecomes s t core off (signalled (s.barrier core off) drop) ∧
      Same whole (s.sansShelf core).uncached (t.sansShelf core).uncached ∧ SameSeen s t ∧
      ((s.barrier core off).scope ≠ 0 → ∀ a, t.harbour.byte a = s.seen s.cur.core true a)) ∧
  ∀ (s : State) (i : Instr) (n : Fin 4) (drop : Bool) (e home : Nat) (g : GroupBarrier),
    signalSpec i = some (.group n, drop) → BarReady s → s.me.gslots.at? n.val = some e →
    s.groupBarrier? s.cur.core s.me e = some (home, g) → g.cnt ≠ 0 →
    (∀ h ∈ (s.ctx home).gbars, h.key = g.key → h = g) →
    ∃ t, exec i s = .next t ∧ t.cur.done = true ∧
      (∃ g', t.gbar? home g.key = some g' ∧ g'.obj = signalled g.obj drop ∧ g'.key = g.key ∧ g'.run = g.run) ∧
      SameSeen s t ∧ (g.spans = true → ∀ a, t.harbour.byte a = s.seen s.cur.core true a) ∧
      (∀ h, h ∈ (t.ctx home).gbars → h.key ≠ g.key → h ∈ (s.ctx home).gbars) ∧
      Same whole (s.modCtx home fun x => { x with gbars := [] }).uncached
        (t.modCtx home fun x => { x with gbars := [] }).uncached

/-! ## Guards and special registers -/

/-- R410: GRES sets its guard slot and no other. R53: a command held on the slot is discarded by FALSE, and starts by TRUE; so
does a held matrix operation. R55, R147: of one that runs into a shadow, TRUE makes the shadow the target, FALSE frees it and
ends the run. -/
def Obligations.GuardsAreSet : Prop :=
  ∀ (s : State) (i : Instr) (g : GReg) (v : Guard), gresSpec s i = some (g, v) → s.Runs → s.canonical = true →
    let sets := fun t : State => exec i s = .next t ∧ t.cur.done = true ∧ t.me.guard g.val = v ∧
      ∀ k, k ≠ g.val → t.me.guard k = s.me.guard k
    let idle := (s.ctx s.cur.core).queue = []
    let bare := ∀ c ∈ s.cmds, c.uid ≠ s.me.uid
    (idle → bare → ∃ t, sets t ∧ Same butGuards s t ∧ SameBytes s t) ∧
    (idle → ∀ c, HeldAlone s c g →
      (v = .unresolved → ∃ t, sets t ∧ Same butGuards s t ∧ SameBytes s t) ∧
      (v = .isFalse → Oldest s.me.flights c.flight → ∃ t, sets t ∧ t.cmds = s.cmds.filter (·.id ≠ c.id) ∧
        t.me.flights = s.me.flights.tail ∧
        Same (fun m => { butGuards m with flights := [] }) { s with cmds := [] } { t with cmds := [] } ∧ SameBytes s t) ∧
      (v = .isTrue → c.kind ≠ .coll →
        (c.kind.fetch = true → s.tickets (dieOf c.core) = [] ∧
          s.fits (dieOf c.core) c.run c.uid c.bytes c.limit c.scap c.high = true) →
        (∀ o, c.bar = some o → c.kind.fetch = true ∨ c.kind.module = true → (s.barrier c.core o).pend + c.bytes < 2 ^ 32) →
        ∃ t, sets t ∧ t.cmds = s.cmds.map (fun d => if d.id = c.id then c.begun s else d) ∧
          Same butGuards s.sansCmds t.sansCmds ∧ (c.kind = .copy ∨ c.kind = .puts → SameBytes s t) ∧
          ∀ o, c.bar = some o → c.kind.fetch = true ∨ c.kind.module = true →
            ObjectBecomes s t c.core o { s.barrier c.core o with pend := (s.barrier c.core o).pend + c.bytes }) ∧
      (v = .isTrue → c.kind = .coll → ∃ t d, sets t ∧ d ∈ t.cmds ∧ d.id = c.id ∧ d.phase = .active ∧
        ∃ o ∈ t.colls, o.cmd = c.id)) ∧
    (bare → ∀ o m, GuardedAlone s o m g →
      let frame := fun t : State => Same butGuarded s.sansShadows t.sansShadows ∧ SameBytes s t
      let keeps := fun t : State => ∀ b < 16, ∀ r < 32, ∀ j < 32, t.me.acc b r j = s.me.acc b r j
      (o.held = true → m.shadow = none → v = .isTrue → ∃ t, sets t ∧ frame t ∧ keeps t ∧
        (t.ctx s.cur.core).queue = [{ o with held := false }]) ∧
      (o.held = true → m.shadow = none → v = .isFalse → ∃ t, sets t ∧ frame t ∧ keeps t ∧
        (t.ctx s.cur.core).queue = [] ∧ t.me.flights = s.me.flights.tail) ∧
      ∀ n, o.held = false → m.shadow = some n → n ∈ (s.ctx s.cur.core).shadowsUsed → m.acc < 16 →
        (v = .isTrue → ∃ t, sets t ∧ frame t ∧ n ∉ (t.ctx s.cur.core).shadowsUsed ∧
          (t.ctx s.cur.core).queue = [{ o with members := [{ m with shadow := none }] }] ∧
          (∀ r < 32, ∀ j < 32, t.me.acc m.acc r j =
            (Store.read 0 (s.ctx s.cur.core).shadows (1024 * n + 32 * r + j)).toNat) ∧
          ∀ b, b ≠ m.acc → ∀ r < 32, ∀ j < 32, t.me.acc b r j = s.me.acc b r j) ∧
        (v = .isFalse → ∃ t, sets t ∧ frame t ∧ keeps t ∧ n ∉ (t.ctx s.cur.core).shadowsUsed ∧
          (t.ctx s.cur.core).queue = [{ o with members := [{ m with shadow := none, gone := true }], finished := true }]))

/-- R378: CSRW leaves what the register's write rule gives; a register that takes bits reads back as them. -/
def Obligations.CsrWritesReadBack : Prop :=
  ∀ (s : State) (a : XReg) (n : Fin 16384) (u : State), s.Runs → s.canonical = true → s.me.sup = true →
    s.me.openReqs = [] → s.setCsr? n.val (s.x a.val) = some u →
    ∃ t, exec (.csrw a n) s = .next t ∧ t.cur.done = true ∧ Same whole u t ∧ (n.val ≠ 0x281 → SameBytes s t) ∧
      ∀ m, csrBits (s.part s.me.part).debugLevel n.val = some m → t.csr? n.val = some (s.x a.val &&& m)


/-! ## Tiles -/

/-- R484: TLD and TLD.ZB; the tile's binding stays. R485, R127: TLD.SC loads a whole tile in the format of FMT.BFMT, and
its scales into a fresh entry that the scale register and the tile both name. -/
def Obligations.TilesLoad : Prop :=
  (∀ (s : State) (i : Instr) (n : TReg) (a b : XReg) (zb : Bool) (f : Fmt), tldSpec i = some (n, a, b, zb) →
    TileReady s n → s.tileFree n → s.countRoom .lds →
    Fmt.ofCode (s.xn b.val / 2 ^ 40 % 16) = some f → badShape (s.xn b.val) = false →
    s.xn a.val % 16 = 0 → s.xn a.val + packedBytes f ≤ Config.shelfBytes →
    ∃ t, exec i s = .next t ∧ t.cur.done = true ∧
      Filled (s.tile n.val) (t.tile n.val) f (BitVec.ofNat 32 (s.xn b.val)) (lowCols (s.xn b.val / 2 ^ 32 % 128)) zb
        (packed f (s.shelf s.cur.core).byte (s.xn a.val)) ∧
      (t.tile n.val).binding = (s.tile n.val).binding ∧ OtherTiles n s t ∧
      Same whole (s.passed .lds).sansTiles t.sansTiles ∧ SameBytes s t) ∧
  ∀ (s : State) (i : Instr) (n : TReg) (m : SReg) (a b : XReg) (zb : Bool) (f : Fmt),
    tldScSpec i = some (n, m, a, b, zb) → TileReady s n → s.tileFree n → PoolReady s → s.countRoom .lds →
    Fmt.ofCode (fmtB s.fmt) = some f → f ≠ .fp32 →
    s.xn a.val % 16 = 0 → s.xn a.val + packedBytes f ≤ Config.shelfBytes →
    s.xn b.val % 16 = 0 → s.xn b.val + 128 ≤ Config.shelfBytes →
    ∃ t, exec i s = .next t ∧ t.cur.done = true ∧
      Filled (s.tile n.val) (t.tile n.val) f 0xFFFFFFFF#32 (lowCols (tileCols f)) zb
        (packed f (s.shelf s.cur.core).byte (s.xn a.val)) ∧
      Allocated s t m (fun k => loadOf (s.shelf s.cur.core).byte (s.xn b.val + 2 * k) 2) ∧
      (t.tile n.val).bound = true ∧ t.me.sregs.at? m.val = some (t.tile n.val).tag ∧ OtherTiles n s t ∧
      Same butS (s.passed .lds).sansTiles.sansScales t.sansTiles.sansScales ∧ SameBytes s t

/-- R490: TSTR writes the image that TLD reads. R491: TZERO. -/
def Obligations.TilesStoreAndClear : Prop :=
  (∀ (s : State) (x : XReg) (n : TReg), TileReady s n → s.countRoom .sts → s.xn x.val % 16 = 0 →
    s.xn x.val + packedBytes (s.tile n.val).efmt ≤ Config.shelfBytes →
    let u := s.tile n.val
    ∃ t, exec (.tstr x n) s = .next t ∧ t.cur.done = true ∧
      (∀ r < 32, ∀ c < tileCols u.efmt, packed u.efmt (t.shelf s.cur.core).byte (s.xn x.val) r c =
        if u.rowv.getLsbD r && u.colv.getLsbD c then
          (if u.efmt = .l6 then u.elem false r c % 64 else u.elem u.efmt.wide r c) else 0) ∧
      (∀ c a, ¬(c = s.cur.core ∧ s.xn x.val ≤ a ∧ a < s.xn x.val + packedBytes u.efmt) →
        (t.shelf c).byte a = (s.shelf c).byte a) ∧
      Same whole ((s.passed .sts).sansShelf s.cur.core) (t.sansShelf s.cur.core)) ∧
  ∀ (s : State) (n : TReg), TileReady s n → s.tileFree n →
    let u := s.tile n.val
    ∃ t, exec (.tzero n) s = .next t ∧ t.cur.done = true ∧
      Filled u (t.tile n.val) u.efmt 0xFFFFFFFF#32 (lowCols (tileCols u.efmt)) false (fun _ _ => 0) ∧
      (t.tile n.val).binding = u.binding ∧ OtherTiles n s t ∧ Same whole s.sansTiles t.sansTiles ∧ SameBytes s t

/-- R474: TCVT and TCVT.ZB. R107, R150, R487: TQNT quantises an accumulator pair, block by block, into a tile with fresh scales. -/
def Obligations.TilesConvertAndQuantise : Prop :=
  (∀ (s : State) (i : Instr) (n m : TReg) (f : Fmt) (zb : Bool), tcvtSpec i = some (n, m, f, zb) → f ≠ .fp32 →
      TileReady s n → m.val < s.myWg.ntiles → s.tileFree n →
      let u := s.tile m.val
      ∃ t, exec i s = .next t ∧ t.cur.done = true ∧
        Filled (s.tile n.val) (t.tile n.val) f u.rowv (u.colv &&& lowCols (min (tileCols u.efmt) (tileCols f))) zb
          (fun r c => (s.converted m f r c).1) ∧
        (t.tile n.val).binding = (s.tile n.val).binding ∧ OtherTiles n s t ∧
        (∀ k < 16, t.me.flg.getLsbD k = true ↔ s.me.flg.getLsbD k = true ∨
          k < 6 ∧ ∃ r < 32, ∃ c < 64, (s.converted m f r c).2.getLsbD k = true) ∧
        Same (fun q => { q with flg := 0 }) s.sansTiles t.sansTiles ∧ SameBytes s t) ∧
  (∀ (s : State) (i : Instr) (f : Fmt) (zb : Bool) (n : TReg) (k : PReg) (d : SReg) (x : XReg),
      tqntSpec i = some (f, zb, n, k, d, x) → TileReady s n → s.tileFree n → PoolReady s → s.me.converged = true →
      2 * k.val + 1 < s.me.naccs → s.xn x.val / 2 ^ 32 % 128 ≤ 64 →
      (s.ctx s.cur.core).lockedA s.me.uid (2 * k.val) = false → (s.ctx s.cur.core).lockedA s.me.uid (2 * k.val + 1) = false →
      let q := s.block f k (s.xn x.val)
      ∃ t, exec i s = .next t ∧ t.cur.done = true ∧
        Filled (s.tile n.val) (t.tile n.val) f (BitVec.ofNat 32 (s.xn x.val)) (lowCols (s.xn x.val / 2 ^ 32 % 128)) zb
          (fun r c => (q (2 * r + c / 32)).2.1.getD (c % 32) 0) ∧
        Allocated s t d (fun b => (q b).1) ∧
        (t.tile n.val).bound = true ∧ t.me.sregs.at? d.val = some (t.tile n.val).tag ∧ OtherTiles n s t ∧
        FlagsOf64 s t (fun b => (q b).2.2) ∧
        Same butSF s.sansTiles.sansScales t.sansTiles.sansScales ∧ SameBytes s t)

/-! ## Scales -/

/-- R116, R118, R126: SLD, SMOV, SMUL, SMAX, SCVT to a scale register. R126, R457: SCVT to a vector register pair widens each
scale to FP32; SST stores them. That SCVT to vector registers writes active lanes alone, joins their flags alone, and makes a
NaN the canonical one with IV, is the model's choice (log 32). -/
def Obligations.ScalesAreWrittenAndRead : Prop :=
  (∀ (s : State) (i : Instr) (x : ScaleSpec), scaleSpec i = some x → s.Runs → s.canonical = true →
      (s.part s.me.part).dbgctl = [] → PoolReady s → x.ok s → (∀ r ∈ x.vregs, s.Holds r.1.val r.2) →
      (∀ r ∈ x.sregs, s.scalesLive r) → (∀ c ∈ x.cls, s.countRoom c) →
      let u := match x.cls with | some c => s.passed c | none => s
      ∃ t, exec i s = .next t ∧ t.cur.done = true ∧ Allocated s t x.dest (fun k => (x.val s k).1) ∧
        FlagsOf64 s t (fun k => (x.val s k).2) ∧ Same butSF u.sansScales t.sansScales ∧ SameBytes s t) ∧
  ((∀ (s : State) (d : VReg) (a : SReg), s.Runs → s.canonical = true → s.Holds d.val 2 → s.Free d.val 2 → s.scalesLive a →
      let w := fun k => convert .rne false .fp32 .bf16 (s.scaleAt a k)
      ∃ t, exec (.scvtToV d a) s = .next t ∧ t.cur.done = true ∧
        (∀ l < 32, s.cur.act.getLsbD l = true →
          t.v d.val l = wordOf (w l).1 ∧ t.v (d.val + 1) l = wordOf (w (32 + l)).1) ∧
        FlagsJoined s t (fun l => (w l).2 ||| (w (32 + l)).2) ∧ OtherV d.val 2 s t ∧ Same butVF s t ∧ SameBytes s t) ∧
    ∀ (s : State) (a : SReg) (x : XReg) (k : Fin 128), s.Runs → s.canonical = true → (s.part s.me.part).dbgctl = [] →
      s.countRoom .sts → s.scalesLive a → (s.xn x.val + 16 * k.val) % 16 = 0 →
      s.xn x.val + 16 * k.val + 128 ≤ Config.shelfBytes →
      let o := s.xn x.val + 16 * k.val
      ∃ t, exec (.sst a x k) s = .next t ∧ t.cur.done = true ∧
        (∀ n < 64, loadOf (t.shelf s.cur.core).byte (o + 2 * n) 2 = s.scaleAt a n) ∧
        (∀ c b, ¬(c = s.cur.core ∧ o ≤ b ∧ b < o + 128) → (t.shelf c).byte b = (s.shelf c).byte b) ∧
        Same whole ((s.passed .sts).sansShelf s.cur.core) (t.sansShelf s.cur.core))

/-- R119, R121: SBIND binds, SBIND.U unbinds, SREL frees the entry and leaves the register unbound. -/
def Obligations.ScalesBindAndRelease : Prop :=
  ∀ s : State,
    (∀ (i : Instr) (n : TReg) (m : Option SReg) (tag : BitVec 16), bindSpec s i = some (n, m, tag) → TileReady s n →
      s.tileFree n → (∀ a ∈ m, s.scalesLive a) →
      ∃ t, exec i s = .next t ∧ t.cur.done = true ∧
        t.tile n.val = { s.tile n.val with
          bound := true, tag, geom := if (s.tile n.val).efmt.wide then 0x00202002#32 else 0x00204001#32 } ∧
        ((s.tile n.val).bound = false → (s.ctx s.cur.core).current tag = true →
          ((t.ctx s.cur.core).entry (tagEntry tag)).refs = ((s.ctx s.cur.core).entry (tagEntry tag)).refs + 1) ∧
        OtherTiles n s t ∧ Same whole s.sansTiles.sansScales t.sansTiles.sansScales ∧ SameBytes s t) ∧
    (∀ n : TReg, TileReady s n → s.tileFree n →
      ∃ t, exec (.sbindU n) s = .next t ∧ t.cur.done = true ∧
        t.tile n.val = { s.tile n.val with bound := false, tag := 0, geom := 0 } ∧
        OtherTiles n s t ∧ Same whole s.sansTiles.sansScales t.sansTiles.sansScales ∧ SameBytes s t) ∧
    ∀ m : SReg, s.Runs → s.canonical = true →
      ∃ t, exec (.srel m) s = .next t ∧ t.cur.done = true ∧ t.me.sregs.at? m.val = none ∧
        (∀ tag, s.me.sregs.at? m.val = some tag → (t.ctx s.cur.core).current tag = false) ∧
        (∀ k, k ≠ m.val → t.me.sregs.at? k = s.me.sregs.at? k) ∧
        Same butS s.sansScales t.sansScales ∧ SameBytes s t

/-! ## The matrix engine -/

/-- R354: ACCZ, ACCWR, ACCLD. R149, R354: ACCRD converts the rows of the active lanes to FMT.OFMT and packs them; ACCST stores FP32 words. -/
def Obligations.AccumulatorsMove : Prop :=
  (∀ (s : State) (i : Instr) (d : AReg) (ok : State → Prop) (val : State → Nat → Nat → Nat),
      accSpec i = some (d, ok, val) → AccReady s d → ok s →
      let u := match i with | .accld _ _ _ => s.passed .lds | _ => s
      ∃ t, exec i s = .next t ∧ t.cur.done = true ∧ (∀ r < 32, ∀ j < 32, t.me.acc d.val r j = val s r j) ∧
        OtherA d s t ∧ Same butA u t ∧ SameBytes s t) ∧
  ((∀ (s : State) (d : VReg) (a : AReg), AccReady s a → s.Holds d.val s.outRegs → s.Free d.val s.outRegs →
      ∃ t, exec (.accrd d a) s = .next t ∧ t.cur.done = true ∧
        (∀ l < 32, s.cur.act.getLsbD l = true → ∀ j < 32,
          let w := outBits s.outFmt
          (t.v (d.val + j / (32 / w)) l).toNat / 2 ^ (w * (j % (32 / w))) % 2 ^ w = (s.outElem a l j).1 % 2 ^ w) ∧
        (∀ k < 16, t.me.flg.getLsbD k = true ↔ s.me.flg.getLsbD k = true ∨
          k < 6 ∧ ∃ l < 32, s.cur.act.getLsbD l = true ∧ ∃ j < 32, (s.outElem a l j).2.getLsbD k = true) ∧
        OtherV d.val s.outRegs s t ∧ Same butVF s t ∧ SameBytes s t) ∧
    ∀ (s : State) (d : AReg) (x : XReg) (k : Fin 128), AccReady s d → s.countRoom .sts →
      (s.xn x.val + 128 * k.val) % 128 = 0 → s.xn x.val + 128 * k.val + 4096 ≤ Config.shelfBytes →
      let o := s.xn x.val + 128 * k.val
      ∃ t, exec (.accst d x k) s = .next t ∧ t.cur.done = true ∧
        (∀ r < 32, ∀ j < 32, loadOf (t.shelf s.cur.core).byte (o + 4 * (32 * r + j)) 4 = s.me.acc d.val r j) ∧
        (∀ c b, ¬(c = s.cur.core ∧ o ≤ b ∧ b < o + 4096) → (t.shelf c).byte b = (s.shelf c).byte b) ∧
        Same whole ((s.passed .sts).sansShelf s.cur.core) (t.sansShelf s.cur.core))

/-- R71, R136, R137: an MMA of one strand joins the engine's queue with its operands as they stand. R53, R55, R141, R142,
R436: an MMX, under a guard that is TRUE, or none, joins the queue; under one that is FALSE it is discarded; under an
unresolved one it is held, or, speculative, runs into a free shadow that starts as its target; with none free it is held.
R48 to R50, R147: a joint operation waits in the latch until the last listed member enters, then issues for all of them;
MMX.SPEC waits there for shadows; a different operation makes all of them take GANGMISMATCH, an ended member GANGEXIT. -/
def Obligations.MatrixOperationsAreQueued : Prop :=
  (∀ (s : State) (k : Bool) (d : AReg) (a : VReg) (n : TReg), MatReady s d → gangList s.me.gang = [] →
    MatChecks s (.mma k d a n) → s.staleA s.cur = none → s.staleB s.fmt n.val = none →
    ∃ t, exec (.mma k d a n) s = .next t ∧ t.cur.done = true ∧
      (∃ o m, (t.ctx s.cur.core).queue = (s.ctx s.cur.core).queue ++ [o] ∧ o.members = [m] ∧
        o.mmx = false ∧ o.nstep = 1 ∧ o.step = 0 ∧ o.held = false ∧ o.finished = false ∧ o.stopped = false ∧
        o.btile = some (n.val, s.tile n.val) ∧ m.uid = s.me.uid ∧ m.slot = s.cur.slot ∧ m.acc = d.val ∧
        m.mask = s.cur.act ∧ m.fmt = s.fmt ∧ m.abase = s.me.wb + a.val ∧ m.guard = none ∧
        ∀ r < 16, ∀ l < 32, Store.read 0 m.a (32 * r + l) = s.v (a.val + r) l) ∧
      t.me.counter .mat = s.me.counter .mat + 1 ∧
      t.me.keep = (if k then some (s.me.wb + a.val, fmtA s.fmt) else none) ∧
      Same butFlight s.sansQueue t.sansQueue ∧ SameBytes s t) ∧
  (∀ (s : State) (i : Instr) (d : AReg) (a b : XReg) (g : Option GReg) (spec : Bool), mmxSpec i = some (d, a, b, g, spec) →
    MatReady s d → gangList s.me.gang = [] → MmxChecks s a b →
    let v := s.guardNow g
    ∃ t, exec i s = .next t ∧ t.cur.done = true ∧ Same butFlight s.sansQueue t.sansQueue ∧ SameBytes s t ∧
      (v = .isFalse → (t.ctx s.cur.core).queue = (s.ctx s.cur.core).queue) ∧
      (v ≠ .isFalse → t.me.counter .mat = s.me.counter .mat + 1 ∧
        ∃ o m, (t.ctx s.cur.core).queue = (s.ctx s.cur.core).queue ++ [o] ∧ o.members = [m] ∧ o.mmx = true ∧
          o.spec = spec ∧ o.step = 0 ∧ o.finished = false ∧
          m.stream = some (s.streamAt s.cur.core s.me a.val) ∧ o.bstream = some (s.streamAt s.cur.core s.me b.val) ∧
          o.nstep = (s.streamAt s.cur.core s.me b.val).nstep ∧ m.acc = d.val ∧ m.guard = g.map (·.val) ∧
          (v = .isTrue → o.held = false ∧ m.shadow = none) ∧
          (v = .unresolved → spec = false → o.held = true ∧ m.shadow = none) ∧
          (v = .unresolved → spec = true → (s.ctx s.cur.core).shadowsFree = [] → o.held = true ∧ m.shadow = none) ∧
          ∀ n, v = .unresolved → spec = true → (s.ctx s.cur.core).shadowsFree.head? = some n →
            o.held = false ∧ m.shadow = some n ∧
            ∀ r < 32, ∀ j < 32, (Store.read 0 (t.ctx s.cur.core).shadows (1024 * n + 32 * r + j)).toNat = s.me.acc d.val r j)) ∧
  (∀ (s : State) (i : Instr) (d : AReg) (p : MatPlan), matSpec i = some (d, p) → MatReady s d → MatChecks s i → Joint s →
    let ls := (s.ctx s.cur.core).latches
    let guardOf := fun c : Cur => match p.guard with | some g => (s.strand c.core c.slot).guard g | none => .isTrue
    ((∀ l ∈ ls, ¬s.meets l) → ∃ t l, exec i s = .next t ∧ WaitsFor s t .latch ∧ (t.ctx s.cur.core).latches = ls ++ [l] ∧
      l.waiting = [s.cur] ∧ l.wg = s.me.wg ∧ l.mismatch = none ∧ s.sameAs p l) ∧
    (∀ l ∈ ls, s.meets l → (∀ k ∈ ls, s.meets k → k = l) → s.sameAs p l →
      ((∃ k ∈ gangList s.me.gang, ∀ c ∈ l.waiting ++ [s.cur], s.indexOf c ≠ k) → ∃ t, exec i s = .next t ∧
        WaitsFor s t .latch ∧
        (t.ctx s.cur.core).latches = ls.map fun k => if k = l then { l with waiting := l.waiting ++ [s.cur] } else k) ∧
      ∀ cs, Gathered s l cs → s.stale p cs = [] →
        let want := if p.spec then (cs.filter fun c => guardOf c == .unresolved).length else 0
        ((s.ctx s.cur.core).shadowsFree.length < want → ∃ t, exec i s = .next t ∧ WaitsFor s t .shadow) ∧
        (want ≤ (s.ctx s.cur.core).shadowsFree.length → ∃ t, exec i s = .next t ∧ t.cur.done = true ∧
          let live := cs.filter fun c => guardOf c != .isFalse
          (live = [] → (t.ctx s.cur.core).queue = (s.ctx s.cur.core).queue) ∧
          (live ≠ [] → ∃ o, (t.ctx s.cur.core).queue = (s.ctx s.cur.core).queue ++ [o] ∧ o.gang = s.me.gang ∧
            o.mmx = p.mmx ∧ o.spec = p.spec ∧ o.step = 0 ∧ o.finished = false ∧
            o.members.map (fun m => (m.slot, m.uid, m.acc)) =
              live.map fun c => (c.slot, (s.strand c.core c.slot).uid, d.val)) ∧
          (∀ c ∈ live, (t.strand s.cur.core c.slot).counter .mat = (s.strand s.cur.core c.slot).counter .mat + 1) ∧
          (∀ c ∈ l.waiting, let q := (t.strand s.cur.core c.slot).split c.entry
            q.wait = 0 ∧ q.pc = c.npc ∧ q.mask = ((s.strand s.cur.core c.slot).split c.entry).mask) ∧
          (∀ k ∈ (t.ctx s.cur.core).latches, ∀ c ∈ k.waiting, c ∉ cs) ∧ SameBytes s t)) ∧
    (∀ l ∈ ls, s.meets l → ¬s.sameAs p l → s.MayTrapBut →
      (∀ k ∈ ls, s.meets k → ∀ c ∈ k.waiting, c.core = s.cur.core ∧ s.canTrap c.slot) →
      ∃ t, exec i s = .next t ∧ TrapsAt s t s.cur.slot 0x13 ∧ (t.ctx s.cur.core).queue = (s.ctx s.cur.core).queue ∧
        (∀ k ∈ ls, s.meets k → ∀ c ∈ k.waiting, TrapsAt s t c.slot 0x13) ∧
        ∀ k ∈ ls, s.meets k → ∀ n ∈ gangList k.gang ++ gangList s.me.gang, n ≠ s.me.index →
          (∀ q ∈ ls, s.meets q → ∀ c ∈ q.waiting, s.indexOf c ≠ n) →
          ∃ q ∈ (t.ctx s.cur.core).latches, q.wg = s.me.wg ∧ ∃ ks, q.mismatch = some ks ∧ n ∈ ks)) ∧
  (∀ (s : State) (i : Instr) (d : AReg) (p : MatPlan) (l : Latch) (ks : List Nat), matSpec i = some (d, p) → MatReady s d →
    MatChecks s i → gangList s.me.gang ≠ [] → s.MayTrapBut → l ∈ (s.ctx s.cur.core).latches → l.wg = s.me.wg →
    l.mismatch = some ks → s.me.index ∈ ks →
    ∃ t, exec i s = .next t ∧ TrapsAt s t s.cur.slot 0x13 ∧ ∀ q ∈ (t.ctx s.cur.core).latches, q.wg = s.me.wg →
      ∀ js, q.mismatch = some js → s.me.index ∉ js) ∧
  ∀ (s : State) (i : Instr) (d : AReg) (p : MatPlan) (k : Nat), matSpec i = some (d, p) → MatReady s d → MatChecks s i →
    s.MayTrap → k ∈ gangList s.me.gang → ¬s.hasMember k → (∀ j ∈ gangList s.me.gang, j ≠ k → s.hasMember j) →
    ∃ t, exec i s = .next t ∧ Entered s t 0x14 0 k s.cur.pc

/-! ## Peer accesses -/

/-- R264, R441: PLD, PST and PATOM on this package's own harbour run at its home slices; those of other nodes post their
requests, and the split goes on. R70, R442: an instruction that names a register that a PLD or PATOM has still to write waits
for that one's requests. R83, R242: a trap out of user mode is entered once those registers are written. That the split goes on
once its requests are posted (log 20), that PST writes the bytes of its lanes alone (log 38), and that a trap waits so (log 47)
are the model's choices. -/
def Obligations.PeerAccessesComplete : Prop :=
  (∀ (s : State) (i : Instr) (code kind d0 : Nat) (npc : PC), trapSpec s i = some (code, kind, d0, npc) →
      s.MayEnter → (s.ctx s.cur.core).latches = [] → s.cur.act ≠ 0 → s.me.loading ≠ [] →
      ∃ t e, exec i s = .next t ∧ t.me.entering = some e ∧ e.trap.code.num = code ∧ e.trap.d0 = d0 ∧ e.cur.pc = s.cur.pc ∧
        e.npc = npc ∧ t.me.sup = false ∧ t.me.peers = s.me.peers ∧ (∀ p l, t.me.vphys p l = s.me.vphys p l) ∧ SameBytes s t) ∧
  (∀ (s : State) (i : Instr) (x : LaneSpec), laneSpec i = some x → s.Runs → s.cur.done = false →
    (∀ r ∈ x.dest :: x.srcs, s.me.wb + r.val < s.me.allot) →
    (∃ r ∈ x.dest :: x.srcs, ∃ w ∈ s.me.peers, w.writes (s.me.wb + r.val) = true) →
    ∃ t w, exec i s = .next t ∧ w ∈ s.me.peers ∧ (∃ r ∈ x.dest :: x.srcs, w.writes (s.me.wb + r.val) = true) ∧
      t.mySplit.wait = 2 ∧ t.mySplit.stall = .peer w.reqs ∧ t.mySplit.pc = s.mySplit.pc ∧ Same whole s t ∧ SameBytes s t) ∧
  ∀ (s : State) (i : Instr) (x : PeerSpec), peerSpec i = some x → i.wf = true → x.Ready s →
    (x.AtHome s → ∃ t, exec i s = .next t ∧ t.cur.done = true ∧ t.me.peers = [] ∧
      (∀ d ∈ x.dest, ∀ k < 32, s.cur.act.getLsbD k = true → t.v d.val k = wordOf ((x.run s).1 k) ∧
        (x.lit.w = .b64 → t.v (d.val + 1) k = wordOf ((x.run s).1 k / 2 ^ 32))) ∧
      (∀ a, t.seen s.cur.core true a = (x.run s).2 a) ∧ OtherV x.writes.1 x.writes.2 s t ∧
      SameApartL1 butPeer s.sansReqs t.sansReqs) ∧
    (x.Away s → ∃ t w, exec i s = .next t ∧ t.cur.done = true ∧ SameSeen s t ∧
      SameApartL1 butPeer s.sansGroups t.sansGroups ∧ t.me.counter x.cls = s.me.counter x.cls + 1 ∧
      (∀ p l, t.me.vphys p l = s.me.vphys p l) ∧ x.Posted s t w)

/-! ## Engine commands -/

/-- R53, R54, R173, R181, R185, R477: COPY, PUTS, TFETCH, TSTORE, MCOPY, MFILL, MREDUCE. A guard that is FALSE discards the
command; one that is unresolved holds it; else it starts, and a fetch or a module command expects its bytes. R176, R478: no
16-byte unit of the shelf and no group of L6 lies in two units of a tensor command. That units wait while every port of the
die is down is the model's reading (log 40). -/
def Obligations.CommandsArePosted : Prop :=
  ∀ (s : State) (i : Instr) (x : CmdSpec), cmdSpec i = some x → CmdReady s x.cls → x.ready s →
    (s.guardNow x.guard = .isFalse → ∃ t, exec i s = .next t ∧ t.cur.done = true ∧ t.cmds = s.cmds ∧
      Same butCount s.sansCmds t.sansCmds ∧ SameBytes s t) ∧
    (s.guardNow x.guard = .unresolved → ∃ t c, exec i s = .next t ∧ t.cur.done = true ∧ t.cmds = s.cmds ++ [c] ∧
      c.ownedBy s x.kind x.guard ∧ x.holds s c ∧ c.phase = .held ∧ c.charge = 0 ∧
      t.me.counter x.cls = s.me.counter x.cls + 1 ∧ Same butCount s.sansCmds t.sansCmds ∧ SameBytes s t) ∧
    (s.guardNow x.guard = .isTrue → x.now s →
      (∀ o n, x.expects s = some (o, n) → (s.barrier s.cur.core o).pend + n < 2 ^ 32) →
      ∃ t c, exec i s = .next t ∧ t.cur.done = true ∧ t.cmds = s.cmds ++ [c] ∧ c.ownedBy s x.kind x.guard ∧ x.holds s c ∧
        c.phase = (if c.kind.fetch && c.tensor.rw then .release else .active) ∧
        (c.phase = .active → ∀ u ∈ c.units, u.landed = false ∧
          u.sent = if c.kind = .copy then some s.time else s.sendTime s.cur.core) ∧
        c.charge = (if c.kind.fetch then c.bytes else 0) ∧
        t.me.counter x.cls = s.me.counter x.cls + 1 ∧ Same butCount s.sansCmds t.sansCmds ∧
        (x.expects s = none → SameBytes s t) ∧
        ∀ o n, x.expects s = some (o, n) →
          ObjectBecomes s t s.cur.core o { s.barrier s.cur.core o with pend := (s.barrier s.cur.core o).pend + n })

/-- R207, R275, R276, R346, R373: COLL reads its communicator record and the node array with the strand's stores performed. A
guard that is FALSE discards the command, one that is unresolved holds it; else it takes the communicator's next sequence
number and begins; only bytes of RECV change, in harbour or in far memory. -/
def Obligations.CollectivesArePosted : Prop :=
  ∀ (s : State) (x : XReg) (g : Option GReg) (d : CollDesc) (n rank : Nat) (ps : List Page), CollReady s x d n rank ps →
    let shelves := fun t : State => ∀ c a, (t.shelf c).byte a = (s.shelf c).byte a
    let keeps := fun t : State => Same butCount s.sansColl t.sansColl ∧ shelves t
    let nodes := (List.range n).map fun k => s.seenLoad (inHarbourAt (s.seenLoad (s.commAt d.comm + 8) 8) + 2 * k) 2 % 4096
    (s.guardNow g = .isFalse → ∃ t, exec (.coll x g) s = .next t ∧ t.cur.done = true ∧ t.cmds = s.cmds ∧
      t.colls = s.colls ∧ keeps t ∧ SameSeen s t) ∧
    (s.guardNow g = .unresolved → ∃ t c, exec (.coll x g) s = .next t ∧ t.cur.done = true ∧ t.cmds = s.cmds ++ [c] ∧
      c.ownedBy s .coll g ∧ c.desc = s.shelfList (s.xn x.val) 64 ∧ c.phase = .held ∧ c.pages = ps ∧
      t.colls = s.colls ∧ t.me.counter .col = s.me.counter .col + 1 ∧ keeps t ∧ SameSeen s t) ∧
    (s.guardNow g = .isTrue → ∃ t c, exec (.coll x g) s = .next t ∧ t.cur.done = true ∧ t.cmds = s.cmds ++ [c] ∧
      c.ownedBy s .coll g ∧ c.desc = s.shelfList (s.xn x.val) 64 ∧ c.phase = .active ∧ c.pages = ps ∧
      t.me.counter .col = s.me.counter .col + 1 ∧ shelves t ∧
      Same butCount { s.sansColl with far := [] } { t.sansColl with far := [] } ∧
      t.colls.map (·.cmd) = s.colls.map (·.cmd) ++ [c.id] ∧
      (∃ o ∈ t.colls, o.cmd = c.id ∧ o.comm = d.comm ∧ o.seq = (s.channel d.comm).seq ∧ o.ring.nrank = n ∧
        o.ring.rank = rank ∧ o.ring.nodes = nodes) ∧
      (t.channel d.comm).seq = (s.channel d.comm).seq + 1 ∧
      (∀ k, (∀ i < d.recvBytes n, ¬(isFar d.recv = true ∧ farCell ps (vaWrap (d.recv + i)) = some k)) →
        t.far.byte k = s.far.byte k) ∧
      ∀ a, ¬(tagBits d.recv = 0xE ∧ inHarbourAt d.recv ≤ a ∧ a < inHarbourAt d.recv + d.recvBytes n) →
        t.seen s.cur.core true a = s.seen s.cur.core true a)

/-! ## Tasks -/

/-- R225, R226, R470, R471: TASKARM adds to PENDING; TASKSIG subtracts, down to zero; each is judged by STATE at the start of the
clock. A TASKSIG of a task of a running graph that was ARMED then reaches the batch of the clock: at the end of the clock the
task becomes READY if its count is 0, with a new snapshot, or FAULTED if the READY check refuses it (R216, R217). A task of no
running graph never becomes READY so (R470). That a clock ends at CORE_CLOCKS, and that a batch makes no task READY that is
ARMED no more (log 59), and that the snapshot already holds STATE 2 and RCLK (log 17), are the model's readings. -/
def Obligations.TaskCountsChange : Prop :=
  (∀ (s : State) (a b : XReg), TaskReady s a 256 →
    let tcb := inHarbourAt (s.xn a.val)
    let m := s.seen s.cur.core true
    s.started m tcb ≤ 1 →
    let old := loadOf m (tcb + 0x0A) 2
    let n := s.xn b.val
    (old + n < 2 ^ 16 → ∃ t, exec (.taskarm a b) s = .next t ∧ t.cur.done = true ∧
      (∀ w, t.harbour.byte w = storeOf m (tcb + 0x0A) 2 (old + n) w) ∧ SameApartL1 whole (s.passed .sts) t) ∧
    ∃ t, exec (.tasksig a b) s = .next t ∧ t.cur.done = true ∧
      (∀ w, t.harbour.byte w = storeOf m (tcb + 0x0A) 2 (old - n) w) ∧
      SameApartL1 whole { s.passed .sts with batch := [] } { t with batch := [] } ∧
      (∀ g, s.Belongs m g tcb → s.started m tcb = 1 →
        t.batch = if tcb ∈ s.batch then s.batch else s.batch ++ [tcb]) ∧
      (s.started m tcb = 0 ∨ (∀ g ∈ s.graphs, ¬g.has m tcb ∧ (g.addr + 64 ≤ tcb ∨ tcb + 256 ≤ g.addr)) →
        t.batch = s.batch)) ∧
  ∀ (s : State) (n tcb : Nat) (g : Graph), s.canonical = true → s.mgmt.waiting = [] → 0 < n → s.batch = [tcb] →
    (∀ e ∈ s.parts, e.2.trctl.getLsbD 0 = false) → s.Belongs s.harbour.byte g tcb →
    let state := s.harbour.load (tcb + 8) 1 % 16
    let count := s.harbour.load (tcb + 0x0A) 2
    let m := readyBytes s.harbour.byte tcb s.clock
    let r := s.readyRun m g tcb s.nextId
    (state = 1 → count = 0 → s.readyOk r = true → ∃ t, exec (.coreClocks n) s = .next t ∧ t.batch = [] ∧ t.opened = [] ∧
      t.runs = s.runs ++ [r] ∧ ∀ w, t.harbour.byte w = m w) ∧
    (state = 1 → count = 0 → s.readyOk r = false → (∀ w, tcb ≤ w → w < tcb + 256 → ¬s.inRing w) →
      ∃ t q, exec (.coreClocks n) s = .next t ∧ t.batch = [] ∧ t.opened = [] ∧ t.runs = s.runs ++ [q] ∧ q.phase = .faulted ∧ q.tcb = tcb ∧
        t.harbour.load (tcb + 8) 1 = 6 ∧ t.harbour.load (tcb + 0x48) 2 = 0x3B) ∧
    (state ≠ 1 ∨ count ≠ 0 → ∃ t, exec (.coreClocks n) s = .next t ∧ t.batch = [] ∧ t.opened = [] ∧ t.runs = s.runs ∧
      ∀ w, t.harbour.byte w = s.harbour.byte w)

/-- R222, R420: LAUNCH starts a graph that does not run, and says in a predicate whether it ran already. Every task becomes
ARMED with its PINIT, and LIVE is their number; a root whose count is 0 and which the READY check accepts (R216) becomes READY
at once (R226). That its snapshot already holds STATE 2 and RCLK is the model's reading (log 17). -/
def Obligations.LaunchStartsGraphs : Prop :=
  ∀ (s : State) (p : PReg) (x : XReg), TaskReady s x 64 →
    let g := inHarbourAt (s.xn x.val)
    let m := s.seen s.cur.core true
    let tcbs := inHarbourAt (loadOf m g 8)
    let ntcb := loadOf m (g + 8) 4
    let graph : Graph := { addr := g, part := s.me.part, tcbs, ntcb }
    let roots := (List.range (loadOf m (g + 0x0C) 4)).map fun k => loadOf m (inHarbourAt (loadOf m (g + 0x10) 8) + 4 * k) 4
    let tcb := fun k => tcbs + 256 * k
    let pinit := fun k => loadOf m (tcb k + 0x0C) 2
    let starts := fun k => k ∈ roots ∧ pinit k = 0
    let readied := fun k => readyBytes (unfaulted (storeOf m (tcb k + 0x0A) 2 0) (tcb k)) (tcb k) s.clock
    let elsewhere := fun a n => (a + n ≤ tcbs ∨ tcbs + 256 * ntcb ≤ a) ∧ (a + n ≤ g ∨ g + 64 ≤ a)
    let tells := fun (t : State) (v : Bool) => OtherP p.val s t ∧ (p.val ≠ 0 → ∀ l < 32, (t.p p.val).getLsbD l =
      if s.cur.act.getLsbD l then v else (s.p p.val).getLsbD l)
    (s.release s.cur.core true).badGraph s.me.part g = false →
    ((loadOf m (g + 0x1C) 4).testBit 0 = true → ∃ t, exec (.launch p x) s = .next t ∧ t.cur.done = true ∧ tells t true ∧
      SameApartL1 butP (s.passed .sts) t ∧ SameSeen s t) ∧
    ((loadOf m (g + 0x1C) 4).testBit 0 = false → ∃ t, exec (.launch p x) s = .next t ∧ t.cur.done = true ∧ tells t false ∧
      graph ∈ t.graphs ∧ (∀ q ∈ s.graphs, q.addr ≠ g → q ∈ t.graphs) ∧
      (g + 64 ≤ tcbs ∨ tcbs + 256 * ntcb ≤ g →
        (∀ k, starts k → s.readyOk (s.readyRun (readied k) graph (tcb k) 0) = true ∧
          (loadOf m (tcb k + 0x22) 2 = 0 ∨
            elsewhere (inHarbourAt (loadOf m (tcb k + 0x28) 8)) (16 * loadOf m (tcb k + 0x22) 2))) →
        t.harbour.load (g + 0x18) 4 = ntcb ∧ t.harbour.load (g + 0x1C) 4 = 1 ∧
        (∀ k < ntcb, t.harbour.load (tcb k + 0x0A) 2 = pinit k ∧ (starts k → t.harbour.load (tcb k + 8) 1 = 2) ∧
          (¬starts k → t.harbour.load (tcb k + 8) 1 = 1)) ∧
        (∀ k, starts k → ∃ id, s.nextId ≤ id ∧ s.readyRun (readied k) graph (tcb k) id ∈ t.runs) ∧
        (∀ q ∈ t.runs, q ∈ s.runs ∨ ∃ k id, starts k ∧ q = s.readyRun (readied k) graph (tcb k) id) ∧
        (∀ q ∈ s.runs, q ∈ t.runs) ∧
        (∀ a, ¬(g ≤ a ∧ a < g + 64) → ¬(tcbs ≤ a ∧ a < tcbs + 256 * ntcb) → t.harbour.byte a = m a) ∧
        SameApartL1 butP (s.passed .sts).sansTasks t.sansTasks))

/-- R235, R301: TASKRETRY makes a FAULTED task READY with a new snapshot, its fault fields reset, if the READY check accepts it
(R216); GSTATE.FAULT stands only while a task of the graph is FAULTED. That the snapshot already holds STATE 2 and RCLK is the
model's reading (log 17). R236: TASKABORT makes a task ABORTED, and each task that it reaches over successors and that is
neither DONE nor ABORTED; LIVE falls by their number, and the graph ends when it is 0; no other task's STATE changes. -/
def Obligations.TasksRetryAndAbort : Prop :=
  ∀ (s : State) (a : XReg) (g : Graph), TaskReady s a 256 → s.me.sup = true →
    let tcb := inHarbourAt (s.xn a.val)
    let m := s.seen s.cur.core true
    s.Belongs m g tcb → g.part = s.me.part →
    (loadOf m (tcb + 8) 1 % 16 = 6 →
      let after := readyBytes (unfaulted m tcb) tcb s.clock
      let others := (List.range g.ntcb).any fun k => g.tcbs + 256 * k ≠ tcb ∧ loadOf m (g.tcbs + 256 * k + 8) 1 % 16 = 6
      let gstate := loadOf m (g.addr + 0x1C) 4
      ∃ t, exec (.taskretry a) s = .next t ∧ t.cur.done = true ∧ SameStrand whole (s.passed .sts) t ∧
        t.cmds = s.cmds ∧ t.graphs = s.graphs ∧ (∀ k b, (t.shelf k).byte b = (s.shelf k).byte b) ∧ t.far = s.far ∧
        (∀ c ∈ (s.part g.part).cores, (t.core c).icache = []) ∧
        (∀ q ∈ s.runs, (∀ p ∈ s.runs, p.tcb = tcb → p.id ≠ q.id) → q ∈ t.runs) ∧
        (s.readyOk (s.readyRun after g tcb 0) = true →
          (∃ id, s.nextId ≤ id ∧ s.readyRun after g tcb id ∈ t.runs) ∧ t.harbour.load (tcb + 8) 1 = 2 ∧
          t.harbour.load (g.addr + 0x1C) 4 = (if others then gstate else gstate % 2) ∧
          ∀ w, ¬(g.addr + 0x1C ≤ w ∧ w < g.addr + 0x20) → t.harbour.byte w = after w) ∧
        (s.readyOk (s.readyRun after g tcb 0) = false → (∀ w, tcb ≤ w → w < tcb + 256 → ¬s.inRing w) →
          t.harbour.load (tcb + 8) 1 = 6 ∧ t.harbour.load (tcb + 0x48) 2 = 0x3B)) ∧
    (loadOf m (tcb + 8) 1 % 16 ∈ [1, 2, 3, 4, 6, 7] → s.cmds = [] →
      (∀ e ∈ s.cores, e.2.ctx.latches = [] ∧ (e.1 ≠ s.cur.core → ∀ l ∈ e.2.l1, l.2.dirty = 0)) →
      g.addr + 64 ≤ g.tcbs ∨ g.tcbs + 256 * g.ntcb ≤ g.addr →
      let state := fun k => loadOf m (g.tcbs + 256 * k + 8) 1
      let live := loadOf m (g.addr + 0x18) 4
      ∃ t, ∃ all : List Nat, exec (.taskabort a) s = .next t ∧ all.Nodup ∧
        (∀ k, k ∈ all ↔ Leads (s.nexts m g) ((tcb - g.tcbs) / 256) k ∧ state k % 16 ≠ 5 ∧ state k % 16 ≠ 8) ∧
        t.harbour.load (tcb + 8) 1 = 8 ∧
        (∀ k < g.ntcb, t.harbour.load (g.tcbs + 256 * k + 8) 1 = if k ∈ all then 8 else state k) ∧
        t.harbour.load (g.addr + 0x18) 4 = live - all.length ∧
        t.graphs = if live ≤ all.length then s.graphs.filter (·.addr ≠ g.addr) else s.graphs)

/-! ## Tables, queues and images -/

/-- R310: DTLOAD. R481: TLBINV. R389: EVPOP. That 0 in DTLOAD's register reinstates the base table, X0 being a register like
the others, is the model's choice (log 32). -/
def Obligations.TablesAndQueuesChange : Prop :=
  ∀ (s : State) (x d : XReg), SupReady s →
    (s.countRoom .lds →
      (s.xn x.val = 0 → ∃ t, exec (.dtload x) s = .next t ∧ t.cur.done = true ∧ (t.part s.me.part).table = none ∧
        Same whole (s.passed .lds).sansTable t.sansTable ∧ SameBytes s t) ∧
      (s.rangeOk (s.xn x.val) 4096 64 →
        let e := fun v => s.seenLoad (inHarbourAt (s.xn x.val) + 4 * v) 4
        (∀ v < 1024, e v < 2 ^ 16 ∧ (e v = 0 ∨ baseMapped (e v - 1) = true) ∧ (v = 0 → e v = 1)) →
        ∃ t, exec (.dtload x) s = .next t ∧ t.cur.done = true ∧
          (t.part s.me.part).table = some ((List.range 1024).map e) ∧
          SameApartL1 whole (s.passed .lds).sansTable t.sansTable ∧ SameSeen s t)) ∧
    (s.xn x.val / 2 ^ 56 = 0 → (s.xn x.val).testBit 52 = true ∨ s.xn x.val / 2 ^ 53 % 8 ≤ 5 →
      ∃ t, exec (.tlbinv x) s = .next t ∧ t.cur.done = true ∧
        (∀ c, (t.core c).tlb = (s.core c).tlb.filter fun e => !tlbGoes s.me.part (s.xn x.val) e) ∧
        (∀ k, t.dieTlb.read [] k = (s.dieTlb.read [] k).filter fun e => !tlbGoes s.me.part (s.xn x.val) e) ∧
        Same whole s.sansTlb t.sansTlb ∧ SameBytes s t) ∧
    (s.xn x.val % 16 = 0 → s.xn x.val + 32 ≤ Config.shelfBytes →
      let p := s.part s.me.part
      (p.evhead = p.evtail → ∃ t, exec (.evpop d x) s = .next t ∧ t.cur.done = true ∧ t.x d.val = 0 ∧ OtherX d.val s t ∧
        Same butX s t ∧ SameBytes s t) ∧
      (p.evhead ≠ p.evtail → ∃ t, exec (.evpop d x) s = .next t ∧ t.cur.done = true ∧ t.x d.val = 1 ∧ OtherX d.val s t ∧
        (t.part s.me.part).evhead = BitVec.ofNat 64 ((p.evhead.toNat + 1) % 2 ^ 32) ∧
        (∀ k < 32, (t.shelf s.cur.core).byte (s.xn x.val + k) =
          s.seen s.cur.core true (p.evbase.toNat + 32 * (p.evhead.toNat % 2 ^ p.evsize.toNat) + k)) ∧
        (∀ c a, ¬(c = s.cur.core ∧ s.xn x.val ≤ a ∧ a < s.xn x.val + 32) → (t.shelf c).byte a = (s.shelf c).byte a) ∧
        Same butX (s.sansShelf s.cur.core).sansHead.uncached (t.sansShelf s.cur.core).sansHead.uncached ∧ SameSeen s t))

/-- R78 to R81, R131, R380: CTXST writes a tile image, or the image of a strand that has no matrix operation. TAG and GEOM of 0
for a binding that is not usable, and a layout taken from the header of the live control area, are the model's choices
(log 32). -/
def Obligations.ImagesAreStored : Prop :=
  ∀ (s : State) (a b : XReg), SupReady s → s.countRoom .sts → s.me.loading = [] →
    let h := inHarbourAt (s.xn a.val)
    (s.xn b.val = 1 → s.rangeOk (s.xn a.val) (2560 * s.myWg.ntiles) 128 →
      ∃ t, exec (.ctxst a b) s = .next t ∧ t.cur.done = true ∧
        (∀ n < s.myWg.ntiles, let u := s.tile n
          TileSaved t.harbour.byte (h + 2560 * n) u (u.bound && (s.ctx s.cur.core).current u.tag)
            ((s.ctx s.cur.core).scalesOf u.tag)) ∧
        (∀ w, ¬(h ≤ w ∧ w < h + 2560 * s.myWg.ntiles) → t.harbour.byte w = s.seen s.cur.core true w) ∧
        SameApartL1 whole (s.passed .sts) t) ∧
    (s.xn b.val = 0 → s.noMatrix →
      let z := imageSize (fun k => s.area.getD k 0) 0
      s.rangeOk (s.xn a.val) z.bytes 128 →
      ∃ t, exec (.ctxst a b) s = .next t ∧ t.cur.done = true ∧
        (∀ k < 1024, t.harbour.byte (h + k) = if k = 4 then 3#8 else s.area.getD k 0) ∧
        (∀ k < 32, loadOf t.harbour.byte (h + 0x480 + 4 * k) 4 =
          match (s.me.sregs.at? k).filter (s.ctx s.cur.core).current with | some tag => 2 ^ 31 + tag.toNat | none => 0) ∧
        (∀ k < 1024 * z.naccs, loadOf t.harbour.byte (h + 0x1600 + 4 * k) 4 = (Store.read 0 s.me.accs k).toNat) ∧
        (∀ n < z.allot, ∀ l < 32, loadOf t.harbour.byte (h + z.vbase + 128 * n + 4 * l) 4 =
          if s.me.slices.getLsbD (l / 8) then (s.me.vphys n l).toNat else 0) ∧
        (∀ w, ¬(h ≤ w ∧ w < h + z.bytes) → t.harbour.byte w = s.seen s.cur.core true w) ∧
        SameApartL1 whole (s.passed .sts) t)

/-- R81, R131, R381 to R383: CTXLD restores a tile image, or a strand image without pending shadows: every part of each
record, the bindings to scale entries as `Rebound` says, and the MMX that the image holds, stopped. Of a tile's record, a format
code that does not occur reads as L6, and COLV of a 16-bit format has 4 bytes (log 21, the model's choice). -/
def Obligations.ImagesAreLoaded : Prop :=
  ∀ (s : State) (a b : XReg) (newmap : Bool), SupReady s → s.countRoom .lds → s.me.loading = [] →
    ((s.ctx s.cur.core).wg? s.me.wg).isSome = true →
    let h := inHarbourAt (s.xn a.val)
    let m := s.seen s.cur.core true
    let img := fun n => (List.range n).map fun k => m (h + k)
    (∀ n, n < 32 → s.xn b.val = 1 + flag newmap * 2 ^ 8 + n * 2 ^ 16 → s.rangeOk (s.xn a.val) (2560 * n) 128 →
      s.tileCap (img (2560 * n)) n newmap = none → (∀ k < n, (s.ctx s.cur.core).lockedT s.me.wg k = false) →
      EntriesSound s (((List.range n).filter fun k => (s.tile k).bound).map fun k => (s.tile k).tag) →
      let saved := fun k => if (loadOf m (h + 2560 * k + 0x982) 2).testBit 0 then some (loadOf m (h + 2560 * k + 0x980) 2) else none
      ∃ t, exec (.ctxld a b) s = .next t ∧ t.cur.done = true ∧
        (∀ k < n, TileRestored m (h + 2560 * k) (t.tile k)) ∧ (∀ k, n ≤ k → t.tile k = s.tile k) ∧
        Rebound s t newmap n saved m (fun k => h + 2560 * k + 0x800)
          (fun k => if (t.tile k).bound then some (t.tile k).tag else none) ∧
        SameApartL1 whole (s.passed .lds).sansBindings t.sansBindings ∧ SameSeen s t) ∧
    (s.xn b.val = flag newmap * 2 ^ 8 → s.rangeOk (s.xn a.val) 1024 128 →
      let z := imageSize m h
      s.rangeOk (s.xn a.val) z.bytes 128 → s.strandCap (img z.bytes) newmap = none →
      (∀ k < s.me.naccs, (s.ctx s.cur.core).lockedA s.me.uid k = false) → z.nsh = 0 →
      EntriesSound s (s.me.sregs.map (·.2)) →
      let saved := fun k => let w := loadOf m (h + 0x480 + 4 * k) 4; if w.testBit 31 then some (w % 2 ^ 16) else none
      let live := loadOf m (h + 0x14) 4
      let mmx := (loadOf m (h + 0x446) 1).testBit 0
      ∃ t, exec (.ctxld a b) s = .next t ∧ t.cur.done = true ∧
        (∀ k < 1024, t.seen s.cur.core true (s.ctlArea s.cur.core s.cur.slot + k) = m (h + k)) ∧
        (∀ w, ¬(s.ctlArea s.cur.core s.cur.slot ≤ w ∧ w < s.ctlArea s.cur.core s.cur.slot + 1024) →
          t.seen s.cur.core true w = m w) ∧
        t.me.live.toNat = live ∧ t.me.allot = z.allot ∧
        ((∀ e, e ≠ s.cur.entry → (s.me.split e).valid = false) → s.me.stack = [] → live ≠ 0 → t.mySplit.mask.toNat = live) ∧
        t.me.slices = s.me.slices &&& BitVec.ofNat 4 (loadOf m (h + 0x0C) 1) ∧
        (∀ n < z.allot, ∀ l < 32, (t.me.vphys n l).toNat =
          if t.me.slices.getLsbD (l / 8) then loadOf m (h + z.vbase + 128 * n + 4 * l) 4 else 0) ∧
        (∀ k < 1024 * z.naccs, (Store.read 0 t.me.accs k).toNat = loadOf m (h + 0x1600 + 4 * k) 4) ∧
        (∀ k, 1024 * z.naccs ≤ k → Store.read 0 t.me.accs k = 0) ∧
        Rebound s t newmap 32 saved m (fun k => h + 0x500 + 128 * k) (fun k => t.me.sregs.at? k) ∧
        (mmx = false → (t.ctx s.cur.core).queue = (s.ctx s.cur.core).queue) ∧
        (mmx = true → ∃ o r, (t.ctx s.cur.core).queue = (s.ctx s.cur.core).queue ++ [o] ∧ o.members = [r] ∧ o.mmx = true ∧
          o.joining = some false ∧ r.uid = s.me.uid ∧ r.shadow = none ∧
          o.step = loadOf m (h + 0x444) 2 ∧ o.gang.toNat = loadOf m (h + 0x450) 8 ∧
          o.spec = (loadOf m (h + 0x446) 1).testBit 1 ∧ r.acc = loadOf m (h + 0x440) 4 / 2 ^ 14 % 16 ∧
          r.fmt.toNat = loadOf m (h + 0x448) 4 ∧
          r.guard = if (loadOf m (h + 0x446) 1).testBit 2 then some (loadOf m (h + 0x447) 1 % 8) else none) ∧
        t.me.counter .mat = s.me.counter .mat + flag mmx ∧
        SameStrand butImage s t ∧ (∀ c a, (t.shelf c).byte a = (s.shelf c).byte a))

/-! ## Changes of personality -/

/-- R269, R270, R388: EGMODE begins a change on its groups. -/
def Obligations.EgmodeBeginsChanges : Prop :=
  ∀ (s : State) (x : XReg), SupReady s → s.descOk x 32 16 →
    let r := ChangeReq.ofBytes (s.shelfList (s.xn x.val) 32)
    ChangeOk s r →
    ∃ t, exec (.egmode x) s = .next t ∧ t.cur.done = true ∧
      (∀ g, g = r.group ∨ r.bond = true ∧ g = r.group + 1 →
        t.group g = { s.group g with
          phase := 1
          change := some { issuer := some (s.me.part, s.cur.core, r.bar, s.xn x.val), lead := r.group, pers := r.pers
                           bond := r.bond, commit := r.commit, newver := r.newver, start := s.time, began := s.time } }) ∧
      (∀ g, g ≠ r.group → (r.bond = false ∨ g ≠ r.group + 1) → t.group g = s.group g) ∧
      Same whole s.sansGroups t.sansGroups ∧ SameBytes s t

/-! ## Device steps -/

/-- R19, R185: what becomes of an optical port, and of what waited for one. R247: who hears of it. A duration is given in
clocks at the rate of sr.clock, which is that of P1 when no partition runs in P0 (log 39). That units of the die wait while all
of its ports are down, and are sent when one recovers, is the model's reading (log 40). -/
def Obligations.PortsChange : Prop :=
  ∀ (s : State) (n : Fin 64) (lam : Fin 16) (k : Fin 4), s.harbour.wf = true →
    let p := s.port n.val
    (p.lost.getLsbD lam.val = true → exec (.wavelengthFailure n lam) s = .next s) ∧
    (p.lost.getLsbD lam.val = false → p.spares.at? (lam.val / 4) = none → ∃ t, exec (.wavelengthFailure n lam) s = .next t ∧
      PortBecomes s t n.val { p with spares := p.spares.put (lam.val / 4) lam.val, warming := p.warming ++ [lam.val / 4] } ∧
      Heard s t (s.farParts n.val) 0x04 n.val lam.val (lam.val / 4)) ∧
    (p.lost.getLsbD lam.val = false → p.spares.at? (lam.val / 4) ≠ none → ∃ t, exec (.wavelengthFailure n lam) s = .next t ∧
      PortBecomes s t n.val { p with lost := p.lost ||| (1#16 <<< lam.val) } ∧
      Heard s t (s.farParts n.val) 0x05 n.val lam.val ((List.range 16).countP fun j => j ≠ lam.val && !p.lost.getLsbD j)) ∧
    (∃ t, exec (.spareWarmed n k) s = .next t ∧ PortBecomes s t n.val { p with warming := p.warming.filter (· ≠ k.val) }) ∧
    (∃ t, exec (.laserAgeing n lam) s = .next t ∧ PortBecomes s t n.val { p with aged := p.aged ||| (1#16 <<< lam.val) }) ∧
    (∃ t, exec (.linkRetraining n) s = .next t ∧
      PortBecomes s t n.val { p with down := match p.down with | none => some s.time | some u => some u }) ∧
    (p.down = none → exec (.portRecovery n) s = .next s) ∧
    ∀ u, p.down = some u → ∃ t, exec (.portRecovery n) s = .next t ∧ t.port n.val = { p with down := none } ∧
      (∀ m, m ≠ n.val → t.port m = s.port m) ∧
      t.cmds = (if s.mgmt.p3 then s.cmds else s.cmds.map (s.sentFrom (n.val / 8))) ∧
      Heard s t (s.farParts n.val) 0x06 n.val ((s.time - u) * s.rate / 10 ^ 6) 0 ∧
      Quiet (fun v => { v.sansPorts with cmds := [] }) noByte s t

/-- R201 to R204: a release notice becomes the youngest record of its line, after the oldest record has retired if
there is no room; a promotion request makes a core write back its L1, and its acknowledgement lets an acquire or a notice
go on. R57: a split that has been passed over for long is promoted. R23: one whose wait is over becomes ready. -/
def Obligations.PromotionsAndWakeups : Prop :=
  (∀ (s : State) (core slice : Fin 512), s.canonical = true →
      let mine := fun n : Notice => n.core == core.val && sliceOf n.line == slice.val
      let rs := s.recordsOf slice.val
      ((s.notices.filter mine) = [] → exec (.releaseNotice core slice) s = .next s) ∧
      (∀ n, s.notices.filter mine = [n] → (∀ p ∈ s.promotions, p.slice ≠ slice.val) →
        (∀ p ∈ s.promotions, p.line ≠ n.line) →
        ((∃ r ∈ rs, r.line = n.line) ∨ rs.length < Config.releaseRecords → ∃ t, exec (.releaseNotice core slice) s = .next t ∧
          t.recordsOf slice.val = ⟨n.line, core.val⟩ :: rs.filter (·.line ≠ n.line) ∧
          (∀ k, k ≠ slice.val → t.recordsOf k = s.recordsOf k) ∧
          { t with records := [] } = { s with records := [], notices := s.notices.filter fun n => !mine n }) ∧
        (∀ old, (∀ r ∈ rs, r.line ≠ n.line) → Config.releaseRecords ≤ rs.length → rs.getLast? = some old →
          ∃ t q, exec (.releaseNotice core slice) s = .next t ∧ t.promotions = s.promotions ++ [q] ∧
            q.slice = slice.val ∧ q.line = old.line ∧ q.core = old.core ∧ q.notice = some n ∧ q.wrote = false ∧
            q.acked = false ∧ t.records = s.records ∧ t.notices = s.notices.filter fun n => !mine n)) ∧
      ((s.promotions.find? fun p => p.core == core.val && !p.wrote) = none → exec (.promotionRequest core) s = .next s) ∧
      (∀ q, (s.promotions.find? fun p => p.core == core.val && !p.wrote) = some q → (∀ n ∈ s.notices, n.core ≠ core.val) →
        ∃ t, exec (.promotionRequest core) s = .next t ∧
          t.promotions = s.promotions.map (fun (p : Promotion) => if p.id = q.id then { p with wrote := true } else p) ∧
          (∀ e ∈ (t.core core.val).l1, e.2.dirty = 0) ∧ (∀ a, t.harbour.byte a = s.seen core.val true a) ∧
          (∀ a, t.seen core.val false a = s.seen core.val false a) ∧
          Quiet (fun u => { u.sansL1 core.val with promotions := [] }) (fun _ => True) s t) ∧
      ∀ q, s.promotions.find? (·.id == q.id) = some q → q.wrote = true → q.acked = false →
        (∀ k, q.notice = none → q.ticket = some k → s.promotionWaited k →
          exec (.promotionAcknowledgement q.id) s = .next { s with
            promotions := s.promotions.map fun (p : Promotion) => if p.id = q.id then { p with acked := true } else p }) ∧
        (∀ k, q.notice = none → q.ticket = some k → ¬s.promotionWaited k →
          exec (.promotionAcknowledgement q.id) s = .next { s with promotions := s.promotions.filter (·.id ≠ q.id) }) ∧
        (∀ n r, q.notice = some n → sliceOf n.line = q.slice → (∀ p ∈ s.promotions, p.ticket = none) →
          (∀ p ∈ s.promotions, p.id ≠ q.id → p.line ≠ n.line) →
          r ∈ s.recordsOf q.slice → r.line = q.line → (s.recordsOf q.slice).length ≤ Config.releaseRecords →
          ∃ t, exec (.promotionAcknowledgement q.id) s = .next t ∧
            t.recordsOf q.slice = ⟨n.line, n.core⟩ :: ((s.recordsOf q.slice).filter fun r => r.line ≠ q.line ∧ r.line ≠ n.line) ∧
            (∀ k, k ≠ q.slice → t.recordsOf k = s.recordsOf k) ∧
            { t with records := [] } = { s with records := [], promotions := s.promotions.filter (·.id ≠ q.id) })) ∧
  (∀ (s : State) (w : SplitRef) (t0 : Strand), s.canonical = true → s.strand? w.core.val w.slot.val = some t0 →
      let c := w.core.val
      let k := w.slot.val
      let p := t0.split w.entry.val
      let becomes := fun (i : Instr) (q : Split) =>
        exec i s = .next (s.modStrand c k fun u => u.setSplit w.entry.val q)
      (p.valid = true → p.wait = 0 → p.promoted = false → p.since + 768 ≤ s.cycle c (k / 64) →
        becomes (.splitPromotion w) { p with promoted := true }) ∧
      (p.valid = false ∨ p.wait ≠ 0 ∨ p.promoted = true ∨ s.cycle c (k / 64) < p.since + 768 →
        exec (.splitPromotion w) s = .next s) ∧
      (p.valid = true → p.wait = 2 → s.runsCore c = true → s.stallOver c t0 p.stall →
        becomes (.stallEnd w) { p with wait := 0, since := s.cycle c (k / 64), promoted := false }) ∧
      (p.valid = false ∨ p.wait ≠ 2 ∨ s.runsCore c = false → exec (.stallEnd w) s = .next s))

/-- R35 to R40, R227: the dispatcher places the next workgroup or cohort; a cohort that has waited 100,000 clocks of its
partition keeps cores, on which no other workgroup goes. From when a cohort has waited (log 60), and which of several late
cohorts has a core that more than one keeps (log 58), are the model's choices. -/
def Obligations.WorkgroupsArePlaced : Prop :=
  (∀ (s : State) (part : Fin 16) (r : TaskRun), s.canonical = true → s.open? = true →
    let u := s.reserveLate part.val
    u.run? r.id = some r →
    let placed := fun (i : Instr) (cores : List Nat) (cohort : List Nat) => ∃ t, exec i s = .next t ∧
      (∀ k c, cores[k]? = some c → Placed s t r c k cohort) ∧ (∀ c, c ∉ cores → t.core c = s.core c) ∧
      (∃ q ∈ t.runs, q.id = r.id ∧ q.phase = .running ∧ q.placed = r.placed + cores.length ∧
        q.alive = r.alive + cores.length * r.nstr ∧ q.last = cores.getLast? ∧ q.reserved = [] ∧ q.snap = r.snap ∧
        ∀ c ∈ cores, c ∈ q.cores) ∧
      (r.phase = .ready → (∀ a, r.tcb ≤ a → a < r.tcb + 256 → ¬s.inRing a) → t.harbour.load (r.tcb + 8) 1 = 3) ∧
      t.cmds = s.cmds ∧ t.graphs = s.graphs ∧ t.far = s.far
    (∀ core, u.nextPlacement part.val = some (r, [core]) → r.cohort = 0 → placed (.workgroupPlacement part) [core] [] ∧
      exec (.cohortPlacement part) s = .next u) ∧
    (∀ cores, u.nextPlacement part.val = some (r, cores) → r.cohort ≠ 0 →
      placed (.cohortPlacement part) cores cores ∧ exec (.workgroupPlacement part) s = .next u) ∧
    ∀ cores, u.nextPlacement part.val = some (r, cores) → r.reserved = [] →
      ∀ q ∈ u.runs, q.id ≠ r.id → ∀ c ∈ q.reserved, c ∉ cores) ∧
  ∀ (s : State) (r : TaskRun), s.run? r.id = some r →
    ∀ n l, r.waiting = some n → n + 100000 ≤ (s.part r.part).clocks → r.cohort ≠ 0 → r.placed < r.nwg → r.reserved = [] →
      s.deferred r = false → r.phase = .ready ∨ r.phase = .running → r.preempted = false → r.aborted = false →
      (s.candidates r).head? = some l → (∀ p ∈ s.runs, p.part = r.part → s.cohortLate p = true → p = r) →
      exec (.cohortWaitTimeout r.id) s = .next (s.modRun r.id fun q => { q with reserved := l })

/-- R219, R228 to R230, R337: the edge of a task begins, once its commands and peer requests are done; its lines are written
back by every core that ran it; it passes over its records; its successors' counts fall, 16 in a clock, and after the last
one it is DONE; a second batch of the run comes in a later clock. A successor that was ARMED at the start of the clock joins
the batch of the clock (R226), at whose end it becomes READY if its count is 0 (`TaskCountsChange`). REGION of 7 in stage 2 is
the model's choice (log 31). -/
def Obligations.EdgesRun : Prop :=
  ∀ (s : State) (r : TaskRun), s.HasRun r → r.preempted = false → r.aborted = false →
    let tcbBytes := fun (lo hi a : Nat) => r.tcb + lo ≤ a ∧ a < r.tcb + hi
    (r.phase = .running → r.placed = r.nwg → r.alive = 0 → s.busyRun r.id = false →
      (∀ q ∈ s.requests, q.run = r.id → q.state.closed = true) →
      ∀ q, r.EdgeAt q 0 0 →
        ∃ t, exec (.taskEdgeBegin r.id) s = .next t ∧ RunBecomes s t r.id q ∧
          t.harbour.load (r.tcb + 8) 1 = 4 ∧ t.harbour.load (r.tcb + 0x50) 8 = q.cursor % 2 ^ 64 ∧
          Quiet State.sansRuns (fun a => tcbBytes 8 9 a ∨ tcbBytes 0x50 0x58 a) s t) ∧
    (r.phase = .edge → r.stage = 1 → r.region < 8 →
      let g := r.regionAt r.region
      let line := g.lo / 128 + r.line
      ∀ q, r.EdgeAt q (r.region + 1) r.nexts →
        (g.isHarbour = true → (∀ core ∈ r.cores, ∀ n ∈ s.notices, n.core ≠ core) →
          (∀ a, tcbBytes 0x50 0x58 a → a / 128 ≠ line) →
          ∃ t, exec (.edgeLineWriteback r.id) s = .next t ∧
            RunBecomes s t r.id (if line + 1 ≤ (g.hi - 1) / 128 then { r with line := r.line + 1 } else q) ∧
            t.harbour.load (r.tcb + 0x50) 8 =
              (if line + 1 ≤ (g.hi - 1) / 128 then { r with line := r.line + 1 } else q).cursor % 2 ^ 64 ∧
            (∀ a, a / 128 = line →
              ((∀ c ∈ r.cores, ¬s.dirtyAt c a) → t.harbour.byte a = s.harbour.byte a) ∧
              ∀ c ∈ r.cores, ((∀ d ∈ r.cores, d ≠ c → ¬s.dirtyAt d a) → t.harbour.byte a = s.seen c true a) ∧
                ¬t.dirtyAt c a ∧ t.seen c false a = s.seen c false a) ∧
            Quiet (fun u => (State.sansL1s r.cores u).sansRuns) (fun a => tcbBytes 0x50 0x58 a ∨ a / 128 = line) s t) ∧
        (g.isHarbour = false → ∃ t, exec (.drainReport r.id) s = .next t ∧ RunBecomes s t r.id q ∧
          t.harbour.load (r.tcb + 0x50) 8 = q.cursor % 2 ^ 64 ∧ Quiet State.sansRuns (tcbBytes 0x50 0x58) s t)) ∧
    (r.phase = .edge → r.stage = 2 → r.stepped = some s.clock → exec (.edgeDecrement r.id) s = .next s) ∧
    (r.phase = .edge → r.stage = 2 → r.stepped ≠ some s.clock → ∀ g stop succ, EdgeBatch s r g stop succ →
      ∃ t, exec (.edgeDecrement r.id) s = .next t ∧
        (∀ k, r.nexts ≤ k → k < stop → t.harbour.load (g.tcbs + 256 * succ k + 0x0A) 2 =
          s.homeLoad (g.tcbs + 256 * succ k + 0x0A) 2 - 1) ∧
        (stop < r.field 0x24 2 → RunBecomes s t r.id { r with nexts := stop, stepped := some s.clock } ∧
          t.graphs = s.graphs) ∧
        (stop = r.field 0x24 2 → t.runs = s.runs.filter (·.id ≠ r.id) ∧ t.harbour.load (r.tcb + 8) 1 = 5 ∧
          t.harbour.load (g.addr + 0x18) 4 = s.homeLoad (g.addr + 0x18) 4 - 1 ∧
          t.graphs = if s.homeLoad (g.addr + 0x18) 4 ≤ 1 then s.graphs.filter (·.addr ≠ g.addr) else s.graphs) ∧
        ((s.homeLoad (g.addr + 0x1C) 4).testBit 0 = true →
          t.batch = s.batch ++ (((List.range (stop - r.nexts)).map fun k => g.tcbs + 256 * succ (r.nexts + k)).filter
            fun a => s.started s.harbour.byte a == 1 && !s.batch.contains a)) ∧
        Quiet State.sansRuns (fun a => tcbBytes 8 9 a ∨ tcbBytes 0x50 0x58 a ∨ (g.addr + 0x18 ≤ a ∧ a < g.addr + 0x20) ∨
          ∃ k, r.nexts ≤ k ∧ k < stop ∧ g.tcbs + 256 * succ k + 0x0A ≤ a ∧ a < g.tcbs + 256 * succ k + 0x0C) s t)

/-- R95, R96, R136, R138, R144: a step of the matrix engine adds the products of the operation's step to its accumulator's
elements, or to those of its shadow (R55), for an operation of one strand. An MMX round reads its ring slots as they are at one
moment, which is the model's choice (log 57). R139, R434: a finished operation leaves the queue, its flags join FLG and its
counter falls. R145: in a halt an MMX stops between two rounds. -/
def Obligations.MatrixEngineSteps : Prop :=
  ∀ (s : State) (core : Fin 512) (o : MatOp) (m : MatMember) (u : Strand) (rest : List MatOp) (halting : Bool),
    FirstOp s core.val o m u rest → s.engineRuns core.val = some halting →
    let c := core.val
    let x := o.stepIn (s.shelf c) m
    let frame := fun t : State => Quiet (State.sansMatrix c) noByte s t
    let stepped := fun (t : State) (v : Strand) (f : Flags) =>
      MatrixMoves s t c m.slot v ({ o with members := [{ m with flg := m.flg ||| f }], step := o.step + 1
                                           finished := decide (o.step + 1 = o.nstep) } :: rest) ∧
        ((∀ d, m.stream = some d ∨ o.bstream = some d → d.rel = false) ∨ o.mmx = false →
          Quiet (fun w => (State.sansMatrix c w).modCtx c fun x => { x with shadows := [] }) noByte s t)
    (o.runnable = true → (halting = true → o.mmx = false) → (o.inputsReady fun off => (s.barrier c off).phase) = true →
      (∀ n, m.shadow = some n → ∃ t f, exec (.matrixStep core) s = .next t ∧ stepped t u f ∧
        (∀ k < 16, f.getLsbD k = true ↔ stepFlags x (o.rows m) (s.shadowAt c n) k) ∧
        (∀ i < 32, ∀ j < 32, t.shadowAt c n i j =
          if i ∈ o.rows m then (x.element i j (s.shadowAt c n i j)).1 % 2 ^ 32 else s.shadowAt c n i j) ∧
        ∀ k, k ≠ n → ∀ i < 32, ∀ j < 32, t.shadowAt c k i j = s.shadowAt c k i j) ∧
      (m.shadow = none → ∃ t v f, exec (.matrixStep core) s = .next t ∧ stepped t v f ∧
        (∀ k < 16, f.getLsbD k = true ↔ stepFlags x (o.rows m) (u.acc m.acc) k) ∧
        (∀ i < 32, ∀ j < 32, v.acc m.acc i j =
          if i ∈ o.rows m then (x.element i j (u.acc m.acc i j)).1 % 2 ^ 32 else u.acc m.acc i j) ∧
        (∀ a, a ≠ m.acc → ∀ i < 32, ∀ j < 32, v.acc a i j = u.acc a i j) ∧
        { v with accs := [] } = { u with accs := [] } ∧
        ∀ n, ∀ i < 32, ∀ j < 32, (followed rest m n → t.shadowAt c n i j = v.acc m.acc i j) ∧
          (¬followed rest m n → t.shadowAt c n i j = s.shadowAt c n i j))) ∧
    (o.finished = true → m.shadow = none → o.entries = [] → s.noReap o.run → (∀ p ∈ rest, p.spec = false ∨ p.held = false) →
      ∀ g fs, u.flights = g :: fs → g.id = m.flight → (∀ h ∈ fs, h.id ≠ g.id ∧ h.cls ≠ g.cls) →
      ∃ t, exec (.matrixCompletion core) s = .next t ∧
        MatrixMoves s t c m.slot { u with flg := u.flg ||| m.flg, flights := fs } rest ∧ frame t) ∧
    (halting = true → rest = [] → o.mmx = true → o.finished = false → o.stopped = false → o.holders = [] →
      o.joining = none → ∃ t, exec (.matrixEngineStop core) s = .next t ∧
        MatrixMoves s t c m.slot { u with flg := u.flg ||| m.flg } [{ o with members := [{ m with flg := 0 }], stopped := true }] ∧
        frame t)

/-- R173, R175, R477: a fetch command that fits is admitted and expects its bytes; with RW it waits for the release
phase. That its units wait while no port of its die is up is the model's reading of R185 (log 40). R375: COPY moves its next unit.
R448: PUTS writes its words. -/
def Obligations.CommandsGoOn : Prop :=
  ∀ (s : State) (die : Fin 8) (c : Cmd), CmdAt s c → c.frozen = false →
    let frame := fun t : State => Quiet (State.sansCmd c.core) noByte s t
    let sent := c.units.map fun (x : CmdUnit) => if x.landed || x.acked then x else { x with sent := s.sendTime c.core }
    (s.admissible die.val = some c → c.kind.fetch = true → ∀ bar, c.bar = some bar →
      (s.barrier c.core bar).pend + c.bytes < 2 ^ 32 →
      ∃ t, exec (.commandAdmission die) s = .next t ∧
        CmdBecomes s t c (if c.tensor.rw then { c with charge := c.bytes, phase := .release }
          else { c with charge := c.bytes, phase := .active, units := sent }) ∧
        ObjectBecomes s t c.core bar { s.barrier c.core bar with pend := (s.barrier c.core bar).pend + c.bytes } ∧ frame t) ∧
    (c.phase = .release → (s.barrier c.core (c.tensor.rbar + 16 * c.tensor.slot)).phase = c.tensor.rph →
      ∃ t, exec (.fetchReleasePhase c.id) s = .next t ∧ CmdBecomes s t c { c with phase := .active, units := sent } ∧
        { t with cmds := [] } = { s with cmds := [] }) ∧
    (c.phase = .release → (s.barrier c.core (c.tensor.rbar + 16 * c.tensor.slot)).phase ≠ c.tensor.rph →
      exec (.fetchReleasePhase c.id) s = .next s) ∧
    (c.kind = .copy → c.phase = .active → ∀ src u x, c.args = [src] →
      (∀ k < u, ∃ y, c.units[k]? = some y ∧ y.landed = true) → c.units[u]? = some x → x.landed = false →
      let d := CopyDesc.ofBytes c.desc
      let dst := d.dst % 2 ^ 20 + x.off
      let moved := fun (t : State) => ∀ i < x.len, (t.shelf c.bcore).byte (dst + i) = (s.shelf src).byte (d.src % 2 ^ 20 + x.off + i)
      ((∃ k y, k ≠ u ∧ c.units[k]? = some y ∧ y.landed = false) → ∃ t, exec (.copyExecution c.id) s = .next t ∧ moved t ∧
        CmdBecomes s t c { c with units := c.units.set u { x with landed := true }, charge := c.charge - x.len } ∧
        (∀ e a, ¬(e = c.bcore ∧ dst ≤ a ∧ a < dst + x.len) → (t.shelf e).byte a = (s.shelf e).byte a) ∧
        Quiet (State.sansCmd c.bcore) noByte s t) ∧
      ((∀ k y, k ≠ u → c.units[k]? = some y → y.landed = true) → ∃ t, exec (.copyExecution c.id) s = .next t ∧
        t.cmds = s.cmds.filter (·.id ≠ c.id) ∧
        (∀ b, c.bar = some b → b + 16 ≤ dst ∨ dst + x.len ≤ b → (s.barrier c.bcore b).cnt ≠ 0 →
          t.barrier c.bcore b = signalled (s.barrier c.bcore b) false ∧ moved t) ∧
        (c.bar = none → moved t ∧
          ∀ e a, ¬(e = c.bcore ∧ dst ≤ a ∧ a < dst + x.len) → (t.shelf e).byte a = (s.shelf e).byte a))) ∧
    (c.kind = .puts → c.phase = .active → ∀ base, c.args = [base] → (c.words.map (·.1)).Nodup →
      let written := fun (t : State) => ∀ w ∈ c.words, (t.shelf c.bcore).load (base + 4 * w.1) 4 = w.2 % 2 ^ 32
      ∃ t, exec (.putsDelivery c.id) s = .next t ∧ t.cmds = s.cmds.filter (·.id ≠ c.id) ∧
        (∀ b, c.bar = some b → (∀ w ∈ c.words, b + 16 ≤ base + 4 * w.1 ∨ base + 4 * w.1 + 4 ≤ b) →
          (s.barrier c.bcore b).cnt ≠ 0 → t.barrier c.bcore b = signalled (s.barrier c.bcore b) false ∧ written t) ∧
        (c.bar = none → written t ∧
          ∀ e a, ¬(e = c.bcore ∧ ∃ w ∈ c.words, base + 4 * w.1 ≤ a ∧ a < base + 4 * w.1 + 4) →
            (t.shelf e).byte a = (s.shelf e).byte a))

/-- R167, R170, R176, R183, R184, R186, R477, R478: a unit of a fetch lands in the shelf; a unit of a store or of a module
command is written in far memory and acknowledged, while a port of the core's die is up (R11, R185) and FETCHTO has not
passed since it was sent; one that a long port event holds, or whose time has passed, is dropped and lands with ERR; a halted
partition takes either at resume (R254). That an event may hold each unit of the die that was sent before it is the model's
choice (log 40). -/
def Obligations.UnitsLand : Prop :=
  ∀ (s : State) (c : Cmd) (u : Nat) (x : CmdUnit) (bar : Nat), CmdAt s c → c.phase = .active → c.frozen = false →
    c.units[u]? = some x → x.sent.isSome = true → x.landed = false → x.acked = false → c.bar = some bar →
    let at_ := c.tensor.shelfAt x.off
    let lands := fun (t : State) (dropped : Bool) => UnitLands s t c u x ∧
      t.barrier c.core bar = landed (s.barrier c.core bar) x.len dropped
    let inTime := s.farOpen c.core = true ∧ s.time ≤ s.deadline c x
    (c.kind = .tfetch → inTime → bar + 16 ≤ at_ ∨ at_ + x.len ≤ bar →
      ∃ t, exec (.transferUnitLanded c.id u) s = .next t ∧ lands t false ∧
        (∀ i < x.len, (t.shelf c.core).byte (at_ + i) = match c.tensor.byte (x.off + i) with
          | none => 0 | some p => s.farByte c.pages p.1 &&& p.2) ∧
        (∀ e a, ¬(e = c.core ∧ (at_ ≤ a ∧ a < at_ + x.len ∨ bar ≤ a ∧ a < bar + 16)) → (t.shelf e).byte a = (s.shelf e).byte a) ∧
        Quiet (State.sansCmd c.core) noByte s t) ∧
    (inTime → s.holding c.part = false → ∀ place v,
      (c.kind = .tstore ∧ place = (fun i => c.tensor.byte (x.off + i)) ∧ v = (fun i => (s.shelf c.core).byte (c.tensor.shelfAt (x.off + i))) ∨
       c.kind.module = true ∧ (c.kind = .mreduce → x.len % 4 = 0 ∧ x.off % 4 = 0) ∧
        place = (fun i => some (vaWrap ((ModuleCmd.ofBytes c.desc).dst + x.off + i), 0xFF#8)) ∧
        v = (fun i => s.moduleByte c (x.off + i))) →
      ∃ t, exec (.unitAcknowledged c.id u) s = .next t ∧ lands t false ∧ FarStored s t c.pages x.len place v ∧
        (∀ e a, ¬(e = c.core ∧ bar ≤ a ∧ a < bar + 16) → (t.shelf e).byte a = (s.shelf e).byte a) ∧
        Quiet (fun w => (w.sansCmd c.core).sansFar) noByte s t) ∧
    (c.kind.module = true → inTime → s.holding c.part = true → ∃ t, exec (.unitAcknowledged c.id u) s = .next t ∧
      (t.part c.part).held = (s.part c.part).held ++ [.ack c.id u false] ∧
      CmdBecomes s t c { c with units := c.units.set u { x with acked := true } } ∧
      ∀ e, t.core e = s.core e) ∧
    ∀ cause, (cause = .portEvent ∧ s.heldUnit c x = true ∨ cause = .timeout ∧ s.deadline c x ≤ s.time) →
      c.kind.fetch = true ∨ c.kind.module = true →
      ∃ t, exec (.transferUnitDropped c.id u cause) s = .next t ∧
        (s.holding c.part = false → lands t true ∧
          ∀ e a, ¬(e = c.core ∧ bar ≤ a ∧ a < bar + 16) → (t.shelf e).byte a = (s.shelf e).byte a) ∧
        (s.holding c.part = true → (t.part c.part).held = (s.part c.part).held ++ [.ack c.id u true] ∧
          CmdBecomes s t c { c with units := c.units.set u { x with acked := true } } ∧
          ∀ e a, (t.shelf e).byte a = (s.shelf e).byte a) ∧
        (t.core c.core).drops = min ((s.core c.core).drops + 1) 0xFFFF ∧
        (t.part c.part).memerr.toNat % 2 ^ 32 = min ((s.part c.part).memerr.toNat % 2 ^ 32 + 1) 0xFFFFFFFF ∧ t.far = s.far

/-- R15, R16, R145, R219, R252 to R258, R284, R285: a partition halts, parks its contexts in the shadows and resumes. That the
commands are frozen at HALTED and the L1s of a partition that goes to P2 are written back there, and that a step does nothing
in another state, are the model's readings (log 34). -/
def Obligations.PartitionsHaltAndResume : Prop :=
  ∀ (s : State) (part : Fin 16), s.RunsApart →
    let n := part.val
    let p := s.part n
    let cores := fun (t : State) (f : Nat → Core → Prop) => ∀ c, p.hasCore c = true → f c (t.core c)
    let nowWith := fun (q : Partition) => s.modPart n fun _ => q
    (p.pstat ≠ .running → exec (.haltRequest part) s = .next s) ∧
    (p.pstat = .running → ∃ t, exec (.haltRequest part) s = .next t ∧
      t.runs = s.runs.map (fun (r : TaskRun) => if r.stopsIn n then { r with preempted := true } else r) ∧
      (∀ r ∈ s.runs, r.stopsIn n = true → t.harbour.load (r.tcb + 8) 1 = 7) ∧
      Quiet State.sansRuns (s.stateBytes (·.stopsIn n)) (nowWith { p with pstat := .halting }) t) ∧
    (p.pstat = .halting → s.stopped n = true → s.mgmt.wantP3 = false → ∃ t, exec (.halted part) s = .next t ∧
      (t.part n).pstat = .halted ∧ (t.part n).power = (if p.wantP2 && !p.debugHalt then .p2 else p.power) ∧
      (∀ c k u, p.hasCore c = true → s.strand? c k = some u → ∃ v, t.strand? c k = some v ∧ v.keep = none ∧
        (∀ e, v.split e = (u.split e).halted) ∧ { v with keep := none, splits := [] } = { u with keep := none, splits := [] }) ∧
      cores t (fun c k => (∀ l ∈ k.ctx.latches, l.waiting = []) ∧ k.ctx.shelf = (s.ctx c).shelf ∧ k.ctx.queue = (s.ctx c).queue) ∧
      t.cmds = s.cmds.map (fun (c : Cmd) => if c.part = n then c.halted else c) ∧ t.runs = s.runs ∧
      (p.wantP2 = false ∨ p.debugHalt = true → t.harbour = s.harbour ∧ (∀ c, (t.core c).l1 = (s.core c).l1) ∧
        t.sansPart n = (nowWith (t.part n)).sansPart n) ∧
      (p.wantP2 = true → p.debugHalt = false → cores t (fun _ k => ∀ l ∈ k.l1, l.2.dirty = 0) ∧
        (∀ c a, p.hasCore c = true → (∀ e, p.hasCore e = true → e ≠ c → ¬s.dirtyAt e a) → t.harbour.byte a = s.seen c true a) ∧
        (∀ a, (∀ c, p.hasCore c = true → ¬s.dirtyAt c a) → t.harbour.byte a = s.harbour.byte a))) ∧
    (p.pstat ≠ .halting ∨ s.stopped n = false → exec (.halted part) s = .next s) ∧
    (p.pstat = .halted → p.power ≠ .p2 → p.wantP2 = false → (∀ r ∈ s.requests, r.part = n → r.state.closed = true) →
      s.mgmt.waiting = [] → ∃ t, exec (.contextExchange part) s = .next t ∧ (t.part n).pstat = .parked ∧
      cores t (fun c k => k.ctx = (s.core c).parked ∧ k.parked = s.ctx c ∧ k.l1 = [] ∧ k.icache = []) ∧
      (∀ c a, p.hasCore c = true → (∀ e, p.hasCore e = true → e ≠ c → ¬s.dirtyAt e a) → ¬s.inRing a →
        t.harbour.byte a = s.seen c true a) ∧ t.cmds = s.cmds ∧ t.runs = s.runs ∧
      Quiet (State.sansPart n) (fun a => ∃ c, p.hasCore c = true ∧ s.dirtyAt c a) (nowWith { p with pstat := .parked }) t) ∧
    (p.pstat ≠ .halted ∨ (∃ r ∈ s.requests, r.part = n ∧ r.state.closed = false) →
      exec (.contextExchange part) s = .next s) ∧
    (exec (.resumeRequest part) s = .next (if p.pstat = .running then s else nowWith { p with resume := true })) ∧
    (p.pstat = .parked → p.resume = true → p.debugHalt = false → p.power ≠ .p2 → p.wantP2 = false → p.held = [] →
      (∀ c k u, p.hasCore c = true → (s.core c).parked.strands.at? k = some u → u.stack.length ≤ p.depth) →
      ∃ t, exec (.resumeComplete part) s = .next t ∧ (t.part n).pstat = .running ∧ (t.part n).resume = false ∧
      cores t (fun c k => k.parked = s.ctx c ∧ k.l1 = [] ∧ k.ctx.shelf = (s.core c).parked.shelf ∧
        (∀ j, k.ctx.strands.at? j = ((s.core c).parked.strands.at? j).map fun u => u.readyFrom (s.cycle c (j / 64))) ∧
        k.ctx.queue = (s.core c).parked.queue.map fun (o : MatOp) => { o with stopped := false }) ∧
      t.cmds = s.cmds.map (fun (c : Cmd) => if c.part = n then c.resumed (s.sendTime c.core) else c) ∧
      t.runs = s.runs.map (fun (r : TaskRun) => if r.goesOnIn n then { r with preempted := false } else r) ∧
      (∀ r ∈ s.runs, r.goesOnIn n = true → (∀ q ∈ s.runs, q ≠ r → q.tcb ≠ r.tcb) → t.harbour.load (r.tcb + 8) 1 = if r.stage = 0 then 3 else 4) ∧
      Quiet (State.sansPart n) (fun a => s.stateBytes (·.goesOnIn n) a ∨ ∃ c, p.hasCore c = true ∧ s.dirtyAt c a)
        (nowWith { p with pstat := .running, resume := false }) t) ∧
    (p.pstat ≠ .parked ∨ p.resume = false ∨ p.debugHalt = true ∨ p.power = .p2 ∨ p.wantP2 = true →
      exec (.resumeComplete part) s = .next s)

/-- R16, R19, R204, R284, R285: a request for a power state, and a change of the power budget. A partition that goes to P2 has
written back its L1s; in P3 the ports are idle, and what was under way there is sent again when they are up, which is the
model's reading (log 63); P4 leaves the wear of the ports. -/
def Obligations.PowerStatesChange : Prop :=
  ∀ (s : State) (part : Fin 16) (b : BudgetChange),
    let n := part.val
    let p := s.part n
    let asks := fun (q : PowerRequest) => exec (.powerStateRequest q) s
    let awake := s.mgmt.lifecycle ≠ .retired ∧ s.mgmt.p3 = false ∧ s.mgmt.wantP3 = false
    let woken := fun (pw : Power) (beyond : Bool) => s.modPart n fun _ =>
      { p with power := pw, budgeted := beyond, wantP2 := false
               resume := p.resume || ((p.power == .p2 || p.wantP2) && p.pstat != .running) }
    (awake → asks (.p0 part) = .next (if s.mgmt.fits then woken .p0 false else woken .p1 true)) ∧
    (awake → asks (.p1 part) = .next (woken .p1 false)) ∧
    (¬awake → asks (.p0 part) = .next s ∧ asks (.p1 part) = .next s) ∧
    (p.power = .p2 → asks (.p2 part) = .next s) ∧
    (p.power ≠ .p2 → p.debugHalt = false → p.pstat = .halted ∨ p.pstat = .parked → s.canonical = true →
      ∃ t, asks (.p2 part) = .next t ∧ (t.part n).sansRings = { p.sansRings with power := .p2, wantP2 := false } ∧
        (∀ c, p.hasCore c = true → ∀ l ∈ (t.core c).l1, l.2.dirty = 0) ∧
        (∀ c a, p.hasCore c = true → (∀ e, p.hasCore e = true → e ≠ c → ¬s.dirtyAt e a) → t.harbour.byte a = s.seen c true a) ∧
        (∀ a, (∀ c, p.hasCore c = true → ¬s.dirtyAt c a) → t.harbour.byte a = s.harbour.byte a) ∧
        (∀ c a, t.seen c false a = s.seen c false a ∨ p.hasCore c = false) ∧ t.cmds = s.cmds ∧ t.runs = s.runs) ∧
    (p.power ≠ .p2 → p.debugHalt = true ∨ p.pstat = .halting →
      asks (.p2 part) = .next (s.modPart n fun _ => { p with wantP2 := true })) ∧
    (p.power ≠ .p2 → p.debugHalt = false → p.pstat = .running → ∃ t, asks (.p2 part) = .next t ∧
      (t.part n).pstat = .halting ∧ (t.part n).wantP2 = true ∧ t.cores = s.cores ∧ t.cmds = s.cmds) ∧
    (s.requests = [] → s.colls = [] → s.ebbing = false → (∀ q, (s.part q).halves ≠ 0 → (s.part q).power = .p2) →
      (∀ e ∈ s.parts, s.part e.1 = e.2) →
      asks .p3 = .next { s with cmds := s.cmds.map Cmd.idled, mgmt := { s.mgmt with p3 := true, wantP3 := false } }) ∧
    (s.mgmt.p3 = false → asks .leaveP3 = .next { s with mgmt := { s.mgmt with p3 := false, wantP3 := false } }) ∧
    (s.mgmt.p3 = true → ∃ t, asks .leaveP3 = .next t ∧ t.mgmt = { s.mgmt with p3 := false, wantP3 := false } ∧
      (∀ k < 64, t.port k = { s.port k with warming := [], down := some s.time }) ∧
      { t with mgmt := s.mgmt, ports := [] } = { s with ports := [] }) ∧
    (∃ t, asks .p4 = .next t ∧ t.mgmt.p4 = true ∧ t.harbour = [] ∧ t.cores = [] ∧ t.parts = [] ∧ t.cmds = [] ∧ t.runs = [] ∧
      t.mgmt.lifecycle = s.mgmt.lifecycle ∧ t.mgmt.applied = s.mgmt.applied ∧ t.mgmt.firmware = s.mgmt.firmware ∧
      ∀ k, t.port k = { s.port k with warming := [], down := none }) ∧
    ∃ t, exec (.powerBudgetChange b) s = .next t ∧ t.mgmt.fits = b.fits ∧
      t.mgmt.mhz = (if b.fits then (if 2000 ≤ b.mhz ∧ b.mhz ≤ 2200 then b.mhz else s.mgmt.mhz) else 2000) ∧
      (s.parts.sorted = true → p.halves ≠ 0 → t.part n =
        if b.fits = false ∧ p.power = .p0 then { p with power := .p1, budgeted := true }
        else if b.fits = true ∧ p.power = .p1 ∧ p.budgeted = true then { p with power := .p0, budgeted := false } else p) ∧
      { t with parts := [], mgmt := {} } = { s with parts := [], mgmt := {} }

/-- R263, R270 to R274: ebb ends at its deadline or when nothing accepted is unanswered; slack follows, which fails after 100
µs, then authentication by an allowed peer within 200 µs, for which this package sends a nonce, and flood; a group that loses
lock begins with slack; a commit swaps the routing table. PERS set at the end of slack, with the lock, and a failed authentication that leaves PHASE 0 with UP
are the model's choices (log 33), as is the form of what the sides sign (log 64). -/
def Obligations.LinksChange : Prop :=
  ∀ (s : State) (g part : Fin 16) (c : Change) (v : BitVec 16),
    let gs := s.changing c.lead
    let ebb := fun (i : Instr) => ∃ t, exec i s = .next t ∧ SameTopo s t ∧ GroupsBecome s t gs (fun e =>
        { e with phase := 2, up := false, change := some { c with start := s.time } }) ∧
      (∀ r ∈ t.requests, r.state = .sent → ∀ k, r.group = some k → k ∉ gs) ∧ Quiet State.sansLinks noByte s t
    (InChange s g.val c 1 → c.pers ≠ 3 →
      ((∀ r ∈ s.requests, r.state = .accepted → ∀ k, r.group = some k → k ∉ gs) → ebb (.ebbEnd g)) ∧
      ((∃ r ∈ s.requests, r.state = .accepted ∧ ∃ k ∈ gs, r.group = some k) → exec (.ebbEnd g) s = .next s) ∧
      (c.start + 50 * 10 ^ 6 ≤ s.time → ebb (.ebbDeadline g)) ∧
      (s.time < c.start + 50 * 10 ^ 6 → exec (.ebbDeadline g) s = .next s)) ∧
    (InChange s g.val c 2 →
      (s.time ≤ c.start + 100 * 10 ^ 6 → c.bond = true ∨ (∀ k ∈ gs, (s.group k).bond = false) →
        ∃ t, exec (.slackEnd g true) s = .next t ∧ SameTopo s t ∧
        GroupsBecome s t gs (fun e => { e with
          pers := c.pers, up := true, bond := c.bond, phase := if c.pers = 0 then 4 else 3
          change := some { c with start := s.time, nonce := if c.pers = 0 then c.nonce else s.free } }) ∧
        t.wire = (if c.pers = 0 then s.wire else Config.nonce s.free) ∧ Quiet State.sansLinks noByte s t) ∧
      ∀ ok, ok = false ∨ c.start + 100 * 10 ^ 6 < s.time → ∃ t, exec (.slackEnd g ok) s = .next t ∧ SameTopo s t ∧
        ChangeTold s t c 6 ∧ GroupsBecome s t gs (fun e => { e with change := none, phase := 5 })) ∧
    (InChange s g.val c 3 →
      (∀ x, Authentic s c gs x → s.time ≤ c.start + 200 * 10 ^ 6 →
        ∃ t, exec (.authEnd g (some x)) s = .next t ∧ SameTopo s t ∧ GroupsBecome s t gs (fun e => { e with
          quar := if c.issuer.isSome then false else e.quar, phase := 4, change := some { c with start := s.time } }) ∧
        Quiet State.sansLinks noByte s t) ∧
      (s.time < c.start + 200 * 10 ^ 6 → exec (.authEnd g none) s = .next s) ∧
      ∀ y, (y = none ∧ c.start + 200 * 10 ^ 6 ≤ s.time) ∨
          (∃ x, y = some x ∧ (¬Authentic s c gs x ∨ c.start + 200 * 10 ^ 6 < s.time)) →
        ∃ t, exec (.authEnd g y) s = .next t ∧ SameTopo s t ∧ ChangeTold s t c 4 ∧
        (∀ r ∈ s.requests, r.state.open? = true → (∃ k ∈ gs, r.node ∈ s.nodesOf k) → s.heldByChange r.node false = true →
          ∀ x ∈ t.requests, x.id = r.id → x.state = .failed 4) ∧
        GroupsBecome s t gs (fun e => { e with quar := true, change := none, phase := 0 })) ∧
    (InChange s g.val c 4 → ∃ t, exec (.flood g) s = .next t ∧ ChangeTold s t c 0 ∧
      t.topover = (if c.commit then c.newver else s.topover) ∧ t.routes = (if c.commit then s.routesNext else s.routes) ∧
      t.routesNext = s.routesNext ∧
      GroupsBecome s t gs (fun e => { e with ver := if c.commit then c.newver else s.topover, change := none, phase := 0 })) ∧
    ((s.group g.val).change = none → (s.group g.val).phase = 0 → (s.group g.val).up = true →
      (s.group g.val).pers = 1 ∨ (s.group g.val).pers = 2 → s.canonical = true → s.Calm → ∃ t, exec (.lossOfLock g) s = .next t ∧
      SameTopo s t ∧ GroupsBecome s t [g.val] (fun e => { e with
        up := false, phase := 2
        change := some { issuer := none, lead := g.val, pers := e.pers, bond := false, commit := false, newver := 0
                         start := s.time, began := s.time } }) ∧
      Quiet State.sansLinks noByte s t) ∧
    ((s.group g.val).change ≠ none ∨ (s.group g.val).phase ≠ 0 → exec (.lossOfLock g) s = .next s) ∧
    (s.linkOwner = some part.val → v ≠ s.topover → s.committing = false → s.canonical = true → s.Calm →
      ∃ t, exec (.topocmtWrite part v) s = .next t ∧ t.topover = v ∧ t.routes = s.routesNext ∧ t.routesNext = s.routesNext ∧
        t.groups = s.groups ∧ (∀ r ∈ t.requests, r.state ≠ .stale) ∧ Quiet State.sansLinks noByte s t) ∧
    (s.linkOwner ≠ some part.val ∨ v = s.topover ∨ s.committing = true → exec (.topocmtWrite part v) s = .next s)

/-- R210, R259, R264 to R268: a peer's request of 1 to 256 bytes is performed once, or refused; this package's requests to a node
are accepted in their order, before PEERTO has passed; a reply or PEERTO ends one, and with an access's last request the access
is over; records of replies expire. How PEERTO counts (`waited`, `since`) and that a request of another size has no effect (log
38), that a STALE reply leaves no record (log 62), and the status of a late request that waits to be sent (log 69), are the
model's choices. -/
def Obligations.PeerRequestsAreServed : Prop :=
  ∀ (s : State) (r : PeerReq) (q : Request) (a : PeerAnswer), s.canonical = true →
    let limit := s.peerto.toNat * 10 ^ 6
    let same := fun (x : Replay) => x.node == r.node.val && x.tag == r.tag && x.gen == r.gen
    let known := fun (x : Replay) => same x && decide (s.time < x.time + 2 * limit)
    let counted := fun (x : Request) => x.waited + (match x.since with | some n => s.time - n | none => 0)
    let tells := fun (st : Nat) (d : List Byte) (keep : Bool) => { s with
      wire := replyOf r st d
      replays := if keep then s.replays ++ [{ node := r.node.val, tag := r.tag, gen := r.gen, status := st, data := d, time := s.time }]
        else s.replays : State }
    let win := s.peerwin.toNat
    let inside := win % 2 ^ 18 * 4096 ≤ r.addr ∧ r.addr + peerBytes r.op ≤ win / 2 ^ 32 % 2 ^ 18 * 4096
    let sized := 1 ≤ peerBytes r.op ∧ peerBytes r.op ≤ 256
    let i := Instr.peerRequest (.inbound r)
    (∀ x, s.replays.find? known = some x → exec i s = .next (tells x.status x.data false)) ∧
    (s.replays.find? known = none → ¬sized → exec i s = .next s) ∧
    (s.replays.find? known = none → sized → ¬inside → exec i s = .next (tells 3 [] true)) ∧
    (s.replays.find? known = none → sized → inside → r.ver.toNat ≠ s.topover.toNat % 2 ^ 8 → exec i s = .next (tells 5 [] false)) ∧
    (s.replays.find? known = none → sized → inside → r.ver.toNat = s.topover.toNat % 2 ^ 8 → ∃ t, exec i s = .next t ∧
      (∀ b, t.harbour.byte b = (peerDone s r.addr r.op).2 b) ∧
      { t with harbour := s.harbour } = tells 0 (peerDone s r.addr r.op).1 true) ∧
    (q ∈ s.requests → (s.requests.map (·.id)).Nodup →
      let takes := q.state = .sent ∧ counted q < limit ∧
        ∀ x ∈ s.requests, x.id < q.id → x.node = q.node → x.state = .accepted ∨ x.state.closed = true
      (takes → exec (.peerRequest (.accepted q.id)) s = .next { s with
        requests := s.requests.map fun (x : Request) => if x.id = q.id then { x with state := .accepted } else x }) ∧
      (¬takes → exec (.peerRequest (.accepted q.id)) s = .next s)) ∧
    (q.node = a.node.val → q.tag = some a.tag.toNat → q.gen = a.gen → q.state.closed = false → OnlyOpen s q → s.Calm →
      ∃ t, exec (.peerReply a) s = .next t ∧
        (a.status.val = 0 → RequestBecomes s t q (.answered a.data)) ∧
        (a.status.val = 5 → s.topover.setWidth 8 = q.ver → RequestBecomes s t q .stale) ∧
        (a.status.val ≠ 0 → a.status.val ≠ 5 → RequestBecomes s t q (.failed a.status.val))) ∧
    (q.node = a.node.val → q.tag = some a.tag.toNat → q.gen = a.gen → q.state.closed = false → OnlyOpen s q → a.status.val = 0 →
      ∀ j u w, s.AwaitedBy q j u w → u.entering = none → w.acq = true →
        ∃ t, exec (.peerReply a) s = .next t ∧ (t.core q.core).l1 = []) ∧
    ((∀ x ∈ s.requests, ¬(x.node = a.node.val ∧ x.tag = some a.tag.toNat ∧ x.gen = a.gen ∧ x.state.closed = false)) →
      ∃ t, exec (.peerReply a) s = .next t ∧
        (t.core (Store.read 0 s.tagCore a.tag.toNat)).late = min ((s.core (Store.read 0 s.tagCore a.tag.toNat)).late + 1) (max 0xFFFF (s.core (Store.read 0 s.tagCore a.tag.toNat)).late) ∧
        t.requests = s.requests ∧ Quiet (fun u => { u with cores := [] }) noByte s t) ∧
    (OnlyOpen s q → s.Calm → limit ≤ counted q → ∀ st,
      (q.state = .queued ∨ q.state = .sent) ∧ st = (if q.tag.isSome then 2 else 1) ∨ q.state = .stale ∧ st = 5 →
      ∃ t, exec (.peerTimeout q.id) s = .next t ∧ RequestBecomes s t q (.failed st)) ∧
    (s.req? q.id = some q → q.state = .accepted ∨ counted q < limit →
      exec (.peerTimeout q.id) s = .next s) ∧
    ∃ t, exec (.replayRecordExpiry r.node r.tag r.gen) s = .next t ∧ { t with replays := [] } = { s with replays := [] } ∧
      ∀ x, x ∈ t.replays ↔ x ∈ s.replays ∧ ¬(same x = true ∧ x.time + 2 * limit ≤ s.time)

/-- R265, R277 to R280, R346, R347: chunks are sent under credit, refused, accepted, sent again; a finished operation tells its
strand. That a timeout returns the credits of chunks that were carried and not accepted is the model's choice (log 29), as are
the layout of a chunk on the wire (log 5) and that one refused for its key is not sent again (log 65). -/
def Obligations.ChunksMove : Prop :=
  ∀ (s : State) (node : Fin 4096) (ch : ChunkIn) (k : ChunkId) (o : CollOp) (c : Chunk) (ver : BitVec 8) (comm : Fin 64),
    let own : BitVec 8 := s.topover.setWidth 8
    let answers := fun (st : Nat) => exec (.chunkReceive ch) s =
      .next { s with wire := bytesOf 1 st ++ [own] ++ bytesOf 2 ch.seq.toNat ++ bytesOf 4 ch.idx }
    let d := (ver - own).toNat
    (∀ g, s.groupFor node.val true = some g → s.nextChunk node.val = some (o, c) → (s.colls.map (·.cmd)).Nodup → o ∈ s.colls →
      (o.chunks.map (·.idx)).Nodup →
      ∃ t, exec (.chunkSend node) s = .next t ∧
        t.wire = bytesOf 1 o.comm ++ [own] ++ bytesOf 4 s.uetkey.toNat ++ bytesOf 2 o.seq.toNat ++ bytesOf 4 c.idx ++ c.data ∧
        (t.channel o.comm).credits = (s.channel o.comm).credits - (if c.carried then 0 else 1) ∧
        (∃ x ∈ t.colls, x.cmd = o.cmd ∧ (∀ y ∈ x.chunks, y.idx = c.idx →
          y.sent = true ∧ y.group = g ∧ y.ver = own ∧ y.carried = true ∧ y.stale = c.stale)) ∧
        t.turns.read 63 (2 * node.val + flag o.ring.high) = o.comm ∧ t.sansChunks = s.sansChunks) ∧
    (ch.key ≠ s.uetkey → answers 3) ∧
    (ch.key = s.uetkey → ch.ver ≠ own → answers 5) ∧
    (ch.key = s.uetkey → ch.ver = own → s.duplicate ch = true → answers 0) ∧
    (ch.key = s.uetkey → ch.ver = own → s.duplicate ch = false →
      (2 ≤ (s.channel ch.comm.val).bufs.length → exec (.chunkReceive ch) s = .next s) ∧
      ((s.channel ch.comm.val).bufs.length < 2 → s.headColl ch.comm.val = none → ∃ t, exec (.chunkReceive ch) s = .next t ∧
        (t.channel ch.comm.val).bufs = (s.channel ch.comm.val).bufs ++ [(ch.seq.toNat, ch.idx, ch.data)] ∧
        t.wire = bytesOf 1 0 ++ [own] ++ bytesOf 2 ch.seq.toNat ++ bytesOf 4 ch.idx ∧ t.sansChunks = s.sansChunks)) ∧
    (ChunkOf s k o c →
      (c.sent = true → c.counting = false ∨ elapsed s.time c.waited c.since < s.peerto.toNat * 10 ^ 6 →
        ∃ t, exec (.chunkAccepted k) s = .next t ∧ ChunkBecomes s t o c.idx fun x => { x with accepted := true }) ∧
      (c.sent = true → ∃ t, exec (.staleNack ⟨k, ver, true⟩) s = .next t ∧ ChunkBecomes s t o c.idx fun x => { x with
        stale := false, refused := true }) ∧
      (c.sent = true → ∃ t, exec (.staleNack ⟨k, ver, false⟩) s = .next t ∧ ChunkBecomes s t o c.idx fun x => { x with
        sent := false, stale := true, refused := false, awaitsCommit := decide (1 ≤ d ∧ d ≤ 127)
        resend := if d = 0 ∨ d ≤ 127 then none else some (s.time + 20 * 10 ^ 6) }) ∧
      (∀ n, c.resend = some n → n ≤ s.time → ∃ t, exec (.chunkResend k) s = .next t ∧
        ChunkBecomes s t o c.idx fun x => { x with resend := none }) ∧
      (c.counting = true → s.peerto.toNat * 10 ^ 6 ≤ c.waited + (match c.since with | some n => s.time - n | none => 0) →
        ∃ t, exec (.chunkTimeout k) s = .next t ∧
          t.colls = s.colls.map (fun (x : CollOp) => if x.cmd = o.cmd then
            { x with status := if c.carried = false then 1 else if c.stale then 5 else if c.refused then 3 else 2 } else x) ∧
          (t.channel o.comm).credits = min 2 ((s.channel o.comm).credits +
            o.chunks.countP fun x => x.carried && !x.accepted) ∧ t.sansChunks = s.sansChunks)) ∧
    (∃ t, exec (.creditReturn comm true) s = .next t ∧ (t.channel comm.val).credits = min 2 ((s.channel comm.val).credits + 1) ∧
      t.sansChunks = s.sansChunks) ∧
    (0 < (s.channel comm.val).owed → ∃ t, exec (.creditReturn comm false) s = .next t ∧
      (t.channel comm.val).owed = (s.channel comm.val).owed - 1 ∧ t.wire = [BitVec.ofNat 8 comm.val] ∧ t.sansChunks = s.sansChunks) ∧
    ∀ e rest bar off j u, s.colls = o :: rest → o.comm = comm.val → (∀ x ∈ rest, x.comm ≠ comm.val ∧ x.cmd ≠ o.cmd) → s.collDone o = true →
      o.status = 0 → s.canonical = true → s.cmd? o.cmd = some e → s.holding e.part = false → s.noReap e.run →
      e.bar = some bar → (e.words.head?).map (·.2) = some off → e.bcore = e.core →
      (bar + 16 ≤ off + 0x1C ∨ off + 0x1E ≤ bar) → (s.barrier e.core bar).cnt ≠ 0 →
      s.strand? e.core j = some u → u.uid = e.uid → (∀ n w, s.strand? e.core n = some w → w.uid = e.uid → n = j) →
      ∃ t, exec (.collCompletion comm) s = .next t ∧ t.colls.map (·.cmd) = rest.map (·.cmd) ∧
        t.cmds = s.cmds.filter (·.id ≠ e.id) ∧ (t.shelf e.core).load (off + 0x1C) 2 = 0 ∧
        t.barrier e.core bar = signalled (s.barrier e.core bar) false ∧
        t.strand? e.core j = some (u.arrive e.flight) ∧ t.harbour = s.harbour ∧ t.far = s.far

/-- R211, R259: the host's accesses to harbour and, in the far aperture, to far memory, through a last-level TLB (R481), while
a CXL group is up. R283: accesses under a grant of FULL. Which die's TLB serves the host is the model's choice (log 36). -/
def Obligations.HostAccesses : Prop :=
  ∀ (s : State) (core : Fin 512) (slot : Fin 256) (part : Fin 16) (csr : Fin 16384) (v : DWord) (a n : Nat) (bs : List Byte),
    s.canonical = true →
    let q := s.part part.val
    let home := fun (m : Nat) => (List.range m).map fun k => s.harbour.byte (a + k)
    let refused := fun (i : Instr) => ∃ t, exec i s = .next t ∧ Answered s t true []
    let fits := fun (m : Nat) => a + m ≤ Config.harbourBytes
    let mapped := fun (m : Nat) => ∃ base size, s.mgmt.aperture = some (part.val, base, size) ∧ base ≤ a ∧ a + m ≤ base + size
    let up := ∃ g < 16, (s.group g).pers = 0 ∧ (s.group g).up = true ∧ (s.group g).phase = 0
    (up → fits n → ∃ t, exec (.hostCxlMemAccess (.readHarbour a n)) s = .next t ∧ Answered s t false (home n)) ∧
    (up → fits bs.length → ∃ t, exec (.hostCxlMemAccess (.writeHarbour a bs)) s = .next t ∧ Wrote s t a bs) ∧
    (¬up ∨ ¬fits n → refused (.hostCxlMemAccess (.readHarbour a n))) ∧
    (¬up ∨ ¬fits bs.length → refused (.hostCxlMemAccess (.writeHarbour a bs))) ∧
    (¬up ∨ ¬mapped n → refused (.hostCxlMemAccess (.readFar part a n))) ∧
    (¬up ∨ ¬mapped bs.length → refused (.hostCxlMemAccess (.writeFar part a bs))) ∧
    (∀ g, s.cxlGroup = some g →
      (∀ ps u, mapped n → s.hostPages (hostDie g) part.val a false n = (some ps, u) →
        ∃ t, exec (.hostCxlMemAccess (.readFar part a n)) s = .next t ∧
          Answered u t false ((List.range n).map fun k => s.farByte ps (a + k)) ∧ u.sansTlb = s.sansTlb) ∧
      (∀ ps u, mapped bs.length → s.hostPages (hostDie g) part.val a true bs.length = (some ps, u) → a + bs.length ≤ 2 ^ 52 →
        ∃ t, exec (.hostCxlMemAccess (.writeFar part a bs)) s = .next t ∧
          FarStored s t ps bs.length (fun k => some (a + k, 0xFF#8)) (fun k => bs.getD k 0) ∧
          Answered u.sansFar t.sansFar false [] ∧ u.sansTlb = s.sansTlb) ∧
      ∀ e, mapped 1 → a < 2 ^ 52 → q.fptroot.toNat.testBit 63 = true →
        tlbFind (s.dieTlb.read [] (hostDie g)) part.val a = some e → e.leaf.getLsbD 2 = true →
        ∃ t, exec (.hostCxlMemAccess (.readFar part a 1)) s = .next t ∧
          Answered s t false [s.farByte [pageOf a e.leaf.toNat e.size] a]) ∧
    (q.fptroot.toNat.testBit 63 = false → 0 < n → refused (.hostCxlMemAccess (.readFar part a n))) ∧
    (q.debugLevel ≠ .full → refused (.hostDebugAccess (.readHarbour part a n)) ∧ refused (.hostDebugAccess (.writeHarbour part a bs)) ∧
      refused (.hostDebugAccess (.readCsr part csr)) ∧ refused (.hostDebugAccess (.writeCsr part csr v))) ∧
    (q.debugLevel = .full → q.hwbase.toNat ≤ a →
      (a + n ≤ q.hwlimit.toNat → ∃ t, exec (.hostDebugAccess (.readHarbour part a n)) s = .next t ∧ Answered s t false (home n)) ∧
      (a + bs.length ≤ q.hwlimit.toNat → ∃ t, exec (.hostDebugAccess (.writeHarbour part a bs)) s = .next t ∧ Wrote s t a bs)) ∧
    (q.debugLevel = .full → (∀ x, s.partCsr? part.val csr.val = some x →
        ∃ t, exec (.hostDebugAccess (.readCsr part csr)) s = .next t ∧ Answered s t false (bytesOf 8 x.toNat)) ∧
      ∀ u, s.setPartCsr? part.val csr.val v = some u →
        ∃ t, exec (.hostDebugAccess (.writeCsr part csr v)) s = .next t ∧ Answered u t false []) ∧
    (∀ p u, s.partOf? core.val = some p → (s.part p).debugLevel = .full →
      (if (s.part p).pstat = .parked then (s.core core.val).parked else s.ctx core.val).strands.at? slot.val = some u →
      (∀ x, u.csr? true csr.val = some x → ∃ t, exec (.hostDebugAccess (.readStrandCsr core slot csr)) s = .next t ∧
        Answered s t false (bytesOf 8 x.toNat)) ∧
      ∀ w, u.setCsr? true v csr.val = some w → ∃ t, exec (.hostDebugAccess (.writeStrandCsr core slot csr v)) s = .next t ∧
        (if (s.part p).pstat = .parked then (t.core core.val).parked else t.ctx core.val).strands.at? slot.val = some w ∧
        (∀ c, c ≠ core.val → t.core c = s.core c) ∧ t.harbour = s.harbour ∧ t.mgmt.reply = [0]) ∧
    ((s.partOf? core.val = none ∨ ∃ p, s.partOf? core.val = some p ∧ (s.part p).debugLevel ≠ .full) →
      refused (.hostDebugAccess (.readShelf core a n)) ∧ refused (.hostDebugAccess (.writeShelf core a bs))) ∧
    ∀ p, s.partOf? core.val = some p → (s.part p).debugLevel = .full →
      let m := fun (u : State) => if (s.part p).pstat = .parked then (u.core core.val).parked.shelf else u.shelf core.val
      (a + n ≤ Config.shelfBytes → ∃ t, exec (.hostDebugAccess (.readShelf core a n)) s = .next t ∧
        Answered s t false ((List.range n).map fun k => (m s).byte (a + k))) ∧
      (a + bs.length ≤ Config.shelfBytes → ∃ t, exec (.hostDebugAccess (.writeShelf core a bs)) s = .next t ∧
        (∀ b, (m t).byte b = if a ≤ b ∧ b < a + bs.length then bs.getD (b - a) 0 else (m s).byte b) ∧
        (∀ c, c ≠ core.val → t.core c = s.core c) ∧ t.mgmt.reply = [0] ∧ t.harbour = s.harbour ∧ t.parts = s.parts)

/-- R16, R19, R249, R282 to R295: attestation, firmware, configuration, debug grants, RESET, and the core clocks, which in P1
are those of 1.0 GHz. A record of a depth waits as long as its partition is not parked (R249). A record that cannot stand when
it is applied is refused (log 37); a grant stands until it is raised. -/
def Obligations.ManagementActs : Prop :=
  ∀ (s : State) (part : Fin 16) (nonce : BitVec 384) (img : List (BitVec 8)) (r : ConfigRecord) (l : DebugLevel)
    (tok : Option DebugToken) (n : Nat),
    let p := part.val
    let q := s.part p
    (∃ t sig report, exec (.attestationReport nonce) s = .next t ∧ t.mgmt.reply = 0 :: (report ++ sig) ∧
      sig = Config.signature s.free report ∧
      report = bytesOf 1 (match s.mgmt.lifecycle with | .open => 0 | .secured => 1 | .retired => 2) ++
        Config.sha384 s.mgmt.firmware ++ Config.sha384 (s.mgmt.applied.flatMap (·.message)) ++ bytesOf 48 nonce.toNat ∧
      { t with free := 0, mgmt := { t.mgmt with reply := [] } } = { s with free := 0, mgmt := { s.mgmt with reply := [] } }) ∧
    (s.mgmt.mailbox = false ∨ signedImage img = false → exec (.firmwareImage img) s = .next s) ∧
    (s.mgmt.mailbox = true → signedImage img = true → s.mgmt.applied = [] → ∃ t, exec (.firmwareImage img) s = .next t ∧
      t.mgmt = { s.mgmt with mailbox := false, firmware := img, p3 := false, wantP3 := false } ∧
      (∀ k < 64, t.port k = { s.port k with warming := [], down := some s.time }) ∧
      { t with ports := [], mgmt := {} } = { s with ports := [], mgmt := {} }) ∧
    (Config.verifies Config.configurationKey r.message r.sig = false → ∃ t, exec (.configurationRecord r) s = .next t ∧
      Answered s t true []) ∧
    (Config.verifies Config.configurationKey r.message r.sig = true → s.mgmt.waiting = [] → ∀ h d,
      r.items = [.partition part h d] → 1 ≤ d.val → d.val ≤ 16 → h ≠ 0 → q.halves = 0 → s.parts = [] →
      ∃ t, exec (.configurationRecord r) s = .next t ∧ (t.part p).halves = h ∧ (t.part p).depth = d.val ∧
        (t.part p).power = (if s.mgmt.p3 ∨ s.mgmt.lifecycle = .retired then .p2 else if s.mgmt.fits then .p0 else .p1) ∧
        (t.part p).pstat = (if s.mgmt.p3 ∨ s.mgmt.lifecycle = .retired then .halted else .running) ∧
        t.mgmt.applied = s.mgmt.applied ++ [r] ∧ t.mgmt.waiting = [] ∧ t.mgmt.reply = [0] ∧
        { t with parts := [], mgmt := {} } = { s with parts := [], mgmt := {} }) ∧
    (Config.verifies Config.configurationKey r.message r.sig = true → s.mgmt.waiting = [] → ∀ h d,
      r.items = [.partition part h d] → h ≠ q.halves → s.holdsContext p = true →
      ∃ t, exec (.configurationRecord r) s = .next t ∧ t.mgmt.waiting = [r] ∧ t.part p = q ∧
        { t with mgmt := {} } = { s with mgmt := {} }) ∧
    (Config.verifies Config.configurationKey r.message r.sig = true → s.mgmt.waiting = [] → ∀ d,
      r.items = [.depth part d] → 1 ≤ d.val → d.val ≤ 16 → q.halves ≠ 0 → s.parts = [(p, q)] →
      (q.pstat = .parked → ∃ t, exec (.configurationRecord r) s = .next t ∧ t.part p = { q with depth := d.val } ∧
        t.mgmt.applied = s.mgmt.applied ++ [r] ∧ t.mgmt.waiting = [] ∧
        { t with parts := [], mgmt := {} } = { s with parts := [], mgmt := {} }) ∧
      (q.pstat ≠ .parked → ∃ t, exec (.configurationRecord r) s = .next t ∧ t.mgmt.waiting = [r] ∧ t.part p = q ∧
        { t with mgmt := {} } = { s with mgmt := {} })) ∧
    (Config.verifies Config.configurationKey r.message r.sig = true → s.mgmt.waiting = [] →
      (∀ i ∈ r.items, s.itemFree i = true) → s.recordOk r = false →
      ∃ t, exec (.configurationRecord r) s = .next t ∧ Answered s t true []) ∧
    (∀ token, (token = true ↔ ∃ x, tok = some x ∧ tokenHolds s p (levelCode l) x) →
      (mayGrant s.mgmt.lifecycle l token = true →
        ∃ t, exec (.debugGrant (.grant part l tok)) s = .next t ∧ t.mgmt.reply = [0] ∧
          t.part p = { q with debugLevel := if levelCode q.debugLevel < levelCode l then l else q.debugLevel } ∧
          { t with parts := [], mgmt := {} } = { s with parts := [], mgmt := {} }) ∧
      (mayGrant s.mgmt.lifecycle l token = false → ∃ t, exec (.debugGrant (.grant part l tok)) s = .next t ∧
        Answered s t true [])) ∧
    ((q.debugLevel = .invasive ∨ q.debugLevel = .full) → q.power ≠ .p2 → ∃ t, exec (.debugGrant (.halt part)) s = .next t ∧
      (t.part p).debugHalt = true ∧ (t.part p).pstat = (if q.pstat = .running then .halting else q.pstat) ∧ t.mgmt.reply = [0]) ∧
    (q.debugLevel = .none ∨ q.debugLevel = .observe → ∃ t, exec (.debugGrant (.halt part)) s = .next t ∧ Answered s t true []) ∧
    (q.debugLevel = .invasive ∨ q.debugLevel = .full → q.debugHalt = true → q.wantP2 = false → ∃ t, exec (.debugGrant (.release part)) s = .next t ∧
      t.part p = { q with debugHalt := false, resume := q.resume || q.pstat != .running } ∧ t.mgmt.reply = [0]) ∧
    (∃ t, exec .resetPackage s = .next t ∧ t.harbour = [] ∧ t.cores = [] ∧ t.cmds = [] ∧ t.runs = [] ∧ t.graphs = [] ∧
      t.clock = 0 ∧ t.mgmt.p4 = false ∧ t.mgmt.firmware = s.mgmt.firmware ∧
      t.mgmt.lifecycle = s.mgmt.nextLifecycle.getD s.mgmt.lifecycle ∧
      t.mgmt.mailbox = !signedImage s.mgmt.firmware ∧ (signedImage s.mgmt.firmware = false → t.parts = []) ∧
      (t.mgmt.p3 = !signedImage s.mgmt.firmware) ∧
      ∀ k < 64, t.port k = { s.port k with warming := [], down := if signedImage s.mgmt.firmware then some 0 else none }) ∧
    (s.mgmt.waiting = [] → s.batch = [] → ∃ t, exec (.coreClocks n) s = .next t ∧ t.clock = s.clock + n ∧
      t.time = s.time + n * 10 ^ 6 / s.rate ∧ t.cores = s.cores ∧ t.harbour = s.harbour ∧ t.far = s.far ∧
      (∀ k, (t.part k).sansRings = (s.part k).sansRings) ∧
      ∀ k, (s.part k).halves ≠ 0 → (t.part k).clocks = (s.part k).clocks + match (s.part k).power with
        | .p0 => n | .p1 => t.time / 1000 - s.time / 1000 | .p2 => 0)

/-! ## The whole machine -/

/-- R295: after reset the partitions are in P0, every CSR has its reset value (Tables 7-4, 10-4, 11-2, 11-3, 12-2), no graph
runs, and every memory and register file is in its canonical form (logs 1 to 3 for what the tables leave out). -/
def Obligations.ResetValues : Prop :=
  let s := State.reset
  s.graphs = [] ∧ s.runs = [] ∧ s.clock = 0 ∧ s.topover = 0 ∧ s.rtidx = 0 ∧ s.peerto = 1000 ∧ s.peerwin = 0 ∧ s.uetkey = 0 ∧
  s.commbase = 0 ∧ s.canonical = true ∧
  (∀ n, Store.read 0 s.ctlbase n = 0 ∧ Store.read 0 s.routes n = 0 ∧ Store.read 0 s.routesNext n = 0) ∧
  (∀ g, let e := s.group g
    e.ver = 0 ∧ e.quar = false ∧ e.up = false ∧ e.bond = false ∧ e.phase = 5 ∧ e.pers = 3) ∧
  (∀ c, let k := s.core c
    k.sramuc = 0 ∧ k.drops = 0 ∧ k.overarr = 0 ∧ k.late = 0 ∧ k.ctx.strands = [] ∧ k.ctx.wgs = [] ∧ k.l1 = [] ∧ k.icache = []) ∧
  ∀ p, let q := s.part p
    q.power = .p0 ∧ q.pstat = .running ∧ q.tvec = 0 ∧ q.svec = 0 ∧ q.evbase = 0 ∧ q.evsize = 4 ∧ q.evhead = 0 ∧ q.evtail = 0 ∧
    q.evlost = 0 ∧ q.hwbase = 0 ∧ q.hwlimit = 0 ∧ q.fptroot = 0 ∧ q.fetchctl = 0 ∧ q.fetchto = 1000 ∧ q.memerr = 0 ∧
    q.dbgctl = [] ∧ q.dbgaddr = [] ∧ q.trbase = 0 ∧ q.trsize = 7 ∧ q.trhead = 0 ∧ q.trtail = 0 ∧ q.trctl = 0 ∧ q.trlost = 0 ∧
    q.pmsel = [] ∧ q.pmc = [] ∧ q.table = none ∧ q.debugLevel = .none

/-- R57, R237, R296 to R303, R307 to R313: an issue cycle runs the instruction that stands at the selected split's PC, with
the lanes that its predicate selects, and counts the cycle. -/
def Obligations.StepRunsTheDecodedInstruction : Prop :=
  ∀ (s u : State) (core : Fin 512) (quad : Fin 4) (rest : List Input) (slot entry j : Nat) (t : Strand) (ws : List Word) (i : Instr),
    s.inputs = .cycle core quad :: rest → s.mgmt.p4 = false → s.mgmt.mailbox = false →
    s.select core.val quad.val = some (slot, entry) → AtWord s core.val slot entry t ws j →
    let p := t.split entry
    Fetched s core.val (p.pc.toNat / 32) ws u →
    let word := ws.getD j 0
    let formE := isFormE (word.toNat / 2 ^ 22)
    let lit := if formE then ws.getD (j + 1) 0 else 0
    decodeTableWord 64 (word.toNat + lit.toNat * 2 ^ 32) = some i →
    step s = closeCycle core.val quad.val (exec i { u with
      inputs := rest
      cur := { core := core.val, slot := slot, entry := entry, pc := p.pc, npc := nextPc p.pc formE, word := word, lit := lit
               hdr := ws.getD 0 0, act := slotLanes t p (ws.getD 0 0) j } })

/-- R239: an instruction whose predicate is false in every lane is a no-op. -/
def Obligations.InactiveInstructionsDoNothing : Prop :=
  ∀ (s : State) (i : Instr) (rs : List (Nat × Nat)), shapeRegs i rs →
    (∀ r ∈ rs, r.1 + r.2 ≤ 128 ∧ s.me.wb + r.1 + r.2 ≤ s.me.allot) → (s.strand? s.cur.core s.cur.slot).isSome = true → s.cur.act = 0 → s.me.sup = true ∨ s.me.dbgstep = false →
    ∃ t, exec i s = .next t ∧ t.cur.done = true ∧ Same whole s t ∧ SameBytes s t

/-- The words that the reference entries of files 18 to 21 give as examples decode to the instructions they stand for. -/
def Obligations.DecodeWords : Prop :=
  decodeTableWord 32 0x32900000 = some (.bararr (.group 0)) ∧
  decodeTableWord 32 0x33034780 = some (.barwait (.object 13) 15) ∧
  decodeTableWord 32 0x31C28580 = some (.coll 10 (some 3)) ∧
  decodeTableWord 32 0x4C014203 = some (.csrr 5 0x203) ∧
  decodeTableWord 32 0x4C408288 = some (.csrw 2 0x288) ∧
  decodeTableWord 32 0x2A82C000 = some (.fence .pkg true true) ∧
  decodeTableWord 32 0x0840C140 = some (.iaddImm 3 2 0x40) ∧
  decodeTableWord 32 0x0B0A4388 = some (.iscmp false .ge 1 7 8) ∧
  decodeTableWord 32 0x2801004F = some (.ldS 4 (.imm 15 0)) ∧
  decodeTableWord 32 0x3C208401 = some (.mma true 2 8 1) ∧
  decodeTableWord 32 0x3CC94082 = some (.mmxSpec 5 2 1 2) ∧
  decodeTableWord 32 0x18014084 = some (.plop .and 5 1 4) ∧
  decodeTableWord 32 0x248104C8 = some (.sred 4 9 .addF) ∧
  decodeTableWord 64 0x0800042029C08000 = some (.stHFull 2 { xa := 2, off := .imm 0, w := .b32, strong := true, scope := .core, rsp := false }) ∧
  decodeTableWord 64 0x000000023880C301 = some (.tldSc 3 6 1 2) ∧
  decodeTableWord 32 0x48400184 = some (.taskarm 3 4) ∧
  decodeTableWord 32 0x3A04C289 = some (.tqntL6 3 1 5 9) ∧
  decodeTableWord 32 0x2441C982 = some (.voteMask ⟨7, 3, .bal⟩ 2) ∧
  decodeTableWord 32 0x1513C79C = some (.xlop .xor 15 15 28) ∧
  decodeTableWord 32 0x17454A11 = some (.xst 21 20 17)

/-- R296, R307, R312: decoding an encoded well-formed instruction gives it back, with every operand at every value that the
encoding admits; its opcode says whether a literal follows. -/
def Obligations.DecodeInvertsEncode : Prop :=
  ∀ (i : Instr) (w : Word) (l : Option Word), i.wf = true → encode i = some (w, l) →
    decodeTableWord 64 (w.toNat + (l.getD 0).toNat * 2 ^ 32) = some i ∧ isFormE (w.toNat / 2 ^ 22) = l.isSome

/-- Every step keeps every memory, every register file, tile and scale entry, and the list of cores in its canonical form. -/
def Obligations.StepKeepsCanonicalForm : Prop :=
  ∀ s t : State, s.canonical = true → step s = .next t → t.canonical = true
end

