-- ==== Sys2Proof/Laws/Engines.lean ====
section
/-!
SUPPORT. Where the units of a tensor command are cut (R176, R478).
-/

namespace Sys2Proof.Machine

/-- The length of a unit that is followed by another one. -/
theorem cutAfter_range (base g d : Nat) : 4049 ≤ cutAfter base g d ∧ cutAfter base g d ≤ 4096 := by
  unfold cutAfter
  cases h : (List.range 48).find? _ with
  | none => simp
  | some k =>
    have := List.mem_range.1 (List.mem_of_find?_eq_some h)
    simp only [Option.getD_some]
    omega

/-- A place that a unit may end at, if there is one, is where it ends. -/
theorem cutAfter_whole {base g d k : Nat} (hk : k < 48) (h1 : (base + (d + 4096 - k)) % 16 = 0) (h2 : (d + 4096 - k) % g = 0) :
    (base + (d + cutAfter base g d)) % 16 = 0 ∧ (d + cutAfter base g d) % g = 0 := by
  unfold cutAfter
  cases h : (List.range 48).find? _ with
  | none =>
    rw [List.find?_eq_none] at h
    exact absurd (h k (List.mem_range.2 hk)) (by simp [h1, h2])
  | some j =>
    have hj := List.mem_range.1 (List.mem_of_find?_eq_some h)
    have := List.find?_some h
    simp only [Bool.and_eq_true, beq_iff_eq] at this
    simp only [Option.getD_some, show d + (4096 - j) = d + 4096 - j by omega]
    exact this

/-- Scales, and elements of a whole number of bytes, are cut between 16-byte units of the shelf. -/
theorem cutAfter_bytes (base d : Nat) : (base + (d + cutAfter base 1 d)) % 16 = 0 :=
  (cutAfter_whole (k := (base + d) % 16) (by omega) (by omega) (Nat.mod_one _)).1

/-- L6 in a slot on a boundary of 4 is cut between 16-byte units of the shelf and between groups. -/
theorem cutAfter_groups {base : Nat} (d : Nat) (h : base % 4 = 0) :
    (base + (d + cutAfter base 12 d)) % 16 = 0 ∧ (d + cutAfter base 12 d) % 12 = 0 := by
  refine cutAfter_whole (k := (4 * (d + 4096) + 45 * (base + (d + 4096))) % 48) (Nat.mod_lt _ (by decide)) ?_ ?_ <;> omega

/-- Past the end of a slot there is no unit. -/
theorem slotUnits_done {n d : Nat} (base g off k : Nat) (h : n ≤ d) : slotUnits base g off n d k = [] := by
  cases k with
  | zero => rfl
  | succ k => unfold slotUnits; rw [if_pos h]

/-- The lengths of the units add up to what is left of the slot. -/
theorem slotUnits_sum (base g off n : Nat) : ∀ k d, n < d + 4049 * k → ((slotUnits base g off n d k).map (·.len)).sum = n - d
  | 0, d, h => by simp [slotUnits]; omega
  | k + 1, d, h => by
    have hc := cutAfter_range base g d
    unfold slotUnits
    split
    · simp; omega
    · simp only [List.map_cons, List.sum_cons]
      by_cases hl : n ≤ d + cutAfter base g d
      · rw [slotUnits_done base g off k (by omega)]
        simp; omega
      · rw [slotUnits_sum base g off n k _ (by omega)]; omega

end Sys2Proof.Machine
end

