-- ==== Sys2Proof/Laws/Store.lean ====
section
/-!
SUPPORT. Laws of the finite maps: what each operation makes a read answer, that each keeps the canonical form,
and that canonical maps with equal reads are equal. The laws of memories follow from them.
-/

namespace Sys2Proof.Machine

variable {α : Type}

/-! ## Reads of listed values -/

@[simp] theorem Store.at?_nil (k : Nat) : Store.at? ([] : Store α) k = none := rfl

theorem Store.at?_put (m : Store α) (k j : Nat) (v : α) :
    (m.put k v).at? j = if j = k then some v else m.at? j := by
  induction m with
  | nil => simp only [Store.put, Store.at?]; split_ifs <;> first | rfl | omega
  | cons e m ih =>
    obtain ⟨i, u⟩ := e
    simp only [Store.put]
    split_ifs <;> simp only [Store.at?, ih] <;> split_ifs <;> first | rfl | omega

@[simp] theorem Store.at?_put_self (m : Store α) (k : Nat) (v : α) : (m.put k v).at? k = some v := by
  simp [Store.at?_put]

theorem Store.put_put (m : Store α) (k : Nat) (u v : α) : (m.put k u).put k v = m.put k v := by
  induction m with
  | nil => simp [Store.put]
  | cons e m ih =>
    obtain ⟨i, w⟩ := e
    simp only [Store.put]
    split_ifs <;> simp_all [Store.put]

theorem Store.at?_modify (m : Store α) (k j : Nat) (f : α → α) :
    (m.modify k f).at? j = (m.at? j).map (if j = k then f else id) := by
  induction m with
  | nil => rfl
  | cons e m ih =>
    obtain ⟨i, u⟩ := e
    simp only [Store.modify, List.map_cons] at ih ⊢
    by_cases hi : i = k <;> simp only [hi, if_true, if_false, Store.at?] <;> split_ifs <;> simp_all

theorem Store.modify_modify (m : Store α) (k : Nat) (f g : α → α) :
    (m.modify k f).modify k g = m.modify k (g ∘ f) := by
  simp only [Store.modify, List.map_map]
  refine List.map_congr_left fun e _ => ?_
  by_cases h : e.1 = k <;> simp [h]

theorem Store.modify_congr (m : Store α) (k : Nat) {f g : α → α} (h : ∀ v, f v = g v) :
    m.modify k f = m.modify k g := by
  rw [funext h]

/-! ## Sorted and canonical maps -/

theorem Store.sorted_cons (k : Nat) (v : α) (m : Store α) :
    Store.sorted ((k, v) :: m) = true ↔ (∀ e ∈ m, k < e.1) ∧ m.sorted = true := by
  simp [Store.sorted]

theorem Store.sorted_tail {e : Nat × α} {m : Store α} (h : Store.sorted (e :: m) = true) :
    m.sorted = true := ((Store.sorted_cons e.1 e.2 m).1 h).2

theorem Store.at?_none_of_lt {m : Store α} {k : Nat} (h : ∀ e ∈ m, k < e.1) : m.at? k = none := by
  cases m with
  | nil => rfl
  | cons e m => simp [Store.at?, h e (by simp)]

theorem Store.at?_none_of_ne {m : Store α} {k : Nat} (h : ∀ e ∈ m, e.1 ≠ k) : m.at? k = none := by
  induction m with
  | nil => rfl
  | cons e m ih =>
    simp only [List.mem_cons, forall_eq_or_imp] at h
    simp only [Store.at?]
    split_ifs with h1 h2
    · rfl
    · exact absurd h2.symm h.1
    · exact ih h.2

theorem Store.at?_eq_some {m : Store α} (hs : m.sorted = true) {k : Nat} {v : α} :
    m.at? k = some v ↔ (k, v) ∈ m := by
  induction m with
  | nil => simp
  | cons e m ih =>
    obtain ⟨i, u⟩ := e
    obtain ⟨h1, h2⟩ := (Store.sorted_cons i u m).1 hs
    simp only [Store.at?, List.mem_cons, Prod.mk.injEq]
    split_ifs with ha hb
    · simp only [reduceCtorEq, false_iff, not_or, not_and]
      exact ⟨fun h => by omega, fun h => by have := h1 _ h; simp at this; omega⟩
    · subst hb
      simp only [Option.some.injEq, true_and]
      refine ⟨fun h => .inl h.symm, fun h => ?_⟩
      rcases h with h | h
      · exact h.symm
      · have := h1 _ h; simp at this
    · rw [ih h2]
      exact ⟨.inr, fun h => h.resolve_left fun h => hb h.1⟩

theorem Store.mem_put {m : Store α} {k : Nat} {v : α} {e : Nat × α} (h : e ∈ m.put k v) :
    e = (k, v) ∨ e ∈ m := by
  induction m with
  | nil => simpa [Store.put] using h
  | cons a m ih =>
    obtain ⟨i, u⟩ := a
    simp only [Store.put] at h
    split_ifs at h <;> simp only [List.mem_cons] at h ⊢
    · exact h
    · exact h.imp_right .inr
    · rcases h with h | h
      · exact .inr (.inl h)
      · exact (ih h).imp_right .inr

theorem Store.mem_del {m : Store α} {k : Nat} {e : Nat × α} (h : e ∈ m.del k) : e ∈ m := by
  induction m with
  | nil => simp [Store.del] at h
  | cons a m ih =>
    obtain ⟨i, u⟩ := a
    simp only [Store.del] at h
    split_ifs at h <;> simp only [List.mem_cons] at h ⊢
    · exact h
    · exact .inr h
    · exact h.imp_right ih

theorem Store.sorted_put {m : Store α} (h : m.sorted = true) (k : Nat) (v : α) : (m.put k v).sorted = true := by
  induction m with
  | nil => simp [Store.put, Store.sorted]
  | cons e m ih =>
    obtain ⟨i, u⟩ := e
    obtain ⟨h1, h2⟩ := (Store.sorted_cons i u m).1 h
    simp only [Store.put]
    split_ifs with ha hb
    · refine (Store.sorted_cons _ _ _).2 ⟨?_, h⟩
      simp only [List.mem_cons, forall_eq_or_imp]
      exact ⟨ha, fun e he => lt_trans ha (h1 e he)⟩
    · exact (Store.sorted_cons _ _ _).2 ⟨hb ▸ h1, h2⟩
    · refine (Store.sorted_cons _ _ _).2 ⟨fun e he => ?_, ih h2⟩
      rcases Store.mem_put he with rfl | he
      · simp only; omega
      · exact h1 e he

theorem Store.sorted_del {m : Store α} (h : m.sorted = true) (k : Nat) : (m.del k).sorted = true := by
  induction m with
  | nil => rfl
  | cons e m ih =>
    obtain ⟨i, u⟩ := e
    obtain ⟨h1, h2⟩ := (Store.sorted_cons i u m).1 h
    simp only [Store.del]
    split_ifs
    · exact h
    · exact h2
    · exact (Store.sorted_cons _ _ _).2 ⟨fun e he => h1 e (Store.mem_del he), ih h2⟩

theorem Store.at?_del {m : Store α} (h : m.sorted = true) (k j : Nat) :
    (m.del k).at? j = if j = k then none else m.at? j := by
  induction m with
  | nil => simp [Store.del]
  | cons e m ih =>
    obtain ⟨i, u⟩ := e
    obtain ⟨h1, h2⟩ := (Store.sorted_cons i u m).1 h
    simp only [Store.del]
    split_ifs with ha hb hc hd he
    · subst hb; simp [Store.at?, ha]
    · rfl
    · subst hd; subst hc; exact Store.at?_none_of_lt h1
    · subst hc
      simp only [Store.at?]
      split_ifs
      · exact Store.at?_none_of_lt fun e he => lt_trans ‹_› (h1 e he)
      · rfl
    · subst he
      simp only [Store.at?, ih h2, if_true]
      split_ifs <;> first | rfl | omega
    · simp only [Store.at?, ih h2, he, if_false]

theorem Store.sorted_filter {m : Store α} (h : m.sorted = true) (p : Nat × α → Bool) :
    Store.sorted (m.filter p) = true := by
  induction m with
  | nil => rfl
  | cons e m ih =>
    obtain ⟨i, u⟩ := e
    obtain ⟨h1, h2⟩ := (Store.sorted_cons i u m).1 h
    simp only [List.filter_cons]
    split_ifs
    · exact (Store.sorted_cons _ _ _).2 ⟨fun e he => h1 e (List.mem_filter.1 he).1, ih h2⟩
    · exact ih h2

theorem Store.sorted_append {a b : Store α} (ha : a.sorted = true) (hb : b.sorted = true)
    (h : ∀ x ∈ a, ∀ y ∈ b, x.1 < y.1) : Store.sorted (a ++ b) = true := by
  induction a with
  | nil => simpa using hb
  | cons e a ih =>
    obtain ⟨i, u⟩ := e
    obtain ⟨h1, h2⟩ := (Store.sorted_cons i u a).1 ha
    refine (Store.sorted_cons _ _ _).2 ⟨fun x hx => ?_, ih h2 fun x hx => h x (.tail _ hx)⟩
    rcases List.mem_append.1 hx with hx | hx
    · exact h1 x hx
    · exact h (i, u) (.head _) x hx

section Defaults

variable [DecidableEq α] (d : α)

theorem Store.noDefault_iff {m : Store α} : m.noDefault d = true ↔ ∀ e ∈ m, e.2 ≠ d := by
  simp [Store.noDefault]

theorem Store.canonical_iff {m : Store α} :
    m.canonical d = true ↔ m.sorted = true ∧ ∀ e ∈ m, e.2 ≠ d := by
  simp [Store.canonical, Store.noDefault]

theorem Store.canonical_nil : Store.canonical d ([] : Store α) = true := rfl

theorem Store.canonical_write {m : Store α} (h : m.canonical d = true) (k : Nat) (v : α) :
    (m.write d k v).canonical d = true := by
  obtain ⟨hs, hd⟩ := (Store.canonical_iff d).1 h
  simp only [Store.write]
  split_ifs with hv
  · exact (Store.canonical_iff d).2 ⟨Store.sorted_del hs k, fun e he => hd e (Store.mem_del he)⟩
  · refine (Store.canonical_iff d).2 ⟨Store.sorted_put hs k v, fun e he => ?_⟩
    rcases Store.mem_put he with rfl | he
    · exact hv
    · exact hd e he

theorem Store.sorted_write {m : Store α} (h : m.sorted = true) (k : Nat) (v : α) :
    (m.write d k v).sorted = true := by
  simp only [Store.write]
  split_ifs
  · exact Store.sorted_del h k
  · exact Store.sorted_put h k v

/-- A read after a write. -/
theorem Store.read_write {m : Store α} (h : m.sorted = true) (k j : Nat) (v : α) :
    (m.write d k v).read d j = if j = k then v else m.read d j := by
  simp only [Store.write, Store.read]
  split_ifs with hv hj hj
  · subst hj; simp [Store.at?_del h, hv]
  · simp [Store.at?_del h, hj]
  · subst hj; simp
  · simp [Store.at?_put, hj]

theorem Store.sorted_writes {m : Store α} (h : m.sorted = true) (k : Nat) (vs : List α) :
    (m.writes d k vs).sorted = true := by
  induction vs generalizing m k with
  | nil => exact h
  | cons v vs ih => exact ih (Store.sorted_write d h k v) (k + 1)

theorem Store.canonical_writes {m : Store α} (h : m.canonical d = true) (k : Nat) (vs : List α) :
    (m.writes d k vs).canonical d = true := by
  induction vs generalizing m k with
  | nil => exact h
  | cons v vs ih => exact ih (Store.canonical_write d h k v) (k + 1)

/-- A read after consecutive writes. -/
theorem Store.read_writes {m : Store α} (h : m.sorted = true) (k j : Nat) (vs : List α) :
    (m.writes d k vs).read d j =
      if k ≤ j ∧ j < k + vs.length then vs.getD (j - k) d else m.read d j := by
  induction vs generalizing m k with
  | nil => simp [Store.writes]
  | cons v vs ih =>
    rw [Store.writes, ih (Store.sorted_write d h k v), Store.read_write d h]
    simp only [List.length_cons]
    by_cases h1 : k + 1 ≤ j ∧ j < k + 1 + vs.length
    · rw [if_pos h1, if_pos (by omega), show j - k = (j - (k + 1)) + 1 by omega, List.getD_cons_succ]
    · rw [if_neg h1]
      by_cases h2 : j = k
      · subst h2; rw [if_pos rfl, if_pos (by omega)]; simp
      · rw [if_neg h2, if_neg (by omega)]

theorem Store.mem_listed {k : Nat} {vs : List α} {e : Nat × α} (h : e ∈ Store.listed d k vs) :
    k ≤ e.1 ∧ e.1 < k + vs.length ∧ e.2 ≠ d := by
  induction vs generalizing k with
  | nil => simp [Store.listed] at h
  | cons v vs ih =>
    simp only [Store.listed] at h
    split_ifs at h with hv
    · obtain ⟨h1, h2, h3⟩ := ih h
      simp only [List.length_cons]; exact ⟨by omega, by omega, h3⟩
    · rcases List.mem_cons.1 h with rfl | h
      · simpa using hv
      · obtain ⟨h1, h2, h3⟩ := ih h
        simp only [List.length_cons]; exact ⟨by omega, by omega, h3⟩

theorem Store.canonical_listed (k : Nat) (vs : List α) : (Store.listed d k vs).canonical d = true := by
  refine (Store.canonical_iff d).2 ⟨?_, fun e he => (Store.mem_listed d he).2.2⟩
  induction vs generalizing k with
  | nil => rfl
  | cons v vs ih =>
    simp only [Store.listed]
    split_ifs
    · exact ih (k + 1)
    · exact (Store.sorted_cons _ _ _).2 ⟨fun e he => (Store.mem_listed d he).1, ih (k + 1)⟩

theorem Store.read_listed (k j : Nat) (vs : List α) :
    (Store.listed d k vs).read d j = if k ≤ j ∧ j < k + vs.length then vs.getD (j - k) d else d := by
  induction vs generalizing k with
  | nil => simp [Store.listed, Store.read]
  | cons v vs ih =>
    have lower : j < k + 1 → (Store.listed d (k + 1) vs).read d j = d := fun hj => by
      rw [ih (k + 1), if_neg (by omega)]
    have shift : k + 1 ≤ j → (v :: vs).getD (j - k) d = vs.getD (j - (k + 1)) d := fun hj => by
      rw [show j - k = (j - (k + 1)) + 1 by omega, List.getD_cons_succ]
    simp only [Store.listed, List.length_cons]
    rcases lt_trichotomy j k with hj | hj | hj
    · rw [if_neg (by omega : ¬(k ≤ j ∧ j < k + (vs.length + 1)))]
      split_ifs
      · exact lower (by omega)
      · simp [Store.read, Store.at?, hj]
    · subst hj
      rw [if_pos (by omega : j ≤ j ∧ j < j + (vs.length + 1))]
      by_cases hv : v = d
      · rw [if_pos hv, lower (by omega)]; simp [hv]
      · rw [if_neg hv]; simp [Store.read, Store.at?]
    · have e : ∀ m : Store α, Store.read d ((k, v) :: m) j = m.read d j := fun m => by
        simp only [Store.read, Store.at?]
        rw [if_neg (by omega), if_neg (by omega)]
      split_ifs with hv h1 h1
      · rw [ih, if_pos (by omega), shift (by omega)]
      · rw [ih, if_neg (by omega)]
      · rw [e, ih, if_pos (by omega), shift (by omega)]
      · rw [e, ih, if_neg (by omega)]

omit [DecidableEq α] in
theorem Store.at?_append {a b : Store α} (ha : a.sorted = true) (hb : b.sorted = true)
    (h : ∀ x ∈ a, ∀ y ∈ b, x.1 < y.1) (j : Nat) :
    Store.at? (a ++ b) j = (Store.at? a j).or (Store.at? b j) := by
  have hab := Store.sorted_append ha hb h
  cases ha' : Store.at? a j with
  | some v =>
    rw [Store.at?_eq_some ha] at ha'
    simpa using (Store.at?_eq_some hab).2 (List.mem_append_left _ ha')
  | none =>
    cases hb' : Store.at? b j with
    | some v =>
      rw [Store.at?_eq_some hb] at hb'
      simpa using (Store.at?_eq_some hab).2 (List.mem_append_right _ hb')
    | none =>
      cases hc : Store.at? (a ++ b) j with
      | none => rfl
      | some v =>
        rcases List.mem_append.1 ((Store.at?_eq_some hab).1 hc) with hm | hm
        · rw [(Store.at?_eq_some ha).2 hm] at ha'; cases ha'
        · rw [(Store.at?_eq_some hb).2 hm] at hb'; cases hb'

omit [DecidableEq α] in
theorem Store.at?_filter {m : Store α} (h : m.sorted = true) (q : Nat → Bool) (j : Nat) :
    Store.at? (m.filter fun e => q e.1) j = if q j then m.at? j else none := by
  have hf := Store.sorted_filter h (fun e => q e.1)
  cases hm : Store.at? (m.filter fun e => q e.1) j with
  | some v =>
    obtain ⟨h1, h2⟩ := List.mem_filter.1 ((Store.at?_eq_some hf).1 hm)
    simp only at h2
    rw [if_pos h2, (Store.at?_eq_some h).2 h1]
  | none =>
    split_ifs with hq
    · cases hv : m.at? j with
      | none => rfl
      | some v =>
        rw [(Store.at?_eq_some hf).2 (List.mem_filter.2 ⟨(Store.at?_eq_some h).1 hv, by simpa using hq⟩)] at hm
        cases hm
    · rfl

theorem Store.canonical_filter {m : Store α} (h : m.canonical d = true) (p : Nat × α → Bool) :
    Store.canonical d (m.filter p) = true := by
  obtain ⟨hs, hd⟩ := (Store.canonical_iff d).1 h
  exact (Store.canonical_iff d).2 ⟨Store.sorted_filter hs p, fun e he => hd e (List.mem_filter.1 he).1⟩

theorem Store.paste_parts {m : Store α} (hs : m.sorted = true) (k : Nat) (vs : List α) :
    Store.sorted (Store.listed d k vs ++ m.filter fun e => k + vs.length ≤ e.1) = true ∧
      ∀ x ∈ m.range 0 k, ∀ y ∈ Store.listed d k vs ++ m.filter (fun e => k + vs.length ≤ e.1), x.1 < y.1 := by
  constructor
  · refine Store.sorted_append ((Store.canonical_iff d).1 (Store.canonical_listed d k vs)).1
      (Store.sorted_filter hs _) fun x hx y hy => ?_
    have := Store.mem_listed d hx
    have := (List.mem_filter.1 hy).2
    simp at this; omega
  · intro x hx y hy
    have hx := (List.mem_filter.1 hx).2
    simp at hx
    rcases List.mem_append.1 hy with hy | hy
    · have := Store.mem_listed d hy; omega
    · have := (List.mem_filter.1 hy).2; simp at this; omega

theorem Store.canonical_paste {m : Store α} (h : m.canonical d = true) (k : Nat) (vs : List α) :
    (m.paste d k vs).canonical d = true := by
  obtain ⟨hs, hd⟩ := (Store.canonical_iff d).1 h
  obtain ⟨h1, h2⟩ := Store.paste_parts d hs k vs
  refine (Store.canonical_iff d).2 ⟨Store.sorted_append (Store.sorted_filter hs _) h1 h2, fun e he => ?_⟩
  rcases List.mem_append.1 he with he | he
  · exact hd e (List.mem_filter.1 he).1
  · rcases List.mem_append.1 he with he | he
    · exact (Store.mem_listed d he).2.2
    · exact hd e (List.mem_filter.1 he).1

theorem Store.sorted_paste {m : Store α} (hs : m.sorted = true) (k : Nat) (vs : List α) :
    (m.paste d k vs).sorted = true := by
  obtain ⟨h1, h2⟩ := Store.paste_parts d hs k vs
  exact Store.sorted_append (Store.sorted_filter hs _) h1 h2

/-- A read after a paste. -/
theorem Store.read_paste {m : Store α} (hs : m.sorted = true) (k j : Nat) (vs : List α) :
    (m.paste d k vs).read d j =
      if k ≤ j ∧ j < k + vs.length then vs.getD (j - k) d else m.read d j := by
  obtain ⟨h1, h2⟩ := Store.paste_parts d hs k vs
  have hl := ((Store.canonical_iff d).1 (Store.canonical_listed d k vs)).1
  have h3 : ∀ x ∈ Store.listed d k vs, ∀ y ∈ m.filter (fun e => k + vs.length ≤ e.1), x.1 < y.1 := by
    intro x hx y hy
    have := Store.mem_listed d hx
    have := (List.mem_filter.1 hy).2
    simp at this; omega
  have low : Store.at? (m.range 0 k) j = if j < k then m.at? j else none := by
    have := Store.at?_filter hs (fun i => decide (0 ≤ i) && decide (i < k)) j
    simpa [Store.range] using this
  have high : Store.at? (m.filter fun e => k + vs.length ≤ e.1) j =
      if k + vs.length ≤ j then m.at? j else none := by
    simpa using Store.at?_filter hs (fun i => decide (k + vs.length ≤ i)) j
  have mid := Store.read_listed d k j vs
  simp only [Store.read] at mid ⊢
  have hr : Store.sorted (m.range 0 k) = true := Store.sorted_filter hs _
  rw [Store.paste, Store.at?_append hr h1 h2, Store.at?_append hl (Store.sorted_filter hs _) h3,
    low, high]
  have out : ¬(k ≤ j ∧ j < k + vs.length) → Store.at? (Store.listed d k vs) j = none := fun ho =>
    Store.at?_none_of_ne fun e he hej => ho (by have := Store.mem_listed d he; omega)
  by_cases hj : k ≤ j ∧ j < k + vs.length
  · rw [if_neg (by omega), if_neg (by omega), if_pos hj]
    rw [if_pos hj] at mid
    simpa using mid
  · rw [out hj, if_neg hj]
    by_cases h : j < k
    · rw [if_pos h, if_neg (by omega)]; simp
    · rw [if_neg h, if_pos (by omega)]; simp

theorem Store.canonical_clear {m : Store α} (h : m.canonical d = true) (lo hi : Nat) :
    (m.clear lo hi).canonical d = true := Store.canonical_filter d h _

/-- Canonical maps with equal reads are equal. -/
theorem Store.canonical_ext {a b : Store α} (ha : a.canonical d = true) (hb : b.canonical d = true)
    (h : ∀ k, a.read d k = b.read d k) : a = b := by
  obtain ⟨sa, da⟩ := (Store.canonical_iff d).1 ha
  obtain ⟨sb, db⟩ := (Store.canonical_iff d).1 hb
  have key : ∀ {a b : Store α}, a.sorted = true → b.sorted = true → (∀ e ∈ a, e.2 ≠ d) →
      (∀ k, a.read d k = b.read d k) → ∀ e ∈ a, e ∈ b := by
    intro a b sa sb da h e he
    have h1 := (Store.at?_eq_some sa (k := e.1) (v := e.2)).2 he
    have h2 := h e.1
    simp only [Store.read, h1, Option.getD_some] at h2
    cases hb : b.at? e.1 with
    | none => rw [hb] at h2; exact absurd h2 (da e he)
    | some v =>
      rw [hb] at h2; simp only [Option.getD_some] at h2
      exact (Store.at?_eq_some sb).1 (h2 ▸ hb)
  induction a generalizing b with
  | nil =>
    cases b with
    | nil => rfl
    | cons y b => exact absurd (key sb sa db (fun k => (h k).symm) y (.head _)) (by simp)
  | cons x a ih =>
    cases b with
    | nil => exact absurd (key sa sb da h x (.head _)) (by simp)
    | cons y b =>
      obtain ⟨hx1, hx2⟩ := (Store.sorted_cons x.1 x.2 a).1 sa
      obtain ⟨hy1, hy2⟩ := (Store.sorted_cons y.1 y.2 b).1 sb
      have xy : x = y := by
        rcases List.mem_cons.1 (key sa sb da h x (.head _)) with e | hx
        · exact e
        · rcases List.mem_cons.1 (key sb sa db (fun k => (h k).symm) y (.head _)) with e | hy
          · exact e.symm
          · exact absurd (hy1 x hx) (by have := hx1 y hy; omega)
      subst xy
      congr 1
      refine ih (b := b) ((Store.canonical_iff d).2 ⟨hx2, fun e he => da e (.tail _ he)⟩)
        ((Store.canonical_iff d).2 ⟨hy2, fun e he => db e (.tail _ he)⟩) (fun k => ?_) hx2
        (fun e he => da e (.tail _ he)) hy2 (fun e he => db e (.tail _ he))
      have hk := h k
      simp only [Store.read, Store.at?] at hk ⊢
      split_ifs at hk with h1 h2
      · rw [Store.at?_none_of_lt fun e he => lt_trans h1 (hx1 e he),
          Store.at?_none_of_lt fun e he => lt_trans h1 (hy1 e he)]
      · subst h2
        rw [Store.at?_none_of_lt hx1, Store.at?_none_of_lt hy1]
      · exact hk

end Defaults

/-! ## Runs of values -/

theorem Store.run_eq (d : α) {m : Store α} (hs : m.sorted = true) (k n : Nat) (hk : ∀ e ∈ m, k ≤ e.1) :
    Store.run d m k n = (List.range n).map fun i => m.read d (k + i) := by
  induction n generalizing m k with
  | zero => cases m <;> rfl
  | succ n ih =>
    rw [List.range_succ_eq_map, List.map_cons, List.map_map]
    cases m with
    | nil =>
      simp only [Store.run, Nat.add_zero]
      rw [ih hs (k + 1) (by simp)]
      refine congrArg₂ _ rfl (List.map_congr_left fun i _ => ?_)
      simp [Store.read]
    | cons e m =>
      obtain ⟨i, v⟩ := e
      obtain ⟨h1, h2⟩ := (Store.sorted_cons i v m).1 hs
      have hi := hk (i, v) (.head _)
      simp only at hi
      simp only [Store.run, Nat.add_zero]
      split_ifs with hik
      · subst hik
        rw [ih h2 (i + 1) fun e he => by have := h1 e he; omega]
        refine congrArg₂ _ (by simp [Store.read, Store.at?]) (List.map_congr_left fun x _ => ?_)
        simp only [Store.read, Store.at?, Function.comp]
        rw [if_neg (by omega), if_neg (by omega), show i + 1 + x = i + (x + 1) by omega]
      · rw [ih hs (k + 1) fun e he => by
          rcases List.mem_cons.1 he with rfl | he
          · simp only; omega
          · have := h1 e he; omega]
        refine congrArg₂ _ ?_ (List.map_congr_left fun x _ => ?_)
        · simp only [Store.read, Store.at?]; rw [if_pos (by omega)]; rfl
        · simp only [Function.comp]; rw [show k + 1 + x = k + (x + 1) by omega]

/-- The values of a slice are the reads of its keys. -/
theorem Store.slice_eq (d : α) {m : Store α} (hs : m.sorted = true) (k n : Nat) :
    m.slice d k n = (List.range n).map fun i => m.read d (k + i) := by
  induction m with
  | nil => exact Store.run_eq d rfl k n (by simp)
  | cons e m ih =>
    obtain ⟨i, v⟩ := e
    obtain ⟨h1, h2⟩ := (Store.sorted_cons i v m).1 hs
    by_cases hi : i < k
    · have : Store.slice d ((i, v) :: m) k n = Store.slice d m k n := by
        simp [Store.slice, List.dropWhile, hi]
      rw [this, ih h2]
      refine List.map_congr_left fun x _ => ?_
      simp only [Store.read, Store.at?]
      rw [if_neg (by omega), if_neg (by omega)]
    · have : Store.slice d ((i, v) :: m) k n = Store.run d ((i, v) :: m) k n := by
        simp [Store.slice, List.dropWhile, hi]
      rw [this]
      exact Store.run_eq d hs k n fun e he => by
        rcases List.mem_cons.1 he with rfl | he
        · simp only; omega
        · have := h1 e he; omega

/-! ## Bytes of numbers (R3) -/

@[simp] theorem bytesOf_length (n v : Nat) : (bytesOf n v).length = n := by
  induction n generalizing v with
  | zero => rfl
  | succ n ih => simp [bytesOf, ih]

/-- Little-endian bytes hold the number modulo their size. -/
theorem ofBytes_bytesOf (n v : Nat) : ofBytes (bytesOf n v) = v % 256 ^ n := by
  induction n generalizing v with
  | zero => simp [bytesOf, ofBytes, Nat.mod_one]
  | succ n ih =>
    have e : 256 ^ (n + 1) = 256 * 256 ^ n := by rw [pow_succ, mul_comm]
    rw [bytesOf, ofBytes, ih, e, Nat.mod_mul, BitVec.toNat_ofNat]

theorem ofBytes_lt (bs : List Byte) : ofBytes bs < 256 ^ bs.length := by
  induction bs with
  | nil => simp [ofBytes]
  | cons b bs ih =>
    have := b.isLt
    simp only [ofBytes, List.length_cons, pow_succ]
    omega

/-- Equal numbers of equally many bytes have equal bytes. -/
theorem bytesOf_ofBytes (bs : List Byte) : bytesOf bs.length (ofBytes bs) = bs := by
  induction bs with
  | nil => rfl
  | cons b bs ih =>
    have := b.isLt
    simp only [List.length_cons, bytesOf, ofBytes]
    rw [show (b.toNat + 256 * ofBytes bs) / 256 = ofBytes bs by omega, ih]
    congr 1
    apply BitVec.eq_of_toNat_eq
    simp only [BitVec.toNat_ofNat]; omega

/-! ## Memories -/

theorem Mem.wf_sorted {m : Mem} (h : m.wf = true) : Store.sorted m = true :=
  ((Store.canonical_iff 0).1 h).1

theorem Mem.wf_nil : Mem.wf [] = true := rfl

theorem Mem.wf_putBytes {m : Mem} (h : m.wf = true) (a : Nat) (bs : List Byte) : (m.putBytes a bs).wf = true := by
  simp only [Mem.putBytes]
  split_ifs
  · exact Store.canonical_writes 0 h a bs
  · exact Store.canonical_paste 0 h a bs

theorem Mem.wf_store {m : Mem} (h : m.wf = true) (a n v : Nat) : (m.store a n v).wf = true :=
  Mem.wf_putBytes h a _

/-- One byte after bytes have been put. -/
theorem Mem.byte_putBytes {m : Mem} (h : m.wf = true) (a b : Nat) (bs : List Byte) :
    (m.putBytes a bs).byte b = if a ≤ b ∧ b < a + bs.length then bs.getD (b - a) 0 else m.byte b := by
  simp only [Mem.putBytes, Mem.byte]
  split_ifs with h1 <;>
    simp only [Store.read_writes 0 (Mem.wf_sorted h), Store.read_paste 0 (Mem.wf_sorted h)] <;> simp_all

/-- One byte outside the bytes stored. -/
theorem Mem.byte_store_of_out {m : Mem} (h : m.wf = true) {a b n : Nat} (v : Nat) (hb : b < a ∨ a + n ≤ b) :
    (m.store a n v).byte b = m.byte b := by
  rw [Mem.store, Mem.byte_putBytes h, if_neg (by simp; omega)]

/-- The bytes of a range are its bytes one by one. -/
theorem Mem.bytes_eq {m : Mem} (h : m.wf = true) (a n : Nat) :
    m.bytes a n = (List.range n).map fun i => m.byte (a + i) :=
  Store.slice_eq 0 (Mem.wf_sorted h) a n

/-- A load after a store at the same place gives the value stored, as far as it fits. -/
theorem Mem.load_store {m : Mem} (h : m.wf = true) (a n v : Nat) : (m.store a n v).load a n = v % 256 ^ n := by
  rw [Mem.load, Mem.bytes_eq (Mem.wf_store h a n v), ← ofBytes_bytesOf]
  congr 1
  refine List.ext_getElem (by simp) fun i hi _ => ?_
  simp only [List.length_map, List.length_range] at hi
  rw [List.getElem_map, List.getElem_range, Mem.store, Mem.byte_putBytes h, if_pos (by simp; omega),
    Nat.add_sub_cancel_left, List.getD_eq_getElem _ _ (by simpa using hi)]

/-- Memories in canonical form that read alike are equal. -/
theorem Mem.ext {a b : Mem} (ha : a.wf = true) (hb : b.wf = true) (h : ∀ k, a.byte k = b.byte k) : a = b :=
  Store.canonical_ext 0 ha hb h

/-! ## Order -/

theorem insertBy_perm (le : α → α → Bool) (a : α) (l : List α) : (insertBy le a l).Perm (a :: l) := by
  induction l with
  | nil => exact .refl _
  | cons b l ih =>
    unfold insertBy
    split
    · exact .refl _
    · exact (ih.cons b).trans (.swap a b l)

/-- Sorting keeps the items, each as often as it was there. -/
theorem sortBy_perm (le : α → α → Bool) (l : List α) : (sortBy le l).Perm l := by
  induction l with
  | nil => exact .refl _
  | cons a l ih => exact (insertBy_perm le a _).trans (ih.cons a)

@[simp] theorem mem_sortBy (le : α → α → Bool) (l : List α) (a : α) : a ∈ sortBy le l ↔ a ∈ l := (sortBy_perm le l).mem_iff

/-- Sorting by a total and transitive order puts a list in order. -/
theorem sortBy_sorted (le : α → α → Bool) (total : ∀ a b, le a b || le b a) (trans : ∀ a b c, le a b → le b c → le a c)
    (l : List α) : (sortBy le l).Pairwise fun a b => le a b := by
  have insert : ∀ (a : α) (l : List α), l.Pairwise (fun a b => le a b) → (insertBy le a l).Pairwise fun a b => le a b := by
    intro a l hl
    induction l with
    | nil => simp [insertBy]
    | cons b l ih =>
      rw [List.pairwise_cons] at hl
      unfold insertBy
      split
      · next h => exact .cons (fun c hc => (List.mem_cons.1 hc).elim (· ▸ h) fun hc => trans _ _ _ h (hl.1 c hc)) (.cons hl.1 hl.2)
      · next h =>
        refine .cons (fun c hc => ?_) (ih hl.2)
        rcases List.mem_cons.1 ((insertBy_perm le a l).mem_iff.1 hc) with rfl | hc
        · simpa [h] using total c b
        · exact hl.1 c hc
  induction l with
  | nil => exact .nil
  | cons a l ih => exact insert a _ ih

end Sys2Proof.Machine
end

