-- ==== Sys2Proof/Laws/Memory.lean ====
section
/-!
SUPPORT. Every operation on memory keeps its canonical form, and what each leaves of one byte: the write-back of a
line, a masked byte of far memory, and the memories after reset.
-/

namespace Sys2Proof.Machine

/-- The bytes of a line that a mask names are stored; every other byte stays. -/
theorem wf_mergeBytes {m : Mem} (h : m.wf = true) (a : Nat) (d : BitVec 128) (bs : List Byte) (i : Nat) :
    (mergeBytes m a d bs i).wf = true := by
  induction bs generalizing m i with
  | nil => exact h
  | cons b bs ih =>
    unfold mergeBytes
    apply ih
    split
    · exact Store.canonical_write 0 h _ _
    · exact h

theorem byte_mergeBytes {m : Mem} (h : m.wf = true) (a : Nat) (d : BitVec 128) (bs : List Byte) (i k : Nat) :
    (mergeBytes m a d bs i).byte k =
      if a + i ≤ k ∧ k < a + i + bs.length ∧ d.getLsbD (k - a) = true then bs.getD (k - a - i) 0 else m.byte k := by
  induction bs generalizing m i with
  | nil =>
    rw [if_neg (by simp only [List.length_nil]; omega)]; rfl
  | cons b bs ih =>
    unfold mergeBytes
    rw [ih (by split; exacts [Store.canonical_write 0 h _ _, h])]
    have hm : Mem.byte (if d.getLsbD i then Store.write 0 m (a + i) b else m) k =
        if d.getLsbD i = true ∧ k = a + i then b else m.byte k := by
      split
      · rename_i hd
        rw [Mem.byte, Store.read_write 0 (Mem.wf_sorted h)]; simp only [hd, true_and, Mem.byte]
      · rename_i hd
        simp [hd]
    rw [hm, List.length_cons]
    by_cases hk : k = a + i
    · subst hk
      have hi : a + i - a = i := by omega
      rw [if_neg (by omega), hi]
      by_cases hd : d.getLsbD i = true
      · rw [if_pos ⟨hd, rfl⟩, if_pos ⟨by omega, by omega, hd⟩]; simp
      · rw [if_neg (by simp [hd]), if_neg (by simp [hd])]
    · rw [if_neg (show ¬(d.getLsbD i = true ∧ k = a + i) by simp [hk])]
      by_cases hr : a + (i + 1) ≤ k ∧ k < a + (i + 1) + bs.length ∧ d.getLsbD (k - a) = true
      · rw [if_pos hr, if_pos ⟨by omega, by omega, hr.2.2⟩]
        have : k - a - i = (k - a - (i + 1)) + 1 := by omega
        rw [this, List.getD_cons_succ]
      · rw [if_neg hr, if_neg fun h => hr ⟨by omega, by omega, h.2.2⟩]

/-- A masked byte of far memory: the cell takes the bits of the mask. -/
theorem wf_farMask {m : Mem} (h : m.wf = true) (k : Nat) (mask v : Byte) :
    Mem.wf (Store.write 0 m k ((m.byte k &&& ~~~mask) ||| (v &&& mask))) = true := Store.canonical_write 0 h _ _

theorem reset_harbour_wf : State.reset.harbour.wf = true := rfl
theorem reset_far_wf : State.reset.far.wf = true := rfl
theorem reset_shelf_wf (c : Nat) : (State.reset.shelf c).wf = true := rfl

end Sys2Proof.Machine
end

