-- ==== Sys2Proof/Laws/State.lean ====
section
/-!
SUPPORT. What each update of the state leaves alone: one equation per update and field, true by unfolding, so
that no proof unfolds a record update.
-/

namespace Sys2Proof.Machine

variable (s : State)

/-! ## `State.modCore` -/

@[simp] theorem State.modCore_clock (c : Nat) (f : Core → Core) : (s.modCore c f).clock = s.clock := rfl
@[simp] theorem State.modCore_time (c : Nat) (f : Core → Core) : (s.modCore c f).time = s.time := rfl
@[simp] theorem State.modCore_harbour (c : Nat) (f : Core → Core) : (s.modCore c f).harbour = s.harbour := rfl
@[simp] theorem State.modCore_far (c : Nat) (f : Core → Core) : (s.modCore c f).far = s.far := rfl
@[simp] theorem State.modCore_parts (c : Nat) (f : Core → Core) : (s.modCore c f).parts = s.parts := rfl
@[simp] theorem State.modCore_ctlbase (c : Nat) (f : Core → Core) : (s.modCore c f).ctlbase = s.ctlbase := rfl
@[simp] theorem State.modCore_dieTlb (c : Nat) (f : Core → Core) : (s.modCore c f).dieTlb = s.dieTlb := rfl
@[simp] theorem State.modCore_records (c : Nat) (f : Core → Core) : (s.modCore c f).records = s.records := rfl
@[simp] theorem State.modCore_notices (c : Nat) (f : Core → Core) : (s.modCore c f).notices = s.notices := rfl
@[simp] theorem State.modCore_promotions (c : Nat) (f : Core → Core) : (s.modCore c f).promotions = s.promotions := rfl
@[simp] theorem State.modCore_cmds (c : Nat) (f : Core → Core) : (s.modCore c f).cmds = s.cmds := rfl
@[simp] theorem State.modCore_graphs (c : Nat) (f : Core → Core) : (s.modCore c f).graphs = s.graphs := rfl
@[simp] theorem State.modCore_runs (c : Nat) (f : Core → Core) : (s.modCore c f).runs = s.runs := rfl
@[simp] theorem State.modCore_batch (c : Nat) (f : Core → Core) : (s.modCore c f).batch = s.batch := rfl
@[simp] theorem State.modCore_opened (c : Nat) (f : Core → Core) : (s.modCore c f).opened = s.opened := rfl
@[simp] theorem State.modCore_issued (c : Nat) (f : Core → Core) : (s.modCore c f).issued = s.issued := rfl
@[simp] theorem State.modCore_linkOwner (c : Nat) (f : Core → Core) : (s.modCore c f).linkOwner = s.linkOwner := rfl
@[simp] theorem State.modCore_nodeId (c : Nat) (f : Core → Core) : (s.modCore c f).nodeId = s.nodeId := rfl
@[simp] theorem State.modCore_topover (c : Nat) (f : Core → Core) : (s.modCore c f).topover = s.topover := rfl
@[simp] theorem State.modCore_routes (c : Nat) (f : Core → Core) : (s.modCore c f).routes = s.routes := rfl
@[simp] theorem State.modCore_routesNext (c : Nat) (f : Core → Core) : (s.modCore c f).routesNext = s.routesNext := rfl
@[simp] theorem State.modCore_rtidx (c : Nat) (f : Core → Core) : (s.modCore c f).rtidx = s.rtidx := rfl
@[simp] theorem State.modCore_peerto (c : Nat) (f : Core → Core) : (s.modCore c f).peerto = s.peerto := rfl
@[simp] theorem State.modCore_peerwin (c : Nat) (f : Core → Core) : (s.modCore c f).peerwin = s.peerwin := rfl
@[simp] theorem State.modCore_uetkey (c : Nat) (f : Core → Core) : (s.modCore c f).uetkey = s.uetkey := rfl
@[simp] theorem State.modCore_commbase (c : Nat) (f : Core → Core) : (s.modCore c f).commbase = s.commbase := rfl
@[simp] theorem State.modCore_groups (c : Nat) (f : Core → Core) : (s.modCore c f).groups = s.groups := rfl
@[simp] theorem State.modCore_requests (c : Nat) (f : Core → Core) : (s.modCore c f).requests = s.requests := rfl
@[simp] theorem State.modCore_tagGen (c : Nat) (f : Core → Core) : (s.modCore c f).tagGen = s.tagGen := rfl
@[simp] theorem State.modCore_tagCore (c : Nat) (f : Core → Core) : (s.modCore c f).tagCore = s.tagCore := rfl
@[simp] theorem State.modCore_routed (c : Nat) (f : Core → Core) : (s.modCore c f).routed = s.routed := rfl
@[simp] theorem State.modCore_leaving (c : Nat) (f : Core → Core) : (s.modCore c f).leaving = s.leaving := rfl
@[simp] theorem State.modCore_replays (c : Nat) (f : Core → Core) : (s.modCore c f).replays = s.replays := rfl
@[simp] theorem State.modCore_colls (c : Nat) (f : Core → Core) : (s.modCore c f).colls = s.colls := rfl
@[simp] theorem State.modCore_channels (c : Nat) (f : Core → Core) : (s.modCore c f).channels = s.channels := rfl
@[simp] theorem State.modCore_turns (c : Nat) (f : Core → Core) : (s.modCore c f).turns = s.turns := rfl
@[simp] theorem State.modCore_ports (c : Nat) (f : Core → Core) : (s.modCore c f).ports = s.ports := rfl
@[simp] theorem State.modCore_mgmt (c : Nat) (f : Core → Core) : (s.modCore c f).mgmt = s.mgmt := rfl
@[simp] theorem State.modCore_wire (c : Nat) (f : Core → Core) : (s.modCore c f).wire = s.wire := rfl
@[simp] theorem State.modCore_cur (c : Nat) (f : Core → Core) : (s.modCore c f).cur = s.cur := rfl
@[simp] theorem State.modCore_inputs (c : Nat) (f : Core → Core) : (s.modCore c f).inputs = s.inputs := rfl
@[simp] theorem State.modCore_cursor (c : Nat) (f : Core → Core) : (s.modCore c f).cursor = s.cursor := rfl
@[simp] theorem State.modCore_free (c : Nat) (f : Core → Core) : (s.modCore c f).free = s.free := rfl
@[simp] theorem State.modCore_nextId (c : Nat) (f : Core → Core) : (s.modCore c f).nextId = s.nextId := rfl

/-! ## `State.modCtx` -/

@[simp] theorem State.modCtx_clock (c : Nat) (f : Context → Context) : (s.modCtx c f).clock = s.clock := rfl
@[simp] theorem State.modCtx_time (c : Nat) (f : Context → Context) : (s.modCtx c f).time = s.time := rfl
@[simp] theorem State.modCtx_harbour (c : Nat) (f : Context → Context) : (s.modCtx c f).harbour = s.harbour := rfl
@[simp] theorem State.modCtx_far (c : Nat) (f : Context → Context) : (s.modCtx c f).far = s.far := rfl
@[simp] theorem State.modCtx_parts (c : Nat) (f : Context → Context) : (s.modCtx c f).parts = s.parts := rfl
@[simp] theorem State.modCtx_ctlbase (c : Nat) (f : Context → Context) : (s.modCtx c f).ctlbase = s.ctlbase := rfl
@[simp] theorem State.modCtx_dieTlb (c : Nat) (f : Context → Context) : (s.modCtx c f).dieTlb = s.dieTlb := rfl
@[simp] theorem State.modCtx_records (c : Nat) (f : Context → Context) : (s.modCtx c f).records = s.records := rfl
@[simp] theorem State.modCtx_notices (c : Nat) (f : Context → Context) : (s.modCtx c f).notices = s.notices := rfl
@[simp] theorem State.modCtx_promotions (c : Nat) (f : Context → Context) : (s.modCtx c f).promotions = s.promotions := rfl
@[simp] theorem State.modCtx_cmds (c : Nat) (f : Context → Context) : (s.modCtx c f).cmds = s.cmds := rfl
@[simp] theorem State.modCtx_graphs (c : Nat) (f : Context → Context) : (s.modCtx c f).graphs = s.graphs := rfl
@[simp] theorem State.modCtx_runs (c : Nat) (f : Context → Context) : (s.modCtx c f).runs = s.runs := rfl
@[simp] theorem State.modCtx_batch (c : Nat) (f : Context → Context) : (s.modCtx c f).batch = s.batch := rfl
@[simp] theorem State.modCtx_opened (c : Nat) (f : Context → Context) : (s.modCtx c f).opened = s.opened := rfl
@[simp] theorem State.modCtx_issued (c : Nat) (f : Context → Context) : (s.modCtx c f).issued = s.issued := rfl
@[simp] theorem State.modCtx_linkOwner (c : Nat) (f : Context → Context) : (s.modCtx c f).linkOwner = s.linkOwner := rfl
@[simp] theorem State.modCtx_nodeId (c : Nat) (f : Context → Context) : (s.modCtx c f).nodeId = s.nodeId := rfl
@[simp] theorem State.modCtx_topover (c : Nat) (f : Context → Context) : (s.modCtx c f).topover = s.topover := rfl
@[simp] theorem State.modCtx_routes (c : Nat) (f : Context → Context) : (s.modCtx c f).routes = s.routes := rfl
@[simp] theorem State.modCtx_routesNext (c : Nat) (f : Context → Context) : (s.modCtx c f).routesNext = s.routesNext := rfl
@[simp] theorem State.modCtx_rtidx (c : Nat) (f : Context → Context) : (s.modCtx c f).rtidx = s.rtidx := rfl
@[simp] theorem State.modCtx_peerto (c : Nat) (f : Context → Context) : (s.modCtx c f).peerto = s.peerto := rfl
@[simp] theorem State.modCtx_peerwin (c : Nat) (f : Context → Context) : (s.modCtx c f).peerwin = s.peerwin := rfl
@[simp] theorem State.modCtx_uetkey (c : Nat) (f : Context → Context) : (s.modCtx c f).uetkey = s.uetkey := rfl
@[simp] theorem State.modCtx_commbase (c : Nat) (f : Context → Context) : (s.modCtx c f).commbase = s.commbase := rfl
@[simp] theorem State.modCtx_groups (c : Nat) (f : Context → Context) : (s.modCtx c f).groups = s.groups := rfl
@[simp] theorem State.modCtx_requests (c : Nat) (f : Context → Context) : (s.modCtx c f).requests = s.requests := rfl
@[simp] theorem State.modCtx_tagGen (c : Nat) (f : Context → Context) : (s.modCtx c f).tagGen = s.tagGen := rfl
@[simp] theorem State.modCtx_tagCore (c : Nat) (f : Context → Context) : (s.modCtx c f).tagCore = s.tagCore := rfl
@[simp] theorem State.modCtx_routed (c : Nat) (f : Context → Context) : (s.modCtx c f).routed = s.routed := rfl
@[simp] theorem State.modCtx_leaving (c : Nat) (f : Context → Context) : (s.modCtx c f).leaving = s.leaving := rfl
@[simp] theorem State.modCtx_replays (c : Nat) (f : Context → Context) : (s.modCtx c f).replays = s.replays := rfl
@[simp] theorem State.modCtx_colls (c : Nat) (f : Context → Context) : (s.modCtx c f).colls = s.colls := rfl
@[simp] theorem State.modCtx_channels (c : Nat) (f : Context → Context) : (s.modCtx c f).channels = s.channels := rfl
@[simp] theorem State.modCtx_turns (c : Nat) (f : Context → Context) : (s.modCtx c f).turns = s.turns := rfl
@[simp] theorem State.modCtx_ports (c : Nat) (f : Context → Context) : (s.modCtx c f).ports = s.ports := rfl
@[simp] theorem State.modCtx_mgmt (c : Nat) (f : Context → Context) : (s.modCtx c f).mgmt = s.mgmt := rfl
@[simp] theorem State.modCtx_wire (c : Nat) (f : Context → Context) : (s.modCtx c f).wire = s.wire := rfl
@[simp] theorem State.modCtx_cur (c : Nat) (f : Context → Context) : (s.modCtx c f).cur = s.cur := rfl
@[simp] theorem State.modCtx_inputs (c : Nat) (f : Context → Context) : (s.modCtx c f).inputs = s.inputs := rfl
@[simp] theorem State.modCtx_cursor (c : Nat) (f : Context → Context) : (s.modCtx c f).cursor = s.cursor := rfl
@[simp] theorem State.modCtx_free (c : Nat) (f : Context → Context) : (s.modCtx c f).free = s.free := rfl
@[simp] theorem State.modCtx_nextId (c : Nat) (f : Context → Context) : (s.modCtx c f).nextId = s.nextId := rfl

/-! ## `State.modStrand` -/

@[simp] theorem State.modStrand_clock (c k : Nat) (f : Strand → Strand) : (s.modStrand c k f).clock = s.clock := rfl
@[simp] theorem State.modStrand_time (c k : Nat) (f : Strand → Strand) : (s.modStrand c k f).time = s.time := rfl
@[simp] theorem State.modStrand_harbour (c k : Nat) (f : Strand → Strand) : (s.modStrand c k f).harbour = s.harbour := rfl
@[simp] theorem State.modStrand_far (c k : Nat) (f : Strand → Strand) : (s.modStrand c k f).far = s.far := rfl
@[simp] theorem State.modStrand_parts (c k : Nat) (f : Strand → Strand) : (s.modStrand c k f).parts = s.parts := rfl
@[simp] theorem State.modStrand_ctlbase (c k : Nat) (f : Strand → Strand) : (s.modStrand c k f).ctlbase = s.ctlbase := rfl
@[simp] theorem State.modStrand_dieTlb (c k : Nat) (f : Strand → Strand) : (s.modStrand c k f).dieTlb = s.dieTlb := rfl
@[simp] theorem State.modStrand_records (c k : Nat) (f : Strand → Strand) : (s.modStrand c k f).records = s.records := rfl
@[simp] theorem State.modStrand_notices (c k : Nat) (f : Strand → Strand) : (s.modStrand c k f).notices = s.notices := rfl
@[simp] theorem State.modStrand_promotions (c k : Nat) (f : Strand → Strand) : (s.modStrand c k f).promotions = s.promotions := rfl
@[simp] theorem State.modStrand_cmds (c k : Nat) (f : Strand → Strand) : (s.modStrand c k f).cmds = s.cmds := rfl
@[simp] theorem State.modStrand_graphs (c k : Nat) (f : Strand → Strand) : (s.modStrand c k f).graphs = s.graphs := rfl
@[simp] theorem State.modStrand_runs (c k : Nat) (f : Strand → Strand) : (s.modStrand c k f).runs = s.runs := rfl
@[simp] theorem State.modStrand_batch (c k : Nat) (f : Strand → Strand) : (s.modStrand c k f).batch = s.batch := rfl
@[simp] theorem State.modStrand_opened (c k : Nat) (f : Strand → Strand) : (s.modStrand c k f).opened = s.opened := rfl
@[simp] theorem State.modStrand_issued (c k : Nat) (f : Strand → Strand) : (s.modStrand c k f).issued = s.issued := rfl
@[simp] theorem State.modStrand_linkOwner (c k : Nat) (f : Strand → Strand) : (s.modStrand c k f).linkOwner = s.linkOwner := rfl
@[simp] theorem State.modStrand_nodeId (c k : Nat) (f : Strand → Strand) : (s.modStrand c k f).nodeId = s.nodeId := rfl
@[simp] theorem State.modStrand_topover (c k : Nat) (f : Strand → Strand) : (s.modStrand c k f).topover = s.topover := rfl
@[simp] theorem State.modStrand_routes (c k : Nat) (f : Strand → Strand) : (s.modStrand c k f).routes = s.routes := rfl
@[simp] theorem State.modStrand_routesNext (c k : Nat) (f : Strand → Strand) : (s.modStrand c k f).routesNext = s.routesNext := rfl
@[simp] theorem State.modStrand_rtidx (c k : Nat) (f : Strand → Strand) : (s.modStrand c k f).rtidx = s.rtidx := rfl
@[simp] theorem State.modStrand_peerto (c k : Nat) (f : Strand → Strand) : (s.modStrand c k f).peerto = s.peerto := rfl
@[simp] theorem State.modStrand_peerwin (c k : Nat) (f : Strand → Strand) : (s.modStrand c k f).peerwin = s.peerwin := rfl
@[simp] theorem State.modStrand_uetkey (c k : Nat) (f : Strand → Strand) : (s.modStrand c k f).uetkey = s.uetkey := rfl
@[simp] theorem State.modStrand_commbase (c k : Nat) (f : Strand → Strand) : (s.modStrand c k f).commbase = s.commbase := rfl
@[simp] theorem State.modStrand_groups (c k : Nat) (f : Strand → Strand) : (s.modStrand c k f).groups = s.groups := rfl
@[simp] theorem State.modStrand_requests (c k : Nat) (f : Strand → Strand) : (s.modStrand c k f).requests = s.requests := rfl
@[simp] theorem State.modStrand_tagGen (c k : Nat) (f : Strand → Strand) : (s.modStrand c k f).tagGen = s.tagGen := rfl
@[simp] theorem State.modStrand_tagCore (c k : Nat) (f : Strand → Strand) : (s.modStrand c k f).tagCore = s.tagCore := rfl
@[simp] theorem State.modStrand_routed (c k : Nat) (f : Strand → Strand) : (s.modStrand c k f).routed = s.routed := rfl
@[simp] theorem State.modStrand_leaving (c k : Nat) (f : Strand → Strand) : (s.modStrand c k f).leaving = s.leaving := rfl
@[simp] theorem State.modStrand_replays (c k : Nat) (f : Strand → Strand) : (s.modStrand c k f).replays = s.replays := rfl
@[simp] theorem State.modStrand_colls (c k : Nat) (f : Strand → Strand) : (s.modStrand c k f).colls = s.colls := rfl
@[simp] theorem State.modStrand_channels (c k : Nat) (f : Strand → Strand) : (s.modStrand c k f).channels = s.channels := rfl
@[simp] theorem State.modStrand_turns (c k : Nat) (f : Strand → Strand) : (s.modStrand c k f).turns = s.turns := rfl
@[simp] theorem State.modStrand_ports (c k : Nat) (f : Strand → Strand) : (s.modStrand c k f).ports = s.ports := rfl
@[simp] theorem State.modStrand_mgmt (c k : Nat) (f : Strand → Strand) : (s.modStrand c k f).mgmt = s.mgmt := rfl
@[simp] theorem State.modStrand_wire (c k : Nat) (f : Strand → Strand) : (s.modStrand c k f).wire = s.wire := rfl
@[simp] theorem State.modStrand_cur (c k : Nat) (f : Strand → Strand) : (s.modStrand c k f).cur = s.cur := rfl
@[simp] theorem State.modStrand_inputs (c k : Nat) (f : Strand → Strand) : (s.modStrand c k f).inputs = s.inputs := rfl
@[simp] theorem State.modStrand_cursor (c k : Nat) (f : Strand → Strand) : (s.modStrand c k f).cursor = s.cursor := rfl
@[simp] theorem State.modStrand_free (c k : Nat) (f : Strand → Strand) : (s.modStrand c k f).free = s.free := rfl
@[simp] theorem State.modStrand_nextId (c k : Nat) (f : Strand → Strand) : (s.modStrand c k f).nextId = s.nextId := rfl

/-! ## `State.modMe` -/

@[simp] theorem State.modMe_clock (f : Strand → Strand) : (s.modMe f).clock = s.clock := rfl
@[simp] theorem State.modMe_time (f : Strand → Strand) : (s.modMe f).time = s.time := rfl
@[simp] theorem State.modMe_harbour (f : Strand → Strand) : (s.modMe f).harbour = s.harbour := rfl
@[simp] theorem State.modMe_far (f : Strand → Strand) : (s.modMe f).far = s.far := rfl
@[simp] theorem State.modMe_parts (f : Strand → Strand) : (s.modMe f).parts = s.parts := rfl
@[simp] theorem State.modMe_ctlbase (f : Strand → Strand) : (s.modMe f).ctlbase = s.ctlbase := rfl
@[simp] theorem State.modMe_dieTlb (f : Strand → Strand) : (s.modMe f).dieTlb = s.dieTlb := rfl
@[simp] theorem State.modMe_records (f : Strand → Strand) : (s.modMe f).records = s.records := rfl
@[simp] theorem State.modMe_notices (f : Strand → Strand) : (s.modMe f).notices = s.notices := rfl
@[simp] theorem State.modMe_promotions (f : Strand → Strand) : (s.modMe f).promotions = s.promotions := rfl
@[simp] theorem State.modMe_cmds (f : Strand → Strand) : (s.modMe f).cmds = s.cmds := rfl
@[simp] theorem State.modMe_graphs (f : Strand → Strand) : (s.modMe f).graphs = s.graphs := rfl
@[simp] theorem State.modMe_runs (f : Strand → Strand) : (s.modMe f).runs = s.runs := rfl
@[simp] theorem State.modMe_batch (f : Strand → Strand) : (s.modMe f).batch = s.batch := rfl
@[simp] theorem State.modMe_opened (f : Strand → Strand) : (s.modMe f).opened = s.opened := rfl
@[simp] theorem State.modMe_issued (f : Strand → Strand) : (s.modMe f).issued = s.issued := rfl
@[simp] theorem State.modMe_linkOwner (f : Strand → Strand) : (s.modMe f).linkOwner = s.linkOwner := rfl
@[simp] theorem State.modMe_nodeId (f : Strand → Strand) : (s.modMe f).nodeId = s.nodeId := rfl
@[simp] theorem State.modMe_topover (f : Strand → Strand) : (s.modMe f).topover = s.topover := rfl
@[simp] theorem State.modMe_routes (f : Strand → Strand) : (s.modMe f).routes = s.routes := rfl
@[simp] theorem State.modMe_routesNext (f : Strand → Strand) : (s.modMe f).routesNext = s.routesNext := rfl
@[simp] theorem State.modMe_rtidx (f : Strand → Strand) : (s.modMe f).rtidx = s.rtidx := rfl
@[simp] theorem State.modMe_peerto (f : Strand → Strand) : (s.modMe f).peerto = s.peerto := rfl
@[simp] theorem State.modMe_peerwin (f : Strand → Strand) : (s.modMe f).peerwin = s.peerwin := rfl
@[simp] theorem State.modMe_uetkey (f : Strand → Strand) : (s.modMe f).uetkey = s.uetkey := rfl
@[simp] theorem State.modMe_commbase (f : Strand → Strand) : (s.modMe f).commbase = s.commbase := rfl
@[simp] theorem State.modMe_groups (f : Strand → Strand) : (s.modMe f).groups = s.groups := rfl
@[simp] theorem State.modMe_requests (f : Strand → Strand) : (s.modMe f).requests = s.requests := rfl
@[simp] theorem State.modMe_tagGen (f : Strand → Strand) : (s.modMe f).tagGen = s.tagGen := rfl
@[simp] theorem State.modMe_tagCore (f : Strand → Strand) : (s.modMe f).tagCore = s.tagCore := rfl
@[simp] theorem State.modMe_routed (f : Strand → Strand) : (s.modMe f).routed = s.routed := rfl
@[simp] theorem State.modMe_leaving (f : Strand → Strand) : (s.modMe f).leaving = s.leaving := rfl
@[simp] theorem State.modMe_replays (f : Strand → Strand) : (s.modMe f).replays = s.replays := rfl
@[simp] theorem State.modMe_colls (f : Strand → Strand) : (s.modMe f).colls = s.colls := rfl
@[simp] theorem State.modMe_channels (f : Strand → Strand) : (s.modMe f).channels = s.channels := rfl
@[simp] theorem State.modMe_turns (f : Strand → Strand) : (s.modMe f).turns = s.turns := rfl
@[simp] theorem State.modMe_ports (f : Strand → Strand) : (s.modMe f).ports = s.ports := rfl
@[simp] theorem State.modMe_mgmt (f : Strand → Strand) : (s.modMe f).mgmt = s.mgmt := rfl
@[simp] theorem State.modMe_wire (f : Strand → Strand) : (s.modMe f).wire = s.wire := rfl
@[simp] theorem State.modMe_cur (f : Strand → Strand) : (s.modMe f).cur = s.cur := rfl
@[simp] theorem State.modMe_inputs (f : Strand → Strand) : (s.modMe f).inputs = s.inputs := rfl
@[simp] theorem State.modMe_cursor (f : Strand → Strand) : (s.modMe f).cursor = s.cursor := rfl
@[simp] theorem State.modMe_free (f : Strand → Strand) : (s.modMe f).free = s.free := rfl
@[simp] theorem State.modMe_nextId (f : Strand → Strand) : (s.modMe f).nextId = s.nextId := rfl

/-! ## `State.modMySplit` -/

@[simp] theorem State.modMySplit_clock (f : Split → Split) : (s.modMySplit f).clock = s.clock := rfl
@[simp] theorem State.modMySplit_time (f : Split → Split) : (s.modMySplit f).time = s.time := rfl
@[simp] theorem State.modMySplit_harbour (f : Split → Split) : (s.modMySplit f).harbour = s.harbour := rfl
@[simp] theorem State.modMySplit_far (f : Split → Split) : (s.modMySplit f).far = s.far := rfl
@[simp] theorem State.modMySplit_parts (f : Split → Split) : (s.modMySplit f).parts = s.parts := rfl
@[simp] theorem State.modMySplit_ctlbase (f : Split → Split) : (s.modMySplit f).ctlbase = s.ctlbase := rfl
@[simp] theorem State.modMySplit_dieTlb (f : Split → Split) : (s.modMySplit f).dieTlb = s.dieTlb := rfl
@[simp] theorem State.modMySplit_records (f : Split → Split) : (s.modMySplit f).records = s.records := rfl
@[simp] theorem State.modMySplit_notices (f : Split → Split) : (s.modMySplit f).notices = s.notices := rfl
@[simp] theorem State.modMySplit_promotions (f : Split → Split) : (s.modMySplit f).promotions = s.promotions := rfl
@[simp] theorem State.modMySplit_cmds (f : Split → Split) : (s.modMySplit f).cmds = s.cmds := rfl
@[simp] theorem State.modMySplit_graphs (f : Split → Split) : (s.modMySplit f).graphs = s.graphs := rfl
@[simp] theorem State.modMySplit_runs (f : Split → Split) : (s.modMySplit f).runs = s.runs := rfl
@[simp] theorem State.modMySplit_batch (f : Split → Split) : (s.modMySplit f).batch = s.batch := rfl
@[simp] theorem State.modMySplit_opened (f : Split → Split) : (s.modMySplit f).opened = s.opened := rfl
@[simp] theorem State.modMySplit_issued (f : Split → Split) : (s.modMySplit f).issued = s.issued := rfl
@[simp] theorem State.modMySplit_linkOwner (f : Split → Split) : (s.modMySplit f).linkOwner = s.linkOwner := rfl
@[simp] theorem State.modMySplit_nodeId (f : Split → Split) : (s.modMySplit f).nodeId = s.nodeId := rfl
@[simp] theorem State.modMySplit_topover (f : Split → Split) : (s.modMySplit f).topover = s.topover := rfl
@[simp] theorem State.modMySplit_routes (f : Split → Split) : (s.modMySplit f).routes = s.routes := rfl
@[simp] theorem State.modMySplit_routesNext (f : Split → Split) : (s.modMySplit f).routesNext = s.routesNext := rfl
@[simp] theorem State.modMySplit_rtidx (f : Split → Split) : (s.modMySplit f).rtidx = s.rtidx := rfl
@[simp] theorem State.modMySplit_peerto (f : Split → Split) : (s.modMySplit f).peerto = s.peerto := rfl
@[simp] theorem State.modMySplit_peerwin (f : Split → Split) : (s.modMySplit f).peerwin = s.peerwin := rfl
@[simp] theorem State.modMySplit_uetkey (f : Split → Split) : (s.modMySplit f).uetkey = s.uetkey := rfl
@[simp] theorem State.modMySplit_commbase (f : Split → Split) : (s.modMySplit f).commbase = s.commbase := rfl
@[simp] theorem State.modMySplit_groups (f : Split → Split) : (s.modMySplit f).groups = s.groups := rfl
@[simp] theorem State.modMySplit_requests (f : Split → Split) : (s.modMySplit f).requests = s.requests := rfl
@[simp] theorem State.modMySplit_tagGen (f : Split → Split) : (s.modMySplit f).tagGen = s.tagGen := rfl
@[simp] theorem State.modMySplit_tagCore (f : Split → Split) : (s.modMySplit f).tagCore = s.tagCore := rfl
@[simp] theorem State.modMySplit_routed (f : Split → Split) : (s.modMySplit f).routed = s.routed := rfl
@[simp] theorem State.modMySplit_leaving (f : Split → Split) : (s.modMySplit f).leaving = s.leaving := rfl
@[simp] theorem State.modMySplit_replays (f : Split → Split) : (s.modMySplit f).replays = s.replays := rfl
@[simp] theorem State.modMySplit_colls (f : Split → Split) : (s.modMySplit f).colls = s.colls := rfl
@[simp] theorem State.modMySplit_channels (f : Split → Split) : (s.modMySplit f).channels = s.channels := rfl
@[simp] theorem State.modMySplit_turns (f : Split → Split) : (s.modMySplit f).turns = s.turns := rfl
@[simp] theorem State.modMySplit_ports (f : Split → Split) : (s.modMySplit f).ports = s.ports := rfl
@[simp] theorem State.modMySplit_mgmt (f : Split → Split) : (s.modMySplit f).mgmt = s.mgmt := rfl
@[simp] theorem State.modMySplit_wire (f : Split → Split) : (s.modMySplit f).wire = s.wire := rfl
@[simp] theorem State.modMySplit_cur (f : Split → Split) : (s.modMySplit f).cur = s.cur := rfl
@[simp] theorem State.modMySplit_inputs (f : Split → Split) : (s.modMySplit f).inputs = s.inputs := rfl
@[simp] theorem State.modMySplit_cursor (f : Split → Split) : (s.modMySplit f).cursor = s.cursor := rfl
@[simp] theorem State.modMySplit_free (f : Split → Split) : (s.modMySplit f).free = s.free := rfl
@[simp] theorem State.modMySplit_nextId (f : Split → Split) : (s.modMySplit f).nextId = s.nextId := rfl

/-! ## `State.modWg` -/

@[simp] theorem State.modWg_clock (c k : Nat) (f : Workgroup → Workgroup) : (s.modWg c k f).clock = s.clock := rfl
@[simp] theorem State.modWg_time (c k : Nat) (f : Workgroup → Workgroup) : (s.modWg c k f).time = s.time := rfl
@[simp] theorem State.modWg_harbour (c k : Nat) (f : Workgroup → Workgroup) : (s.modWg c k f).harbour = s.harbour := rfl
@[simp] theorem State.modWg_far (c k : Nat) (f : Workgroup → Workgroup) : (s.modWg c k f).far = s.far := rfl
@[simp] theorem State.modWg_parts (c k : Nat) (f : Workgroup → Workgroup) : (s.modWg c k f).parts = s.parts := rfl
@[simp] theorem State.modWg_ctlbase (c k : Nat) (f : Workgroup → Workgroup) : (s.modWg c k f).ctlbase = s.ctlbase := rfl
@[simp] theorem State.modWg_dieTlb (c k : Nat) (f : Workgroup → Workgroup) : (s.modWg c k f).dieTlb = s.dieTlb := rfl
@[simp] theorem State.modWg_records (c k : Nat) (f : Workgroup → Workgroup) : (s.modWg c k f).records = s.records := rfl
@[simp] theorem State.modWg_notices (c k : Nat) (f : Workgroup → Workgroup) : (s.modWg c k f).notices = s.notices := rfl
@[simp] theorem State.modWg_promotions (c k : Nat) (f : Workgroup → Workgroup) : (s.modWg c k f).promotions = s.promotions := rfl
@[simp] theorem State.modWg_cmds (c k : Nat) (f : Workgroup → Workgroup) : (s.modWg c k f).cmds = s.cmds := rfl
@[simp] theorem State.modWg_graphs (c k : Nat) (f : Workgroup → Workgroup) : (s.modWg c k f).graphs = s.graphs := rfl
@[simp] theorem State.modWg_runs (c k : Nat) (f : Workgroup → Workgroup) : (s.modWg c k f).runs = s.runs := rfl
@[simp] theorem State.modWg_batch (c k : Nat) (f : Workgroup → Workgroup) : (s.modWg c k f).batch = s.batch := rfl
@[simp] theorem State.modWg_opened (c k : Nat) (f : Workgroup → Workgroup) : (s.modWg c k f).opened = s.opened := rfl
@[simp] theorem State.modWg_issued (c k : Nat) (f : Workgroup → Workgroup) : (s.modWg c k f).issued = s.issued := rfl
@[simp] theorem State.modWg_linkOwner (c k : Nat) (f : Workgroup → Workgroup) : (s.modWg c k f).linkOwner = s.linkOwner := rfl
@[simp] theorem State.modWg_nodeId (c k : Nat) (f : Workgroup → Workgroup) : (s.modWg c k f).nodeId = s.nodeId := rfl
@[simp] theorem State.modWg_topover (c k : Nat) (f : Workgroup → Workgroup) : (s.modWg c k f).topover = s.topover := rfl
@[simp] theorem State.modWg_routes (c k : Nat) (f : Workgroup → Workgroup) : (s.modWg c k f).routes = s.routes := rfl
@[simp] theorem State.modWg_routesNext (c k : Nat) (f : Workgroup → Workgroup) : (s.modWg c k f).routesNext = s.routesNext := rfl
@[simp] theorem State.modWg_rtidx (c k : Nat) (f : Workgroup → Workgroup) : (s.modWg c k f).rtidx = s.rtidx := rfl
@[simp] theorem State.modWg_peerto (c k : Nat) (f : Workgroup → Workgroup) : (s.modWg c k f).peerto = s.peerto := rfl
@[simp] theorem State.modWg_peerwin (c k : Nat) (f : Workgroup → Workgroup) : (s.modWg c k f).peerwin = s.peerwin := rfl
@[simp] theorem State.modWg_uetkey (c k : Nat) (f : Workgroup → Workgroup) : (s.modWg c k f).uetkey = s.uetkey := rfl
@[simp] theorem State.modWg_commbase (c k : Nat) (f : Workgroup → Workgroup) : (s.modWg c k f).commbase = s.commbase := rfl
@[simp] theorem State.modWg_groups (c k : Nat) (f : Workgroup → Workgroup) : (s.modWg c k f).groups = s.groups := rfl
@[simp] theorem State.modWg_requests (c k : Nat) (f : Workgroup → Workgroup) : (s.modWg c k f).requests = s.requests := rfl
@[simp] theorem State.modWg_tagGen (c k : Nat) (f : Workgroup → Workgroup) : (s.modWg c k f).tagGen = s.tagGen := rfl
@[simp] theorem State.modWg_tagCore (c k : Nat) (f : Workgroup → Workgroup) : (s.modWg c k f).tagCore = s.tagCore := rfl
@[simp] theorem State.modWg_routed (c k : Nat) (f : Workgroup → Workgroup) : (s.modWg c k f).routed = s.routed := rfl
@[simp] theorem State.modWg_leaving (c k : Nat) (f : Workgroup → Workgroup) : (s.modWg c k f).leaving = s.leaving := rfl
@[simp] theorem State.modWg_replays (c k : Nat) (f : Workgroup → Workgroup) : (s.modWg c k f).replays = s.replays := rfl
@[simp] theorem State.modWg_colls (c k : Nat) (f : Workgroup → Workgroup) : (s.modWg c k f).colls = s.colls := rfl
@[simp] theorem State.modWg_channels (c k : Nat) (f : Workgroup → Workgroup) : (s.modWg c k f).channels = s.channels := rfl
@[simp] theorem State.modWg_turns (c k : Nat) (f : Workgroup → Workgroup) : (s.modWg c k f).turns = s.turns := rfl
@[simp] theorem State.modWg_ports (c k : Nat) (f : Workgroup → Workgroup) : (s.modWg c k f).ports = s.ports := rfl
@[simp] theorem State.modWg_mgmt (c k : Nat) (f : Workgroup → Workgroup) : (s.modWg c k f).mgmt = s.mgmt := rfl
@[simp] theorem State.modWg_wire (c k : Nat) (f : Workgroup → Workgroup) : (s.modWg c k f).wire = s.wire := rfl
@[simp] theorem State.modWg_cur (c k : Nat) (f : Workgroup → Workgroup) : (s.modWg c k f).cur = s.cur := rfl
@[simp] theorem State.modWg_inputs (c k : Nat) (f : Workgroup → Workgroup) : (s.modWg c k f).inputs = s.inputs := rfl
@[simp] theorem State.modWg_cursor (c k : Nat) (f : Workgroup → Workgroup) : (s.modWg c k f).cursor = s.cursor := rfl
@[simp] theorem State.modWg_free (c k : Nat) (f : Workgroup → Workgroup) : (s.modWg c k f).free = s.free := rfl
@[simp] theorem State.modWg_nextId (c k : Nat) (f : Workgroup → Workgroup) : (s.modWg c k f).nextId = s.nextId := rfl

/-! ## `State.modShelf` -/

@[simp] theorem State.modShelf_clock (c : Nat) (f : Mem → Mem) : (s.modShelf c f).clock = s.clock := rfl
@[simp] theorem State.modShelf_time (c : Nat) (f : Mem → Mem) : (s.modShelf c f).time = s.time := rfl
@[simp] theorem State.modShelf_harbour (c : Nat) (f : Mem → Mem) : (s.modShelf c f).harbour = s.harbour := rfl
@[simp] theorem State.modShelf_far (c : Nat) (f : Mem → Mem) : (s.modShelf c f).far = s.far := rfl
@[simp] theorem State.modShelf_parts (c : Nat) (f : Mem → Mem) : (s.modShelf c f).parts = s.parts := rfl
@[simp] theorem State.modShelf_ctlbase (c : Nat) (f : Mem → Mem) : (s.modShelf c f).ctlbase = s.ctlbase := rfl
@[simp] theorem State.modShelf_dieTlb (c : Nat) (f : Mem → Mem) : (s.modShelf c f).dieTlb = s.dieTlb := rfl
@[simp] theorem State.modShelf_records (c : Nat) (f : Mem → Mem) : (s.modShelf c f).records = s.records := rfl
@[simp] theorem State.modShelf_notices (c : Nat) (f : Mem → Mem) : (s.modShelf c f).notices = s.notices := rfl
@[simp] theorem State.modShelf_promotions (c : Nat) (f : Mem → Mem) : (s.modShelf c f).promotions = s.promotions := rfl
@[simp] theorem State.modShelf_cmds (c : Nat) (f : Mem → Mem) : (s.modShelf c f).cmds = s.cmds := rfl
@[simp] theorem State.modShelf_graphs (c : Nat) (f : Mem → Mem) : (s.modShelf c f).graphs = s.graphs := rfl
@[simp] theorem State.modShelf_runs (c : Nat) (f : Mem → Mem) : (s.modShelf c f).runs = s.runs := rfl
@[simp] theorem State.modShelf_batch (c : Nat) (f : Mem → Mem) : (s.modShelf c f).batch = s.batch := rfl
@[simp] theorem State.modShelf_opened (c : Nat) (f : Mem → Mem) : (s.modShelf c f).opened = s.opened := rfl
@[simp] theorem State.modShelf_issued (c : Nat) (f : Mem → Mem) : (s.modShelf c f).issued = s.issued := rfl
@[simp] theorem State.modShelf_linkOwner (c : Nat) (f : Mem → Mem) : (s.modShelf c f).linkOwner = s.linkOwner := rfl
@[simp] theorem State.modShelf_nodeId (c : Nat) (f : Mem → Mem) : (s.modShelf c f).nodeId = s.nodeId := rfl
@[simp] theorem State.modShelf_topover (c : Nat) (f : Mem → Mem) : (s.modShelf c f).topover = s.topover := rfl
@[simp] theorem State.modShelf_routes (c : Nat) (f : Mem → Mem) : (s.modShelf c f).routes = s.routes := rfl
@[simp] theorem State.modShelf_routesNext (c : Nat) (f : Mem → Mem) : (s.modShelf c f).routesNext = s.routesNext := rfl
@[simp] theorem State.modShelf_rtidx (c : Nat) (f : Mem → Mem) : (s.modShelf c f).rtidx = s.rtidx := rfl
@[simp] theorem State.modShelf_peerto (c : Nat) (f : Mem → Mem) : (s.modShelf c f).peerto = s.peerto := rfl
@[simp] theorem State.modShelf_peerwin (c : Nat) (f : Mem → Mem) : (s.modShelf c f).peerwin = s.peerwin := rfl
@[simp] theorem State.modShelf_uetkey (c : Nat) (f : Mem → Mem) : (s.modShelf c f).uetkey = s.uetkey := rfl
@[simp] theorem State.modShelf_commbase (c : Nat) (f : Mem → Mem) : (s.modShelf c f).commbase = s.commbase := rfl
@[simp] theorem State.modShelf_groups (c : Nat) (f : Mem → Mem) : (s.modShelf c f).groups = s.groups := rfl
@[simp] theorem State.modShelf_requests (c : Nat) (f : Mem → Mem) : (s.modShelf c f).requests = s.requests := rfl
@[simp] theorem State.modShelf_tagGen (c : Nat) (f : Mem → Mem) : (s.modShelf c f).tagGen = s.tagGen := rfl
@[simp] theorem State.modShelf_tagCore (c : Nat) (f : Mem → Mem) : (s.modShelf c f).tagCore = s.tagCore := rfl
@[simp] theorem State.modShelf_routed (c : Nat) (f : Mem → Mem) : (s.modShelf c f).routed = s.routed := rfl
@[simp] theorem State.modShelf_leaving (c : Nat) (f : Mem → Mem) : (s.modShelf c f).leaving = s.leaving := rfl
@[simp] theorem State.modShelf_replays (c : Nat) (f : Mem → Mem) : (s.modShelf c f).replays = s.replays := rfl
@[simp] theorem State.modShelf_colls (c : Nat) (f : Mem → Mem) : (s.modShelf c f).colls = s.colls := rfl
@[simp] theorem State.modShelf_channels (c : Nat) (f : Mem → Mem) : (s.modShelf c f).channels = s.channels := rfl
@[simp] theorem State.modShelf_turns (c : Nat) (f : Mem → Mem) : (s.modShelf c f).turns = s.turns := rfl
@[simp] theorem State.modShelf_ports (c : Nat) (f : Mem → Mem) : (s.modShelf c f).ports = s.ports := rfl
@[simp] theorem State.modShelf_mgmt (c : Nat) (f : Mem → Mem) : (s.modShelf c f).mgmt = s.mgmt := rfl
@[simp] theorem State.modShelf_wire (c : Nat) (f : Mem → Mem) : (s.modShelf c f).wire = s.wire := rfl
@[simp] theorem State.modShelf_cur (c : Nat) (f : Mem → Mem) : (s.modShelf c f).cur = s.cur := rfl
@[simp] theorem State.modShelf_inputs (c : Nat) (f : Mem → Mem) : (s.modShelf c f).inputs = s.inputs := rfl
@[simp] theorem State.modShelf_cursor (c : Nat) (f : Mem → Mem) : (s.modShelf c f).cursor = s.cursor := rfl
@[simp] theorem State.modShelf_free (c : Nat) (f : Mem → Mem) : (s.modShelf c f).free = s.free := rfl
@[simp] theorem State.modShelf_nextId (c : Nat) (f : Mem → Mem) : (s.modShelf c f).nextId = s.nextId := rfl

/-! ## `State.modPart` -/

@[simp] theorem State.modPart_clock (p : Nat) (f : Partition → Partition) : (s.modPart p f).clock = s.clock := rfl
@[simp] theorem State.modPart_time (p : Nat) (f : Partition → Partition) : (s.modPart p f).time = s.time := rfl
@[simp] theorem State.modPart_harbour (p : Nat) (f : Partition → Partition) : (s.modPart p f).harbour = s.harbour := rfl
@[simp] theorem State.modPart_far (p : Nat) (f : Partition → Partition) : (s.modPart p f).far = s.far := rfl
@[simp] theorem State.modPart_cores (p : Nat) (f : Partition → Partition) : (s.modPart p f).cores = s.cores := rfl
@[simp] theorem State.modPart_ctlbase (p : Nat) (f : Partition → Partition) : (s.modPart p f).ctlbase = s.ctlbase := rfl
@[simp] theorem State.modPart_dieTlb (p : Nat) (f : Partition → Partition) : (s.modPart p f).dieTlb = s.dieTlb := rfl
@[simp] theorem State.modPart_records (p : Nat) (f : Partition → Partition) : (s.modPart p f).records = s.records := rfl
@[simp] theorem State.modPart_notices (p : Nat) (f : Partition → Partition) : (s.modPart p f).notices = s.notices := rfl
@[simp] theorem State.modPart_promotions (p : Nat) (f : Partition → Partition) : (s.modPart p f).promotions = s.promotions := rfl
@[simp] theorem State.modPart_cmds (p : Nat) (f : Partition → Partition) : (s.modPart p f).cmds = s.cmds := rfl
@[simp] theorem State.modPart_graphs (p : Nat) (f : Partition → Partition) : (s.modPart p f).graphs = s.graphs := rfl
@[simp] theorem State.modPart_runs (p : Nat) (f : Partition → Partition) : (s.modPart p f).runs = s.runs := rfl
@[simp] theorem State.modPart_batch (p : Nat) (f : Partition → Partition) : (s.modPart p f).batch = s.batch := rfl
@[simp] theorem State.modPart_opened (p : Nat) (f : Partition → Partition) : (s.modPart p f).opened = s.opened := rfl
@[simp] theorem State.modPart_issued (p : Nat) (f : Partition → Partition) : (s.modPart p f).issued = s.issued := rfl
@[simp] theorem State.modPart_linkOwner (p : Nat) (f : Partition → Partition) : (s.modPart p f).linkOwner = s.linkOwner := rfl
@[simp] theorem State.modPart_nodeId (p : Nat) (f : Partition → Partition) : (s.modPart p f).nodeId = s.nodeId := rfl
@[simp] theorem State.modPart_topover (p : Nat) (f : Partition → Partition) : (s.modPart p f).topover = s.topover := rfl
@[simp] theorem State.modPart_routes (p : Nat) (f : Partition → Partition) : (s.modPart p f).routes = s.routes := rfl
@[simp] theorem State.modPart_routesNext (p : Nat) (f : Partition → Partition) : (s.modPart p f).routesNext = s.routesNext := rfl
@[simp] theorem State.modPart_rtidx (p : Nat) (f : Partition → Partition) : (s.modPart p f).rtidx = s.rtidx := rfl
@[simp] theorem State.modPart_peerto (p : Nat) (f : Partition → Partition) : (s.modPart p f).peerto = s.peerto := rfl
@[simp] theorem State.modPart_peerwin (p : Nat) (f : Partition → Partition) : (s.modPart p f).peerwin = s.peerwin := rfl
@[simp] theorem State.modPart_uetkey (p : Nat) (f : Partition → Partition) : (s.modPart p f).uetkey = s.uetkey := rfl
@[simp] theorem State.modPart_commbase (p : Nat) (f : Partition → Partition) : (s.modPart p f).commbase = s.commbase := rfl
@[simp] theorem State.modPart_groups (p : Nat) (f : Partition → Partition) : (s.modPart p f).groups = s.groups := rfl
@[simp] theorem State.modPart_requests (p : Nat) (f : Partition → Partition) : (s.modPart p f).requests = s.requests := rfl
@[simp] theorem State.modPart_tagGen (p : Nat) (f : Partition → Partition) : (s.modPart p f).tagGen = s.tagGen := rfl
@[simp] theorem State.modPart_tagCore (p : Nat) (f : Partition → Partition) : (s.modPart p f).tagCore = s.tagCore := rfl
@[simp] theorem State.modPart_routed (p : Nat) (f : Partition → Partition) : (s.modPart p f).routed = s.routed := rfl
@[simp] theorem State.modPart_leaving (p : Nat) (f : Partition → Partition) : (s.modPart p f).leaving = s.leaving := rfl
@[simp] theorem State.modPart_replays (p : Nat) (f : Partition → Partition) : (s.modPart p f).replays = s.replays := rfl
@[simp] theorem State.modPart_colls (p : Nat) (f : Partition → Partition) : (s.modPart p f).colls = s.colls := rfl
@[simp] theorem State.modPart_channels (p : Nat) (f : Partition → Partition) : (s.modPart p f).channels = s.channels := rfl
@[simp] theorem State.modPart_turns (p : Nat) (f : Partition → Partition) : (s.modPart p f).turns = s.turns := rfl
@[simp] theorem State.modPart_ports (p : Nat) (f : Partition → Partition) : (s.modPart p f).ports = s.ports := rfl
@[simp] theorem State.modPart_mgmt (p : Nat) (f : Partition → Partition) : (s.modPart p f).mgmt = s.mgmt := rfl
@[simp] theorem State.modPart_wire (p : Nat) (f : Partition → Partition) : (s.modPart p f).wire = s.wire := rfl
@[simp] theorem State.modPart_cur (p : Nat) (f : Partition → Partition) : (s.modPart p f).cur = s.cur := rfl
@[simp] theorem State.modPart_inputs (p : Nat) (f : Partition → Partition) : (s.modPart p f).inputs = s.inputs := rfl
@[simp] theorem State.modPart_cursor (p : Nat) (f : Partition → Partition) : (s.modPart p f).cursor = s.cursor := rfl
@[simp] theorem State.modPart_free (p : Nat) (f : Partition → Partition) : (s.modPart p f).free = s.free := rfl
@[simp] theorem State.modPart_nextId (p : Nat) (f : Partition → Partition) : (s.modPart p f).nextId = s.nextId := rfl

/-! ## `State.modGroup` -/

@[simp] theorem State.modGroup_clock (g : Nat) (f : EdgeGroup → EdgeGroup) : (s.modGroup g f).clock = s.clock := rfl
@[simp] theorem State.modGroup_time (g : Nat) (f : EdgeGroup → EdgeGroup) : (s.modGroup g f).time = s.time := rfl
@[simp] theorem State.modGroup_harbour (g : Nat) (f : EdgeGroup → EdgeGroup) : (s.modGroup g f).harbour = s.harbour := rfl
@[simp] theorem State.modGroup_far (g : Nat) (f : EdgeGroup → EdgeGroup) : (s.modGroup g f).far = s.far := rfl
@[simp] theorem State.modGroup_cores (g : Nat) (f : EdgeGroup → EdgeGroup) : (s.modGroup g f).cores = s.cores := rfl
@[simp] theorem State.modGroup_parts (g : Nat) (f : EdgeGroup → EdgeGroup) : (s.modGroup g f).parts = s.parts := rfl
@[simp] theorem State.modGroup_ctlbase (g : Nat) (f : EdgeGroup → EdgeGroup) : (s.modGroup g f).ctlbase = s.ctlbase := rfl
@[simp] theorem State.modGroup_dieTlb (g : Nat) (f : EdgeGroup → EdgeGroup) : (s.modGroup g f).dieTlb = s.dieTlb := rfl
@[simp] theorem State.modGroup_records (g : Nat) (f : EdgeGroup → EdgeGroup) : (s.modGroup g f).records = s.records := rfl
@[simp] theorem State.modGroup_notices (g : Nat) (f : EdgeGroup → EdgeGroup) : (s.modGroup g f).notices = s.notices := rfl
@[simp] theorem State.modGroup_promotions (g : Nat) (f : EdgeGroup → EdgeGroup) : (s.modGroup g f).promotions = s.promotions := rfl
@[simp] theorem State.modGroup_cmds (g : Nat) (f : EdgeGroup → EdgeGroup) : (s.modGroup g f).cmds = s.cmds := rfl
@[simp] theorem State.modGroup_graphs (g : Nat) (f : EdgeGroup → EdgeGroup) : (s.modGroup g f).graphs = s.graphs := rfl
@[simp] theorem State.modGroup_runs (g : Nat) (f : EdgeGroup → EdgeGroup) : (s.modGroup g f).runs = s.runs := rfl
@[simp] theorem State.modGroup_batch (g : Nat) (f : EdgeGroup → EdgeGroup) : (s.modGroup g f).batch = s.batch := rfl
@[simp] theorem State.modGroup_opened (g : Nat) (f : EdgeGroup → EdgeGroup) : (s.modGroup g f).opened = s.opened := rfl
@[simp] theorem State.modGroup_issued (g : Nat) (f : EdgeGroup → EdgeGroup) : (s.modGroup g f).issued = s.issued := rfl
@[simp] theorem State.modGroup_linkOwner (g : Nat) (f : EdgeGroup → EdgeGroup) : (s.modGroup g f).linkOwner = s.linkOwner := rfl
@[simp] theorem State.modGroup_nodeId (g : Nat) (f : EdgeGroup → EdgeGroup) : (s.modGroup g f).nodeId = s.nodeId := rfl
@[simp] theorem State.modGroup_topover (g : Nat) (f : EdgeGroup → EdgeGroup) : (s.modGroup g f).topover = s.topover := rfl
@[simp] theorem State.modGroup_routes (g : Nat) (f : EdgeGroup → EdgeGroup) : (s.modGroup g f).routes = s.routes := rfl
@[simp] theorem State.modGroup_routesNext (g : Nat) (f : EdgeGroup → EdgeGroup) : (s.modGroup g f).routesNext = s.routesNext := rfl
@[simp] theorem State.modGroup_rtidx (g : Nat) (f : EdgeGroup → EdgeGroup) : (s.modGroup g f).rtidx = s.rtidx := rfl
@[simp] theorem State.modGroup_peerto (g : Nat) (f : EdgeGroup → EdgeGroup) : (s.modGroup g f).peerto = s.peerto := rfl
@[simp] theorem State.modGroup_peerwin (g : Nat) (f : EdgeGroup → EdgeGroup) : (s.modGroup g f).peerwin = s.peerwin := rfl
@[simp] theorem State.modGroup_uetkey (g : Nat) (f : EdgeGroup → EdgeGroup) : (s.modGroup g f).uetkey = s.uetkey := rfl
@[simp] theorem State.modGroup_commbase (g : Nat) (f : EdgeGroup → EdgeGroup) : (s.modGroup g f).commbase = s.commbase := rfl
@[simp] theorem State.modGroup_requests (g : Nat) (f : EdgeGroup → EdgeGroup) : (s.modGroup g f).requests = s.requests := rfl
@[simp] theorem State.modGroup_tagGen (g : Nat) (f : EdgeGroup → EdgeGroup) : (s.modGroup g f).tagGen = s.tagGen := rfl
@[simp] theorem State.modGroup_tagCore (g : Nat) (f : EdgeGroup → EdgeGroup) : (s.modGroup g f).tagCore = s.tagCore := rfl
@[simp] theorem State.modGroup_routed (g : Nat) (f : EdgeGroup → EdgeGroup) : (s.modGroup g f).routed = s.routed := rfl
@[simp] theorem State.modGroup_leaving (g : Nat) (f : EdgeGroup → EdgeGroup) : (s.modGroup g f).leaving = s.leaving := rfl
@[simp] theorem State.modGroup_replays (g : Nat) (f : EdgeGroup → EdgeGroup) : (s.modGroup g f).replays = s.replays := rfl
@[simp] theorem State.modGroup_colls (g : Nat) (f : EdgeGroup → EdgeGroup) : (s.modGroup g f).colls = s.colls := rfl
@[simp] theorem State.modGroup_channels (g : Nat) (f : EdgeGroup → EdgeGroup) : (s.modGroup g f).channels = s.channels := rfl
@[simp] theorem State.modGroup_turns (g : Nat) (f : EdgeGroup → EdgeGroup) : (s.modGroup g f).turns = s.turns := rfl
@[simp] theorem State.modGroup_ports (g : Nat) (f : EdgeGroup → EdgeGroup) : (s.modGroup g f).ports = s.ports := rfl
@[simp] theorem State.modGroup_mgmt (g : Nat) (f : EdgeGroup → EdgeGroup) : (s.modGroup g f).mgmt = s.mgmt := rfl
@[simp] theorem State.modGroup_wire (g : Nat) (f : EdgeGroup → EdgeGroup) : (s.modGroup g f).wire = s.wire := rfl
@[simp] theorem State.modGroup_cur (g : Nat) (f : EdgeGroup → EdgeGroup) : (s.modGroup g f).cur = s.cur := rfl
@[simp] theorem State.modGroup_inputs (g : Nat) (f : EdgeGroup → EdgeGroup) : (s.modGroup g f).inputs = s.inputs := rfl
@[simp] theorem State.modGroup_cursor (g : Nat) (f : EdgeGroup → EdgeGroup) : (s.modGroup g f).cursor = s.cursor := rfl
@[simp] theorem State.modGroup_free (g : Nat) (f : EdgeGroup → EdgeGroup) : (s.modGroup g f).free = s.free := rfl
@[simp] theorem State.modGroup_nextId (g : Nat) (f : EdgeGroup → EdgeGroup) : (s.modGroup g f).nextId = s.nextId := rfl

/-! ## `State.modChannel` -/

@[simp] theorem State.modChannel_clock (c : Nat) (f : Channel → Channel) : (s.modChannel c f).clock = s.clock := rfl
@[simp] theorem State.modChannel_time (c : Nat) (f : Channel → Channel) : (s.modChannel c f).time = s.time := rfl
@[simp] theorem State.modChannel_harbour (c : Nat) (f : Channel → Channel) : (s.modChannel c f).harbour = s.harbour := rfl
@[simp] theorem State.modChannel_far (c : Nat) (f : Channel → Channel) : (s.modChannel c f).far = s.far := rfl
@[simp] theorem State.modChannel_cores (c : Nat) (f : Channel → Channel) : (s.modChannel c f).cores = s.cores := rfl
@[simp] theorem State.modChannel_parts (c : Nat) (f : Channel → Channel) : (s.modChannel c f).parts = s.parts := rfl
@[simp] theorem State.modChannel_ctlbase (c : Nat) (f : Channel → Channel) : (s.modChannel c f).ctlbase = s.ctlbase := rfl
@[simp] theorem State.modChannel_dieTlb (c : Nat) (f : Channel → Channel) : (s.modChannel c f).dieTlb = s.dieTlb := rfl
@[simp] theorem State.modChannel_records (c : Nat) (f : Channel → Channel) : (s.modChannel c f).records = s.records := rfl
@[simp] theorem State.modChannel_notices (c : Nat) (f : Channel → Channel) : (s.modChannel c f).notices = s.notices := rfl
@[simp] theorem State.modChannel_promotions (c : Nat) (f : Channel → Channel) : (s.modChannel c f).promotions = s.promotions := rfl
@[simp] theorem State.modChannel_cmds (c : Nat) (f : Channel → Channel) : (s.modChannel c f).cmds = s.cmds := rfl
@[simp] theorem State.modChannel_graphs (c : Nat) (f : Channel → Channel) : (s.modChannel c f).graphs = s.graphs := rfl
@[simp] theorem State.modChannel_runs (c : Nat) (f : Channel → Channel) : (s.modChannel c f).runs = s.runs := rfl
@[simp] theorem State.modChannel_batch (c : Nat) (f : Channel → Channel) : (s.modChannel c f).batch = s.batch := rfl
@[simp] theorem State.modChannel_opened (c : Nat) (f : Channel → Channel) : (s.modChannel c f).opened = s.opened := rfl
@[simp] theorem State.modChannel_issued (c : Nat) (f : Channel → Channel) : (s.modChannel c f).issued = s.issued := rfl
@[simp] theorem State.modChannel_linkOwner (c : Nat) (f : Channel → Channel) : (s.modChannel c f).linkOwner = s.linkOwner := rfl
@[simp] theorem State.modChannel_nodeId (c : Nat) (f : Channel → Channel) : (s.modChannel c f).nodeId = s.nodeId := rfl
@[simp] theorem State.modChannel_topover (c : Nat) (f : Channel → Channel) : (s.modChannel c f).topover = s.topover := rfl
@[simp] theorem State.modChannel_routes (c : Nat) (f : Channel → Channel) : (s.modChannel c f).routes = s.routes := rfl
@[simp] theorem State.modChannel_routesNext (c : Nat) (f : Channel → Channel) : (s.modChannel c f).routesNext = s.routesNext := rfl
@[simp] theorem State.modChannel_rtidx (c : Nat) (f : Channel → Channel) : (s.modChannel c f).rtidx = s.rtidx := rfl
@[simp] theorem State.modChannel_peerto (c : Nat) (f : Channel → Channel) : (s.modChannel c f).peerto = s.peerto := rfl
@[simp] theorem State.modChannel_peerwin (c : Nat) (f : Channel → Channel) : (s.modChannel c f).peerwin = s.peerwin := rfl
@[simp] theorem State.modChannel_uetkey (c : Nat) (f : Channel → Channel) : (s.modChannel c f).uetkey = s.uetkey := rfl
@[simp] theorem State.modChannel_commbase (c : Nat) (f : Channel → Channel) : (s.modChannel c f).commbase = s.commbase := rfl
@[simp] theorem State.modChannel_groups (c : Nat) (f : Channel → Channel) : (s.modChannel c f).groups = s.groups := rfl
@[simp] theorem State.modChannel_requests (c : Nat) (f : Channel → Channel) : (s.modChannel c f).requests = s.requests := rfl
@[simp] theorem State.modChannel_tagGen (c : Nat) (f : Channel → Channel) : (s.modChannel c f).tagGen = s.tagGen := rfl
@[simp] theorem State.modChannel_tagCore (c : Nat) (f : Channel → Channel) : (s.modChannel c f).tagCore = s.tagCore := rfl
@[simp] theorem State.modChannel_routed (c : Nat) (f : Channel → Channel) : (s.modChannel c f).routed = s.routed := rfl
@[simp] theorem State.modChannel_leaving (c : Nat) (f : Channel → Channel) : (s.modChannel c f).leaving = s.leaving := rfl
@[simp] theorem State.modChannel_replays (c : Nat) (f : Channel → Channel) : (s.modChannel c f).replays = s.replays := rfl
@[simp] theorem State.modChannel_colls (c : Nat) (f : Channel → Channel) : (s.modChannel c f).colls = s.colls := rfl
@[simp] theorem State.modChannel_turns (c : Nat) (f : Channel → Channel) : (s.modChannel c f).turns = s.turns := rfl
@[simp] theorem State.modChannel_ports (c : Nat) (f : Channel → Channel) : (s.modChannel c f).ports = s.ports := rfl
@[simp] theorem State.modChannel_mgmt (c : Nat) (f : Channel → Channel) : (s.modChannel c f).mgmt = s.mgmt := rfl
@[simp] theorem State.modChannel_wire (c : Nat) (f : Channel → Channel) : (s.modChannel c f).wire = s.wire := rfl
@[simp] theorem State.modChannel_cur (c : Nat) (f : Channel → Channel) : (s.modChannel c f).cur = s.cur := rfl
@[simp] theorem State.modChannel_inputs (c : Nat) (f : Channel → Channel) : (s.modChannel c f).inputs = s.inputs := rfl
@[simp] theorem State.modChannel_cursor (c : Nat) (f : Channel → Channel) : (s.modChannel c f).cursor = s.cursor := rfl
@[simp] theorem State.modChannel_free (c : Nat) (f : Channel → Channel) : (s.modChannel c f).free = s.free := rfl
@[simp] theorem State.modChannel_nextId (c : Nat) (f : Channel → Channel) : (s.modChannel c f).nextId = s.nextId := rfl

/-! ## `State.modMgmt` -/

@[simp] theorem State.modMgmt_clock (f : Management → Management) : (s.modMgmt f).clock = s.clock := rfl
@[simp] theorem State.modMgmt_time (f : Management → Management) : (s.modMgmt f).time = s.time := rfl
@[simp] theorem State.modMgmt_harbour (f : Management → Management) : (s.modMgmt f).harbour = s.harbour := rfl
@[simp] theorem State.modMgmt_far (f : Management → Management) : (s.modMgmt f).far = s.far := rfl
@[simp] theorem State.modMgmt_cores (f : Management → Management) : (s.modMgmt f).cores = s.cores := rfl
@[simp] theorem State.modMgmt_parts (f : Management → Management) : (s.modMgmt f).parts = s.parts := rfl
@[simp] theorem State.modMgmt_ctlbase (f : Management → Management) : (s.modMgmt f).ctlbase = s.ctlbase := rfl
@[simp] theorem State.modMgmt_dieTlb (f : Management → Management) : (s.modMgmt f).dieTlb = s.dieTlb := rfl
@[simp] theorem State.modMgmt_records (f : Management → Management) : (s.modMgmt f).records = s.records := rfl
@[simp] theorem State.modMgmt_notices (f : Management → Management) : (s.modMgmt f).notices = s.notices := rfl
@[simp] theorem State.modMgmt_promotions (f : Management → Management) : (s.modMgmt f).promotions = s.promotions := rfl
@[simp] theorem State.modMgmt_cmds (f : Management → Management) : (s.modMgmt f).cmds = s.cmds := rfl
@[simp] theorem State.modMgmt_graphs (f : Management → Management) : (s.modMgmt f).graphs = s.graphs := rfl
@[simp] theorem State.modMgmt_runs (f : Management → Management) : (s.modMgmt f).runs = s.runs := rfl
@[simp] theorem State.modMgmt_batch (f : Management → Management) : (s.modMgmt f).batch = s.batch := rfl
@[simp] theorem State.modMgmt_opened (f : Management → Management) : (s.modMgmt f).opened = s.opened := rfl
@[simp] theorem State.modMgmt_issued (f : Management → Management) : (s.modMgmt f).issued = s.issued := rfl
@[simp] theorem State.modMgmt_linkOwner (f : Management → Management) : (s.modMgmt f).linkOwner = s.linkOwner := rfl
@[simp] theorem State.modMgmt_nodeId (f : Management → Management) : (s.modMgmt f).nodeId = s.nodeId := rfl
@[simp] theorem State.modMgmt_topover (f : Management → Management) : (s.modMgmt f).topover = s.topover := rfl
@[simp] theorem State.modMgmt_routes (f : Management → Management) : (s.modMgmt f).routes = s.routes := rfl
@[simp] theorem State.modMgmt_routesNext (f : Management → Management) : (s.modMgmt f).routesNext = s.routesNext := rfl
@[simp] theorem State.modMgmt_rtidx (f : Management → Management) : (s.modMgmt f).rtidx = s.rtidx := rfl
@[simp] theorem State.modMgmt_peerto (f : Management → Management) : (s.modMgmt f).peerto = s.peerto := rfl
@[simp] theorem State.modMgmt_peerwin (f : Management → Management) : (s.modMgmt f).peerwin = s.peerwin := rfl
@[simp] theorem State.modMgmt_uetkey (f : Management → Management) : (s.modMgmt f).uetkey = s.uetkey := rfl
@[simp] theorem State.modMgmt_commbase (f : Management → Management) : (s.modMgmt f).commbase = s.commbase := rfl
@[simp] theorem State.modMgmt_groups (f : Management → Management) : (s.modMgmt f).groups = s.groups := rfl
@[simp] theorem State.modMgmt_requests (f : Management → Management) : (s.modMgmt f).requests = s.requests := rfl
@[simp] theorem State.modMgmt_tagGen (f : Management → Management) : (s.modMgmt f).tagGen = s.tagGen := rfl
@[simp] theorem State.modMgmt_tagCore (f : Management → Management) : (s.modMgmt f).tagCore = s.tagCore := rfl
@[simp] theorem State.modMgmt_routed (f : Management → Management) : (s.modMgmt f).routed = s.routed := rfl
@[simp] theorem State.modMgmt_leaving (f : Management → Management) : (s.modMgmt f).leaving = s.leaving := rfl
@[simp] theorem State.modMgmt_replays (f : Management → Management) : (s.modMgmt f).replays = s.replays := rfl
@[simp] theorem State.modMgmt_colls (f : Management → Management) : (s.modMgmt f).colls = s.colls := rfl
@[simp] theorem State.modMgmt_channels (f : Management → Management) : (s.modMgmt f).channels = s.channels := rfl
@[simp] theorem State.modMgmt_turns (f : Management → Management) : (s.modMgmt f).turns = s.turns := rfl
@[simp] theorem State.modMgmt_ports (f : Management → Management) : (s.modMgmt f).ports = s.ports := rfl
@[simp] theorem State.modMgmt_wire (f : Management → Management) : (s.modMgmt f).wire = s.wire := rfl
@[simp] theorem State.modMgmt_cur (f : Management → Management) : (s.modMgmt f).cur = s.cur := rfl
@[simp] theorem State.modMgmt_inputs (f : Management → Management) : (s.modMgmt f).inputs = s.inputs := rfl
@[simp] theorem State.modMgmt_cursor (f : Management → Management) : (s.modMgmt f).cursor = s.cursor := rfl
@[simp] theorem State.modMgmt_free (f : Management → Management) : (s.modMgmt f).free = s.free := rfl
@[simp] theorem State.modMgmt_nextId (f : Management → Management) : (s.modMgmt f).nextId = s.nextId := rfl

/-! ## `State.modRun` -/

@[simp] theorem State.modRun_clock (k : Nat) (f : TaskRun → TaskRun) : (s.modRun k f).clock = s.clock := rfl
@[simp] theorem State.modRun_time (k : Nat) (f : TaskRun → TaskRun) : (s.modRun k f).time = s.time := rfl
@[simp] theorem State.modRun_harbour (k : Nat) (f : TaskRun → TaskRun) : (s.modRun k f).harbour = s.harbour := rfl
@[simp] theorem State.modRun_far (k : Nat) (f : TaskRun → TaskRun) : (s.modRun k f).far = s.far := rfl
@[simp] theorem State.modRun_cores (k : Nat) (f : TaskRun → TaskRun) : (s.modRun k f).cores = s.cores := rfl
@[simp] theorem State.modRun_parts (k : Nat) (f : TaskRun → TaskRun) : (s.modRun k f).parts = s.parts := rfl
@[simp] theorem State.modRun_ctlbase (k : Nat) (f : TaskRun → TaskRun) : (s.modRun k f).ctlbase = s.ctlbase := rfl
@[simp] theorem State.modRun_dieTlb (k : Nat) (f : TaskRun → TaskRun) : (s.modRun k f).dieTlb = s.dieTlb := rfl
@[simp] theorem State.modRun_records (k : Nat) (f : TaskRun → TaskRun) : (s.modRun k f).records = s.records := rfl
@[simp] theorem State.modRun_notices (k : Nat) (f : TaskRun → TaskRun) : (s.modRun k f).notices = s.notices := rfl
@[simp] theorem State.modRun_promotions (k : Nat) (f : TaskRun → TaskRun) : (s.modRun k f).promotions = s.promotions := rfl
@[simp] theorem State.modRun_cmds (k : Nat) (f : TaskRun → TaskRun) : (s.modRun k f).cmds = s.cmds := rfl
@[simp] theorem State.modRun_graphs (k : Nat) (f : TaskRun → TaskRun) : (s.modRun k f).graphs = s.graphs := rfl
@[simp] theorem State.modRun_batch (k : Nat) (f : TaskRun → TaskRun) : (s.modRun k f).batch = s.batch := rfl
@[simp] theorem State.modRun_opened (k : Nat) (f : TaskRun → TaskRun) : (s.modRun k f).opened = s.opened := rfl
@[simp] theorem State.modRun_issued (k : Nat) (f : TaskRun → TaskRun) : (s.modRun k f).issued = s.issued := rfl
@[simp] theorem State.modRun_linkOwner (k : Nat) (f : TaskRun → TaskRun) : (s.modRun k f).linkOwner = s.linkOwner := rfl
@[simp] theorem State.modRun_nodeId (k : Nat) (f : TaskRun → TaskRun) : (s.modRun k f).nodeId = s.nodeId := rfl
@[simp] theorem State.modRun_topover (k : Nat) (f : TaskRun → TaskRun) : (s.modRun k f).topover = s.topover := rfl
@[simp] theorem State.modRun_routes (k : Nat) (f : TaskRun → TaskRun) : (s.modRun k f).routes = s.routes := rfl
@[simp] theorem State.modRun_routesNext (k : Nat) (f : TaskRun → TaskRun) : (s.modRun k f).routesNext = s.routesNext := rfl
@[simp] theorem State.modRun_rtidx (k : Nat) (f : TaskRun → TaskRun) : (s.modRun k f).rtidx = s.rtidx := rfl
@[simp] theorem State.modRun_peerto (k : Nat) (f : TaskRun → TaskRun) : (s.modRun k f).peerto = s.peerto := rfl
@[simp] theorem State.modRun_peerwin (k : Nat) (f : TaskRun → TaskRun) : (s.modRun k f).peerwin = s.peerwin := rfl
@[simp] theorem State.modRun_uetkey (k : Nat) (f : TaskRun → TaskRun) : (s.modRun k f).uetkey = s.uetkey := rfl
@[simp] theorem State.modRun_commbase (k : Nat) (f : TaskRun → TaskRun) : (s.modRun k f).commbase = s.commbase := rfl
@[simp] theorem State.modRun_groups (k : Nat) (f : TaskRun → TaskRun) : (s.modRun k f).groups = s.groups := rfl
@[simp] theorem State.modRun_requests (k : Nat) (f : TaskRun → TaskRun) : (s.modRun k f).requests = s.requests := rfl
@[simp] theorem State.modRun_tagGen (k : Nat) (f : TaskRun → TaskRun) : (s.modRun k f).tagGen = s.tagGen := rfl
@[simp] theorem State.modRun_tagCore (k : Nat) (f : TaskRun → TaskRun) : (s.modRun k f).tagCore = s.tagCore := rfl
@[simp] theorem State.modRun_routed (k : Nat) (f : TaskRun → TaskRun) : (s.modRun k f).routed = s.routed := rfl
@[simp] theorem State.modRun_leaving (k : Nat) (f : TaskRun → TaskRun) : (s.modRun k f).leaving = s.leaving := rfl
@[simp] theorem State.modRun_replays (k : Nat) (f : TaskRun → TaskRun) : (s.modRun k f).replays = s.replays := rfl
@[simp] theorem State.modRun_colls (k : Nat) (f : TaskRun → TaskRun) : (s.modRun k f).colls = s.colls := rfl
@[simp] theorem State.modRun_channels (k : Nat) (f : TaskRun → TaskRun) : (s.modRun k f).channels = s.channels := rfl
@[simp] theorem State.modRun_turns (k : Nat) (f : TaskRun → TaskRun) : (s.modRun k f).turns = s.turns := rfl
@[simp] theorem State.modRun_ports (k : Nat) (f : TaskRun → TaskRun) : (s.modRun k f).ports = s.ports := rfl
@[simp] theorem State.modRun_mgmt (k : Nat) (f : TaskRun → TaskRun) : (s.modRun k f).mgmt = s.mgmt := rfl
@[simp] theorem State.modRun_wire (k : Nat) (f : TaskRun → TaskRun) : (s.modRun k f).wire = s.wire := rfl
@[simp] theorem State.modRun_cur (k : Nat) (f : TaskRun → TaskRun) : (s.modRun k f).cur = s.cur := rfl
@[simp] theorem State.modRun_inputs (k : Nat) (f : TaskRun → TaskRun) : (s.modRun k f).inputs = s.inputs := rfl
@[simp] theorem State.modRun_cursor (k : Nat) (f : TaskRun → TaskRun) : (s.modRun k f).cursor = s.cursor := rfl
@[simp] theorem State.modRun_free (k : Nat) (f : TaskRun → TaskRun) : (s.modRun k f).free = s.free := rfl
@[simp] theorem State.modRun_nextId (k : Nat) (f : TaskRun → TaskRun) : (s.modRun k f).nextId = s.nextId := rfl

/-! ## `State.modCmd` -/

@[simp] theorem State.modCmd_clock (k : Nat) (f : Cmd → Cmd) : (s.modCmd k f).clock = s.clock := rfl
@[simp] theorem State.modCmd_time (k : Nat) (f : Cmd → Cmd) : (s.modCmd k f).time = s.time := rfl
@[simp] theorem State.modCmd_harbour (k : Nat) (f : Cmd → Cmd) : (s.modCmd k f).harbour = s.harbour := rfl
@[simp] theorem State.modCmd_far (k : Nat) (f : Cmd → Cmd) : (s.modCmd k f).far = s.far := rfl
@[simp] theorem State.modCmd_cores (k : Nat) (f : Cmd → Cmd) : (s.modCmd k f).cores = s.cores := rfl
@[simp] theorem State.modCmd_parts (k : Nat) (f : Cmd → Cmd) : (s.modCmd k f).parts = s.parts := rfl
@[simp] theorem State.modCmd_ctlbase (k : Nat) (f : Cmd → Cmd) : (s.modCmd k f).ctlbase = s.ctlbase := rfl
@[simp] theorem State.modCmd_dieTlb (k : Nat) (f : Cmd → Cmd) : (s.modCmd k f).dieTlb = s.dieTlb := rfl
@[simp] theorem State.modCmd_records (k : Nat) (f : Cmd → Cmd) : (s.modCmd k f).records = s.records := rfl
@[simp] theorem State.modCmd_notices (k : Nat) (f : Cmd → Cmd) : (s.modCmd k f).notices = s.notices := rfl
@[simp] theorem State.modCmd_promotions (k : Nat) (f : Cmd → Cmd) : (s.modCmd k f).promotions = s.promotions := rfl
@[simp] theorem State.modCmd_graphs (k : Nat) (f : Cmd → Cmd) : (s.modCmd k f).graphs = s.graphs := rfl
@[simp] theorem State.modCmd_runs (k : Nat) (f : Cmd → Cmd) : (s.modCmd k f).runs = s.runs := rfl
@[simp] theorem State.modCmd_batch (k : Nat) (f : Cmd → Cmd) : (s.modCmd k f).batch = s.batch := rfl
@[simp] theorem State.modCmd_opened (k : Nat) (f : Cmd → Cmd) : (s.modCmd k f).opened = s.opened := rfl
@[simp] theorem State.modCmd_issued (k : Nat) (f : Cmd → Cmd) : (s.modCmd k f).issued = s.issued := rfl
@[simp] theorem State.modCmd_linkOwner (k : Nat) (f : Cmd → Cmd) : (s.modCmd k f).linkOwner = s.linkOwner := rfl
@[simp] theorem State.modCmd_nodeId (k : Nat) (f : Cmd → Cmd) : (s.modCmd k f).nodeId = s.nodeId := rfl
@[simp] theorem State.modCmd_topover (k : Nat) (f : Cmd → Cmd) : (s.modCmd k f).topover = s.topover := rfl
@[simp] theorem State.modCmd_routes (k : Nat) (f : Cmd → Cmd) : (s.modCmd k f).routes = s.routes := rfl
@[simp] theorem State.modCmd_routesNext (k : Nat) (f : Cmd → Cmd) : (s.modCmd k f).routesNext = s.routesNext := rfl
@[simp] theorem State.modCmd_rtidx (k : Nat) (f : Cmd → Cmd) : (s.modCmd k f).rtidx = s.rtidx := rfl
@[simp] theorem State.modCmd_peerto (k : Nat) (f : Cmd → Cmd) : (s.modCmd k f).peerto = s.peerto := rfl
@[simp] theorem State.modCmd_peerwin (k : Nat) (f : Cmd → Cmd) : (s.modCmd k f).peerwin = s.peerwin := rfl
@[simp] theorem State.modCmd_uetkey (k : Nat) (f : Cmd → Cmd) : (s.modCmd k f).uetkey = s.uetkey := rfl
@[simp] theorem State.modCmd_commbase (k : Nat) (f : Cmd → Cmd) : (s.modCmd k f).commbase = s.commbase := rfl
@[simp] theorem State.modCmd_groups (k : Nat) (f : Cmd → Cmd) : (s.modCmd k f).groups = s.groups := rfl
@[simp] theorem State.modCmd_requests (k : Nat) (f : Cmd → Cmd) : (s.modCmd k f).requests = s.requests := rfl
@[simp] theorem State.modCmd_tagGen (k : Nat) (f : Cmd → Cmd) : (s.modCmd k f).tagGen = s.tagGen := rfl
@[simp] theorem State.modCmd_tagCore (k : Nat) (f : Cmd → Cmd) : (s.modCmd k f).tagCore = s.tagCore := rfl
@[simp] theorem State.modCmd_routed (k : Nat) (f : Cmd → Cmd) : (s.modCmd k f).routed = s.routed := rfl
@[simp] theorem State.modCmd_leaving (k : Nat) (f : Cmd → Cmd) : (s.modCmd k f).leaving = s.leaving := rfl
@[simp] theorem State.modCmd_replays (k : Nat) (f : Cmd → Cmd) : (s.modCmd k f).replays = s.replays := rfl
@[simp] theorem State.modCmd_colls (k : Nat) (f : Cmd → Cmd) : (s.modCmd k f).colls = s.colls := rfl
@[simp] theorem State.modCmd_channels (k : Nat) (f : Cmd → Cmd) : (s.modCmd k f).channels = s.channels := rfl
@[simp] theorem State.modCmd_turns (k : Nat) (f : Cmd → Cmd) : (s.modCmd k f).turns = s.turns := rfl
@[simp] theorem State.modCmd_ports (k : Nat) (f : Cmd → Cmd) : (s.modCmd k f).ports = s.ports := rfl
@[simp] theorem State.modCmd_mgmt (k : Nat) (f : Cmd → Cmd) : (s.modCmd k f).mgmt = s.mgmt := rfl
@[simp] theorem State.modCmd_wire (k : Nat) (f : Cmd → Cmd) : (s.modCmd k f).wire = s.wire := rfl
@[simp] theorem State.modCmd_cur (k : Nat) (f : Cmd → Cmd) : (s.modCmd k f).cur = s.cur := rfl
@[simp] theorem State.modCmd_inputs (k : Nat) (f : Cmd → Cmd) : (s.modCmd k f).inputs = s.inputs := rfl
@[simp] theorem State.modCmd_cursor (k : Nat) (f : Cmd → Cmd) : (s.modCmd k f).cursor = s.cursor := rfl
@[simp] theorem State.modCmd_free (k : Nat) (f : Cmd → Cmd) : (s.modCmd k f).free = s.free := rfl
@[simp] theorem State.modCmd_nextId (k : Nat) (f : Cmd → Cmd) : (s.modCmd k f).nextId = s.nextId := rfl

/-! ## `State.dropCmd` -/

@[simp] theorem State.dropCmd_clock (k : Nat) : (s.dropCmd k).clock = s.clock := rfl
@[simp] theorem State.dropCmd_time (k : Nat) : (s.dropCmd k).time = s.time := rfl
@[simp] theorem State.dropCmd_harbour (k : Nat) : (s.dropCmd k).harbour = s.harbour := rfl
@[simp] theorem State.dropCmd_far (k : Nat) : (s.dropCmd k).far = s.far := rfl
@[simp] theorem State.dropCmd_cores (k : Nat) : (s.dropCmd k).cores = s.cores := rfl
@[simp] theorem State.dropCmd_parts (k : Nat) : (s.dropCmd k).parts = s.parts := rfl
@[simp] theorem State.dropCmd_ctlbase (k : Nat) : (s.dropCmd k).ctlbase = s.ctlbase := rfl
@[simp] theorem State.dropCmd_dieTlb (k : Nat) : (s.dropCmd k).dieTlb = s.dieTlb := rfl
@[simp] theorem State.dropCmd_records (k : Nat) : (s.dropCmd k).records = s.records := rfl
@[simp] theorem State.dropCmd_notices (k : Nat) : (s.dropCmd k).notices = s.notices := rfl
@[simp] theorem State.dropCmd_promotions (k : Nat) : (s.dropCmd k).promotions = s.promotions := rfl
@[simp] theorem State.dropCmd_graphs (k : Nat) : (s.dropCmd k).graphs = s.graphs := rfl
@[simp] theorem State.dropCmd_runs (k : Nat) : (s.dropCmd k).runs = s.runs := rfl
@[simp] theorem State.dropCmd_batch (k : Nat) : (s.dropCmd k).batch = s.batch := rfl
@[simp] theorem State.dropCmd_opened (k : Nat) : (s.dropCmd k).opened = s.opened := rfl
@[simp] theorem State.dropCmd_issued (k : Nat) : (s.dropCmd k).issued = s.issued := rfl
@[simp] theorem State.dropCmd_linkOwner (k : Nat) : (s.dropCmd k).linkOwner = s.linkOwner := rfl
@[simp] theorem State.dropCmd_nodeId (k : Nat) : (s.dropCmd k).nodeId = s.nodeId := rfl
@[simp] theorem State.dropCmd_topover (k : Nat) : (s.dropCmd k).topover = s.topover := rfl
@[simp] theorem State.dropCmd_routes (k : Nat) : (s.dropCmd k).routes = s.routes := rfl
@[simp] theorem State.dropCmd_routesNext (k : Nat) : (s.dropCmd k).routesNext = s.routesNext := rfl
@[simp] theorem State.dropCmd_rtidx (k : Nat) : (s.dropCmd k).rtidx = s.rtidx := rfl
@[simp] theorem State.dropCmd_peerto (k : Nat) : (s.dropCmd k).peerto = s.peerto := rfl
@[simp] theorem State.dropCmd_peerwin (k : Nat) : (s.dropCmd k).peerwin = s.peerwin := rfl
@[simp] theorem State.dropCmd_uetkey (k : Nat) : (s.dropCmd k).uetkey = s.uetkey := rfl
@[simp] theorem State.dropCmd_commbase (k : Nat) : (s.dropCmd k).commbase = s.commbase := rfl
@[simp] theorem State.dropCmd_groups (k : Nat) : (s.dropCmd k).groups = s.groups := rfl
@[simp] theorem State.dropCmd_requests (k : Nat) : (s.dropCmd k).requests = s.requests := rfl
@[simp] theorem State.dropCmd_tagGen (k : Nat) : (s.dropCmd k).tagGen = s.tagGen := rfl
@[simp] theorem State.dropCmd_tagCore (k : Nat) : (s.dropCmd k).tagCore = s.tagCore := rfl
@[simp] theorem State.dropCmd_routed (k : Nat) : (s.dropCmd k).routed = s.routed := rfl
@[simp] theorem State.dropCmd_leaving (k : Nat) : (s.dropCmd k).leaving = s.leaving := rfl
@[simp] theorem State.dropCmd_replays (k : Nat) : (s.dropCmd k).replays = s.replays := rfl
@[simp] theorem State.dropCmd_colls (k : Nat) : (s.dropCmd k).colls = s.colls := rfl
@[simp] theorem State.dropCmd_channels (k : Nat) : (s.dropCmd k).channels = s.channels := rfl
@[simp] theorem State.dropCmd_turns (k : Nat) : (s.dropCmd k).turns = s.turns := rfl
@[simp] theorem State.dropCmd_ports (k : Nat) : (s.dropCmd k).ports = s.ports := rfl
@[simp] theorem State.dropCmd_mgmt (k : Nat) : (s.dropCmd k).mgmt = s.mgmt := rfl
@[simp] theorem State.dropCmd_wire (k : Nat) : (s.dropCmd k).wire = s.wire := rfl
@[simp] theorem State.dropCmd_cur (k : Nat) : (s.dropCmd k).cur = s.cur := rfl
@[simp] theorem State.dropCmd_inputs (k : Nat) : (s.dropCmd k).inputs = s.inputs := rfl
@[simp] theorem State.dropCmd_cursor (k : Nat) : (s.dropCmd k).cursor = s.cursor := rfl
@[simp] theorem State.dropCmd_free (k : Nat) : (s.dropCmd k).free = s.free := rfl
@[simp] theorem State.dropCmd_nextId (k : Nat) : (s.dropCmd k).nextId = s.nextId := rfl

/-! ## `State.homeWrite` -/

@[simp] theorem State.homeWrite_clock (a : Nat) (bs : List Byte) : (s.homeWrite a bs).clock = s.clock := rfl
@[simp] theorem State.homeWrite_time (a : Nat) (bs : List Byte) : (s.homeWrite a bs).time = s.time := rfl
@[simp] theorem State.homeWrite_far (a : Nat) (bs : List Byte) : (s.homeWrite a bs).far = s.far := rfl
@[simp] theorem State.homeWrite_cores (a : Nat) (bs : List Byte) : (s.homeWrite a bs).cores = s.cores := rfl
@[simp] theorem State.homeWrite_parts (a : Nat) (bs : List Byte) : (s.homeWrite a bs).parts = s.parts := rfl
@[simp] theorem State.homeWrite_ctlbase (a : Nat) (bs : List Byte) : (s.homeWrite a bs).ctlbase = s.ctlbase := rfl
@[simp] theorem State.homeWrite_dieTlb (a : Nat) (bs : List Byte) : (s.homeWrite a bs).dieTlb = s.dieTlb := rfl
@[simp] theorem State.homeWrite_records (a : Nat) (bs : List Byte) : (s.homeWrite a bs).records = s.records := rfl
@[simp] theorem State.homeWrite_notices (a : Nat) (bs : List Byte) : (s.homeWrite a bs).notices = s.notices := rfl
@[simp] theorem State.homeWrite_promotions (a : Nat) (bs : List Byte) : (s.homeWrite a bs).promotions = s.promotions := rfl
@[simp] theorem State.homeWrite_cmds (a : Nat) (bs : List Byte) : (s.homeWrite a bs).cmds = s.cmds := rfl
@[simp] theorem State.homeWrite_graphs (a : Nat) (bs : List Byte) : (s.homeWrite a bs).graphs = s.graphs := rfl
@[simp] theorem State.homeWrite_runs (a : Nat) (bs : List Byte) : (s.homeWrite a bs).runs = s.runs := rfl
@[simp] theorem State.homeWrite_batch (a : Nat) (bs : List Byte) : (s.homeWrite a bs).batch = s.batch := rfl
@[simp] theorem State.homeWrite_opened (a : Nat) (bs : List Byte) : (s.homeWrite a bs).opened = s.opened := rfl
@[simp] theorem State.homeWrite_issued (a : Nat) (bs : List Byte) : (s.homeWrite a bs).issued = s.issued := rfl
@[simp] theorem State.homeWrite_linkOwner (a : Nat) (bs : List Byte) : (s.homeWrite a bs).linkOwner = s.linkOwner := rfl
@[simp] theorem State.homeWrite_nodeId (a : Nat) (bs : List Byte) : (s.homeWrite a bs).nodeId = s.nodeId := rfl
@[simp] theorem State.homeWrite_topover (a : Nat) (bs : List Byte) : (s.homeWrite a bs).topover = s.topover := rfl
@[simp] theorem State.homeWrite_routes (a : Nat) (bs : List Byte) : (s.homeWrite a bs).routes = s.routes := rfl
@[simp] theorem State.homeWrite_routesNext (a : Nat) (bs : List Byte) : (s.homeWrite a bs).routesNext = s.routesNext := rfl
@[simp] theorem State.homeWrite_rtidx (a : Nat) (bs : List Byte) : (s.homeWrite a bs).rtidx = s.rtidx := rfl
@[simp] theorem State.homeWrite_peerto (a : Nat) (bs : List Byte) : (s.homeWrite a bs).peerto = s.peerto := rfl
@[simp] theorem State.homeWrite_peerwin (a : Nat) (bs : List Byte) : (s.homeWrite a bs).peerwin = s.peerwin := rfl
@[simp] theorem State.homeWrite_uetkey (a : Nat) (bs : List Byte) : (s.homeWrite a bs).uetkey = s.uetkey := rfl
@[simp] theorem State.homeWrite_commbase (a : Nat) (bs : List Byte) : (s.homeWrite a bs).commbase = s.commbase := rfl
@[simp] theorem State.homeWrite_groups (a : Nat) (bs : List Byte) : (s.homeWrite a bs).groups = s.groups := rfl
@[simp] theorem State.homeWrite_requests (a : Nat) (bs : List Byte) : (s.homeWrite a bs).requests = s.requests := rfl
@[simp] theorem State.homeWrite_tagGen (a : Nat) (bs : List Byte) : (s.homeWrite a bs).tagGen = s.tagGen := rfl
@[simp] theorem State.homeWrite_tagCore (a : Nat) (bs : List Byte) : (s.homeWrite a bs).tagCore = s.tagCore := rfl
@[simp] theorem State.homeWrite_routed (a : Nat) (bs : List Byte) : (s.homeWrite a bs).routed = s.routed := rfl
@[simp] theorem State.homeWrite_leaving (a : Nat) (bs : List Byte) : (s.homeWrite a bs).leaving = s.leaving := rfl
@[simp] theorem State.homeWrite_replays (a : Nat) (bs : List Byte) : (s.homeWrite a bs).replays = s.replays := rfl
@[simp] theorem State.homeWrite_colls (a : Nat) (bs : List Byte) : (s.homeWrite a bs).colls = s.colls := rfl
@[simp] theorem State.homeWrite_channels (a : Nat) (bs : List Byte) : (s.homeWrite a bs).channels = s.channels := rfl
@[simp] theorem State.homeWrite_turns (a : Nat) (bs : List Byte) : (s.homeWrite a bs).turns = s.turns := rfl
@[simp] theorem State.homeWrite_ports (a : Nat) (bs : List Byte) : (s.homeWrite a bs).ports = s.ports := rfl
@[simp] theorem State.homeWrite_mgmt (a : Nat) (bs : List Byte) : (s.homeWrite a bs).mgmt = s.mgmt := rfl
@[simp] theorem State.homeWrite_wire (a : Nat) (bs : List Byte) : (s.homeWrite a bs).wire = s.wire := rfl
@[simp] theorem State.homeWrite_cur (a : Nat) (bs : List Byte) : (s.homeWrite a bs).cur = s.cur := rfl
@[simp] theorem State.homeWrite_inputs (a : Nat) (bs : List Byte) : (s.homeWrite a bs).inputs = s.inputs := rfl
@[simp] theorem State.homeWrite_cursor (a : Nat) (bs : List Byte) : (s.homeWrite a bs).cursor = s.cursor := rfl
@[simp] theorem State.homeWrite_free (a : Nat) (bs : List Byte) : (s.homeWrite a bs).free = s.free := rfl
@[simp] theorem State.homeWrite_nextId (a : Nat) (bs : List Byte) : (s.homeWrite a bs).nextId = s.nextId := rfl

/-! ## `State.complete` -/

@[simp] theorem State.complete_clock : (s.complete).clock = s.clock := rfl
@[simp] theorem State.complete_time : (s.complete).time = s.time := rfl
@[simp] theorem State.complete_harbour : (s.complete).harbour = s.harbour := rfl
@[simp] theorem State.complete_far : (s.complete).far = s.far := rfl
@[simp] theorem State.complete_cores : (s.complete).cores = s.cores := rfl
@[simp] theorem State.complete_parts : (s.complete).parts = s.parts := rfl
@[simp] theorem State.complete_ctlbase : (s.complete).ctlbase = s.ctlbase := rfl
@[simp] theorem State.complete_dieTlb : (s.complete).dieTlb = s.dieTlb := rfl
@[simp] theorem State.complete_records : (s.complete).records = s.records := rfl
@[simp] theorem State.complete_notices : (s.complete).notices = s.notices := rfl
@[simp] theorem State.complete_promotions : (s.complete).promotions = s.promotions := rfl
@[simp] theorem State.complete_cmds : (s.complete).cmds = s.cmds := rfl
@[simp] theorem State.complete_graphs : (s.complete).graphs = s.graphs := rfl
@[simp] theorem State.complete_runs : (s.complete).runs = s.runs := rfl
@[simp] theorem State.complete_batch : (s.complete).batch = s.batch := rfl
@[simp] theorem State.complete_opened : (s.complete).opened = s.opened := rfl
@[simp] theorem State.complete_issued : (s.complete).issued = s.issued := rfl
@[simp] theorem State.complete_linkOwner : (s.complete).linkOwner = s.linkOwner := rfl
@[simp] theorem State.complete_nodeId : (s.complete).nodeId = s.nodeId := rfl
@[simp] theorem State.complete_topover : (s.complete).topover = s.topover := rfl
@[simp] theorem State.complete_routes : (s.complete).routes = s.routes := rfl
@[simp] theorem State.complete_routesNext : (s.complete).routesNext = s.routesNext := rfl
@[simp] theorem State.complete_rtidx : (s.complete).rtidx = s.rtidx := rfl
@[simp] theorem State.complete_peerto : (s.complete).peerto = s.peerto := rfl
@[simp] theorem State.complete_peerwin : (s.complete).peerwin = s.peerwin := rfl
@[simp] theorem State.complete_uetkey : (s.complete).uetkey = s.uetkey := rfl
@[simp] theorem State.complete_commbase : (s.complete).commbase = s.commbase := rfl
@[simp] theorem State.complete_groups : (s.complete).groups = s.groups := rfl
@[simp] theorem State.complete_requests : (s.complete).requests = s.requests := rfl
@[simp] theorem State.complete_tagGen : (s.complete).tagGen = s.tagGen := rfl
@[simp] theorem State.complete_tagCore : (s.complete).tagCore = s.tagCore := rfl
@[simp] theorem State.complete_routed : (s.complete).routed = s.routed := rfl
@[simp] theorem State.complete_leaving : (s.complete).leaving = s.leaving := rfl
@[simp] theorem State.complete_replays : (s.complete).replays = s.replays := rfl
@[simp] theorem State.complete_colls : (s.complete).colls = s.colls := rfl
@[simp] theorem State.complete_channels : (s.complete).channels = s.channels := rfl
@[simp] theorem State.complete_turns : (s.complete).turns = s.turns := rfl
@[simp] theorem State.complete_ports : (s.complete).ports = s.ports := rfl
@[simp] theorem State.complete_mgmt : (s.complete).mgmt = s.mgmt := rfl
@[simp] theorem State.complete_wire : (s.complete).wire = s.wire := rfl
@[simp] theorem State.complete_inputs : (s.complete).inputs = s.inputs := rfl
@[simp] theorem State.complete_cursor : (s.complete).cursor = s.cursor := rfl
@[simp] theorem State.complete_free : (s.complete).free = s.free := rfl
@[simp] theorem State.complete_nextId : (s.complete).nextId = s.nextId := rfl

end Sys2Proof.Machine
end

