-- ==== Sys2Proof/Laws/Ops.lean ====
section
/-!
SUPPORT. What the shared operations can do: the issuing strand under an update, the flow of a split from one
instruction to the next, the end of an issue, and the issue of an instruction whose registers are in range.
-/

namespace Sys2Proof.Machine

/-! ## Cores and the issuing strand -/

@[simp] theorem State.core_modCore (s : State) (c d : Nat) (f : Core → Core) :
    (s.modCore c f).core d = if d = c then f (s.core c) else s.core d := by
  simp only [State.core, State.modCore, Store.read, Store.at?_put]
  split_ifs <;> rfl

@[simp] theorem State.ctx_modCtx (s : State) (c d : Nat) (f : Context → Context) :
    (s.modCtx c f).ctx d = if d = c then f (s.ctx c) else s.ctx d := by
  simp only [State.ctx, State.modCtx, State.core_modCore]
  split_ifs <;> rfl

theorem State.modCore_modCore (s : State) (c : Nat) (f g : Core → Core) :
    (s.modCore c f).modCore c g = s.modCore c (g ∘ f) := by
  have h : (s.modCore c f).core c = f (s.core c) := by simp
  simp only [State.modCore] at h ⊢
  rw [h, Store.put_put]; rfl

theorem State.modCtx_modCtx (s : State) (c : Nat) (f g : Context → Context) :
    (s.modCtx c f).modCtx c g = s.modCtx c (g ∘ f) := by
  simp only [State.modCtx, State.modCore_modCore]
  rfl

theorem State.modStrand_modStrand (s : State) (c k : Nat) (f g : Strand → Strand) :
    (s.modStrand c k f).modStrand c k g = s.modStrand c k (g ∘ f) := by
  simp only [State.modStrand, State.modCtx_modCtx]
  congr 1; funext x
  simp only [Function.comp, Store.modify_modify]

theorem State.modMe_modMe (s : State) (f g : Strand → Strand) : (s.modMe f).modMe g = s.modMe (g ∘ f) :=
  State.modStrand_modStrand s _ _ f g

@[simp] theorem State.strand?_modStrand (s : State) (c k : Nat) (f : Strand → Strand) :
    (s.modStrand c k f).strand? c k = (s.strand? c k).map f := by
  simp [State.strand?, State.modStrand, Store.at?_modify]

theorem State.strand_modStrand (s : State) (c k : Nat) (f : Strand → Strand)
    (h : (s.strand? c k).isSome = true) : (s.modStrand c k f).strand c k = f (s.strand c k) := by
  obtain ⟨t, ht⟩ := Option.isSome_iff_exists.1 h
  simp [State.strand, ht]

/-- The issuing strand under an update. -/
theorem State.me_modMe (s : State) (f : Strand → Strand)
    (h : (s.strand? s.cur.core s.cur.slot).isSome = true) : (s.modMe f).me = f s.me :=
  State.strand_modStrand s _ _ f h

theorem State.slot_modMe (s : State) (f : Strand → Strand) :
    ((s.modMe f).strand? (s.modMe f).cur.core (s.modMe f).cur.slot).isSome =
      (s.strand? s.cur.core s.cur.slot).isSome := by
  simp [State.modMe]

/-! ## A strand apart from its flow -/

/-- A strand without its split table and stack. -/
def Strand.still (t : Strand) : Strand := { t with splits := [], stack := [] }

theorem Strand.still_modSplit (t : Strand) (e : Nat) (f : Split → Split) : (t.modSplit e f).still = t.still := rfl

theorem Strand.still_pop (t : Strand) (since : PC → Nat) : (t.pop since).still = t.still := by
  unfold Strand.pop; split <;> rfl

theorem Strand.still_passSyncs (t : Strand) (since : PC → Nat) : (t.passSyncs since).still = t.still := by
  simp only [Strand.passSyncs]; split_ifs <;> rfl

theorem Strand.still_settle (t : Strand) (since : PC → Nat) (n : Nat) : (t.settle since n).still = t.still := by
  induction n generalizing t with
  | zero => rfl
  | succ n ih =>
    simp only [Strand.settle]
    split
    · rw [ih]; rfl
    · split_ifs
      · rw [ih, Strand.still_pop]
      · rw [ih, Strand.still_passSyncs]
      · rfl

/-! ## What stays (`Same`) -/

theorem Same.refl (f : Strand → Strand) (s : State) : Same f s s := rfl
theorem Same.trans {f : Strand → Strand} {s t u : State} (h : Same f s t) (k : Same f t u) : Same f s u :=
  Eq.trans k h
theorem Same.symm {f : Strand → Strand} {s t : State} (h : Same f s t) : Same f t s := Eq.symm h

/-- An update of the issuing strand that what is left out hides. -/
theorem Same.modMe (f : Strand → Strand) (s : State) (g : Strand → Strand) (h : ∀ t, f (g t).still = f t.still) :
    Same f s (s.modMe g) := by
  have e : (s.modMe g).modMe (fun t => f t.still) = s.modMe (fun t => f t.still) := by
    rw [State.modMe_modMe]
    congr 1; funext t; exact h t
  simp only [Same, State.rest]
  exact congrArg (fun u : State => { u with
    cur := { s.cur with done := false, out := false }
    parts := s.parts.map fun (e : Nat × Partition) => (e.1, { e.2 with pmc := [] }) }) e

theorem Same.complete (f : Strand → Strand) (s : State) : Same f s s.complete := rfl

/-- More may be left out. -/
theorem Same.weaken {f : Strand → Strand} {s t : State} (g : Strand → Strand) (h : Same f s t) : Same (g ∘ f) s t := by
  have key : ∀ u : State, State.rest (g ∘ f) u = (State.rest f u).modMe g := by
    intro u
    have : (State.rest f u).modMe g =
        { (u.modMe (fun t => f { t with splits := [], stack := [] })).modMe g with
          cur := { u.cur with done := false, out := false }
          parts := u.parts.map fun (e : Nat × Partition) => (e.1, { e.2 with pmc := [] }) } := rfl
    rw [this, State.modMe_modMe]; rfl
  rw [Same, key, key, show State.rest f t = State.rest f s from h]

theorem Store.map_put {α β : Type} {m : Store α} {k : Nat} {u v : α} (h : α → β) (hk : m.at? k = some v)
    (hu : h u = h v) : (m.put k u).map (fun e => (e.1, h e.2)) = m.map (fun e => (e.1, h e.2)) := by
  induction m with
  | nil => simp at hk
  | cons e m ih =>
    obtain ⟨i, w⟩ := e
    simp only [Store.at?] at hk
    simp only [Store.put]
    split_ifs at hk ⊢ with h1 h2
    · simp only [Option.some.injEq] at hk
      subst hk; subst h2; simp [hu]
    · simp [ih hk]

theorem Partition.count_pmc (p : Partition) (ev n : Nat) (core : Option Nat) :
    { p.count ev n core with pmc := [] } = { p with pmc := [] } := by
  unfold Partition.count; split_ifs <;> rfl

theorem State.part_listed (s : State) (p : Nat) (h : (s.part p).pmsel.isEmpty = false) :
    ∃ q, s.parts.at? p = some q ∧ s.part p = q := by
  unfold State.part Store.read at *
  cases hq : s.parts.at? p with
  | none => simp [hq] at h
  | some q => exact ⟨q, rfl, by simp⟩

theorem Same.count (f : Strand → Strand) (s : State) (core ev n : Nat) : Same f s (s.count core ev n) := by
  unfold State.count
  split
  · rename_i p _
    split_ifs with h
    · rfl
    · obtain ⟨q, hq, hp⟩ := State.part_listed s p (by simpa using h)
      have := Store.map_put (m := s.parts) (k := p) (u := (s.part p).count ev n (some core)) (v := q)
        (fun r : Partition => { r with pmc := [] }) hq (by rw [Partition.count_pmc, hp])
      simp only [Same, State.rest]
      exact congrArg (fun ps => { s.modMe (fun t => f { t with splits := [], stack := [] }) with
        cur := { s.cur with done := false, out := false }, parts := ps }) this
  · rfl

theorem Same.settleMe (f : Strand → Strand) (s : State) : Same f s s.settleMe :=
  Same.modMe f s _ fun t => by rw [Strand.still_settle]

theorem Same.modMySplit (f : Strand → Strand) (s : State) (g : Split → Split) : Same f s (s.modMySplit g) :=
  Same.modMe f s _ fun t => by rw [Strand.still_modSplit]

theorem Same.leaves (f : Strand → Strand) (s : State) (pcs : List PC) : Same f s (s.leaves pcs) := rfl

/-- The split goes on: nothing but flow moves. -/
theorem Same.goTo (f : Strand → Strand) (s : State) (pc : PC) : Same f s (s.goTo pc) :=
  ((Same.leaves f s _).trans (Same.modMySplit f _ _)).trans (Same.complete f _)

theorem Same.retire (f : Strand → Strand) (s : State) : Same f s s.retire := Same.goTo f s _

@[simp] theorem State.done_goTo (s : State) (pc : PC) : (s.goTo pc).cur.done = true := rfl
@[simp] theorem State.done_retire (s : State) : s.retire.cur.done = true := rfl

/-! ## Reading through `Same` -/

theorem Same.cur {f : Strand → Strand} {s t : State} (h : Same f s t) :
    { t.cur with done := false, out := false } = { s.cur with done := false, out := false } := by
  have h : State.rest f t = State.rest f s := h
  have e := congrArg State.cur h
  exact e
theorem Same.core {f : Strand → Strand} {s t : State} (h : Same f s t) : t.cur.core = s.cur.core := by
  have e := h.cur
  injection e
theorem Same.slot {f : Strand → Strand} {s t : State} (h : Same f s t) : t.cur.slot = s.cur.slot := by
  have e := h.cur
  injection e

theorem State.rest_strand? (f : Strand → Strand) (s : State) :
    (State.rest f s).strand? s.cur.core s.cur.slot = (s.strand? s.cur.core s.cur.slot).map fun t => f t.still := by
  have : (State.rest f s).strand? s.cur.core s.cur.slot =
      (s.modMe fun t => f t.still).strand? s.cur.core s.cur.slot := rfl
  rw [this, State.modMe, State.strand?_modStrand]

/-- The issuing strand, apart from its flow and what is left out, is as it was. -/
theorem Same.me {f : Strand → Strand} {s t : State} (h : Same f s t)
    (hs : (s.strand? s.cur.core s.cur.slot).isSome = true) :
    f t.me.still = f s.me.still ∧ (t.strand? t.cur.core t.cur.slot).isSome = true := by
  have e := State.rest_strand? f t
  have e' := State.rest_strand? f s
  rw [show State.rest f t = State.rest f s from h, h.core, h.slot, e'] at e
  obtain ⟨u, hu⟩ := Option.isSome_iff_exists.1 hs
  rw [hu, Option.map_some] at e
  cases hv : t.strand? s.cur.core s.cur.slot with
  | none => rw [hv] at e; cases e
  | some v =>
    rw [hv, Option.map_some, Option.some.injEq] at e
    have hme : s.me = u := by simp [State.me, State.strand, hu]
    have hmt : t.me = v := by simp [State.me, State.strand, h.core, h.slot, hv]
    exact ⟨by rw [hme, hmt, e], by rw [h.core, h.slot, hv]; rfl⟩

theorem Same.harbour {f : Strand → Strand} {s t : State} (h : Same f s t) : t.harbour = s.harbour := by
  have h : State.rest f t = State.rest f s := h
  have e := congrArg State.harbour h
  exact e
theorem Same.far {f : Strand → Strand} {s t : State} (h : Same f s t) : t.far = s.far := by
  have h : State.rest f t = State.rest f s := h
  have e := congrArg State.far h
  exact e

theorem State.rest_shelf (f : Strand → Strand) (s : State) (c : Nat) : (State.rest f s).shelf c = s.shelf c := by
  have : (State.rest f s).shelf c = (s.modMe fun t => f t.still).shelf c := rfl
  rw [this]
  simp only [State.shelf, State.modMe, State.modStrand, State.ctx_modCtx]
  split_ifs with hc
  · subst hc; rfl
  · rfl

theorem Same.shelf {f : Strand → Strand} {s t : State} (h : Same f s t) (c : Nat) : t.shelf c = s.shelf c := by
  rw [← State.rest_shelf f t, ← State.rest_shelf f s, show State.rest f t = State.rest f s from h]

/-- Every byte of every memory is as it was. -/
theorem Same.bytes {f : Strand → Strand} {s t : State} (h : Same f s t) : SameBytes s t := fun a =>
  ⟨by rw [h.harbour], by rw [h.far], fun c => by rw [h.shelf]⟩

/-! ## The end of an issue -/

/-- A completed instruction after which no STEP comes leaves its strand's table settled. -/
theorem State.finish_done (s : State) (user : Bool) (hd : s.cur.done = true)
    (h : user = false ∨ s.me.dbgstep = false) : s.finish user = s.settleMe := by
  unfold State.finish
  rcases h with h | h <;> simp [hd, h]

@[simp] theorem State.cur_count (s : State) (c e n : Nat) : (s.count c e n).cur = s.cur := by
  unfold State.count; split
  · split_ifs <;> rfl
  · rfl

@[simp] theorem State.cur_countIssue (s : State) (again : Bool) : (s.countIssue again).cur = s.cur := by
  cases again
  · exact State.cur_count s _ _ _
  · rfl

theorem Same.countIssue (f : Strand → Strand) (s : State) (again : Bool) : Same f s (s.countIssue again) := by
  cases again
  · exact Same.count f s _ _ _
  · rfl

/-- What an instruction that completes leaves: it is marked as completed, and apart from flow and counters it
is the state its effect left. -/
theorem State.finish_retire (s : State) (user : Bool)
    (hs : (s.strand? s.cur.core s.cur.slot).isSome = true) (h : user = false ∨ s.me.dbgstep = false) :
    (s.retire.finish user).cur.done = true ∧ Same whole s (s.retire.finish user) := by
  have hr := Same.retire whole s
  have hm := (hr.me hs).1
  have hstep : user = false ∨ s.retire.me.dbgstep = false := h.imp_right fun h => by
    have := congrArg Strand.dbgstep hm
    simpa [whole, Strand.still, h] using this
  rw [State.finish_done s.retire user rfl hstep]
  exact ⟨rfl, hr.trans (Same.settleMe whole _)⟩

/-! ## Issue -/

/-- The registers that an instruction names are in range, and no PLD or PATOM has one of them still to write. -/
def State.Named (s : State) (regs : List Reg) : Prop :=
  regs.findSome? s.regRange = none ∧ regs.findSome? s.loadOn = none

/-- An instruction whose registers are in range, that may run, with an active lane, runs its body, and is counted. -/
theorem State.issue_body (s : State) (priv : Bool) (regs : List Reg) (body : State → State)
    (hr : s.Named regs) (hp : priv = false ∨ s.me.sup = true) (ha : s.cur.act ≠ 0) :
    s.issue priv regs body = ((body s).finish (!s.me.sup)).countIssue (s.mySplit.stall != .none) := by
  have : (priv && !s.me.sup) = false := by
    rcases hp with h | h <;> simp [h]
  have ha : ¬ s.cur.act = 0 := ha
  simp only [State.issue, hr.1, hr.2, this, Bool.false_eq_true, if_false, ha]

theorem State.regRange_v (s : State) (f n : Nat) (h : s.Holds f n) : s.regRange (.v f n) = none := by
  simp only [State.regRange, Option.map_eq_none_iff, List.find?_eq_none, List.mem_range, Bool.or_eq_true,
    decide_eq_true_eq, not_or, not_le]
  intro k hk
  obtain ⟨h1, h2, _⟩ := h
  constructor <;> omega

theorem State.loadOn_v (s : State) (f n : Nat) (h : s.Holds f n) : s.loadOn (.v f n) = none := by
  simp only [State.loadOn, Option.map_eq_none_iff, List.find?_eq_none, List.any_eq_true, List.mem_range, not_exists, not_and]
  exact fun w hw k hk => by simp [h.2.2 k hk w hw]

theorem State.lockOn_v (s : State) (f n : Nat) (h : s.Free f n) : s.lockOn (.v f n) = none := by
  simp only [State.lockOn]
  rw [if_neg]
  simp only [List.any_eq_true, List.mem_range, not_exists, not_and, Bool.not_eq_true]
  exact fun k hk => h k hk

/-- An instruction in range whose body ends in the next instruction completes: with what its effect left. -/
theorem State.issue_retire {s : State} (hs : s.Runs) {priv : Bool} {regs : List Reg} {body : State → State}
    {s' : State} (hr : s.Named regs) (hp : priv = false ∨ s.me.sup = true)
    (hb : body s = s'.retire) (hl : (s'.strand? s'.cur.core s'.cur.slot).isSome = true)
    (hd : s'.me.dbgstep = s.me.dbgstep) :
    (s.issue priv regs body).cur.done = true ∧ Same whole s' (s.issue priv regs body) := by
  rw [State.issue_body s priv regs body hr hp hs.lane, hb]
  obtain ⟨h1, h2⟩ := State.finish_retire s' (!s.me.sup) hl (by
    rw [hd]
    rcases hs.step with h | h
    · exact .inl (by simp [h])
    · exact .inr h)
  exact ⟨by rw [State.cur_countIssue, h1], h2.trans (Same.countIssue whole _ _)⟩

/-! ## Register files -/

theorem mem_lanes (m : Mask) (l : Nat) : l ∈ lanes m ↔ l < 32 ∧ m.getLsbD l = true := by
  simp [lanes]

theorem Store.sorted_foldl_write {α : Type} [DecidableEq α] (d : α) (ls : List Nat) (key : Nat → Nat) (val : Nat → α)
    (m : Store α) (h : m.sorted = true) :
    (ls.foldl (fun r l => Store.write d r (key l) (val l)) m).sorted = true := by
  induction ls generalizing m with
  | nil => exact h
  | cons l ls ih => exact ih _ (Store.sorted_write d h _ _)

/-- A read after writes at injective keys. -/
theorem Store.read_foldl_write {α : Type} [DecidableEq α] (d : α) (ls : List Nat) (key : Nat → Nat)
    (hk : ∀ a b, key a = key b → a = b) (val : Nat → α) (m : Store α) (h : m.sorted = true) (j : Nat) :
    (∀ l ∈ ls, key l = j → Store.read d (ls.foldl (fun r l => Store.write d r (key l) (val l)) m) j = val l) ∧
    ((∀ l ∈ ls, key l ≠ j) →
      Store.read d (ls.foldl (fun r l => Store.write d r (key l) (val l)) m) j = m.read d j) := by
  induction ls generalizing m with
  | nil => simp
  | cons a ls ih =>
    obtain ⟨i1, i2⟩ := ih (m.write d (key a) (val a)) (Store.sorted_write d h _ _)
    constructor
    · intro l hl hj
      by_cases hm : l ∈ ls
      · exact i1 l hm hj
      · have : l = a := by simpa [hm] using hl
        subst this
        by_cases hx : ∃ b ∈ ls, key b = j
        · obtain ⟨b, hb, hbj⟩ := hx
          exact absurd (hk _ _ (hbj.trans hj.symm) ▸ hb) hm
        · rw [List.foldl_cons, i2 fun b hb hbj => hx ⟨b, hb, hbj⟩, Store.read_write d h]
          simp [hj]
    · intro hn
      rw [List.foldl_cons, i2 fun l hl => hn l (.tail _ hl), Store.read_write d h]
      rw [if_neg fun e => hn a (.head _) e.symm]

theorem Strand.spoil_still (t : Strand) (p : Nat) :
    t.spoil p = t ∨ t.spoil p = { t with keep := none } := by
  unfold Strand.spoil
  split
  · split_ifs
    · exact .inr rfl
    · exact .inl rfl
  · exact .inl rfl

/-- A lane of a physical register after a write of a vector field. -/
theorem Strand.vphys_setV (t : Strand) (h : t.vregs.sorted = true) (f : Nat) (m : Mask) (val : Nat → Word)
    (p l : Nat) (hl : l < 32) :
    (t.setV f m val).vphys p l = if p = t.wb + f ∧ m.getLsbD l = true then val l else t.vphys p l := by
  have key := Store.read_foldl_write (0 : Word) (lanes m) (fun l => 32 * (t.wb + f) + l)
    (fun a b => by omega) val t.vregs h (32 * p + l)
  simp only [Strand.vphys, Strand.setV, Strand.setPhys]
  split_ifs with hc
  · obtain ⟨rfl, hm⟩ := hc
    exact key.1 l ((mem_lanes m l).2 ⟨hl, hm⟩) rfl
  · refine key.2 fun a ha e => hc ?_
    obtain ⟨h1, h2⟩ := (mem_lanes m a).1 ha
    have : p = t.wb + f := by omega
    have : a = l := by omega
    subst this
    exact ⟨by assumption, h2⟩

theorem Strand.sorted_setV (t : Strand) (h : t.vregs.sorted = true) (f : Nat) (m : Mask) (val : Nat → Word) :
    (t.setV f m val).vregs.sorted = true := Store.sorted_foldl_write 0 _ _ _ _ h

theorem Strand.wb_setV (t : Strand) (f : Nat) (m : Mask) (val : Nat → Word) : (t.setV f m val).wb = t.wb := by
  rcases t.spoil_still (t.wb + f) with h | h <;> simp [Strand.setV, Strand.setPhys, h]

theorem Strand.x_setX (t : Strand) (h : t.xregs.sorted = true) (f x : Nat) (v : DWord) :
    (t.setX f v).x x = if x = f then v else t.x x := Store.read_write 0 h f x v

/-- A predicate after a write: P0 stays true (R61). -/
theorem Strand.p_setP (t : Strand) (h : t.preds.sorted = true) (f : Nat) (m v : Mask) (q : Nat) :
    (t.setP f m v).p q = if q = f ∧ f ≠ 0 then (t.p f &&& ~~~m) ||| (v &&& m) else t.p q := by
  unfold Strand.setP
  by_cases hf : f = 0
  · simp [hf]
  · simp only [hf, if_false, ne_eq, not_false_eq_true, and_true]
    simp only [Strand.p]
    by_cases hq : q = 0
    · rw [if_pos hq, if_neg (by omega), if_pos hq]
    · rw [if_neg hq, if_neg hq, if_neg hf, Store.read_write 0 h]

/-- A trap of a strand without an open PLD or PATOM is entered at once (R83, R242). -/
theorem State.enter_now (s : State) (tr : Trap) (npc : PC) (h : s.me.loading = []) :
    s.enter tr npc = s.enterNow s.mySplit.mask tr npc := by simp [State.enter, h]

end Sys2Proof.Machine
end

