-- ==== Sys2Proof/Laws/PerInstr.lean ====
section
/-!
SUPPORT. What holds of every instruction as syntax, one lemma per constructor: the parts that the encoder writes lie in
their fields, K is set by MMA alone, and the opcode is one of the base map.
-/

open Sys2Proof

namespace Sys2Proof

theorem flag_lt (b : Bool) : flag b < 2 := by cases b <;> decide
theorem Cmp.code_lt (c : Cmp) : c.code < 6 := by cases c <;> decide
theorem RedOp.code_lt (c : RedOp) : c.code < 16 := by cases c <;> decide
theorem CClass.code_lt (c : CClass) : c.code < 6 := by cases c <;> decide
theorem Fmt.code_lt (c : Fmt) : c.code < 6 := by cases c <;> decide
theorem CvtFmt.code_lt (c : CvtFmt) : c.code < 8 := by
  cases c with
  | elem f => cases f <;> decide
  | _ => decide
theorem Scope.code_lt (c : Scope) : c.code < 4 := by cases c <;> decide
theorem Width.code_lt (c : Width) : c.code < 5 := by cases c <;> decide
theorem AtomOp.code_lt (c : AtomOp) : c.code < 8 := by cases c <;> decide
theorem encRm_lt (r : Option Rm) : encRm r < 8 := by
  cases r with
  | none => decide
  | some r => cases r <;> decide
theorem encCmp_lt (sg : Bool) (c : Cmp) (p : PReg) : encCmp sg c p < 128 := by
  have := flag_lt sg; have := c.code_lt; have := p.isLt; unfold encCmp; omega
theorem encCmpF_lt (c : Cmp) (p : PReg) : encCmpF c p < 128 := by
  have := c.code_lt; have := p.isLt; unfold encCmpF; omega
theorem encPlop_lt (o : LogOp) (p : PReg) : encPlop o p < 128 := by
  have := p.isLt; cases o <;> simp [encPlop, LogOp.code] <;> omega
theorem encXlopA_lt (o : LogOp) (d : XReg) : encXlopA o d < 128 := by
  have := d.isLt; cases o <;> simp [encXlopA, LogOp.code] <;> omega
theorem encXlopB_lt (o : LogOp) (a : XReg) : encXlopB o a < 128 := by
  have := a.isLt; cases o <;> simp [encXlopB, LogOp.code] <;> omega
theorem encVoteB_lt (w : VoteArg) : encVoteB w < 128 := by
  have := w.p.isLt; obtain ⟨d, p, op⟩ := w; cases op <;> simp [encVoteB, VoteOp.code] <;> omega
theorem encSel_lt (b : BarSel) : encSel b < 128 := by
  cases b with
  | object x => have := x.isLt; simp only [encSel]; omega
  | group n => have := n.isLt; simp only [encSel]; omega
theorem encGuard_lt (g : Option GReg) : encGuard g < 128 := by
  cases g with
  | none => decide
  | some g => have := g.isLt; simp only [encGuard]; omega
theorem encAddrB_lt (a : CAddr) : encAddrB a < 128 := by
  cases a with
  | reg x v => exact v.isLt
  | imm x k => exact k.isLt
theorem encAddrC_lt (a : CAddr) : encAddrC a < 128 := by
  cases a with
  | reg x v => have := x.isLt; simp only [encAddrC]; omega
  | imm x k => have := x.isLt; simp only [encAddrC]; omega
theorem encOff_lt (o : Off) : encOff o < 16384 := by
  cases o with
  | imm n => have := n.isLt; simp only [encOff]; omega
  | reg v => have := v.isLt; simp only [encOff]; omega
theorem encLdB_lt (l : LdLit) : encLdB l < 128 := by
  unfold encLdB
  split
  · decide
  · exact Fin.isLt _
theorem encLdOff_lt (l : LdLit) : encLdOff l < 16384 := by
  unfold encLdOff
  split
  · exact Nat.lt_trans (Fin.isLt _) (by decide)
  · decide
theorem encLd_lt (n : Nat) (l : LdLit) (h : n < 4) : encLd n l < 2 ^ 32 := by
  have := l.xa.isLt; have := encLdOff_lt l; have := l.w.code_lt; have := l.scope.code_lt; have := flag_lt l.rsp
  unfold encLd; split <;> omega
theorem encAtom_lt (l : AtomLit) : encAtom l < 2 ^ 32 := by
  have := l.xa.isLt; have := encOff_lt l.off; have := l.op.code_lt; have := flag_lt l.sg; have := flag_lt l.w64
  have := flag_lt l.rel; have := flag_lt l.acq; have := l.scope.code_lt; have := flag_lt l.rsp
  unfold encAtom; omega
theorem encPeer_lt (l : PeerLit) : encPeer l < 2 ^ 32 := by
  have := l.xa.isLt; have := encOff_lt l.off; have := l.op.code_lt; have := flag_lt l.sg; have := l.w.code_lt
  have := flag_lt l.rel; have := flag_lt l.acq
  unfold encPeer; omega
theorem encFp_lt (m : FpMod) : encFp m < 2 ^ 32 := by
  have := flag_lt m.bf; have := flag_lt m.ftz; have := encRm_lt m.rm; have := m.vc.isLt; unfold encFp; omega
theorem encCvt_lt (l : CvtLit) : encCvt l < 2 ^ 32 := by
  have := flag_lt l.ftz; have := encRm_lt l.rm; have := l.dst.code_lt; have := l.src.code_lt; unfold encCvt; omega
theorem encFence_lt (sc : Scope) (acq rel : Bool) : encFence sc acq rel < 128 := by
  have := sc.code_lt; have := flag_lt acq; have := flag_lt rel; unfold encFence; omega

end Sys2Proof

/-- The parts of the instruction's encoding lie in their fields, only MMA sets K, and the opcode is of the base map. -/
def Sys2Proof.Laws.FieldsInRange.Statement (i : Instr) : Prop :=
  ∀ f, encodeFields i = some f → f.inRange ∧ (f.op = 0x0F0 ∨ f.k = 0) ∧ baseMapped f.op = true

namespace Sys2Proof.Laws.FieldsInRange

theorem mk {i : Instr} {f : Fields} (h : encodeFields i = some f) (r : f.inRange) (k : f.op = 0x0F0 ∨ f.k = 0)
    (m : baseMapped f.op = true) : Statement i := fun g hg => by
  rw [h] at hg; cases hg; exact ⟨r, k, m⟩

end Sys2Proof.Laws.FieldsInRange

open Sys2Proof.Laws.FieldsInRange

theorem Sys2Proof.Laws.FieldsInRange.bra (off : Fin 2097152) :
    Statement (.bra off) :=
  mk rfl (by
    have := off.isLt
    refine ⟨?_, ?_, ?_, ?_, ?_, ?_⟩ <;> dsimp only <;> omega) (.inr rfl)
    (show baseMapped 0x001 = true by decide)

theorem Sys2Proof.Laws.FieldsInRange.brx (x : XReg) :
    Statement (.brx x) :=
  mk rfl (by
    have := x.isLt
    refine ⟨?_, ?_, ?_, ?_, ?_, ?_⟩ <;> dsimp only <;> omega) (.inr rfl)
    (show baseMapped 0x002 = true by decide)

theorem Sys2Proof.Laws.FieldsInRange.call (off : Fin 2097152) :
    Statement (.call off) :=
  mk rfl (by
    have := off.isLt
    refine ⟨?_, ?_, ?_, ?_, ?_, ?_⟩ <;> dsimp only <;> omega) (.inr rfl)
    (show baseMapped 0x003 = true by decide)

theorem Sys2Proof.Laws.FieldsInRange.loopx (x : XReg) (off : Fin 16384) :
    Statement (.loopx x off) :=
  mk rfl (by
    have := x.isLt
    have := off.isLt
    refine ⟨?_, ?_, ?_, ?_, ?_, ?_⟩ <;> dsimp only <;> omega) (.inr rfl)
    (show baseMapped 0x007 = true by decide)

theorem Sys2Proof.Laws.FieldsInRange.winb (base : Fin 16384) :
    Statement (.winb base) :=
  mk rfl (by
    have := base.isLt
    refine ⟨?_, ?_, ?_, ?_, ?_, ?_⟩ <;> dsimp only <;> omega) (.inr rfl)
    (show baseMapped 0x008 = true by decide)

theorem Sys2Proof.Laws.FieldsInRange.shrinkV (n : Fin 16384) :
    Statement (.shrinkV n) :=
  mk rfl (by
    have := n.isLt
    refine ⟨?_, ?_, ?_, ?_, ?_, ?_⟩ <;> dsimp only <;> omega) (.inr rfl)
    (show baseMapped 0x009 = true by decide)

theorem Sys2Proof.Laws.FieldsInRange.trap (imm : Fin 16384) :
    Statement (.trap imm) :=
  mk rfl (by
    have := imm.isLt
    refine ⟨?_, ?_, ?_, ?_, ?_, ?_⟩ <;> dsimp only <;> omega) (.inr rfl)
    (show baseMapped 0x00C = true by decide)

theorem Sys2Proof.Laws.FieldsInRange.setfmt (x : XReg) :
    Statement (.setfmt x) :=
  mk rfl (by
    have := x.isLt
    refine ⟨?_, ?_, ?_, ?_, ?_, ?_⟩ <;> dsimp only <;> omega) (.inr rfl)
    (show baseMapped 0x010 = true by decide)

theorem Sys2Proof.Laws.FieldsInRange.setfmtF (x : XReg) :
    Statement (.setfmtF x) :=
  mk rfl (by
    have := x.isLt
    refine ⟨?_, ?_, ?_, ?_, ?_, ?_⟩ <;> dsimp only <;> omega) (.inr rfl)
    (show baseMapped 0x011 = true by decide)

theorem Sys2Proof.Laws.FieldsInRange.gangset (x : XReg) :
    Statement (.gangset x) :=
  mk rfl (by
    have := x.isLt
    refine ⟨?_, ?_, ?_, ?_, ?_, ?_⟩ <;> dsimp only <;> omega) (.inr rfl)
    (show baseMapped 0x012 = true by decide)

theorem Sys2Proof.Laws.FieldsInRange.movsV (d : VReg) (src : Fin 26) :
    Statement (.movsV d src) :=
  mk rfl (by
    have := d.isLt
    have := src.isLt
    refine ⟨?_, ?_, ?_, ?_, ?_, ?_⟩ <;> dsimp only <;> omega) (.inr rfl)
    (show baseMapped 0x013 = true by decide)

theorem Sys2Proof.Laws.FieldsInRange.movsX (d : XReg) (src : Fin 26) :
    Statement (.movsX d src) :=
  mk rfl (by
    have := d.isLt
    have := src.isLt
    refine ⟨?_, ?_, ?_, ?_, ?_, ?_⟩ <;> dsimp only <;> omega) (.inr rfl)
    (show baseMapped 0x014 = true by decide)

theorem Sys2Proof.Laws.FieldsInRange.iadd (d : VReg) (a : VReg) (b : VReg) :
    Statement (.iadd d a b) :=
  mk rfl (by
    have := d.isLt
    have := a.isLt
    have := b.isLt
    refine ⟨?_, ?_, ?_, ?_, ?_, ?_⟩ <;> dsimp only <;> omega) (.inr rfl)
    (show baseMapped 0x020 = true by decide)

theorem Sys2Proof.Laws.FieldsInRange.iaddImm (d : VReg) (a : VReg) (imm : Fin 128) :
    Statement (.iaddImm d a imm) :=
  mk rfl (by
    have := d.isLt
    have := a.isLt
    have := imm.isLt
    refine ⟨?_, ?_, ?_, ?_, ?_, ?_⟩ <;> dsimp only <;> omega) (.inr rfl)
    (show baseMapped 0x021 = true by decide)

theorem Sys2Proof.Laws.FieldsInRange.isub (d : VReg) (a : VReg) (b : VReg) :
    Statement (.isub d a b) :=
  mk rfl (by
    have := d.isLt
    have := a.isLt
    have := b.isLt
    refine ⟨?_, ?_, ?_, ?_, ?_, ?_⟩ <;> dsimp only <;> omega) (.inr rfl)
    (show baseMapped 0x022 = true by decide)

theorem Sys2Proof.Laws.FieldsInRange.imul (d : VReg) (a : VReg) (b : VReg) :
    Statement (.imul d a b) :=
  mk rfl (by
    have := d.isLt
    have := a.isLt
    have := b.isLt
    refine ⟨?_, ?_, ?_, ?_, ?_, ?_⟩ <;> dsimp only <;> omega) (.inr rfl)
    (show baseMapped 0x023 = true by decide)

theorem Sys2Proof.Laws.FieldsInRange.imulhS32 (d : VReg) (a : VReg) (b : VReg) :
    Statement (.imulhS32 d a b) :=
  mk rfl (by
    have := d.isLt
    have := a.isLt
    have := b.isLt
    refine ⟨?_, ?_, ?_, ?_, ?_, ?_⟩ <;> dsimp only <;> omega) (.inr rfl)
    (show baseMapped 0x024 = true by decide)

theorem Sys2Proof.Laws.FieldsInRange.imulhU32 (d : VReg) (a : VReg) (b : VReg) :
    Statement (.imulhU32 d a b) :=
  mk rfl (by
    have := d.isLt
    have := a.isLt
    have := b.isLt
    refine ⟨?_, ?_, ?_, ?_, ?_, ?_⟩ <;> dsimp only <;> omega) (.inr rfl)
    (show baseMapped 0x025 = true by decide)

theorem Sys2Proof.Laws.FieldsInRange.imad (d : VReg) (a : VReg) (b : VReg) (c : VReg) :
    Statement (.imad d a b c) :=
  mk rfl (by
    have := d.isLt
    have := a.isLt
    have := b.isLt
    have := c.isLt
    refine ⟨?_, ?_, ?_, ?_, ?_, ?_⟩ <;> dsimp only <;> omega) (.inr rfl)
    (show baseMapped 0x026 = true by decide)

theorem Sys2Proof.Laws.FieldsInRange.iabs (d : VReg) (a : VReg) :
    Statement (.iabs d a) :=
  mk rfl (by
    have := d.isLt
    have := a.isLt
    refine ⟨?_, ?_, ?_, ?_, ?_, ?_⟩ <;> dsimp only <;> omega) (.inr rfl)
    (show baseMapped 0x027 = true by decide)

theorem Sys2Proof.Laws.FieldsInRange.iminS32 (d : VReg) (a : VReg) (b : VReg) :
    Statement (.iminS32 d a b) :=
  mk rfl (by
    have := d.isLt
    have := a.isLt
    have := b.isLt
    refine ⟨?_, ?_, ?_, ?_, ?_, ?_⟩ <;> dsimp only <;> omega) (.inr rfl)
    (show baseMapped 0x028 = true by decide)

theorem Sys2Proof.Laws.FieldsInRange.iminU32 (d : VReg) (a : VReg) (b : VReg) :
    Statement (.iminU32 d a b) :=
  mk rfl (by
    have := d.isLt
    have := a.isLt
    have := b.isLt
    refine ⟨?_, ?_, ?_, ?_, ?_, ?_⟩ <;> dsimp only <;> omega) (.inr rfl)
    (show baseMapped 0x029 = true by decide)

theorem Sys2Proof.Laws.FieldsInRange.imaxS32 (d : VReg) (a : VReg) (b : VReg) :
    Statement (.imaxS32 d a b) :=
  mk rfl (by
    have := d.isLt
    have := a.isLt
    have := b.isLt
    refine ⟨?_, ?_, ?_, ?_, ?_, ?_⟩ <;> dsimp only <;> omega) (.inr rfl)
    (show baseMapped 0x02A = true by decide)

theorem Sys2Proof.Laws.FieldsInRange.imaxU32 (d : VReg) (a : VReg) (b : VReg) :
    Statement (.imaxU32 d a b) :=
  mk rfl (by
    have := d.isLt
    have := a.isLt
    have := b.isLt
    refine ⟨?_, ?_, ?_, ?_, ?_, ?_⟩ <;> dsimp only <;> omega) (.inr rfl)
    (show baseMapped 0x02B = true by decide)

theorem Sys2Proof.Laws.FieldsInRange.iscmp (sg : Bool) (cmp : Cmp) (p : PReg) (a : VReg) (b : VReg) :
    Statement (.iscmp sg cmp p a b) :=
  mk rfl (by
    have := a.isLt
    have := b.isLt
    have := encCmp_lt sg cmp p
    refine ⟨?_, ?_, ?_, ?_, ?_, ?_⟩ <;> dsimp only <;> omega) (.inr rfl)
    (show baseMapped 0x02C = true by decide)

theorem Sys2Proof.Laws.FieldsInRange.select (d : VReg) (a : VReg) (b : VReg) (p : PReg) :
    Statement (.select d a b p) :=
  mk rfl (by
    have := d.isLt
    have := a.isLt
    have := b.isLt
    have := p.isLt
    refine ⟨?_, ?_, ?_, ?_, ?_, ?_⟩ <;> dsimp only <;> omega) (.inr rfl)
    (show baseMapped 0x02D = true by decide)

theorem Sys2Proof.Laws.FieldsInRange.mov (d : VReg) (a : VReg) :
    Statement (.mov d a) :=
  mk rfl (by
    have := d.isLt
    have := a.isLt
    refine ⟨?_, ?_, ?_, ?_, ?_, ?_⟩ <;> dsimp only <;> omega) (.inr rfl)
    (show baseMapped 0x02E = true by decide)

theorem Sys2Proof.Laws.FieldsInRange.movi (d : VReg) (imm : BitVec 32) :
    Statement (.movi d imm) :=
  mk rfl (by
    have := d.isLt
    have := imm.isLt
    refine ⟨?_, ?_, ?_, ?_, ?_, ?_⟩ <;> dsimp only <;> omega) (.inr rfl)
    (show baseMapped 0x02F = true by decide)

theorem Sys2Proof.Laws.FieldsInRange.and (d : VReg) (a : VReg) (b : VReg) :
    Statement (.and d a b) :=
  mk rfl (by
    have := d.isLt
    have := a.isLt
    have := b.isLt
    refine ⟨?_, ?_, ?_, ?_, ?_, ?_⟩ <;> dsimp only <;> omega) (.inr rfl)
    (show baseMapped 0x030 = true by decide)

theorem Sys2Proof.Laws.FieldsInRange.andImm (d : VReg) (a : VReg) (imm : Fin 128) :
    Statement (.andImm d a imm) :=
  mk rfl (by
    have := d.isLt
    have := a.isLt
    have := imm.isLt
    refine ⟨?_, ?_, ?_, ?_, ?_, ?_⟩ <;> dsimp only <;> omega) (.inr rfl)
    (show baseMapped 0x031 = true by decide)

theorem Sys2Proof.Laws.FieldsInRange.or (d : VReg) (a : VReg) (b : VReg) :
    Statement (.or d a b) :=
  mk rfl (by
    have := d.isLt
    have := a.isLt
    have := b.isLt
    refine ⟨?_, ?_, ?_, ?_, ?_, ?_⟩ <;> dsimp only <;> omega) (.inr rfl)
    (show baseMapped 0x032 = true by decide)

theorem Sys2Proof.Laws.FieldsInRange.orImm (d : VReg) (a : VReg) (imm : Fin 128) :
    Statement (.orImm d a imm) :=
  mk rfl (by
    have := d.isLt
    have := a.isLt
    have := imm.isLt
    refine ⟨?_, ?_, ?_, ?_, ?_, ?_⟩ <;> dsimp only <;> omega) (.inr rfl)
    (show baseMapped 0x033 = true by decide)

theorem Sys2Proof.Laws.FieldsInRange.xor (d : VReg) (a : VReg) (b : VReg) :
    Statement (.xor d a b) :=
  mk rfl (by
    have := d.isLt
    have := a.isLt
    have := b.isLt
    refine ⟨?_, ?_, ?_, ?_, ?_, ?_⟩ <;> dsimp only <;> omega) (.inr rfl)
    (show baseMapped 0x034 = true by decide)

theorem Sys2Proof.Laws.FieldsInRange.xorImm (d : VReg) (a : VReg) (imm : Fin 128) :
    Statement (.xorImm d a imm) :=
  mk rfl (by
    have := d.isLt
    have := a.isLt
    have := imm.isLt
    refine ⟨?_, ?_, ?_, ?_, ?_, ?_⟩ <;> dsimp only <;> omega) (.inr rfl)
    (show baseMapped 0x035 = true by decide)

theorem Sys2Proof.Laws.FieldsInRange.lut3 (d : VReg) (a : VReg) (b : VReg) (c : VReg) (lut : BitVec 8) :
    Statement (.lut3 d a b c lut) :=
  mk rfl (by
    have := d.isLt
    have := a.isLt
    have := b.isLt
    have := c.isLt
    have := lut.isLt
    refine ⟨?_, ?_, ?_, ?_, ?_, ?_⟩ <;> dsimp only <;> omega) (.inr rfl)
    (show baseMapped 0x036 = true by decide)

theorem Sys2Proof.Laws.FieldsInRange.shl (d : VReg) (a : VReg) (b : VReg) :
    Statement (.shl d a b) :=
  mk rfl (by
    have := d.isLt
    have := a.isLt
    have := b.isLt
    refine ⟨?_, ?_, ?_, ?_, ?_, ?_⟩ <;> dsimp only <;> omega) (.inr rfl)
    (show baseMapped 0x038 = true by decide)

theorem Sys2Proof.Laws.FieldsInRange.shlImm (d : VReg) (a : VReg) (imm : Fin 128) :
    Statement (.shlImm d a imm) :=
  mk rfl (by
    have := d.isLt
    have := a.isLt
    have := imm.isLt
    refine ⟨?_, ?_, ?_, ?_, ?_, ?_⟩ <;> dsimp only <;> omega) (.inr rfl)
    (show baseMapped 0x039 = true by decide)

theorem Sys2Proof.Laws.FieldsInRange.shr (d : VReg) (a : VReg) (b : VReg) :
    Statement (.shr d a b) :=
  mk rfl (by
    have := d.isLt
    have := a.isLt
    have := b.isLt
    refine ⟨?_, ?_, ?_, ?_, ?_, ?_⟩ <;> dsimp only <;> omega) (.inr rfl)
    (show baseMapped 0x03A = true by decide)

theorem Sys2Proof.Laws.FieldsInRange.shrImm (d : VReg) (a : VReg) (imm : Fin 128) :
    Statement (.shrImm d a imm) :=
  mk rfl (by
    have := d.isLt
    have := a.isLt
    have := imm.isLt
    refine ⟨?_, ?_, ?_, ?_, ?_, ?_⟩ <;> dsimp only <;> omega) (.inr rfl)
    (show baseMapped 0x03B = true by decide)

theorem Sys2Proof.Laws.FieldsInRange.shra (d : VReg) (a : VReg) (b : VReg) :
    Statement (.shra d a b) :=
  mk rfl (by
    have := d.isLt
    have := a.isLt
    have := b.isLt
    refine ⟨?_, ?_, ?_, ?_, ?_, ?_⟩ <;> dsimp only <;> omega) (.inr rfl)
    (show baseMapped 0x03C = true by decide)

theorem Sys2Proof.Laws.FieldsInRange.shraImm (d : VReg) (a : VReg) (imm : Fin 128) :
    Statement (.shraImm d a imm) :=
  mk rfl (by
    have := d.isLt
    have := a.isLt
    have := imm.isLt
    refine ⟨?_, ?_, ?_, ?_, ?_, ?_⟩ <;> dsimp only <;> omega) (.inr rfl)
    (show baseMapped 0x03D = true by decide)

theorem Sys2Proof.Laws.FieldsInRange.funs (d : VReg) (a : VReg) (b : VReg) (c : VReg) :
    Statement (.funs d a b c) :=
  mk rfl (by
    have := d.isLt
    have := a.isLt
    have := b.isLt
    have := c.isLt
    refine ⟨?_, ?_, ?_, ?_, ?_, ?_⟩ <;> dsimp only <;> omega) (.inr rfl)
    (show baseMapped 0x03E = true by decide)

theorem Sys2Proof.Laws.FieldsInRange.bfxU (d : VReg) (a : VReg) (b : VReg) :
    Statement (.bfxU d a b) :=
  mk rfl (by
    have := d.isLt
    have := a.isLt
    have := b.isLt
    refine ⟨?_, ?_, ?_, ?_, ?_, ?_⟩ <;> dsimp only <;> omega) (.inr rfl)
    (show baseMapped 0x040 = true by decide)

theorem Sys2Proof.Laws.FieldsInRange.bfxS (d : VReg) (a : VReg) (b : VReg) :
    Statement (.bfxS d a b) :=
  mk rfl (by
    have := d.isLt
    have := a.isLt
    have := b.isLt
    refine ⟨?_, ?_, ?_, ?_, ?_, ?_⟩ <;> dsimp only <;> omega) (.inr rfl)
    (show baseMapped 0x041 = true by decide)

theorem Sys2Proof.Laws.FieldsInRange.bfi (d : VReg) (a : VReg) (b : VReg) (c : VReg) :
    Statement (.bfi d a b c) :=
  mk rfl (by
    have := d.isLt
    have := a.isLt
    have := b.isLt
    have := c.isLt
    refine ⟨?_, ?_, ?_, ?_, ?_, ?_⟩ <;> dsimp only <;> omega) (.inr rfl)
    (show baseMapped 0x042 = true by decide)

theorem Sys2Proof.Laws.FieldsInRange.popc (d : VReg) (a : VReg) :
    Statement (.popc d a) :=
  mk rfl (by
    have := d.isLt
    have := a.isLt
    refine ⟨?_, ?_, ?_, ?_, ?_, ?_⟩ <;> dsimp only <;> omega) (.inr rfl)
    (show baseMapped 0x043 = true by decide)

theorem Sys2Proof.Laws.FieldsInRange.clz (d : VReg) (a : VReg) :
    Statement (.clz d a) :=
  mk rfl (by
    have := d.isLt
    have := a.isLt
    refine ⟨?_, ?_, ?_, ?_, ?_, ?_⟩ <;> dsimp only <;> omega) (.inr rfl)
    (show baseMapped 0x044 = true by decide)

theorem Sys2Proof.Laws.FieldsInRange.brev (d : VReg) (a : VReg) :
    Statement (.brev d a) :=
  mk rfl (by
    have := d.isLt
    have := a.isLt
    refine ⟨?_, ?_, ?_, ?_, ?_, ?_⟩ <;> dsimp only <;> omega) (.inr rfl)
    (show baseMapped 0x045 = true by decide)

theorem Sys2Proof.Laws.FieldsInRange.xadd (d : XReg) (a : XReg) (b : XReg) :
    Statement (.xadd d a b) :=
  mk rfl (by
    have := d.isLt
    have := a.isLt
    have := b.isLt
    refine ⟨?_, ?_, ?_, ?_, ?_, ?_⟩ <;> dsimp only <;> omega) (.inr rfl)
    (show baseMapped 0x050 = true by decide)

theorem Sys2Proof.Laws.FieldsInRange.xaddImm (d : XReg) (a : XReg) (imm : Fin 128) :
    Statement (.xaddImm d a imm) :=
  mk rfl (by
    have := d.isLt
    have := a.isLt
    have := imm.isLt
    refine ⟨?_, ?_, ?_, ?_, ?_, ?_⟩ <;> dsimp only <;> omega) (.inr rfl)
    (show baseMapped 0x051 = true by decide)

theorem Sys2Proof.Laws.FieldsInRange.xsub (d : XReg) (a : XReg) (b : XReg) :
    Statement (.xsub d a b) :=
  mk rfl (by
    have := d.isLt
    have := a.isLt
    have := b.isLt
    refine ⟨?_, ?_, ?_, ?_, ?_, ?_⟩ <;> dsimp only <;> omega) (.inr rfl)
    (show baseMapped 0x052 = true by decide)

theorem Sys2Proof.Laws.FieldsInRange.xmul (d : XReg) (a : XReg) (b : XReg) :
    Statement (.xmul d a b) :=
  mk rfl (by
    have := d.isLt
    have := a.isLt
    have := b.isLt
    refine ⟨?_, ?_, ?_, ?_, ?_, ?_⟩ <;> dsimp only <;> omega) (.inr rfl)
    (show baseMapped 0x053 = true by decide)

theorem Sys2Proof.Laws.FieldsInRange.xlop (op : LogOp) (d : XReg) (a : XReg) (b : XReg) :
    Statement (.xlop op d a b) :=
  mk rfl (by
    have := b.isLt
    have := encXlopA_lt op d
    have := encXlopB_lt op a
    refine ⟨?_, ?_, ?_, ?_, ?_, ?_⟩ <;> dsimp only <;> omega) (.inr rfl)
    (show baseMapped 0x054 = true by decide)

theorem Sys2Proof.Laws.FieldsInRange.xshl (d : XReg) (a : XReg) (b : XReg) :
    Statement (.xshl d a b) :=
  mk rfl (by
    have := d.isLt
    have := a.isLt
    have := b.isLt
    refine ⟨?_, ?_, ?_, ?_, ?_, ?_⟩ <;> dsimp only <;> omega) (.inr rfl)
    (show baseMapped 0x055 = true by decide)

theorem Sys2Proof.Laws.FieldsInRange.xshlImm (d : XReg) (a : XReg) (imm : Fin 128) :
    Statement (.xshlImm d a imm) :=
  mk rfl (by
    have := d.isLt
    have := a.isLt
    have := imm.isLt
    refine ⟨?_, ?_, ?_, ?_, ?_, ?_⟩ <;> dsimp only <;> omega) (.inr rfl)
    (show baseMapped 0x056 = true by decide)

theorem Sys2Proof.Laws.FieldsInRange.xshr (d : XReg) (a : XReg) (b : XReg) :
    Statement (.xshr d a b) :=
  mk rfl (by
    have := d.isLt
    have := a.isLt
    have := b.isLt
    refine ⟨?_, ?_, ?_, ?_, ?_, ?_⟩ <;> dsimp only <;> omega) (.inr rfl)
    (show baseMapped 0x057 = true by decide)

theorem Sys2Proof.Laws.FieldsInRange.xshrImm (d : XReg) (a : XReg) (imm : Fin 128) :
    Statement (.xshrImm d a imm) :=
  mk rfl (by
    have := d.isLt
    have := a.isLt
    have := imm.isLt
    refine ⟨?_, ?_, ?_, ?_, ?_, ?_⟩ <;> dsimp only <;> omega) (.inr rfl)
    (show baseMapped 0x058 = true by decide)

theorem Sys2Proof.Laws.FieldsInRange.xmov (d : XReg) (a : XReg) :
    Statement (.xmov d a) :=
  mk rfl (by
    have := d.isLt
    have := a.isLt
    refine ⟨?_, ?_, ?_, ?_, ?_, ?_⟩ <;> dsimp only <;> omega) (.inr rfl)
    (show baseMapped 0x059 = true by decide)

theorem Sys2Proof.Laws.FieldsInRange.xmovi (d : XReg) (imm : BitVec 32) :
    Statement (.xmovi d imm) :=
  mk rfl (by
    have := d.isLt
    have := imm.isLt
    refine ⟨?_, ?_, ?_, ?_, ?_, ?_⟩ <;> dsimp only <;> omega) (.inr rfl)
    (show baseMapped 0x05A = true by decide)

theorem Sys2Proof.Laws.FieldsInRange.xscmp (sg : Bool) (cmp : Cmp) (p : PReg) (a : XReg) (b : XReg) :
    Statement (.xscmp sg cmp p a b) :=
  mk rfl (by
    have := a.isLt
    have := b.isLt
    have := encCmp_lt sg cmp p
    refine ⟨?_, ?_, ?_, ?_, ?_, ?_⟩ <;> dsimp only <;> omega) (.inr rfl)
    (show baseMapped 0x05B = true by decide)

theorem Sys2Proof.Laws.FieldsInRange.xld (d : XReg) (a : XReg) (imm : Fin 128) :
    Statement (.xld d a imm) :=
  mk rfl (by
    have := d.isLt
    have := a.isLt
    have := imm.isLt
    refine ⟨?_, ?_, ?_, ?_, ?_, ?_⟩ <;> dsimp only <;> omega) (.inr rfl)
    (show baseMapped 0x05C = true by decide)

theorem Sys2Proof.Laws.FieldsInRange.xst (b : XReg) (a : XReg) (imm : Fin 128) :
    Statement (.xst b a imm) :=
  mk rfl (by
    have := b.isLt
    have := a.isLt
    have := imm.isLt
    refine ⟨?_, ?_, ?_, ?_, ?_, ?_⟩ <;> dsimp only <;> omega) (.inr rfl)
    (show baseMapped 0x05D = true by decide)

theorem Sys2Proof.Laws.FieldsInRange.xget (d : XReg) (k : Fin 34) :
    Statement (.xget d k) :=
  mk rfl (by
    have := d.isLt
    have := k.isLt
    refine ⟨?_, ?_, ?_, ?_, ?_, ?_⟩ <;> dsimp only <;> omega) (.inr rfl)
    (show baseMapped 0x05E = true by decide)

theorem Sys2Proof.Laws.FieldsInRange.plop (op : LogOp) (p : PReg) (a : PReg) (b : PReg) :
    Statement (.plop op p a b) :=
  mk rfl (by
    have := a.isLt
    have := b.isLt
    have := encPlop_lt op p
    refine ⟨?_, ?_, ?_, ?_, ?_, ?_⟩ <;> dsimp only <;> omega) (.inr rfl)
    (show baseMapped 0x060 = true by decide)

theorem Sys2Proof.Laws.FieldsInRange.ptov (d : VReg) (p : PReg) :
    Statement (.ptov d p) :=
  mk rfl (by
    have := d.isLt
    have := p.isLt
    refine ⟨?_, ?_, ?_, ?_, ?_, ?_⟩ <;> dsimp only <;> omega) (.inr rfl)
    (show baseMapped 0x061 = true by decide)

theorem Sys2Proof.Laws.FieldsInRange.vtop (p : PReg) (a : VReg) :
    Statement (.vtop p a) :=
  mk rfl (by
    have := p.isLt
    have := a.isLt
    refine ⟨?_, ?_, ?_, ?_, ?_, ?_⟩ <;> dsimp only <;> omega) (.inr rfl)
    (show baseMapped 0x062 = true by decide)

theorem Sys2Proof.Laws.FieldsInRange.fadd (d : VReg) (a : VReg) (b : VReg) :
    Statement (.fadd d a b) :=
  mk rfl (by
    have := d.isLt
    have := a.isLt
    have := b.isLt
    refine ⟨?_, ?_, ?_, ?_, ?_, ?_⟩ <;> dsimp only <;> omega) (.inr rfl)
    (show baseMapped 0x070 = true by decide)

theorem Sys2Proof.Laws.FieldsInRange.faddM (d : VReg) (a : VReg) (b : VReg) (md : FpMod) :
    Statement (.faddM d a b md) :=
  mk rfl (by
    have := d.isLt
    have := a.isLt
    have := b.isLt
    have := encFp_lt md
    refine ⟨?_, ?_, ?_, ?_, ?_, ?_⟩ <;> dsimp only <;> omega) (.inr rfl)
    (show baseMapped 0x071 = true by decide)

theorem Sys2Proof.Laws.FieldsInRange.fsub (d : VReg) (a : VReg) (b : VReg) :
    Statement (.fsub d a b) :=
  mk rfl (by
    have := d.isLt
    have := a.isLt
    have := b.isLt
    refine ⟨?_, ?_, ?_, ?_, ?_, ?_⟩ <;> dsimp only <;> omega) (.inr rfl)
    (show baseMapped 0x072 = true by decide)

theorem Sys2Proof.Laws.FieldsInRange.fsubM (d : VReg) (a : VReg) (b : VReg) (md : FpMod) :
    Statement (.fsubM d a b md) :=
  mk rfl (by
    have := d.isLt
    have := a.isLt
    have := b.isLt
    have := encFp_lt md
    refine ⟨?_, ?_, ?_, ?_, ?_, ?_⟩ <;> dsimp only <;> omega) (.inr rfl)
    (show baseMapped 0x073 = true by decide)

theorem Sys2Proof.Laws.FieldsInRange.fmul (d : VReg) (a : VReg) (b : VReg) :
    Statement (.fmul d a b) :=
  mk rfl (by
    have := d.isLt
    have := a.isLt
    have := b.isLt
    refine ⟨?_, ?_, ?_, ?_, ?_, ?_⟩ <;> dsimp only <;> omega) (.inr rfl)
    (show baseMapped 0x074 = true by decide)

theorem Sys2Proof.Laws.FieldsInRange.fmulM (d : VReg) (a : VReg) (b : VReg) (md : FpMod) :
    Statement (.fmulM d a b md) :=
  mk rfl (by
    have := d.isLt
    have := a.isLt
    have := b.isLt
    have := encFp_lt md
    refine ⟨?_, ?_, ?_, ?_, ?_, ?_⟩ <;> dsimp only <;> omega) (.inr rfl)
    (show baseMapped 0x075 = true by decide)

theorem Sys2Proof.Laws.FieldsInRange.ffma (d : VReg) (a : VReg) (b : VReg) (md : FpMod) :
    Statement (.ffma d a b md) :=
  mk rfl (by
    have := d.isLt
    have := a.isLt
    have := b.isLt
    have := encFp_lt md
    refine ⟨?_, ?_, ?_, ?_, ?_, ?_⟩ <;> dsimp only <;> omega) (.inr rfl)
    (show baseMapped 0x076 = true by decide)

theorem Sys2Proof.Laws.FieldsInRange.fmin (d : VReg) (a : VReg) (b : VReg) :
    Statement (.fmin d a b) :=
  mk rfl (by
    have := d.isLt
    have := a.isLt
    have := b.isLt
    refine ⟨?_, ?_, ?_, ?_, ?_, ?_⟩ <;> dsimp only <;> omega) (.inr rfl)
    (show baseMapped 0x078 = true by decide)

theorem Sys2Proof.Laws.FieldsInRange.fmax (d : VReg) (a : VReg) (b : VReg) :
    Statement (.fmax d a b) :=
  mk rfl (by
    have := d.isLt
    have := a.isLt
    have := b.isLt
    refine ⟨?_, ?_, ?_, ?_, ?_, ?_⟩ <;> dsimp only <;> omega) (.inr rfl)
    (show baseMapped 0x079 = true by decide)

theorem Sys2Proof.Laws.FieldsInRange.fscmp (cmp : Cmp) (p : PReg) (a : VReg) (b : VReg) :
    Statement (.fscmp cmp p a b) :=
  mk rfl (by
    have := a.isLt
    have := b.isLt
    have := encCmpF_lt cmp p
    refine ⟨?_, ?_, ?_, ?_, ?_, ?_⟩ <;> dsimp only <;> omega) (.inr rfl)
    (show baseMapped 0x07A = true by decide)

theorem Sys2Proof.Laws.FieldsInRange.fclass (d : VReg) (a : VReg) :
    Statement (.fclass d a) :=
  mk rfl (by
    have := d.isLt
    have := a.isLt
    refine ⟨?_, ?_, ?_, ?_, ?_, ?_⟩ <;> dsimp only <;> omega) (.inr rfl)
    (show baseMapped 0x07B = true by decide)

theorem Sys2Proof.Laws.FieldsInRange.fcvt (d : VReg) (a : VReg) (cv : CvtLit) :
    Statement (.fcvt d a cv) :=
  mk rfl (by
    have := d.isLt
    have := a.isLt
    have := encCvt_lt cv
    refine ⟨?_, ?_, ?_, ?_, ?_, ?_⟩ <;> dsimp only <;> omega) (.inr rfl)
    (show baseMapped 0x07C = true by decide)

theorem Sys2Proof.Laws.FieldsInRange.frnd (d : VReg) (a : VReg) (rm : Option Rm) :
    Statement (.frnd d a rm) :=
  mk rfl (by
    have := d.isLt
    have := a.isLt
    have := encRm_lt rm
    refine ⟨?_, ?_, ?_, ?_, ?_, ?_⟩ <;> dsimp only <;> omega) (.inr rfl)
    (show baseMapped 0x07D = true by decide)

theorem Sys2Proof.Laws.FieldsInRange.frcp (d : VReg) (a : VReg) :
    Statement (.frcp d a) :=
  mk rfl (by
    have := d.isLt
    have := a.isLt
    refine ⟨?_, ?_, ?_, ?_, ?_, ?_⟩ <;> dsimp only <;> omega) (.inr rfl)
    (show baseMapped 0x080 = true by decide)

theorem Sys2Proof.Laws.FieldsInRange.frsq (d : VReg) (a : VReg) :
    Statement (.frsq d a) :=
  mk rfl (by
    have := d.isLt
    have := a.isLt
    refine ⟨?_, ?_, ?_, ?_, ?_, ?_⟩ <;> dsimp only <;> omega) (.inr rfl)
    (show baseMapped 0x081 = true by decide)

theorem Sys2Proof.Laws.FieldsInRange.fex2 (d : VReg) (a : VReg) :
    Statement (.fex2 d a) :=
  mk rfl (by
    have := d.isLt
    have := a.isLt
    refine ⟨?_, ?_, ?_, ?_, ?_, ?_⟩ <;> dsimp only <;> omega) (.inr rfl)
    (show baseMapped 0x082 = true by decide)

theorem Sys2Proof.Laws.FieldsInRange.flg2 (d : VReg) (a : VReg) :
    Statement (.flg2 d a) :=
  mk rfl (by
    have := d.isLt
    have := a.isLt
    refine ⟨?_, ?_, ?_, ?_, ?_, ?_⟩ <;> dsimp only <;> omega) (.inr rfl)
    (show baseMapped 0x083 = true by decide)

theorem Sys2Proof.Laws.FieldsInRange.fsin (d : VReg) (a : VReg) :
    Statement (.fsin d a) :=
  mk rfl (by
    have := d.isLt
    have := a.isLt
    refine ⟨?_, ?_, ?_, ?_, ?_, ?_⟩ <;> dsimp only <;> omega) (.inr rfl)
    (show baseMapped 0x084 = true by decide)

theorem Sys2Proof.Laws.FieldsInRange.fcos (d : VReg) (a : VReg) :
    Statement (.fcos d a) :=
  mk rfl (by
    have := d.isLt
    have := a.isLt
    refine ⟨?_, ?_, ?_, ?_, ?_, ?_⟩ <;> dsimp only <;> omega) (.inr rfl)
    (show baseMapped 0x085 = true by decide)

theorem Sys2Proof.Laws.FieldsInRange.hadd2 (d : VReg) (a : VReg) (bf : Bool) (b : Fin 64) :
    Statement (.hadd2 d a bf b) :=
  mk rfl (by
    have := d.isLt
    have := a.isLt
    have := b.isLt
    have := flag_lt bf
    refine ⟨?_, ?_, ?_, ?_, ?_, ?_⟩ <;> dsimp only <;> omega) (.inr rfl)
    (show baseMapped 0x088 = true by decide)

theorem Sys2Proof.Laws.FieldsInRange.hadd2M (d : VReg) (a : VReg) (b : VReg) (md : FpMod) :
    Statement (.hadd2M d a b md) :=
  mk rfl (by
    have := d.isLt
    have := a.isLt
    have := b.isLt
    have := encFp_lt md
    refine ⟨?_, ?_, ?_, ?_, ?_, ?_⟩ <;> dsimp only <;> omega) (.inr rfl)
    (show baseMapped 0x089 = true by decide)

theorem Sys2Proof.Laws.FieldsInRange.hmul2 (d : VReg) (a : VReg) (bf : Bool) (b : Fin 64) :
    Statement (.hmul2 d a bf b) :=
  mk rfl (by
    have := d.isLt
    have := a.isLt
    have := b.isLt
    have := flag_lt bf
    refine ⟨?_, ?_, ?_, ?_, ?_, ?_⟩ <;> dsimp only <;> omega) (.inr rfl)
    (show baseMapped 0x08A = true by decide)

theorem Sys2Proof.Laws.FieldsInRange.hmul2M (d : VReg) (a : VReg) (b : VReg) (md : FpMod) :
    Statement (.hmul2M d a b md) :=
  mk rfl (by
    have := d.isLt
    have := a.isLt
    have := b.isLt
    have := encFp_lt md
    refine ⟨?_, ?_, ?_, ?_, ?_, ?_⟩ <;> dsimp only <;> omega) (.inr rfl)
    (show baseMapped 0x08B = true by decide)

theorem Sys2Proof.Laws.FieldsInRange.hfma2 (d : VReg) (a : VReg) (b : VReg) (md : FpMod) :
    Statement (.hfma2 d a b md) :=
  mk rfl (by
    have := d.isLt
    have := a.isLt
    have := b.isLt
    have := encFp_lt md
    refine ⟨?_, ?_, ?_, ?_, ?_, ?_⟩ <;> dsimp only <;> omega) (.inr rfl)
    (show baseMapped 0x08C = true by decide)

theorem Sys2Proof.Laws.FieldsInRange.vote (w : VoteArg) :
    Statement (.vote w) :=
  mk rfl (by
    have := encVoteB_lt w
    refine ⟨?_, ?_, ?_, ?_, ?_, ?_⟩ <;> dsimp only <;> omega) (.inr rfl)
    (show baseMapped 0x090 = true by decide)

theorem Sys2Proof.Laws.FieldsInRange.voteMask (w : VoteArg) (m : XReg) :
    Statement (.voteMask w m) :=
  mk rfl (by
    have := m.isLt
    have := encVoteB_lt w
    refine ⟨?_, ?_, ?_, ?_, ?_, ?_⟩ <;> dsimp only <;> omega) (.inr rfl)
    (show baseMapped 0x091 = true by decide)

theorem Sys2Proof.Laws.FieldsInRange.sred (d : XReg) (a : VReg) (op : RedOp) :
    Statement (.sred d a op) :=
  mk rfl (by
    have := d.isLt
    have := a.isLt
    have := RedOp.code_lt op
    refine ⟨?_, ?_, ?_, ?_, ?_, ?_⟩ <;> dsimp only <;> omega) (.inr rfl)
    (show baseMapped 0x092 = true by decide)

theorem Sys2Proof.Laws.FieldsInRange.sredMask (d : XReg) (a : VReg) (op : RedOp) (m : PReg) :
    Statement (.sredMask d a op m) :=
  mk rfl (by
    have := d.isLt
    have := a.isLt
    have := m.isLt
    have := RedOp.code_lt op
    refine ⟨?_, ?_, ?_, ?_, ?_, ?_⟩ <;> dsimp only <;> omega) (.inr rfl)
    (show baseMapped 0x093 = true by decide)

theorem Sys2Proof.Laws.FieldsInRange.matchLanes (d : VReg) (a : VReg) :
    Statement (.matchLanes d a) :=
  mk rfl (by
    have := d.isLt
    have := a.isLt
    refine ⟨?_, ?_, ?_, ?_, ?_, ?_⟩ <;> dsimp only <;> omega) (.inr rfl)
    (show baseMapped 0x094 = true by decide)

theorem Sys2Proof.Laws.FieldsInRange.matchMask (d : VReg) (a : VReg) (m : XReg) :
    Statement (.matchMask d a m) :=
  mk rfl (by
    have := d.isLt
    have := a.isLt
    have := m.isLt
    refine ⟨?_, ?_, ?_, ?_, ?_, ?_⟩ <;> dsimp only <;> omega) (.inr rfl)
    (show baseMapped 0x095 = true by decide)

theorem Sys2Proof.Laws.FieldsInRange.scan (d : VReg) (a : VReg) (op : RedOp) :
    Statement (.scan d a op) :=
  mk rfl (by
    have := d.isLt
    have := a.isLt
    have := RedOp.code_lt op
    refine ⟨?_, ?_, ?_, ?_, ?_, ?_⟩ <;> dsimp only <;> omega) (.inr rfl)
    (show baseMapped 0x096 = true by decide)

theorem Sys2Proof.Laws.FieldsInRange.shfl (d : VReg) (a : VReg) (b : VReg) :
    Statement (.shfl d a b) :=
  mk rfl (by
    have := d.isLt
    have := a.isLt
    have := b.isLt
    refine ⟨?_, ?_, ?_, ?_, ?_, ?_⟩ <;> dsimp only <;> omega) (.inr rfl)
    (show baseMapped 0x098 = true by decide)

theorem Sys2Proof.Laws.FieldsInRange.shflp (d : VReg) (a : VReg) (t : Fin 16) :
    Statement (.shflp d a t) :=
  mk rfl (by
    have := d.isLt
    have := a.isLt
    have := t.isLt
    refine ⟨?_, ?_, ?_, ?_, ?_, ?_⟩ <;> dsimp only <;> omega) (.inr rfl)
    (show baseMapped 0x099 = true by decide)

theorem Sys2Proof.Laws.FieldsInRange.ptld (t : Fin 16) (x : XReg) :
    Statement (.ptld t x) :=
  mk rfl (by
    have := t.isLt
    have := x.isLt
    refine ⟨?_, ?_, ?_, ?_, ?_, ?_⟩ <;> dsimp only <;> omega) (.inr rfl)
    (show baseMapped 0x09A = true by decide)

theorem Sys2Proof.Laws.FieldsInRange.ldS (d : VReg) (ad : CAddr) :
    Statement (.ldS d ad) :=
  mk rfl (by
    have := d.isLt
    have := encAddrB_lt ad
    have := encAddrC_lt ad
    refine ⟨?_, ?_, ?_, ?_, ?_, ?_⟩ <;> dsimp only <;> omega) (.inr rfl)
    (show baseMapped 0x0A0 = true by decide)

theorem Sys2Proof.Laws.FieldsInRange.ldSFull (d : VReg) (l : LdLit) :
    Statement (.ldSFull d l) :=
  mk rfl (by
    have := d.isLt
    have := encLdB_lt l
    have := encLd_lt 1 l (by decide)
    refine ⟨?_, ?_, ?_, ?_, ?_, ?_⟩ <;> dsimp only <;> omega) (.inr rfl)
    (show baseMapped 0x0A1 = true by decide)

theorem Sys2Proof.Laws.FieldsInRange.ldH (d : VReg) (ad : CAddr) :
    Statement (.ldH d ad) :=
  mk rfl (by
    have := d.isLt
    have := encAddrB_lt ad
    have := encAddrC_lt ad
    refine ⟨?_, ?_, ?_, ?_, ?_, ?_⟩ <;> dsimp only <;> omega) (.inr rfl)
    (show baseMapped 0x0A2 = true by decide)

theorem Sys2Proof.Laws.FieldsInRange.ldHFull (d : VReg) (l : LdLit) :
    Statement (.ldHFull d l) :=
  mk rfl (by
    have := d.isLt
    have := encLdB_lt l
    have := encLd_lt 1 l (by decide)
    refine ⟨?_, ?_, ?_, ?_, ?_, ?_⟩ <;> dsimp only <;> omega) (.inr rfl)
    (show baseMapped 0x0A3 = true by decide)

theorem Sys2Proof.Laws.FieldsInRange.stS (v : VReg) (ad : CAddr) :
    Statement (.stS v ad) :=
  mk rfl (by
    have := v.isLt
    have := encAddrB_lt ad
    have := encAddrC_lt ad
    refine ⟨?_, ?_, ?_, ?_, ?_, ?_⟩ <;> dsimp only <;> omega) (.inr rfl)
    (show baseMapped 0x0A4 = true by decide)

theorem Sys2Proof.Laws.FieldsInRange.stSFull (v : VReg) (l : LdLit) :
    Statement (.stSFull v l) :=
  mk rfl (by
    have := v.isLt
    have := encLdB_lt l
    have := encLd_lt 2 l (by decide)
    refine ⟨?_, ?_, ?_, ?_, ?_, ?_⟩ <;> dsimp only <;> omega) (.inr rfl)
    (show baseMapped 0x0A5 = true by decide)

theorem Sys2Proof.Laws.FieldsInRange.stH (v : VReg) (ad : CAddr) :
    Statement (.stH v ad) :=
  mk rfl (by
    have := v.isLt
    have := encAddrB_lt ad
    have := encAddrC_lt ad
    refine ⟨?_, ?_, ?_, ?_, ?_, ?_⟩ <;> dsimp only <;> omega) (.inr rfl)
    (show baseMapped 0x0A6 = true by decide)

theorem Sys2Proof.Laws.FieldsInRange.stHFull (v : VReg) (l : LdLit) :
    Statement (.stHFull v l) :=
  mk rfl (by
    have := v.isLt
    have := encLdB_lt l
    have := encLd_lt 2 l (by decide)
    refine ⟨?_, ?_, ?_, ?_, ?_, ?_⟩ <;> dsimp only <;> omega) (.inr rfl)
    (show baseMapped 0x0A7 = true by decide)

theorem Sys2Proof.Laws.FieldsInRange.atom (d : VReg) (b : VReg) (c : VReg) (l : AtomLit) :
    Statement (.atom d b c l) :=
  mk rfl (by
    have := d.isLt
    have := b.isLt
    have := c.isLt
    have := encAtom_lt l
    refine ⟨?_, ?_, ?_, ?_, ?_, ?_⟩ <;> dsimp only <;> omega) (.inr rfl)
    (show baseMapped 0x0A8 = true by decide)

theorem Sys2Proof.Laws.FieldsInRange.red (b : VReg) (l : AtomLit) :
    Statement (.red b l) :=
  mk rfl (by
    have := b.isLt
    have := encAtom_lt l
    refine ⟨?_, ?_, ?_, ?_, ?_, ?_⟩ <;> dsimp only <;> omega) (.inr rfl)
    (show baseMapped 0x0A9 = true by decide)

theorem Sys2Proof.Laws.FieldsInRange.fence (scope : Scope) (acq : Bool) (rel : Bool) :
    Statement (.fence scope acq rel) :=
  mk rfl (by
    have := encFence_lt scope acq rel
    refine ⟨?_, ?_, ?_, ?_, ?_, ?_⟩ <;> dsimp only <;> omega) (.inr rfl)
    (show baseMapped 0x0AA = true by decide)

theorem Sys2Proof.Laws.FieldsInRange.cflush (x : XReg) :
    Statement (.cflush x) :=
  mk rfl (by
    have := x.isLt
    refine ⟨?_, ?_, ?_, ?_, ?_, ?_⟩ <;> dsimp only <;> omega) (.inr rfl)
    (show baseMapped 0x0AB = true by decide)

theorem Sys2Proof.Laws.FieldsInRange.cinv (x : XReg) :
    Statement (.cinv x) :=
  mk rfl (by
    have := x.isLt
    refine ⟨?_, ?_, ?_, ?_, ?_, ?_⟩ <;> dsimp only <;> omega) (.inr rfl)
    (show baseMapped 0x0AC = true by decide)

theorem Sys2Proof.Laws.FieldsInRange.pld (d : VReg) (l : PeerLit) :
    Statement (.pld d l) :=
  mk rfl (by
    have := d.isLt
    have := encPeer_lt l
    refine ⟨?_, ?_, ?_, ?_, ?_, ?_⟩ <;> dsimp only <;> omega) (.inr rfl)
    (show baseMapped 0x0B0 = true by decide)

theorem Sys2Proof.Laws.FieldsInRange.pst (b : VReg) (l : PeerLit) :
    Statement (.pst b l) :=
  mk rfl (by
    have := b.isLt
    have := encPeer_lt l
    refine ⟨?_, ?_, ?_, ?_, ?_, ?_⟩ <;> dsimp only <;> omega) (.inr rfl)
    (show baseMapped 0x0B1 = true by decide)

theorem Sys2Proof.Laws.FieldsInRange.patom (d : VReg) (b : VReg) (c : VReg) (l : PeerLit) :
    Statement (.patom d b c l) :=
  mk rfl (by
    have := d.isLt
    have := b.isLt
    have := c.isLt
    have := encPeer_lt l
    refine ⟨?_, ?_, ?_, ?_, ?_, ?_⟩ <;> dsimp only <;> omega) (.inr rfl)
    (show baseMapped 0x0B2 = true by decide)

theorem Sys2Proof.Laws.FieldsInRange.copy (x : XReg) (g : Option GReg) :
    Statement (.copy x g) :=
  mk rfl (by
    have := x.isLt
    have := encGuard_lt g
    refine ⟨?_, ?_, ?_, ?_, ?_, ?_⟩ <;> dsimp only <;> omega) (.inr rfl)
    (show baseMapped 0x0C0 = true by decide)

theorem Sys2Proof.Laws.FieldsInRange.puts (x : XReg) (g : Option GReg) (b : VReg) :
    Statement (.puts x g b) :=
  mk rfl (by
    have := x.isLt
    have := b.isLt
    have := encGuard_lt g
    refine ⟨?_, ?_, ?_, ?_, ?_, ?_⟩ <;> dsimp only <;> omega) (.inr rfl)
    (show baseMapped 0x0C1 = true by decide)

theorem Sys2Proof.Laws.FieldsInRange.tfetch (x : XReg) (g : Option GReg) :
    Statement (.tfetch x g) :=
  mk rfl (by
    have := x.isLt
    have := encGuard_lt g
    refine ⟨?_, ?_, ?_, ?_, ?_, ?_⟩ <;> dsimp only <;> omega) (.inr rfl)
    (show baseMapped 0x0C2 = true by decide)

theorem Sys2Proof.Laws.FieldsInRange.tstore (x : XReg) (g : Option GReg) :
    Statement (.tstore x g) :=
  mk rfl (by
    have := x.isLt
    have := encGuard_lt g
    refine ⟨?_, ?_, ?_, ?_, ?_, ?_⟩ <;> dsimp only <;> omega) (.inr rfl)
    (show baseMapped 0x0C3 = true by decide)

theorem Sys2Proof.Laws.FieldsInRange.mcopy (x : XReg) (g : Option GReg) :
    Statement (.mcopy x g) :=
  mk rfl (by
    have := x.isLt
    have := encGuard_lt g
    refine ⟨?_, ?_, ?_, ?_, ?_, ?_⟩ <;> dsimp only <;> omega) (.inr rfl)
    (show baseMapped 0x0C4 = true by decide)

theorem Sys2Proof.Laws.FieldsInRange.mfill (x : XReg) (g : Option GReg) :
    Statement (.mfill x g) :=
  mk rfl (by
    have := x.isLt
    have := encGuard_lt g
    refine ⟨?_, ?_, ?_, ?_, ?_, ?_⟩ <;> dsimp only <;> omega) (.inr rfl)
    (show baseMapped 0x0C5 = true by decide)

theorem Sys2Proof.Laws.FieldsInRange.mreduce (x : XReg) (g : Option GReg) :
    Statement (.mreduce x g) :=
  mk rfl (by
    have := x.isLt
    have := encGuard_lt g
    refine ⟨?_, ?_, ?_, ?_, ?_, ?_⟩ <;> dsimp only <;> omega) (.inr rfl)
    (show baseMapped 0x0C6 = true by decide)

theorem Sys2Proof.Laws.FieldsInRange.coll (x : XReg) (g : Option GReg) :
    Statement (.coll x g) :=
  mk rfl (by
    have := x.isLt
    have := encGuard_lt g
    refine ⟨?_, ?_, ?_, ?_, ?_, ?_⟩ <;> dsimp only <;> omega) (.inr rfl)
    (show baseMapped 0x0C7 = true by decide)

theorem Sys2Proof.Laws.FieldsInRange.barinit (a : XReg) (b : XReg) :
    Statement (.barinit a b) :=
  mk rfl (by
    have := a.isLt
    have := b.isLt
    refine ⟨?_, ?_, ?_, ?_, ?_, ?_⟩ <;> dsimp only <;> omega) (.inr rfl)
    (show baseMapped 0x0C8 = true by decide)

theorem Sys2Proof.Laws.FieldsInRange.barexp (a : XReg) (b : XReg) :
    Statement (.barexp a b) :=
  mk rfl (by
    have := a.isLt
    have := b.isLt
    refine ⟨?_, ?_, ?_, ?_, ?_, ?_⟩ <;> dsimp only <;> omega) (.inr rfl)
    (show baseMapped 0x0C9 = true by decide)

theorem Sys2Proof.Laws.FieldsInRange.bararr (sel : BarSel) :
    Statement (.bararr sel) :=
  mk rfl (by
    have := encSel_lt sel
    refine ⟨?_, ?_, ?_, ?_, ?_, ?_⟩ <;> dsimp only <;> omega) (.inr rfl)
    (show baseMapped 0x0CA = true by decide)

theorem Sys2Proof.Laws.FieldsInRange.bardrop (sel : BarSel) :
    Statement (.bardrop sel) :=
  mk rfl (by
    have := encSel_lt sel
    refine ⟨?_, ?_, ?_, ?_, ?_, ?_⟩ <;> dsimp only <;> omega) (.inr rfl)
    (show baseMapped 0x0CB = true by decide)

theorem Sys2Proof.Laws.FieldsInRange.barwait (sel : BarSel) (b : XReg) :
    Statement (.barwait sel b) :=
  mk rfl (by
    have := b.isLt
    have := encSel_lt sel
    refine ⟨?_, ?_, ?_, ?_, ?_, ?_⟩ <;> dsimp only <;> omega) (.inr rfl)
    (show baseMapped 0x0CC = true by decide)

theorem Sys2Proof.Laws.FieldsInRange.bartest (p : PReg) (sel : BarSel) (x : XReg) :
    Statement (.bartest p sel x) :=
  mk rfl (by
    have := p.isLt
    have := x.isLt
    have := encSel_lt sel
    refine ⟨?_, ?_, ?_, ?_, ?_, ?_⟩ <;> dsimp only <;> omega) (.inr rfl)
    (show baseMapped 0x0CD = true by decide)

theorem Sys2Proof.Laws.FieldsInRange.waitc (c : CClass) (n : XReg) :
    Statement (.waitc c n) :=
  mk rfl (by
    have := n.isLt
    have := CClass.code_lt c
    refine ⟨?_, ?_, ?_, ?_, ?_, ?_⟩ <;> dsimp only <;> omega) (.inr rfl)
    (show baseMapped 0x0CE = true by decide)

theorem Sys2Proof.Laws.FieldsInRange.gresOpen (g : GReg) :
    Statement (.gresOpen g) :=
  mk rfl (by
    have := g.isLt
    refine ⟨?_, ?_, ?_, ?_, ?_, ?_⟩ <;> dsimp only <;> omega) (.inr rfl)
    (show baseMapped 0x0D0 = true by decide)

theorem Sys2Proof.Laws.FieldsInRange.gresX (g : GReg) (x : XReg) :
    Statement (.gresX g x) :=
  mk rfl (by
    have := g.isLt
    have := x.isLt
    refine ⟨?_, ?_, ?_, ?_, ?_, ?_⟩ <;> dsimp only <;> omega) (.inr rfl)
    (show baseMapped 0x0D1 = true by decide)

theorem Sys2Proof.Laws.FieldsInRange.gresAny (g : GReg) (p : PReg) :
    Statement (.gresAny g p) :=
  mk rfl (by
    have := g.isLt
    have := p.isLt
    refine ⟨?_, ?_, ?_, ?_, ?_, ?_⟩ <;> dsimp only <;> omega) (.inr rfl)
    (show baseMapped 0x0D2 = true by decide)

theorem Sys2Proof.Laws.FieldsInRange.gresAll (g : GReg) (p : PReg) :
    Statement (.gresAll g p) :=
  mk rfl (by
    have := g.isLt
    have := p.isLt
    refine ⟨?_, ?_, ?_, ?_, ?_, ?_⟩ <;> dsimp only <;> omega) (.inr rfl)
    (show baseMapped 0x0D3 = true by decide)

theorem Sys2Proof.Laws.FieldsInRange.tld (t : TReg) (a : XReg) (b : XReg) :
    Statement (.tld t a b) :=
  mk rfl (by
    have := t.isLt
    have := a.isLt
    have := b.isLt
    refine ⟨?_, ?_, ?_, ?_, ?_, ?_⟩ <;> dsimp only <;> omega) (.inr rfl)
    (show baseMapped 0x0E0 = true by decide)

theorem Sys2Proof.Laws.FieldsInRange.tldZb (t : TReg) (a : XReg) (b : XReg) :
    Statement (.tldZb t a b) :=
  mk rfl (by
    have := t.isLt
    have := a.isLt
    have := b.isLt
    refine ⟨?_, ?_, ?_, ?_, ?_, ?_⟩ <;> dsimp only <;> omega) (.inr rfl)
    (show baseMapped 0x0E1 = true by decide)

theorem Sys2Proof.Laws.FieldsInRange.tldSc (t : TReg) (m : SReg) (a : XReg) (b : XReg) :
    Statement (.tldSc t m a b) :=
  mk rfl (by
    have := t.isLt
    have := m.isLt
    have := a.isLt
    have := b.isLt
    refine ⟨?_, ?_, ?_, ?_, ?_, ?_⟩ <;> dsimp only <;> omega) (.inr rfl)
    (show baseMapped 0x0E2 = true by decide)

theorem Sys2Proof.Laws.FieldsInRange.tldScZb (t : TReg) (m : SReg) (a : XReg) (b : XReg) :
    Statement (.tldScZb t m a b) :=
  mk rfl (by
    have := t.isLt
    have := m.isLt
    have := a.isLt
    have := b.isLt
    refine ⟨?_, ?_, ?_, ?_, ?_, ?_⟩ <;> dsimp only <;> omega) (.inr rfl)
    (show baseMapped 0x0E3 = true by decide)

theorem Sys2Proof.Laws.FieldsInRange.tstr (x : XReg) (t : TReg) :
    Statement (.tstr x t) :=
  mk rfl (by
    have := x.isLt
    have := t.isLt
    refine ⟨?_, ?_, ?_, ?_, ?_, ?_⟩ <;> dsimp only <;> omega) (.inr rfl)
    (show baseMapped 0x0E4 = true by decide)

theorem Sys2Proof.Laws.FieldsInRange.tzero (t : TReg) :
    Statement (.tzero t) :=
  mk rfl (by
    have := t.isLt
    refine ⟨?_, ?_, ?_, ?_, ?_, ?_⟩ <;> dsimp only <;> omega) (.inr rfl)
    (show baseMapped 0x0E5 = true by decide)

theorem Sys2Proof.Laws.FieldsInRange.tcvt (n : TReg) (m : TReg) (f : Fmt) :
    Statement (.tcvt n m f) :=
  mk rfl (by
    have := n.isLt
    have := m.isLt
    have := Fmt.code_lt f
    refine ⟨?_, ?_, ?_, ?_, ?_, ?_⟩ <;> dsimp only <;> omega) (.inr rfl)
    (show baseMapped 0x0E6 = true by decide)

theorem Sys2Proof.Laws.FieldsInRange.tcvtZb (n : TReg) (m : TReg) (f : Fmt) :
    Statement (.tcvtZb n m f) :=
  mk rfl (by
    have := n.isLt
    have := m.isLt
    have := Fmt.code_lt f
    refine ⟨?_, ?_, ?_, ?_, ?_, ?_⟩ <;> dsimp only <;> omega) (.inr rfl)
    (show baseMapped 0x0E7 = true by decide)

theorem Sys2Proof.Laws.FieldsInRange.tqntL6 (t : TReg) (k : PReg) (sx : SReg) (x : XReg) :
    Statement (.tqntL6 t k sx x) :=
  mk rfl (by
    have := t.isLt
    have := k.isLt
    have := sx.isLt
    have := x.isLt
    refine ⟨?_, ?_, ?_, ?_, ?_, ?_⟩ <;> dsimp only <;> omega) (.inr rfl)
    (show baseMapped 0x0E8 = true by decide)

theorem Sys2Proof.Laws.FieldsInRange.tqntL6Zb (t : TReg) (k : PReg) (sx : SReg) (x : XReg) :
    Statement (.tqntL6Zb t k sx x) :=
  mk rfl (by
    have := t.isLt
    have := k.isLt
    have := sx.isLt
    have := x.isLt
    refine ⟨?_, ?_, ?_, ?_, ?_, ?_⟩ <;> dsimp only <;> omega) (.inr rfl)
    (show baseMapped 0x0E9 = true by decide)

theorem Sys2Proof.Laws.FieldsInRange.tqntL8 (t : TReg) (k : PReg) (sx : SReg) (x : XReg) :
    Statement (.tqntL8 t k sx x) :=
  mk rfl (by
    have := t.isLt
    have := k.isLt
    have := sx.isLt
    have := x.isLt
    refine ⟨?_, ?_, ?_, ?_, ?_, ?_⟩ <;> dsimp only <;> omega) (.inr rfl)
    (show baseMapped 0x0EA = true by decide)

theorem Sys2Proof.Laws.FieldsInRange.tqntL8Zb (t : TReg) (k : PReg) (sx : SReg) (x : XReg) :
    Statement (.tqntL8Zb t k sx x) :=
  mk rfl (by
    have := t.isLt
    have := k.isLt
    have := sx.isLt
    have := x.isLt
    refine ⟨?_, ?_, ?_, ?_, ?_, ?_⟩ <;> dsimp only <;> omega) (.inr rfl)
    (show baseMapped 0x0EB = true by decide)

theorem Sys2Proof.Laws.FieldsInRange.tqntF8 (t : TReg) (k : PReg) (sx : SReg) (x : XReg) :
    Statement (.tqntF8 t k sx x) :=
  mk rfl (by
    have := t.isLt
    have := k.isLt
    have := sx.isLt
    have := x.isLt
    refine ⟨?_, ?_, ?_, ?_, ?_, ?_⟩ <;> dsimp only <;> omega) (.inr rfl)
    (show baseMapped 0x0EC = true by decide)

theorem Sys2Proof.Laws.FieldsInRange.tqntF8Zb (t : TReg) (k : PReg) (sx : SReg) (x : XReg) :
    Statement (.tqntF8Zb t k sx x) :=
  mk rfl (by
    have := t.isLt
    have := k.isLt
    have := sx.isLt
    have := x.isLt
    refine ⟨?_, ?_, ?_, ?_, ?_, ?_⟩ <;> dsimp only <;> omega) (.inr rfl)
    (show baseMapped 0x0ED = true by decide)

theorem Sys2Proof.Laws.FieldsInRange.mma (k : Bool) (d : AReg) (a : VReg) (t : TReg) :
    Statement (.mma k d a t) :=
  mk rfl (by
    have := d.isLt
    have := a.isLt
    have := t.isLt
    have := flag_lt k
    refine ⟨?_, ?_, ?_, ?_, ?_, ?_⟩ <;> dsimp only <;> omega) (.inl rfl)
    (show baseMapped 0x0F0 = true by decide)

theorem Sys2Proof.Laws.FieldsInRange.mmx (d : AReg) (a : XReg) (b : XReg) :
    Statement (.mmx d a b) :=
  mk rfl (by
    have := d.isLt
    have := a.isLt
    have := b.isLt
    refine ⟨?_, ?_, ?_, ?_, ?_, ?_⟩ <;> dsimp only <;> omega) (.inr rfl)
    (show baseMapped 0x0F1 = true by decide)

theorem Sys2Proof.Laws.FieldsInRange.mmxGuard (d : AReg) (g : GReg) (a : XReg) (b : XReg) :
    Statement (.mmxGuard d g a b) :=
  mk rfl (by
    have := d.isLt
    have := g.isLt
    have := a.isLt
    have := b.isLt
    refine ⟨?_, ?_, ?_, ?_, ?_, ?_⟩ <;> dsimp only <;> omega) (.inr rfl)
    (show baseMapped 0x0F2 = true by decide)

theorem Sys2Proof.Laws.FieldsInRange.mmxSpec (d : AReg) (g : GReg) (a : XReg) (b : XReg) :
    Statement (.mmxSpec d g a b) :=
  mk rfl (by
    have := d.isLt
    have := g.isLt
    have := a.isLt
    have := b.isLt
    refine ⟨?_, ?_, ?_, ?_, ?_, ?_⟩ <;> dsimp only <;> omega) (.inr rfl)
    (show baseMapped 0x0F3 = true by decide)

theorem Sys2Proof.Laws.FieldsInRange.accz (d : AReg) :
    Statement (.accz d) :=
  mk rfl (by
    have := d.isLt
    refine ⟨?_, ?_, ?_, ?_, ?_, ?_⟩ <;> dsimp only <;> omega) (.inr rfl)
    (show baseMapped 0x0F4 = true by decide)

theorem Sys2Proof.Laws.FieldsInRange.accrd (d : VReg) (a : AReg) :
    Statement (.accrd d a) :=
  mk rfl (by
    have := d.isLt
    have := a.isLt
    refine ⟨?_, ?_, ?_, ?_, ?_, ?_⟩ <;> dsimp only <;> omega) (.inr rfl)
    (show baseMapped 0x0F5 = true by decide)

theorem Sys2Proof.Laws.FieldsInRange.accwr (d : AReg) (a : VReg) :
    Statement (.accwr d a) :=
  mk rfl (by
    have := d.isLt
    have := a.isLt
    refine ⟨?_, ?_, ?_, ?_, ?_, ?_⟩ <;> dsimp only <;> omega) (.inr rfl)
    (show baseMapped 0x0F6 = true by decide)

theorem Sys2Proof.Laws.FieldsInRange.accld (d : AReg) (x : XReg) (imm : Fin 128) :
    Statement (.accld d x imm) :=
  mk rfl (by
    have := d.isLt
    have := x.isLt
    have := imm.isLt
    refine ⟨?_, ?_, ?_, ?_, ?_, ?_⟩ <;> dsimp only <;> omega) (.inr rfl)
    (show baseMapped 0x0F7 = true by decide)

theorem Sys2Proof.Laws.FieldsInRange.accst (d : AReg) (x : XReg) (imm : Fin 128) :
    Statement (.accst d x imm) :=
  mk rfl (by
    have := d.isLt
    have := x.isLt
    have := imm.isLt
    refine ⟨?_, ?_, ?_, ?_, ?_, ?_⟩ <;> dsimp only <;> omega) (.inr rfl)
    (show baseMapped 0x0F8 = true by decide)

theorem Sys2Proof.Laws.FieldsInRange.sld (d : SReg) (x : XReg) (imm : Fin 128) :
    Statement (.sld d x imm) :=
  mk rfl (by
    have := d.isLt
    have := x.isLt
    have := imm.isLt
    refine ⟨?_, ?_, ?_, ?_, ?_, ?_⟩ <;> dsimp only <;> omega) (.inr rfl)
    (show baseMapped 0x100 = true by decide)

theorem Sys2Proof.Laws.FieldsInRange.sst (a : SReg) (x : XReg) (imm : Fin 128) :
    Statement (.sst a x imm) :=
  mk rfl (by
    have := a.isLt
    have := x.isLt
    have := imm.isLt
    refine ⟨?_, ?_, ?_, ?_, ?_, ?_⟩ <;> dsimp only <;> omega) (.inr rfl)
    (show baseMapped 0x101 = true by decide)

theorem Sys2Proof.Laws.FieldsInRange.sbindS (t : TReg) (m : SReg) :
    Statement (.sbindS t m) :=
  mk rfl (by
    have := t.isLt
    have := m.isLt
    refine ⟨?_, ?_, ?_, ?_, ?_, ?_⟩ <;> dsimp only <;> omega) (.inr rfl)
    (show baseMapped 0x102 = true by decide)

theorem Sys2Proof.Laws.FieldsInRange.sbindX (t : TReg) (m : XReg) :
    Statement (.sbindX t m) :=
  mk rfl (by
    have := t.isLt
    have := m.isLt
    refine ⟨?_, ?_, ?_, ?_, ?_, ?_⟩ <;> dsimp only <;> omega) (.inr rfl)
    (show baseMapped 0x103 = true by decide)

theorem Sys2Proof.Laws.FieldsInRange.sbindU (t : TReg) :
    Statement (.sbindU t) :=
  mk rfl (by
    have := t.isLt
    refine ⟨?_, ?_, ?_, ?_, ?_, ?_⟩ <;> dsimp only <;> omega) (.inr rfl)
    (show baseMapped 0x104 = true by decide)

theorem Sys2Proof.Laws.FieldsInRange.srel (m : SReg) :
    Statement (.srel m) :=
  mk rfl (by
    have := m.isLt
    refine ⟨?_, ?_, ?_, ?_, ?_, ?_⟩ <;> dsimp only <;> omega) (.inr rfl)
    (show baseMapped 0x105 = true by decide)

theorem Sys2Proof.Laws.FieldsInRange.sqry (d : XReg) (t : TReg) :
    Statement (.sqry d t) :=
  mk rfl (by
    have := d.isLt
    have := t.isLt
    refine ⟨?_, ?_, ?_, ?_, ?_, ?_⟩ <;> dsimp only <;> omega) (.inr rfl)
    (show baseMapped 0x106 = true by decide)

theorem Sys2Proof.Laws.FieldsInRange.smovS (d : SReg) (a : SReg) :
    Statement (.smovS d a) :=
  mk rfl (by
    have := d.isLt
    have := a.isLt
    refine ⟨?_, ?_, ?_, ?_, ?_, ?_⟩ <;> dsimp only <;> omega) (.inr rfl)
    (show baseMapped 0x108 = true by decide)

theorem Sys2Proof.Laws.FieldsInRange.smovX (d : SReg) (a : XReg) :
    Statement (.smovX d a) :=
  mk rfl (by
    have := d.isLt
    have := a.isLt
    refine ⟨?_, ?_, ?_, ?_, ?_, ?_⟩ <;> dsimp only <;> omega) (.inr rfl)
    (show baseMapped 0x109 = true by decide)

theorem Sys2Proof.Laws.FieldsInRange.smul (d : SReg) (a : SReg) (b : SReg) :
    Statement (.smul d a b) :=
  mk rfl (by
    have := d.isLt
    have := a.isLt
    have := b.isLt
    refine ⟨?_, ?_, ?_, ?_, ?_, ?_⟩ <;> dsimp only <;> omega) (.inr rfl)
    (show baseMapped 0x10A = true by decide)

theorem Sys2Proof.Laws.FieldsInRange.smax (d : SReg) (a : SReg) (b : SReg) :
    Statement (.smax d a b) :=
  mk rfl (by
    have := d.isLt
    have := a.isLt
    have := b.isLt
    refine ⟨?_, ?_, ?_, ?_, ?_, ?_⟩ <;> dsimp only <;> omega) (.inr rfl)
    (show baseMapped 0x10B = true by decide)

theorem Sys2Proof.Laws.FieldsInRange.scvtToS (d : SReg) (a : VReg) :
    Statement (.scvtToS d a) :=
  mk rfl (by
    have := d.isLt
    have := a.isLt
    refine ⟨?_, ?_, ?_, ?_, ?_, ?_⟩ <;> dsimp only <;> omega) (.inr rfl)
    (show baseMapped 0x10C = true by decide)

theorem Sys2Proof.Laws.FieldsInRange.scvtToV (d : VReg) (a : SReg) :
    Statement (.scvtToV d a) :=
  mk rfl (by
    have := d.isLt
    have := a.isLt
    refine ⟨?_, ?_, ?_, ?_, ?_, ?_⟩ <;> dsimp only <;> omega) (.inr rfl)
    (show baseMapped 0x10D = true by decide)

theorem Sys2Proof.Laws.FieldsInRange.launch (p : PReg) (x : XReg) :
    Statement (.launch p x) :=
  mk rfl (by
    have := p.isLt
    have := x.isLt
    refine ⟨?_, ?_, ?_, ?_, ?_, ?_⟩ <;> dsimp only <;> omega) (.inr rfl)
    (show baseMapped 0x120 = true by decide)

theorem Sys2Proof.Laws.FieldsInRange.taskarm (a : XReg) (b : XReg) :
    Statement (.taskarm a b) :=
  mk rfl (by
    have := a.isLt
    have := b.isLt
    refine ⟨?_, ?_, ?_, ?_, ?_, ?_⟩ <;> dsimp only <;> omega) (.inr rfl)
    (show baseMapped 0x121 = true by decide)

theorem Sys2Proof.Laws.FieldsInRange.tasksig (a : XReg) (b : XReg) :
    Statement (.tasksig a b) :=
  mk rfl (by
    have := a.isLt
    have := b.isLt
    refine ⟨?_, ?_, ?_, ?_, ?_, ?_⟩ <;> dsimp only <;> omega) (.inr rfl)
    (show baseMapped 0x122 = true by decide)

theorem Sys2Proof.Laws.FieldsInRange.taskretry (a : XReg) :
    Statement (.taskretry a) :=
  mk rfl (by
    have := a.isLt
    refine ⟨?_, ?_, ?_, ?_, ?_, ?_⟩ <;> dsimp only <;> omega) (.inr rfl)
    (show baseMapped 0x123 = true by decide)

theorem Sys2Proof.Laws.FieldsInRange.taskabort (a : XReg) :
    Statement (.taskabort a) :=
  mk rfl (by
    have := a.isLt
    refine ⟨?_, ?_, ?_, ?_, ?_, ?_⟩ <;> dsimp only <;> omega) (.inr rfl)
    (show baseMapped 0x124 = true by decide)

theorem Sys2Proof.Laws.FieldsInRange.csrr (d : XReg) (csr : Fin 16384) :
    Statement (.csrr d csr) :=
  mk rfl (by
    have := d.isLt
    have := csr.isLt
    refine ⟨?_, ?_, ?_, ?_, ?_, ?_⟩ <;> dsimp only <;> omega) (.inr rfl)
    (show baseMapped 0x130 = true by decide)

theorem Sys2Proof.Laws.FieldsInRange.csrw (a : XReg) (csr : Fin 16384) :
    Statement (.csrw a csr) :=
  mk rfl (by
    have := a.isLt
    have := csr.isLt
    refine ⟨?_, ?_, ?_, ?_, ?_, ?_⟩ <;> dsimp only <;> omega) (.inr rfl)
    (show baseMapped 0x131 = true by decide)

theorem Sys2Proof.Laws.FieldsInRange.dtload (x : XReg) :
    Statement (.dtload x) :=
  mk rfl (by
    have := x.isLt
    refine ⟨?_, ?_, ?_, ?_, ?_, ?_⟩ <;> dsimp only <;> omega) (.inr rfl)
    (show baseMapped 0x132 = true by decide)

theorem Sys2Proof.Laws.FieldsInRange.tlbinv (x : XReg) :
    Statement (.tlbinv x) :=
  mk rfl (by
    have := x.isLt
    refine ⟨?_, ?_, ?_, ?_, ?_, ?_⟩ <;> dsimp only <;> omega) (.inr rfl)
    (show baseMapped 0x133 = true by decide)

theorem Sys2Proof.Laws.FieldsInRange.ctxst (a : XReg) (b : XReg) :
    Statement (.ctxst a b) :=
  mk rfl (by
    have := a.isLt
    have := b.isLt
    refine ⟨?_, ?_, ?_, ?_, ?_, ?_⟩ <;> dsimp only <;> omega) (.inr rfl)
    (show baseMapped 0x134 = true by decide)

theorem Sys2Proof.Laws.FieldsInRange.ctxld (a : XReg) (b : XReg) :
    Statement (.ctxld a b) :=
  mk rfl (by
    have := a.isLt
    have := b.isLt
    refine ⟨?_, ?_, ?_, ?_, ?_, ?_⟩ <;> dsimp only <;> omega) (.inr rfl)
    (show baseMapped 0x135 = true by decide)

theorem Sys2Proof.Laws.FieldsInRange.egmode (x : XReg) :
    Statement (.egmode x) :=
  mk rfl (by
    have := x.isLt
    refine ⟨?_, ?_, ?_, ?_, ?_, ?_⟩ <;> dsimp only <;> omega) (.inr rfl)
    (show baseMapped 0x136 = true by decide)

theorem Sys2Proof.Laws.FieldsInRange.evpop (d : XReg) (x : XReg) :
    Statement (.evpop d x) :=
  mk rfl (by
    have := d.isLt
    have := x.isLt
    refine ⟨?_, ?_, ?_, ?_, ?_, ?_⟩ <;> dsimp only <;> omega) (.inr rfl)
    (show baseMapped 0x137 = true by decide)

theorem Sys2Proof.Laws.FieldsInRange.topocmtWrite (part : Fin 16) (v : BitVec 16) :
    Statement (.topocmtWrite part v) := fun _ h => by cases h

theorem Sys2Proof.Laws.FieldsInRange.splitPromotion (w : SplitRef) :
    Statement (.splitPromotion w) := fun _ h => by cases h

theorem Sys2Proof.Laws.FieldsInRange.stallEnd (w : SplitRef) :
    Statement (.stallEnd w) := fun _ h => by cases h

theorem Sys2Proof.Laws.FieldsInRange.workgroupPlacement (part : Fin 16) :
    Statement (.workgroupPlacement part) := fun _ h => by cases h

theorem Sys2Proof.Laws.FieldsInRange.cohortPlacement (part : Fin 16) :
    Statement (.cohortPlacement part) := fun _ h => by cases h

theorem Sys2Proof.Laws.FieldsInRange.cohortWaitTimeout (run : Nat) :
    Statement (.cohortWaitTimeout run) := fun _ h => by cases h

theorem Sys2Proof.Laws.FieldsInRange.matrixStep (core : Fin 512) :
    Statement (.matrixStep core) := fun _ h => by cases h

theorem Sys2Proof.Laws.FieldsInRange.matrixCompletion (core : Fin 512) :
    Statement (.matrixCompletion core) := fun _ h => by cases h

theorem Sys2Proof.Laws.FieldsInRange.matrixEngineStop (core : Fin 512) :
    Statement (.matrixEngineStop core) := fun _ h => by cases h

theorem Sys2Proof.Laws.FieldsInRange.commandAdmission (die : Fin 8) :
    Statement (.commandAdmission die) := fun _ h => by cases h

theorem Sys2Proof.Laws.FieldsInRange.fetchReleasePhase (cmd : Nat) :
    Statement (.fetchReleasePhase cmd) := fun _ h => by cases h

theorem Sys2Proof.Laws.FieldsInRange.transferUnitLanded (cmd : Nat) (unit : Nat) :
    Statement (.transferUnitLanded cmd unit) := fun _ h => by cases h

theorem Sys2Proof.Laws.FieldsInRange.unitAcknowledged (cmd : Nat) (unit : Nat) :
    Statement (.unitAcknowledged cmd unit) := fun _ h => by cases h

theorem Sys2Proof.Laws.FieldsInRange.transferUnitDropped (cmd : Nat) (unit : Nat) (cause : DropCause) :
    Statement (.transferUnitDropped cmd unit cause) := fun _ h => by cases h

theorem Sys2Proof.Laws.FieldsInRange.copyExecution (cmd : Nat) :
    Statement (.copyExecution cmd) := fun _ h => by cases h

theorem Sys2Proof.Laws.FieldsInRange.putsDelivery (cmd : Nat) :
    Statement (.putsDelivery cmd) := fun _ h => by cases h

theorem Sys2Proof.Laws.FieldsInRange.wavelengthFailure (port : Fin 64) (lam : Fin 16) :
    Statement (.wavelengthFailure port lam) := fun _ h => by cases h

theorem Sys2Proof.Laws.FieldsInRange.spareWarmed (port : Fin 64) (spare : Fin 4) :
    Statement (.spareWarmed port spare) := fun _ h => by cases h

theorem Sys2Proof.Laws.FieldsInRange.laserAgeing (port : Fin 64) (lam : Fin 16) :
    Statement (.laserAgeing port lam) := fun _ h => by cases h

theorem Sys2Proof.Laws.FieldsInRange.linkRetraining (port : Fin 64) :
    Statement (.linkRetraining port) := fun _ h => by cases h

theorem Sys2Proof.Laws.FieldsInRange.portRecovery (port : Fin 64) :
    Statement (.portRecovery port) := fun _ h => by cases h

theorem Sys2Proof.Laws.FieldsInRange.releaseNotice (core : Fin 512) (slice : Fin 512) :
    Statement (.releaseNotice core slice) := fun _ h => by cases h

theorem Sys2Proof.Laws.FieldsInRange.promotionRequest (core : Fin 512) :
    Statement (.promotionRequest core) := fun _ h => by cases h

theorem Sys2Proof.Laws.FieldsInRange.promotionAcknowledgement (id : Nat) :
    Statement (.promotionAcknowledgement id) := fun _ h => by cases h

theorem Sys2Proof.Laws.FieldsInRange.taskEdgeBegin (run : Nat) :
    Statement (.taskEdgeBegin run) := fun _ h => by cases h

theorem Sys2Proof.Laws.FieldsInRange.edgeLineWriteback (run : Nat) :
    Statement (.edgeLineWriteback run) := fun _ h => by cases h

theorem Sys2Proof.Laws.FieldsInRange.drainReport (run : Nat) :
    Statement (.drainReport run) := fun _ h => by cases h

theorem Sys2Proof.Laws.FieldsInRange.edgeDecrement (run : Nat) :
    Statement (.edgeDecrement run) := fun _ h => by cases h

theorem Sys2Proof.Laws.FieldsInRange.haltRequest (part : Fin 16) :
    Statement (.haltRequest part) := fun _ h => by cases h

theorem Sys2Proof.Laws.FieldsInRange.halted (part : Fin 16) :
    Statement (.halted part) := fun _ h => by cases h

theorem Sys2Proof.Laws.FieldsInRange.contextExchange (part : Fin 16) :
    Statement (.contextExchange part) := fun _ h => by cases h

theorem Sys2Proof.Laws.FieldsInRange.resumeRequest (part : Fin 16) :
    Statement (.resumeRequest part) := fun _ h => by cases h

theorem Sys2Proof.Laws.FieldsInRange.resumeComplete (part : Fin 16) :
    Statement (.resumeComplete part) := fun _ h => by cases h

theorem Sys2Proof.Laws.FieldsInRange.ebbEnd (g : Fin 16) :
    Statement (.ebbEnd g) := fun _ h => by cases h

theorem Sys2Proof.Laws.FieldsInRange.ebbDeadline (g : Fin 16) :
    Statement (.ebbDeadline g) := fun _ h => by cases h

theorem Sys2Proof.Laws.FieldsInRange.slackEnd (g : Fin 16) (ok : Bool) :
    Statement (.slackEnd g ok) := fun _ h => by cases h

theorem Sys2Proof.Laws.FieldsInRange.authEnd (g : Fin 16) (a : Option AuthAnswer) :
    Statement (.authEnd g a) := fun _ h => by cases h

theorem Sys2Proof.Laws.FieldsInRange.flood (g : Fin 16) :
    Statement (.flood g) := fun _ h => by cases h

theorem Sys2Proof.Laws.FieldsInRange.lossOfLock (g : Fin 16) :
    Statement (.lossOfLock g) := fun _ h => by cases h

theorem Sys2Proof.Laws.FieldsInRange.peerRequest (r : PeerIn) :
    Statement (.peerRequest r) := fun _ h => by cases h

theorem Sys2Proof.Laws.FieldsInRange.peerReply (r : PeerAnswer) :
    Statement (.peerReply r) := fun _ h => by cases h

theorem Sys2Proof.Laws.FieldsInRange.peerTimeout (req : Nat) :
    Statement (.peerTimeout req) := fun _ h => by cases h

theorem Sys2Proof.Laws.FieldsInRange.replayRecordExpiry (node : Fin 4096) (tag : BitVec 8) (gen : BitVec 4) :
    Statement (.replayRecordExpiry node tag gen) := fun _ h => by cases h

theorem Sys2Proof.Laws.FieldsInRange.chunkSend (node : Fin 4096) :
    Statement (.chunkSend node) := fun _ h => by cases h

theorem Sys2Proof.Laws.FieldsInRange.chunkReceive (ch : ChunkIn) :
    Statement (.chunkReceive ch) := fun _ h => by cases h

theorem Sys2Proof.Laws.FieldsInRange.staleNack (n : NackIn) :
    Statement (.staleNack n) := fun _ h => by cases h

theorem Sys2Proof.Laws.FieldsInRange.chunkAccepted (k : ChunkId) :
    Statement (.chunkAccepted k) := fun _ h => by cases h

theorem Sys2Proof.Laws.FieldsInRange.chunkResend (k : ChunkId) :
    Statement (.chunkResend k) := fun _ h => by cases h

theorem Sys2Proof.Laws.FieldsInRange.chunkTimeout (k : ChunkId) :
    Statement (.chunkTimeout k) := fun _ h => by cases h

theorem Sys2Proof.Laws.FieldsInRange.creditReturn (comm : Fin 64) (inbound : Bool) :
    Statement (.creditReturn comm inbound) := fun _ h => by cases h

theorem Sys2Proof.Laws.FieldsInRange.collCompletion (comm : Fin 64) :
    Statement (.collCompletion comm) := fun _ h => by cases h

theorem Sys2Proof.Laws.FieldsInRange.hostCxlMemAccess (h : HostAccess) :
    Statement (.hostCxlMemAccess h) := fun _ h => by cases h

theorem Sys2Proof.Laws.FieldsInRange.attestationReport (nonce : BitVec 384) :
    Statement (.attestationReport nonce) := fun _ h => by cases h

theorem Sys2Proof.Laws.FieldsInRange.firmwareImage (img : List (BitVec 8)) :
    Statement (.firmwareImage img) := fun _ h => by cases h

theorem Sys2Proof.Laws.FieldsInRange.configurationRecord (r : ConfigRecord) :
    Statement (.configurationRecord r) := fun _ h => by cases h

theorem Sys2Proof.Laws.FieldsInRange.debugGrant (d : DebugRequest) :
    Statement (.debugGrant d) := fun _ h => by cases h

theorem Sys2Proof.Laws.FieldsInRange.powerStateRequest (p : PowerRequest) :
    Statement (.powerStateRequest p) := fun _ h => by cases h

theorem Sys2Proof.Laws.FieldsInRange.powerBudgetChange (b : BudgetChange) :
    Statement (.powerBudgetChange b) := fun _ h => by cases h

theorem Sys2Proof.Laws.FieldsInRange.hostDebugAccess (d : DebugAccess) :
    Statement (.hostDebugAccess d) := fun _ h => by cases h

theorem Sys2Proof.Laws.FieldsInRange.coreClocks (n : Nat) :
    Statement (.coreClocks n) := fun _ h => by cases h

theorem Sys2Proof.Laws.FieldsInRange.nop :
    Statement (.nop) := mk rfl (by unfold Fields.inRange; decide) (.inr rfl) (by decide)

theorem Sys2Proof.Laws.FieldsInRange.ret :
    Statement (.ret) := mk rfl (by unfold Fields.inRange; decide) (.inr rfl) (by decide)

theorem Sys2Proof.Laws.FieldsInRange.exit :
    Statement (.exit) := mk rfl (by unfold Fields.inRange; decide) (.inr rfl) (by decide)

theorem Sys2Proof.Laws.FieldsInRange.syncs :
    Statement (.syncs) := mk rfl (by unfold Fields.inRange; decide) (.inr rfl) (by decide)

theorem Sys2Proof.Laws.FieldsInRange.shrinkL :
    Statement (.shrinkL) := mk rfl (by unfold Fields.inRange; decide) (.inr rfl) (by decide)

theorem Sys2Proof.Laws.FieldsInRange.yield :
    Statement (.yield) := mk rfl (by unfold Fields.inRange; decide) (.inr rfl) (by decide)

theorem Sys2Proof.Laws.FieldsInRange.tret :
    Statement (.tret) := mk rfl (by unfold Fields.inRange; decide) (.inr rfl) (by decide)

theorem Sys2Proof.Laws.FieldsInRange.brk :
    Statement (.brk) := mk rfl (by unfold Fields.inRange; decide) (.inr rfl) (by decide)

theorem Sys2Proof.Laws.FieldsInRange.resetPackage :
    Statement (.resetPackage) := fun _ h => by cases h
end

