-- ==== Sys2Proof/Laws/Shapes.lean ====
section
/-!
SUPPORT. One lemma for each shape that instructions share: what it answers when the instruction issues with its own
effect.
-/

namespace Sys2Proof.Machine

/-! ## The register files of the issuing strand -/

/-- The register files of the issuing strand are in canonical form. -/
structure State.Tidy (s : State) : Prop where
  vregs : s.me.vregs.canonical 0 = true
  xregs : s.me.xregs.canonical 0 = true
  preds : s.me.preds.canonical 0 = true
  accs : s.me.accs.canonical 0 = true

theorem Store.mem_of_at? {α : Type} {m : Store α} {k : Nat} {v : α} (h : m.at? k = some v) : (k, v) ∈ m := by
  induction m with
  | nil => simp at h
  | cons e m ih =>
    obtain ⟨i, u⟩ := e
    simp only [Store.at?] at h
    split_ifs at h with h1 h2
    · simp only [Option.some.injEq] at h; subst h; subst h2; exact .head _
    · exact .tail _ (ih h)

theorem State.canonical_core {s : State} (h : s.canonical = true) (c : Nat) : (s.core c).canonical = true := by
  simp only [State.canonical, Bool.and_eq_true, List.all_eq_true] at h
  unfold State.core Store.read
  cases hc : s.cores.at? c with
  | none => rfl
  | some k =>
    have hk : k.canonical = true := h.1.2 (c, k) (Store.mem_of_at? hc)
    exact hk

/-- In a canonical state the register files of the issuing strand are. -/
theorem State.canonical_tidy {s : State} (h : s.canonical = true) : s.Tidy := by
  have hc := State.canonical_core h s.cur.core
  have hm : s.me.canonical = true := by
    unfold State.me State.strand State.strand?
    cases ht : (s.ctx s.cur.core).strands.at? s.cur.slot with
    | none => rfl
    | some t =>
      have hx : (s.ctx s.cur.core).canonical = true := by
        simp only [Core.canonical, Bool.and_eq_true] at hc
        exact hc.1.1.1
      simp only [Context.canonical, Bool.and_eq_true, List.all_eq_true] at hx
      exact hx.1.1.1.1.1.1 (s.cur.slot, t) (Store.mem_of_at? ht)
  simp only [Strand.canonical, Bool.and_eq_true] at hm
  exact ⟨hm.1.1.1.1.1, hm.1.1.1.1.2, hm.1.1.1.2, hm.1.1.2⟩

/-! ## From the state an effect leaves to the state an instruction leaves -/

/-- A lane of a physical register, by the strand apart from its flow. -/
theorem vphys_still (t : Strand) (p l : Nat) : t.still.vphys p l = t.vphys p l := rfl

theorem Same.vphys {f : Strand → Strand} (hf : ∀ t, (f t).vregs = t.vregs) {s t : State} (h : Same f s t)
    (hs : (s.strand? s.cur.core s.cur.slot).isSome = true) (p l : Nat) : t.me.vphys p l = s.me.vphys p l := by
  have := congrArg Strand.vregs (h.me hs).1
  rw [hf, hf] at this
  have e : t.me.vregs = s.me.vregs := this
  simp only [Strand.vphys, e]

theorem Same.wb {f : Strand → Strand} (hf : ∀ t, (f t).wb = t.wb) {s t : State} (h : Same f s t)
    (hs : (s.strand? s.cur.core s.cur.slot).isSome = true) : t.me.wb = s.me.wb := by
  have := congrArg Strand.wb (h.me hs).1
  rw [hf, hf] at this
  exact this

theorem Same.x {f : Strand → Strand} (hf : ∀ t, (f t).xregs = t.xregs) {s t : State} (h : Same f s t)
    (hs : (s.strand? s.cur.core s.cur.slot).isSome = true) (x : Nat) : t.x x = s.x x := by
  have := congrArg Strand.xregs (h.me hs).1
  rw [hf, hf] at this
  have e : t.me.xregs = s.me.xregs := this
  simp only [State.x, Strand.x, e]

theorem Same.p {f : Strand → Strand} (hf : ∀ t, (f t).preds = t.preds) {s t : State} (h : Same f s t)
    (hs : (s.strand? s.cur.core s.cur.slot).isSome = true) (x : Nat) : t.p x = s.p x := by
  have := congrArg Strand.preds (h.me hs).1
  rw [hf, hf] at this
  have e : t.me.preds = s.me.preds := this
  simp only [State.p, Strand.p, e]

theorem Same.flg {f : Strand → Strand} (hf : ∀ t, (f t).flg = t.flg) {s t : State} (h : Same f s t)
    (hs : (s.strand? s.cur.core s.cur.slot).isSome = true) : t.me.flg = s.me.flg := by
  have := congrArg Strand.flg (h.me hs).1
  rw [hf, hf] at this
  exact this

/-! ## Writes of registers -/

theorem State.slot_putV (s : State) (d : Nat) (f : Nat → Word)
    (h : (s.strand? s.cur.core s.cur.slot).isSome = true) :
    ((s.putV d f).strand? (s.putV d f).cur.core (s.putV d f).cur.slot).isSome = true := by
  rw [State.putV, State.slot_modMe]; exact h

theorem State.me_putV (s : State) (d : Nat) (f : Nat → Word)
    (h : (s.strand? s.cur.core s.cur.slot).isSome = true) : (s.putV d f).me = s.me.setV d s.cur.act f :=
  State.me_modMe s _ h

theorem Strand.setV_butV (t : Strand) (d : Nat) (m : Mask) (f : Nat → Word) :
    butV (t.setV d m f) = butV t := by
  rcases t.spoil_still (t.wb + d) with h | h <;> simp [Strand.setV, Strand.setPhys, butV, h]

theorem Strand.still_spoil (t : Strand) (p : Nat) : (t.spoil p).still = t.still.spoil p := by
  have hk : t.still.keep = t.keep := rfl
  unfold Strand.spoil
  rw [hk]
  cases t.keep with
  | none => rfl
  | some k =>
    simp only
    split_ifs <;> rfl

theorem Strand.setV_still (t : Strand) (d : Nat) (m : Mask) (f : Nat → Word) :
    (t.setV d m f).still = t.still.setV d m f := by
  have h := t.still_spoil (t.wb + d)
  have e : (t.setV d m f).still = { (t.spoil (t.wb + d)).still with
    vregs := (lanes m).foldl (fun r l => Store.write 0 r (32 * (t.wb + d) + l) (f l)) t.vregs } := rfl
  rw [e, h]; rfl

theorem Same.putV (s : State) (d : Nat) (f : Nat → Word) : Same butV s (s.putV d f) :=
  Same.modMe butV s _ fun t => by rw [Strand.setV_still, Strand.setV_butV]

theorem State.vphys_putV (s : State) (ht : s.me.vregs.sorted = true)
    (h : (s.strand? s.cur.core s.cur.slot).isSome = true) (d : Nat) (f : Nat → Word) (p l : Nat) (hl : l < 32) :
    (s.putV d f).me.vphys p l =
      if p = s.me.wb + d ∧ s.cur.act.getLsbD l = true then f l else s.me.vphys p l := by
  rw [State.me_putV s d f h, Strand.vphys_setV _ ht _ _ _ _ _ hl]

theorem State.slot_putX (s : State) (d : Nat) (v : DWord) (h : (s.strand? s.cur.core s.cur.slot).isSome = true) :
    ((s.putX d v).strand? (s.putX d v).cur.core (s.putX d v).cur.slot).isSome = true := by
  rw [State.putX, State.slot_modMe]; exact h

theorem State.me_putX (s : State) (d : Nat) (v : DWord) (h : (s.strand? s.cur.core s.cur.slot).isSome = true) :
    (s.putX d v).me = s.me.setX d v := State.me_modMe s _ h

theorem Same.putX (s : State) (d : Nat) (v : DWord) : Same butX s (s.putX d v) := Same.modMe butX s _ fun _ => rfl

theorem State.slot_putP (s : State) (d : Nat) (v : Mask) (h : (s.strand? s.cur.core s.cur.slot).isSome = true) :
    ((s.putP d v).strand? (s.putP d v).cur.core (s.putP d v).cur.slot).isSome = true := by
  rw [State.putP, State.slot_modMe]; exact h

theorem State.me_putP (s : State) (d : Nat) (v : Mask) (h : (s.strand? s.cur.core s.cur.slot).isSome = true) :
    (s.putP d v).me = s.me.setP d s.cur.act v := State.me_modMe s _ h

theorem Same.putP (s : State) (d : Nat) (v : Mask) : Same butP s (s.putP d v) :=
  Same.modMe butP s _ fun t => by unfold Strand.setP; split_ifs <;> rfl

theorem State.slot_flags (s : State) (v : Flags) (h : (s.strand? s.cur.core s.cur.slot).isSome = true) :
    ((s.flags v).strand? (s.flags v).cur.core (s.flags v).cur.slot).isSome = true := by
  rw [State.flags, State.slot_modMe]; exact h

theorem State.me_flags (s : State) (v : Flags) (h : (s.strand? s.cur.core s.cur.slot).isSome = true) :
    (s.flags v).me = s.me.orFlags v := State.me_modMe s _ h

/-- FLG is left out. -/
def butF (t : Strand) : Strand := { t with flg := 0 }

theorem Same.flags (s : State) (v : Flags) : Same butF s (s.flags v) := Same.modMe butF s _ fun _ => rfl

/-! ## Shapes -/

/-- `State.vector`: the active lanes of the destination take the values; nothing else changes. -/
theorem State.vector_spec {s : State} (hs : s.Runs) (ht : s.Tidy) {regs : List Reg}
    (hr : s.Named regs) {d : VReg} (hf : s.Free d.val 1) (f : State → Nat → Word) :
    (s.vector regs d f).cur.done = true ∧
      (∀ l < 32, s.cur.act.getLsbD l = true → (s.vector regs d f).v d.val l = f s l) ∧
      OtherV d.val 1 s (s.vector regs d f) ∧ Same butV s (s.vector regs d f) ∧
      SameBytes s (s.vector regs d f) := by
  have hv := ((Store.canonical_iff 0).1 ht.vregs).1
  have hlock : ([vr d]).findSome? s.lockOn = none := by
    simp [vr, State.lockOn_v s d.val 1 hf]
  have hb : (fun s : State => s.unlocked [vr d] fun s => (s.putV d.val (f s)).retire) s =
      (s.putV d.val (f s)).retire := by simp only [State.unlocked, hlock]
  have hl := State.slot_putV s d.val (f s) hs.slot
  have hd : (s.putV d.val (f s)).me.dbgstep = s.me.dbgstep := by
    rw [State.me_putV _ _ _ hs.slot]
    rcases s.me.spoil_still (s.me.wb + d.val) with h | h <;> simp [Strand.setV, Strand.setPhys, h]
  obtain ⟨h1, h2⟩ := State.issue_retire hs (priv := false)
    (body := fun s => s.unlocked [vr d] fun s => (s.putV d.val (f s)).retire) hr (.inl rfl) hb hl hd
  replace h2 : Same whole (s.putV d.val (f s)) (s.vector regs d f) := h2
  have hphys : ∀ p l, l < 32 → (s.vector regs d f).me.vphys p l =
      if p = s.me.wb + d.val ∧ s.cur.act.getLsbD l = true then f s l else s.me.vphys p l := fun p l h32 => by
    rw [Same.vphys (fun _ => rfl) h2 hl, State.vphys_putV s hv hs.slot _ _ _ _ h32]
  have hwb : (s.vector regs d f).me.wb = s.me.wb := by
    rw [Same.wb (fun _ => rfl) h2 hl, State.me_putV _ _ _ hs.slot, Strand.wb_setV]
  have hsame : Same butV s (s.vector regs d f) := (Same.putV s d.val (f s)).trans (h2.weaken butV)
  refine ⟨h1, fun l h32 ha => ?_, fun p l h32 ho => ?_, hsame, hsame.bytes⟩
  · simp only [State.v, Strand.v]
    rw [hwb, hphys _ _ h32]
    simp [ha]
  · rw [hphys p l h32, if_neg]
    rintro ⟨rfl, ha⟩
    rcases ho with ho | ho
    · exact ho ⟨le_refl _, by omega⟩
    · rw [ha] at ho; cases ho

/-- Registers that the strand holds may be named. -/
theorem State.regs_held (s : State) (fs : List VReg) (h : ∀ r ∈ fs, s.Holds r.val 1) : s.Named (fs.map vr) := by
  induction fs with
  | nil => exact ⟨rfl, rfl⟩
  | cons r fs ih =>
    have h1 : s.regRange (vr r) = none := State.regRange_v s r.val 1 (h r (.head _))
    have h2 : s.loadOn (vr r) = none := State.loadOn_v s r.val 1 (h r (.head _))
    obtain ⟨i1, i2⟩ := ih fun r hr => h r (.tail _ hr)
    exact ⟨by simp [h1, i1], by simp [h2, i2]⟩

/-- The flags of the active lanes, bit by bit (R105). -/
theorem State.getLsbD_laneFlags (s : State) (f : Nat → Flags) (k : Nat) :
    (s.laneFlags f).getLsbD k = true ↔ ∃ l < 32, s.cur.act.getLsbD l = true ∧ (f l).getLsbD k = true := by
  have key : ∀ (ls : List Nat) (g : Flags), (ls.foldl (fun g l => g ||| f l) g).getLsbD k = true ↔
      g.getLsbD k = true ∨ ∃ l ∈ ls, (f l).getLsbD k = true := by
    intro ls
    induction ls with
    | nil => simp
    | cons a ls ih =>
      intro g
      rw [List.foldl_cons, ih]
      simp only [BitVec.getLsbD_or, Bool.or_eq_true, List.mem_cons, exists_eq_or_imp, or_assoc]
  rw [State.laneFlags, key]
  simp only [State.actLanes, mem_lanes]
  simp [and_assoc]

/-- FLG after flags have joined it (R76). -/
theorem getLsbD_joined (g f : Flags) (k : Nat) (hk : k < 16) :
    (g ||| (f &&& 0x3F#16)).getLsbD k = true ↔ g.getLsbD k = true ∨ k < 6 ∧ f.getLsbD k = true := by
  simp only [BitVec.getLsbD_or, BitVec.getLsbD_and, Bool.or_eq_true, Bool.and_eq_true]
  have : (0x3F#16).getLsbD k = true ↔ k < 6 := by
    interval_cases k <;> simp
  rw [this]
  tauto

/-- `State.vectorF`: the active lanes take the values, and their flags join FLG. -/
theorem State.vectorF_spec {s : State} (hs : s.Runs) (ht : s.Tidy) {regs : List Reg}
    (hr : s.Named regs) {d : VReg} (hf : s.Free d.val 1) (f : State → Nat → Nat × Flags) :
    (s.vectorF regs d f).cur.done = true ∧
      (∀ l < 32, s.cur.act.getLsbD l = true → (s.vectorF regs d f).v d.val l = BitVec.ofNat 32 (f s l).1) ∧
      (s.vectorF regs d f).me.flg = s.me.flg ||| ((s.laneFlags fun l => (f s l).2) &&& 0x3F#16) ∧
      OtherV d.val 1 s (s.vectorF regs d f) ∧ Same butVF s (s.vectorF regs d f) ∧
      SameBytes s (s.vectorF regs d f) := by
  have hv := ((Store.canonical_iff 0).1 ht.vregs).1
  have hlock : ([vr d]).findSome? s.lockOn = none := by
    simp [vr, State.lockOn_v s d.val 1 hf]
  have hl1 := State.slot_putV s d.val (fun l => BitVec.ofNat 32 (f s l).1) hs.slot
  have hl := State.slot_flags (s.putV d.val fun l => BitVec.ofNat 32 (f s l).1) (s.laneFlags fun l => (f s l).2) hl1
  have hme : ((s.putV d.val fun l => BitVec.ofNat 32 (f s l).1).flags (s.laneFlags fun l => (f s l).2)).me =
      (s.me.setV d.val s.cur.act fun l => BitVec.ofNat 32 (f s l).1).orFlags (s.laneFlags fun l => (f s l).2) := by
    rw [State.me_flags _ _ hl1, State.me_putV _ _ _ hs.slot]
  have hset : ∀ g : Nat → Word, (s.me.setV d.val s.cur.act g).dbgstep = s.me.dbgstep ∧
      (s.me.setV d.val s.cur.act g).flg = s.me.flg := fun g => by
    rcases s.me.spoil_still (s.me.wb + d.val) with h | h <;> simp [Strand.setV, Strand.setPhys, h]
  obtain ⟨h1, h2⟩ := State.issue_retire hs (priv := false) (body := fun s => s.unlocked [vr d] fun s =>
      ((s.putV d.val fun l => BitVec.ofNat 32 (f s l).1).flags (s.laneFlags fun l => (f s l).2)).retire)
    hr (.inl rfl) (by simp only [State.unlocked, hlock]) hl (by rw [hme]; exact (hset fun l => BitVec.ofNat 32 (f s l).1).1)
  replace h2 : Same whole _ (s.vectorF regs d f) := h2
  have hphys : ∀ p l, l < 32 → (s.vectorF regs d f).me.vphys p l =
      if p = s.me.wb + d.val ∧ s.cur.act.getLsbD l = true then BitVec.ofNat 32 (f s l).1 else s.me.vphys p l :=
    fun p l h32 => by
      rw [Same.vphys (fun _ => rfl) h2 hl, hme]
      exact Strand.vphys_setV _ hv _ _ _ _ _ h32
  have hwb : (s.vectorF regs d f).me.wb = s.me.wb := by
    rw [Same.wb (fun _ => rfl) h2 hl, hme]
    exact Strand.wb_setV s.me d.val s.cur.act fun l => BitVec.ofNat 32 (f s l).1
  have hsame : Same butVF s (s.vectorF regs d f) :=
    (((Same.putV s d.val _).weaken butF).trans ((Same.flags _ _).weaken butV)).trans (h2.weaken butVF)
  refine ⟨h1, fun l h32 ha => ?_, ?_, fun p l h32 ho => ?_, hsame, hsame.bytes⟩
  · simp only [State.v, Strand.v]
    rw [hwb, hphys _ _ h32]
    simp [ha]
  · rw [Same.flg (fun _ => rfl) h2 hl, hme, Strand.orFlags, (hset _).2]
  · rw [hphys p l h32, if_neg]
    rintro ⟨rfl, ha⟩
    rcases ho with ho | ho
    · exact ho ⟨le_refl _, by omega⟩
    · rw [ha] at ho; cases ho

/-- An instruction that writes a predicate in some lanes and joins flags. -/
theorem State.pred_spec {s : State} (hs : s.Runs) (ht : s.Tidy) {regs : List Reg} {body : State → State}
    (hr : s.Named regs) (p : Nat) (m v : Mask) (fl : Flags)
    (hb : body s = ((s.modMe fun t => t.setP p m v).flags fl).retire) :
    (s.issue false regs body).cur.done = true ∧
      (∀ q, (s.issue false regs body).p q = if q = p ∧ p ≠ 0 then (s.p p &&& ~~~m) ||| (v &&& m) else s.p q) ∧
      (s.issue false regs body).me.flg = s.me.flg ||| (fl &&& 0x3F#16) ∧
      Same butPF s (s.issue false regs body) ∧ SameBytes s (s.issue false regs body) := by
  have hp := ((Store.canonical_iff 0).1 ht.preds).1
  have hl1 : ((s.modMe fun t => t.setP p m v).strand? (s.modMe fun t => t.setP p m v).cur.core
      (s.modMe fun t => t.setP p m v).cur.slot).isSome = true := by rw [State.slot_modMe]; exact hs.slot
  have hl := State.slot_flags _ fl hl1
  have hme : ((s.modMe fun t => t.setP p m v).flags fl).me = (s.me.setP p m v).orFlags fl := by
    rw [State.me_flags _ _ hl1, State.me_modMe _ _ hs.slot]
  have hset : (s.me.setP p m v).dbgstep = s.me.dbgstep ∧ (s.me.setP p m v).flg = s.me.flg := by
    unfold Strand.setP; split_ifs <;> exact ⟨rfl, rfl⟩
  obtain ⟨h1, h2⟩ := State.issue_retire hs (priv := false) (body := body) hr (.inl rfl) hb hl
    (by rw [hme]; exact hset.1)
  have hsame : Same butPF s (s.issue false regs body) := by
    have a : Same butP s (s.modMe fun t => t.setP p m v) :=
      Same.modMe butP s _ fun t => by unfold Strand.setP; split_ifs <;> rfl
    exact ((a.weaken butF).trans ((Same.flags _ fl).weaken butP)).trans (h2.weaken butPF)
  refine ⟨h1, fun q => ?_, ?_, hsame, hsame.bytes⟩
  · rw [Same.p (fun _ => rfl) h2 hl]
    simp only [State.p, hme]
    exact Strand.p_setP _ hp _ _ _ _
  · rw [Same.flg (fun _ => rfl) h2 hl, hme, Strand.orFlags, hset.2]

/-- An instruction that writes a uniform register. -/
theorem State.putX_spec {s : State} (hs : s.Runs) (ht : s.Tidy) {regs : List Reg} {body : State → State}
    (hr : s.Named regs) (d : Nat) (v : DWord) (hb : body s = (s.putX d v).retire) :
    (s.issue false regs body).cur.done = true ∧ (s.issue false regs body).x d = v ∧
      OtherX d s (s.issue false regs body) ∧ Same butX s (s.issue false regs body) ∧
      SameBytes s (s.issue false regs body) := by
  have hx := ((Store.canonical_iff 0).1 ht.xregs).1
  have hl := State.slot_putX s d v hs.slot
  obtain ⟨h1, h2⟩ := State.issue_retire hs (priv := false) (body := body) hr (.inl rfl) hb hl
    (by rw [State.me_putX _ _ _ hs.slot]; rfl)
  have hsame : Same butX s (s.issue false regs body) := (Same.putX s d v).trans (h2.weaken butX)
  have hread : ∀ x, (s.issue false regs body).x x = if x = d then v else s.x x := fun x => by
    rw [Same.x (fun _ => rfl) h2 hl, State.x, State.me_putX _ _ _ hs.slot, Strand.x_setX _ hx]; rfl
  exact ⟨h1, by rw [hread]; simp, fun x hne => by rw [hread, if_neg hne], hsame, hsame.bytes⟩

end Sys2Proof.Machine
end

