-- ==== Sys2Proof/Tests/Slice0.lean ====
section
/-!
SUPPORT. The model's own tests: terms that the well-formedness checks refuse, words written out from the encodings of the
spec, single steps whose results the spec prints, and for every statement a state and operands that meet its hypotheses.
-/

namespace Sys2Proof.Tests

set_option Elab.async false

open Sys2Proof Sys2Proof.Machine

/-! ## Ill-formed terms: one for each check of `Instr.wf` -/

def ldPlain : LdLit := { xa := 0, off := .imm 0, w := .b32, strong := false, scope := .core, rsp := false }
def atomAdd : AtomLit :=
  { xa := 1, off := .imm 0, op := .add, sg := false, w64 := false, rel := false, acq := false, scope := .core, rsp := false }
def peerPlain : PeerLit := { xa := 1, off := .imm 0, op := .add, sg := false, w := .b32, rel := false, acq := false }
def fpPlain : FpMod := { bf := false, ftz := false, rm := none, vc := 0 }
def toS32 : CvtLit := { ftz := false, rm := none, dst := .s32, src := .u32 }

theorem test_wf_refuses_operands : ([
    .movsX 0 0, .faddM 0 0 0 { fpPlain with bf := true }, .fsubM 0 0 0 { fpPlain with vc := 1 },
    .fmulM 0 0 0 { fpPlain with vc := 1 }, .ffma 0 0 0 { fpPlain with bf := true }, .fcvt 0 0 toS32,
    .hadd2M 0 0 0 { fpPlain with vc := 1 }, .hmul2M 0 0 0 { fpPlain with vc := 1 }, .vote ⟨8, 0, .any⟩,
    .voteMask ⟨8, 0, .all⟩ 0, .tcvt 0 0 .fp32, .tcvtZb 0 0 .fp32] : List Instr).all (fun i => !i.wf) = true := by
  decide +kernel

theorem test_wf_refuses_accesses : ([
    .ldSFull 0 { ldPlain with rsp := true }, .ldHFull 0 { ldPlain with rsp := true, scope := .die },
    .ldHFull 0 { ldPlain with rsp := true, strong := true }, .stSFull 0 { ldPlain with rsp := true },
    .stHFull 0 { ldPlain with rsp := true }, .atom 0 0 1 atomAdd, .atom 0 0 0 { atomAdd with sg := true },
    .atom 0 0 0 { atomAdd with acq := true, rsp := true, scope := .sys }, .red 0 { atomAdd with op := .xchg },
    .red 0 { atomAdd with acq := true }, .pld 0 { peerPlain with rel := true }, .pld 0 { peerPlain with w := .b128 },
    .pst 0 { peerPlain with acq := true }, .pst 0 { peerPlain with op := .min },
    .patom 0 0 0 { peerPlain with w := .b16 }, .patom 0 0 1 peerPlain] : List Instr).all (fun i => !i.wf) = true := by
  decide +kernel

/-! ## Words written out from the encodings of the spec, family by family -/

def decoded (ws : List (Nat × Instr)) : Bool := ws.all fun p => decodeTableWord 64 p.1 = some p.2

theorem test_decode_control : decoded [
    (0x02000040, .winb 64), (0x02400050, .shrinkV 80),
    (0x03000001, .trap 1), (0x04010000, .setfmt 4),
    (0x0480C000, .gangset 3), (0x05004080, .movsX 1 1),
    (0x04C1C000, .movsV 7 0), (0x005FFFFB, .bra 0x1FFFFB),
    (0x00C00030, .call 0x30)] = true := by decide +kernel

theorem test_decode_vector : decoded [
    (0x0840C140, .iaddImm 3 2 0x40), (0x0B0A4388, .iscmp false .ge 1 7 8),
    (0x0E408082, .shlImm 2 1 2), (0x0D01438B, .xor 5 7 11),
    (0x0000D8040D804103, .lut3 1 2 3 4 0xD8),
    (0x000000030B414082, .select 5 1 2 3), (0x18014084, .plop .and 5 1 4)] = true := by decide +kernel

theorem test_decode_uniform : decoded [
    (0x14028509, .xadd 10 10 9), (0x15824087, .xshlImm 9 1 7),
    (0x1513C79C, .xlop .xor 15 15 28), (0x16C04080, .xscmp false .eq 1 1 0),
    (0x17054A11, .xld 21 20 17), (0x17454A11, .xst 21 20 17),
    (0x0060550016810000, .xmovi 4 0x00605500)] = true := by decide +kernel

theorem test_decode_memory : decoded [
    (0x28808085, .ldH 2 (.reg 5 1)), (0x2801004F, .ldS 4 (.imm 15 0)),
    (0x29008086, .stS 2 (.reg 6 1)),
    (0x2A810000, .fence .die false false), (0x2A82C000, .fence .pkg true true),
    (0x180080342C028000, .pld 10 { xa := 6, off := .imm 8, op := .add, sg := false, w := .b64, rel := false, acq := true })] = true := by decide +kernel

theorem test_decode_lanes : decoded [
    (0x24004100, .vote ⟨1, 2, .any⟩), (0x2441C982, .voteMask ⟨7, 3, .bal⟩ 2),
    (0x248104C8, .sred 4 9 .addF)] = true := by decide +kernel

theorem test_decode_barriers_and_commands : decoded [
    (0x32900000, .bararr (.group 0)), (0x33100000, .barwait (.group 0) 0),
    (0x33034780, .barwait (.object 13) 15), (0x3380C000, .waitc .fet 0),
    (0x34C08180, .gresAll 2 3), (0x30828000, .tfetch 10 none),
    (0x30810580, .tfetch 4 (some 3)), (0x31814480, .mreduce 5 (some 1)),
    (0x31C28000, .coll 10 none)] = true := by decide +kernel

theorem test_decode_tiles_and_matrix : decoded [
    (0x38008205, .tld 2 4 5), (0x000000023880C301, .tldSc 3 6 1 2),
    (0x39810085, .tcvt 4 1 .l6), (0x3A04C289, .tqntL6 3 1 5 9),
    (0x3C208401, .mma true 2 8 1), (0x3C40058E, .mmx 0 11 14),
    (0x3CC94082, .mmxSpec 5 2 1 2), (0x40000108, .sld 0 2 8),
    (0x40800100, .sbindS 0 2), (0x41814000, .sqry 5 0)] = true := by decide +kernel

theorem test_decode_system : decoded [
    (0x48C00A00, .taskretry 20), (0x48400184, .taskarm 3 4),
    (0x4C014203, .csrr 5 0x203), (0x4C408288, .csrw 2 0x288),
    (0x4CC18000, .tlbinv 6)] = true := by decide +kernel

/-- R308, R312, R419, R500, R502: words that are no instruction, by why. -/
theorem test_decode_refuses : ([
    (0x03C00000, .unimpl), (0xFFFFFFFF, .unimpl), (0x00200000, .illenc),
    (0x0B0C4388, .illenc), (0x16DFC080, .illenc), (0x17800022, .illenc)] : List (Nat × DecodeErr)).all
    (fun p => match decode p.1 0 with | .error e => e == p.2 | .ok _ => false) = true := by decide +kernel

/-! ## Single steps with results that the spec prints -/

/-- A strand in supervisor mode that holds everything an instruction can name. -/
def strand : Strand :=
  { uid := 1, run := 1, wg := 1, sup := true, splits := [(0, { valid := true, pc := 0x104#48, mask := 0xFFFFFFFF#32 })]
    allot := 128, naccs := 16 }
def wgOne : Workgroup := { probeWg with id := 1, run := 1 }
def partZero : Partition := { halves := 1#16, hwlimit := 0x3FFFF000#64 }
/-- The package with one strand, which issues with all lanes. -/
def on (t : Strand) : State :=
  { State.reset with
    cores := [(0, { ctx := { strands := [(0, t)], wgs := [wgOne] } })]
    parts := [(0, partZero)]
    cur := { pc := 0x104#48, npc := 0x108#48, act := 0xFFFFFFFF#32 }
    nextId := 100 }
/-- The strand with uniform registers, and with vector registers by lane. -/
def withX (l : List (Nat × DWord)) : Strand := { strand with xregs := l }
def withV (l : List (Nat × Nat × Word)) : Strand :=
  { strand with vregs := l.foldl (fun m e => Store.write 0 m (32 * e.1 + e.2.1) e.2.2) [] }
/-- The state after an instruction (the same state if it stops). -/
def after (i : Instr) (s : State) : State := match exec i s with | .next t => t | _ => s
/-- Lanes of a vector register. -/
def lanesV (v : Nat) (ls : List Nat) (s : State) : List Nat := ls.map fun l => (s.v v l).toNat

/-- R366. -/
theorem test_bfi : ((after (.bfi 0 1 2 3) (on (withV [(1, 0, 0xAB#32), (2, 0, 0xFFFFFFFF#32), (3, 0, 0x804#32)]))).v 0 0) =
    0xFFFFFABF#32 := by decide +kernel
/-- Table 18-6. -/
theorem test_bfx : [0xC08#32, 0xC14#32, 0x81C#32, 0x10#32].map (fun w =>
      let s := on (withV [(1, 0, 0xF0F01234#32), (2, 0, w)])
      ((after (.bfxU 0 1 2) s).v 0 0, (after (.bfxS 0 1 2) s).v 0 0)) =
    [(0x12#32, 0x12#32), (0xF0F#32, 0xFFFFFF0F#32), (0xF#32, 0xFFFFFFFF#32), (0#32, 0#32)] := by decide +kernel
/-- R407. -/
theorem test_funs : ((after (.funs 0 1 2 3) (on (withV [(1, 0, 0x87654321#32), (2, 0, 0xFF#32), (3, 0, 4#32)]))).v 0 0) =
    0xF8765432#32 := by decide +kernel
/-- R418. -/
theorem test_imulh :
    let s := on (withV [(1, 0, 0xFFFFFFFF#32), (2, 0, 2#32)])
    ((after (.imulhS32 0 1 2) s).v 0 0, (after (.imulhU32 0 1 2) s).v 0 0) = (0xFFFFFFFF#32, 1#32) := by decide +kernel
/-- R414: the most negative number is written unchanged. -/
theorem test_iabs : ((after (.iabs 0 1) (on (withV [(1, 0, 0x80000000#32)]))).v 0 0) = 0x80000000#32 := by decide +kernel

/-- R455: lanes 0 to 4 hold 5, 1, 7, 2, 4 and lane 2's predicate is false. -/
def scanState : State :=
  let s := on { withV [(1, 0, 5#32), (1, 1, 1#32), (1, 2, 7#32), (1, 3, 2#32), (1, 4, 4#32)] with
    live := 0x1F#32, xregs := [(3, 0b11001#64)] }
  { s with cur := { s.cur with act := 0b11011#32 } }
theorem test_scan : lanesV 2 [0, 1, 2, 3, 4] (after (.scan 2 1 .addU) scanState) = [5, 6, 0, 8, 12] := by decide +kernel
theorem test_sred_mask : (after (.sredMask 5 1 .maxU 3) scanState).x 5 = 5#64 := by decide +kernel

/-- R428: lanes 0 to 3 hold 7, 9, 7, 7; the mask is 0b1011. -/
theorem test_match :
    let s := on { withV [(1, 0, 7#32), (1, 1, 9#32), (1, 2, 7#32), (1, 3, 7#32)] with xregs := [(1, 0b1011#64)] }
    lanesV 2 [0, 1, 2, 3] (after (.matchMask 2 1 1) { s with cur := { s.cur with act := 0xF#32 } }) =
      [0b1001, 0b0010, 0b1001, 0b1001] := by decide +kernel
/-- R493: P3 is true in lanes 0 and 2. -/
theorem test_vote :
    let s := on { strand with xregs := [(2, 0b1011#64)], preds := [(3, 0b101#32)] }
    let s := { s with cur := { s.cur with act := 0xF#32 } }
    ((after (.voteMask ⟨7, 3, .bal⟩ 2) s).x 7, (after (.voteMask ⟨1, 3, .any⟩ 2) s).p 1,
      (after (.voteMask ⟨1, 3, .all⟩ 2) s).p 1) = (1#64, 0xF#32, 0#32) := by decide +kernel
/-- R461: table 3 rotates by one lane; lane 0 has exited. -/
theorem test_shflp :
    let w : Workgroup := { wgOne with patterns := [(3, (List.range 32).map fun l => BitVec.ofNat 8 ((l + 1) % 32))] }
    let t := { withV [(1, 0, 9#32), (1, 1, 5#32)] with live := 0xFFFFFFFE#32 }
    let s := { on t with cores := [(0, { ctx := { strands := [(0, t)], wgs := [w] } })] }
    lanesV 2 [0, 31] (after (.shflp 2 1 3) s) = [5, 0] := by decide +kernel
/-- R359: ADD of 1 from lanes 2 and 5, with 0 in memory. -/
theorem test_atom_chain :
    let s := on { withV ((List.range 32).map fun l => (2, l, 1#32)) with xregs := [(1, 0xE000000000000100#64)] }
    let t := after (.atom 3 2 0 { atomAdd with xa := 1 }) { s with cur := { s.cur with act := 0b100100#32 } }
    (lanesV 3 [2, 5] t, t.harbour.load 0x100 4) = ([0, 1], 2) := by decide +kernel
/-- R500: the result goes to every lane of the split, active or not. -/
theorem test_xscmp :
    let s := on (withX [(1, 0xFFFFFFFFFFFFFFFF#64)])
    let s := { s with cur := { s.cur with act := 1#32 } }
    ((after (.xscmp true .lt 1 1 0) s).p 1, (after (.xscmp false .lt 1 1 0) s).p 1) = (0xFFFFFFFF#32, 0#32) := by decide +kernel
/-- R443, R61: a write to P0 is discarded; P0 as a source is true. -/
theorem test_plop :
    let s := on { strand with preds := [(2, 0b110#32)] }
    ((after (.plop .andn 0 0 2) s).p 0, (after (.plop .andn 3 0 2) s).p 3) = (0xFFFFFFFF#32, 0xFFFFFFF9#32) := by decide +kernel
/-- R100, R105: the largest number doubled overflows with OF and IX. -/
theorem test_fadd_overflow :
    let t := after (.fadd 0 1 1) (on (withV [(1, 0, 0x7F7FFFFF#32)]))
    (t.v 0 0, t.me.flg.toNat % 64) = (0x7F800000#32, (flagOF ||| flagIX).toNat) := by decide +kernel
/-- R466, R193: the highest active lane's word is stored. -/
theorem test_store_highest_lane :
    let t := after (.stS 1 (.imm 0 0)) (on (withV [(1, 0, 1#32), (1, 30, 0x11223344#32), (1, 31, 0x55667788#32)]))
    (t.shelf 0).bytes 0 5 = [0x88#8, 0x77#8, 0x66#8, 0x55#8, 0#8] := by decide +kernel
/-- R25: some lanes take a branch; the others stay in the issuing entry. -/
theorem test_branch_splits :
    let s := on strand
    let t := after (.bra 3) { s with cur := { s.cur with act := 0xFF#32 } }
    ((t.me.split 0).pc, (t.me.split 0).mask, (t.me.split 1).pc, (t.me.split 1).mask) =
      (0x108#48, 0xFFFFFF00#32, 0x110#48, 0xFF#32) := by decide +kernel
/-- R363, Table 7-8: the last arrival flips the object. -/
theorem test_barrier_flips :
    let s := after (.barinit 1 2) (on (withX [(1, 0x100#64), (2, 1#64)]))
    let t := after (.bararr (.object 1)) s
    ((s.barrier 0 0x100).phase, (t.barrier 0 0x100).phase, (t.barrier 0 0x100).cnt) = (false, true, 1) := by decide +kernel
/-- R488, R242: TRAP in user mode writes its frame at 0x1A0 of the control area and enters TVEC. -/
theorem test_trap :
    let s := on { strand with sup := false, live := 0xF#32 }
    let s := { s with parts := [(0, { partZero with tvec := 0x2004#64 })] }
    let t := after (.trap 7) s
    (t.me.sup, (t.me.split 0).pc, (t.me.split 0).mask, t.harbour.load 0x1A0 2, t.harbour.load 0x1D0 8) =
      (true, 0x2004#48, 0xF#32, 0x5A, 7) := by decide +kernel
/-- R484, R490: an L6 image read by TLD is written back by TSTR. -/
theorem test_tile_round_trip :
    let s := on (withX [(2, 0x50#64 <<< 36 ||| 0x4000000000#64 ||| 0xFFFFFFFF#64), (3, 0x1000#64)])
    let s := s.modShelf 0 fun m => m.putBytes 0 [0x41#8, 0x10#8, 0x80#8]
    let t := after (.tstr 3 0) (after (.tld 0 1 2) s)
    ((t.tile 0).elem false 0 0, (t.tile 0).elem false 0 1, (t.shelf 0).bytes 0x1000 3) =
      (1, 1, [0x41#8, 0x10#8, 0x80#8]) := by decide +kernel


/-! ## For every statement with hypotheses, states and operands that meet them -/

theorem runs_of {s : State} (h : (s.strand? s.cur.core s.cur.slot).isSome && s.cur.act != 0 && s.me.sup) :
    s.Runs := by
  simp only [Bool.and_eq_true, bne_iff_ne, ne_eq] at h
  exact ⟨h.1.1, h.1.2, .inl h.2⟩

/-- The issuing state of most witnesses. -/
def s0 : State := on strand
theorem s0_runs : s0.Runs := runs_of rfl
theorem s0_canonical : s0.canonical = true := rfl

theorem test_premises_lane_values :
    (∃ x, laneSpec (.imad 127 126 125 124) = some x ∧ s0.Runs ∧ s0.canonical = true ∧
      (∀ r ∈ x.dest :: x.srcs, s0.Holds r.val 1) ∧ s0.Free x.dest.val 1) ∧
    s0.Holds 127 1 ∧ s0.Free 127 1 ∧ s0.flagsOpen = false ∧
    laneWord (.bfi 127 127 127 127) = some (0x109FFFFF, some 127) := by
  refine ⟨⟨_, rfl, s0_runs, s0_canonical, ?_⟩, ?_⟩ <;> simp only [State.Holds, State.Free] <;> decide +kernel

theorem test_premises_lane_flags : ∃ x, flagSpec (.hfma2 127 1 2 { fpPlain with vc := 126 }) = some x ∧ s0.Runs ∧
    s0.canonical = true ∧ (∀ r ∈ x.dest :: x.srcs, s0.Holds r.val 1) ∧ s0.Free x.dest.val 1 := by
  refine ⟨_, rfl, s0_runs, s0_canonical, ?_⟩ <;> simp only [State.Holds, State.Free] <;> decide +kernel

theorem test_premises_predicates : ∃ x, predSpec (.iscmp true .ge 7 127 0) = some x ∧ s0.Runs ∧ s0.canonical = true ∧
    ∀ r ∈ x.srcs, s0.Holds r.val 1 := by
  refine ⟨_, rfl, s0_runs, s0_canonical, ?_⟩ <;> unfold State.Holds <;> decide +kernel

theorem test_premises_uniform : s0.Runs ∧ s0.canonical = true ∧ (∃ x, uniSpec (.xadd 63 62 61) = some x ∧ x.ok s0) ∧
    (∃ x, uniSpec (.movsX 0 0x12) = some x ∧ x.ok s0) ∧ (∃ x, uniSpec (.csrr 0 0x204) = some x ∧ x.ok s0) ∧
    (∃ x, uniSpec (.sqry 0 15) = some x ∧ x.ok s0) := by
  refine ⟨s0_runs, s0_canonical, ⟨_, rfl, trivial⟩, ⟨_, rfl, fun _ => rfl⟩, ⟨_, rfl, rfl, rfl, rfl⟩, ⟨_, rfl, ?_⟩⟩
  decide +kernel

/-- X1 names the last word of the shelf, X2 that of harbour in the window, X3 the first beyond lane 0 of it. -/
def sm : State := on (withX [(1, 0xFFFFC#64), (2, 0xE00000003FFFEFF8#64), (3, 0xE000000000000000#64), (4, 0xD000000000000000#64)])
theorem sm_runs : sm.Runs := runs_of rfl
def atEnd : LdLit := { xa := 2, off := .imm 0, w := .b64, strong := true, scope := .die, rsp := true }

/-- What `Access.Ready` asks, as a test. -/
theorem ready_of {x : Access} {c : CClass} {s : State} (hr : s.Runs)
    (h : (s.canonical && decide (x.data.val + x.width.regs ≤ 128 ∧ s.me.wb + x.data.val + x.width.regs ≤ s.me.allot) &&
      x.offs.all (fun r => decide (r.val + 1 ≤ 128 ∧ s.me.wb + r.val + 1 ≤ s.me.allot)) && decide (s.countRoom c) &&
      decide ((s.part s.me.part).dbgctl = []) && decide (s.me.peers = [])) = true) : x.Ready c s := by
  simp only [Bool.and_eq_true, decide_eq_true_eq, List.all_eq_true] at h
  have hp := h.2
  refine ⟨hr, h.1.1.1.1.1, ⟨⟨h.1.1.1.1.2.1, h.1.1.1.1.2.2, by simp [hp]⟩, fun r m => ?_⟩, h.1.1.2, h.1.2, fun _ => ?_⟩
  · exact ⟨(h.1.1.1.2 r m).1, (h.1.1.1.2 r m).2, by simp [hp]⟩
  · simp [Strand.releasing, Strand.openReqs, hp]

/-- What `HarbourOk` asks, as a test. -/
def harbourOk (s : State) (a n : Nat) (rd wr : Bool) : Bool :=
  decide (a / 2 ^ 30 = 0xE * 2 ^ 30) && decide (a % n = 0) && decide ((s.part s.me.part).hwbase.toNat ≤ a % 2 ^ 30) &&
    decide (a % 2 ^ 30 + n ≤ (s.part s.me.part).hwlimit.toNat) && s.declared true rd wr (a % 2 ^ 30) n
theorem harbourOk_of {s : State} {a n : Nat} {rd wr : Bool} (h : harbourOk s a n rd wr = true) : HarbourOk s a n rd wr := by
  simp only [harbourOk, Bool.and_eq_true, decide_eq_true_eq] at h
  exact ⟨h.1.1.1.1, h.1.1.1.2, ⟨h.1.1.2, h.1.2⟩, h.2⟩
theorem lanes_of {s : State} {at_ : Nat → Nat} {n : Nat} {rd wr : Bool}
    (h : ((List.range 32).all fun l => harbourOk s (at_ l) n rd wr) = true) :
    ∀ l < 32, s.cur.act.getLsbD l = true → HarbourOk s (at_ l) n rd wr := fun l hl _ => by
  simp only [List.all_eq_true, List.mem_range] at h
  exact harbourOk_of (h l hl)

theorem sm_unreleased : sm.unreleased := by
  unfold State.unreleased
  refine ⟨fun k h => ?_, rfl, by decide +kernel⟩
  have : sm.mySplit.stall = .none := rfl
  rw [this] at h; cases h

theorem test_premises_loads :
    (∃ x, shelfLoad (.ldS 127 (.imm 1 0)) = some x ∧ x.Ready .lds sm ∧ x.InShelf sm ∧ sm.Free x.data.val x.width.regs) ∧
    (∃ x, harbourLoad (.ldHFull 126 atEnd) = some x ∧ x.Ready .lds sm ∧ x.InHarbour sm true false ∧
      sm.Free x.data.val x.width.regs ∧ (x.scope = .core → sm.roomL1) ∧ (x.rsp = true → sm.unreleased)) := by
  refine ⟨⟨_, rfl, ready_of sm_runs (by decide +kernel), ?_, ?_⟩,
    ⟨_, rfl, ready_of sm_runs (by decide +kernel), lanes_of (by decide +kernel), ?_, nofun, fun _ => sm_unreleased⟩⟩
  · unfold Access.InShelf; decide +kernel
  · unfold State.Free; decide +kernel
  · unfold State.Free; decide +kernel

theorem test_premises_stores :
    (∃ x, shelfStore (.stS 127 (.imm 1 0)) = some x ∧ x.Ready .sts sm ∧ x.InShelf sm) ∧
    (∃ x, harbourStore (.stHFull 126 { atEnd with rsp := false, scope := .core }) = some x ∧ x.Ready .sts sm ∧
      x.InHarbour sm false true ∧ (x.scope = .core → sm.roomL1)) := by
  refine ⟨⟨_, rfl, ready_of sm_runs (by decide +kernel), ?_⟩,
    ⟨_, rfl, ready_of sm_runs (by decide +kernel), lanes_of (by decide +kernel), fun _ => ?_⟩⟩
  · unfold Access.InShelf; decide +kernel
  · unfold State.roomL1; decide +kernel

theorem atom_ready {l : AtomLit} {regs : List VReg} {c : CClass} {rd : Bool} (h1 : ∀ r ∈ regs, sm.Holds r.val (if l.w64 then 2 else 1))
    (h2 : ∀ r ∈ offReg l.off, sm.Holds r.val 1) (h3 : sm.countRoom c)
    (h4 : ((List.range 32).all fun k => harbourOk sm (sm.offAddr l.xa l.off k) (if l.w64 then 8 else 4) rd true) = true) :
    AtomReady sm l regs c rd :=
  ⟨sm_runs, rfl, h1, h2, h3, rfl, ⟨fun _ => rfl, fun _ _ => rfl⟩, lanes_of h4, fun _ => sm_unreleased⟩

theorem test_premises_atomics :
    (let l : AtomLit := { atomAdd with op := .cas, xa := 2, w64 := true, acq := true, rsp := true, scope := .die }
     AtomReady sm l (126 :: 124 :: if l.op = .cas then [122] else []) .lds true ∧ sm.Free 126 (if l.w64 then 2 else 1)) ∧
    AtomReady sm { atomAdd with xa := 3, off := .reg 5 } [127] .sts false := by
  refine ⟨⟨atom_ready ?_ ?_ (by decide +kernel) (by decide +kernel), ?_⟩, atom_ready ?_ ?_ (by decide +kernel) (by decide +kernel)⟩
    <;> simp only [State.Holds, State.Free] <;> decide +kernel

theorem test_premises_uniform_accesses : UniformReady sm 2 0 true false ∧ UniformReady sm 2 0 false true :=
  ⟨⟨sm_runs, rfl, rfl, harbourOk_of (by decide +kernel), rfl, by unfold State.roomL1; decide +kernel⟩,
    ⟨sm_runs, rfl, rfl, harbourOk_of (by decide +kernel), rfl, by unfold State.roomL1; decide +kernel⟩⟩

theorem test_premises_fences : (sm.Runs ∧ sm.canonical = true ∧ sm.me.acquiring = [] ∧ sm.me.openReqs = [] ∧ sm.me.loading = []) ∧
    (let w : PeerWait := { cur := {}, lanes := 1#32, flight := 7, reqs := [3], dest := some (2, 8) }
     let s := on { strand with peers := [w] }
     let a := on { strand with peers := [{ w with acq := true }] }
     s.Runs ∧ s.canonical = true ∧ s.cur.done = false ∧ s.me.acquiring = [] ∧ s.me.openReqs ≠ [] ∧ s.me.loading ≠ [] ∧
       a.Runs ∧ a.canonical = true ∧ a.cur.done = false ∧ a.me.acquiring ≠ []) ∧ LineReady sm 2 :=
  ⟨⟨sm_runs, rfl, rfl, rfl, rfl⟩, ⟨runs_of rfl, rfl, rfl, rfl, by decide, by decide, runs_of rfl, rfl, rfl, by decide⟩, ⟨sm_runs, rfl, harbourOk_of (by decide +kernel), by decide +kernel⟩⟩

/-- All lanes are alive, and X5 names lanes 0 and 31. -/
def sw : State := on { strand with xregs := [(5, 0xFFFFFFFF80000001#64)] }
theorem sw_wide (m : Option XReg) (h : ∀ x ∈ m, (sw.x x.val).setWidth 32 &&& ~~~sw.me.live = 0) : StrandWide sw m :=
  ⟨runs_of rfl, rfl, rfl, h⟩

theorem test_premises_lanes_exchange :
    (∃ m x, crossSpec (.matchMask 127 126 5) = some (m, x) ∧ StrandWide sw m ∧ (∀ r ∈ x.dest :: x.srcs, sw.Holds r.val 1) ∧
      sw.Free x.dest.val 1) ∧
    (∃ m x, crossSpec (.shflp 1 1 15) = some (m, x) ∧ StrandWide sw m ∧ (∀ r ∈ x.dest :: x.srcs, sw.Holds r.val 1) ∧
      sw.Free x.dest.val 1) := by
  refine ⟨⟨_, _, rfl, sw_wide _ (by decide +kernel), ?_⟩, ⟨_, _, rfl, sw_wide _ (by decide +kernel), ?_⟩⟩
    <;> simp only [State.Holds, State.Free] <;> decide +kernel

theorem test_premises_lanes_reduce :
    (∃ m d a op, sredSpec (.sredMask 63 127 .addF 5) = some (m, d, a, op) ∧ StrandWide sw m ∧ sw.Holds a.val 1) ∧
    (∃ m w, voteSpec (.voteMask ⟨63, 7, .bal⟩ 5) = some (m, w) ∧ StrandWide sw m) ∧
    ∃ m w, voteSpec (.vote ⟨7, 0, .any⟩) = some (m, w) ∧ StrandWide sw m := by
  refine ⟨⟨_, _, _, _, rfl, sw_wide _ (by decide +kernel), ?_⟩, ⟨_, _, rfl, sw_wide _ (by decide +kernel)⟩,
    ⟨_, _, rfl, sw_wide _ nofun⟩⟩
  unfold State.Holds; decide +kernel

theorem test_premises_patterns :
    let s := on (withX [(1, 0xFFFE0#64)])
    s.Runs ∧ s.canonical = true ∧ (s.part s.me.part).dbgctl = [] ∧ ((s.ctx s.cur.core).wg? s.me.wg).isSome = true ∧
      s.countRoom .lds ∧ s.xn 1 % 32 = 0 ∧ s.xn 1 + 32 ≤ Config.shelfBytes ∧
      ∀ k < 32, ((s.shelf s.cur.core).byte (s.xn 1 + k)).toNat < 32 :=
  ⟨runs_of rfl, rfl, rfl, by decide +kernel, by decide +kernel, by decide +kernel, by decide +kernel, by decide +kernel⟩

/-- X1 is 64, X2 a legal FMT, X3 a gang register of one strand. -/
theorem test_premises_strand_fields :
    let s := on (withX [(1, 63#64)])
    s.Runs ∧ s.canonical = true ∧ s.Alone ∧
      ∀ i ∈ ([.nop, .yield, .waitc .col 1, .winb 120, .setfmt 0, .setfmtF 1, .gangset 0, .shrinkV 8, .shrinkL] : List Instr),
        ∃ x, strandSpec i = some x ∧ x.ok s := by
  refine ⟨runs_of rfl, rfl, ⟨rfl, rfl, by decide +kernel⟩, ?_⟩
  simp only [List.mem_cons, List.not_mem_nil, or_false, forall_eq_or_imp, forall_eq]
  refine ⟨⟨_, rfl, trivial⟩, ⟨_, rfl, trivial⟩, ⟨_, rfl, ?_⟩, ⟨_, rfl, ?_⟩, ⟨_, rfl, ?_⟩, ⟨_, rfl, ?_⟩, ⟨_, rfl, ?_⟩, ⟨_, rfl, ?_⟩,
    ⟨_, rfl, ?_⟩⟩ <;> simp only [strandOnly] <;> decide +kernel

theorem test_premises_select : s0.canonical = true ∧ s0.select 0 0 = some (0, 0) := by decide +kernel

theorem test_premises_branches :
    let s := on (withX [(1, 1#64), (63, 0x400#64 + 4)])
    let p := { s with cur := { s.cur with act := 1#32 } }
    s.Runs ∧ s.canonical = true ∧ s.Alone ∧
      (∃ x, branchSpec .ret = some x ∧ x.taken s ∧ s.mySplit.mask &&& ~~~s.cur.act = 0 ∧ placeOk (x.target s)) ∧
      (∃ x, branchSpec (.loopx 1 16383) = some x ∧ ¬x.taken s) ∧
      p.Runs ∧ p.Alone ∧
      ∃ x, branchSpec (.bra 3) = some x ∧ x.taken p ∧ p.mySplit.mask &&& ~~~p.cur.act ≠ 0 ∧
        placeOk (x.target p) ∧ x.target p ≠ p.cur.npc ∧
        ∃ y, branchSpec (.bra 1) = some y ∧ y.taken p ∧ placeOk (y.target p) ∧ y.target p = p.cur.npc := by
  refine ⟨runs_of rfl, rfl, ⟨rfl, rfl, by decide +kernel⟩, ⟨_, rfl, trivial, by decide +kernel, ?_⟩, ⟨_, rfl, ?_⟩, runs_of rfl,
    ⟨rfl, rfl, by decide +kernel⟩, ⟨_, rfl, trivial, by decide +kernel, ?_, ?_, _, rfl, trivial, ?_, ?_⟩⟩ <;> (try unfold placeOk) <;>
    (try simp only []) <;> decide +kernel
/-- One of two splits waits, in user mode; the other runs. -/
def twoSplits : Strand :=
  { strand with splits := [(0, { valid := true, pc := 0x104#48, mask := 0xFFFF#32 }), (3, { valid := true, pc := 0x124#48, mask := 0xFFFF0000#32 })] }
theorem test_premises_syncs :
    (s0.Runs ∧ s0.canonical = true ∧ s0.cur.entry < 4 ∧ s0.mySplit.valid = true ∧ s0.me.stack = [] ∧ s0.me.twins = none ∧
      s0.me.validEntries = [s0.cur.entry]) ∧
    let s := on twoSplits
    s.Runs ∧ s.canonical = true ∧ s.cur.entry < 4 ∧ s.mySplit.valid = true ∧ s.me.stack = [] ∧ s.me.twins = none ∧
      ∃ e < 4, e ≠ s.cur.entry ∧ (s.me.split e).valid = true ∧ (s.me.split e).wait ≠ 1 :=
  ⟨⟨s0_runs, rfl, by decide +kernel, rfl, rfl, by decide +kernel, by decide +kernel⟩,
    runs_of rfl, rfl, by decide +kernel, rfl, rfl, by decide +kernel, 3, by decide, by decide, by decide +kernel, by decide +kernel⟩

/-- A user-mode strand with a vector for its traps. -/
def su : State :=
  let s := on { strand with sup := false }
  { s with parts := [(0, { partZero with tvec := 0x2004#64, svec := 0x3004#64 })] }
theorem su_runs : su.Runs := ⟨rfl, by decide +kernel, .inr rfl⟩

theorem test_premises_exit :
    (s0.Runs ∧ s0.canonical = true ∧ s0.me.sup = true) ∧
    (let s := { su with cur := { su.cur with act := 1#32 } }
     s.Runs ∧ s.canonical = true ∧ s.me.sup = false ∧ s.me.live &&& ~~~s.cur.act ≠ 0 ∧ s.Alone ∧
       s.mySplit.mask &&& ~~~s.cur.act ≠ 0) ∧
    (su.Runs ∧ su.canonical = true ∧ su.me.sup = false ∧ su.me.live &&& ~~~su.cur.act = 0 ∧ su.me.guards = []) :=
  ⟨⟨s0_runs, rfl, rfl⟩, ⟨⟨rfl, by decide +kernel, .inr rfl⟩, rfl, rfl, by decide +kernel, ⟨rfl, rfl, by decide +kernel⟩, by decide +kernel⟩,
    su_runs, rfl, rfl, by decide +kernel, rfl⟩

theorem su_may_trap : su.MayTrap := ⟨⟨⟨rfl, by decide +kernel, rfl, rfl, by decide +kernel, by decide +kernel⟩, rfl⟩, rfl⟩

theorem test_premises_traps :
    ((trapWord .brk).isSome = true ∧ ({ su with cur := { su.cur with act := 0#32 } } : State).me.dbgstep = false) ∧
    (trapSpec su (.trap 16383) = some (0x5A, 1, 16383, su.cur.npc) ∧ su.MayTrap ∧ su.cur.act ≠ 0) ∧
    (let s := on { strand with stcode := 0x58#16 }
     s.Runs ∧ s.canonical = true ∧ s.me.sup = true ∧ s.me.stcode ≠ 0) ∧
    (let s : State := { s0 with parts := su.parts }
     s.Runs ∧ s.canonical = true ∧ s.me.sup = true ∧ s.Alone ∧ s.me.stcode = 0 ∧
       s.trapReady s.cur.core s.me.part (s.part s.me.part).svec = true ∧ (s.part s.me.part).trctl.getLsbD 0 = false ∧
       (s.ctx s.cur.core).latches = []) :=
  ⟨⟨rfl, rfl⟩, ⟨rfl, su_may_trap, by decide +kernel⟩, ⟨runs_of rfl, rfl, rfl, by decide +kernel⟩,
    ⟨rfl, by decide +kernel, .inl rfl⟩, rfl, rfl, ⟨rfl, rfl, by decide +kernel⟩, rfl, by decide +kernel, by decide +kernel, rfl⟩

theorem test_premises_privileged : su.MayTrap := su_may_trap

/-- A control area of version 1 with one split of all lanes at 0x204. -/
def areaBytes : List (Nat × List Byte) :=
  [(0, [1#8]), (4, [1#8]), (0x40, recordOf 0x204#48 0 true 0xFFFFFFFF#32 0#32)]
def sr : State := areaBytes.foldl (fun s e => { s with harbour := s.harbour.putBytes e.1 e.2 }) s0
theorem test_premises_tret : sr.Runs ∧ sr.canonical = true ∧ sr.me.sup = true ∧ sr.me.openReqs = [] ∧
    sr.tretOk sr.area = true ∧ sr.areaField 0x0D 1 = 0 ∧
    ∀ e f, e < 4 → f < 4 → e ≠ f → sr.areaField (0x46 + 16 * e) 1 / 128 = 1 → sr.areaField (0x46 + 16 * f) 1 / 128 = 1 →
      sr.areaField (0x40 + 16 * e) 6 ≠ sr.areaField (0x40 + 16 * f) 6 := by
  refine ⟨runs_of rfl, by decide +kernel, rfl, rfl, by decide +kernel, by decide +kernel, ?_⟩
  intro e f he hf
  have : ∀ e < 4, sr.areaField (0x46 + 16 * e) 1 / 128 = 1 → e = 0 := by decide +kernel
  intro h h1 h2
  exact absurd ((this e he h1).trans (this f hf h2).symm) h

/-- X1 names the last object of the shelf, X2 one of position 1 of a cohort, X3 the greatest operands. -/
def sb : State :=
  let t := withX [(1, 0xFFFF0#64), (2, 0x1000000000000#64 ||| 0x100000000000#64 ||| 0x40#64), (3, 0x7FFFF#64), (4, 0xFFFFFFFF#64)]
  let t := { t with gslots := [(3, 255)] }
  { on t with
    cores := [(0, { ctx := { strands := [(0, t)], wgs := [{ wgOne with cohort := [0, 1] }],
                             gbars := [{ key := 7, run := 1, entry := 255, wg := 0, each := false, spans := true,
                                         phase := false, exp := 2, cnt := 1, drop := 0 }] } }),
              (1, { ctx := { shelf := Mem.store [] 0x40 16 (BarrierObj.encode { (s0.barrier 0 0) with cnt := 1, exp := 1 }) } })] }
theorem sb_ready : BarReady sb := ⟨runs_of rfl, by decide +kernel, rfl, rfl⟩

theorem test_premises_barriers :
    BarReady sb ∧ sb.objectAt 1 false sb.cur.core 0xFFFF0 ∧ sb.xn 3 < 2 ^ 19 ∧
      (sb.barrier sb.cur.core 0xFFFF0).pend + sb.xn 4 < 2 ^ 32 ∧
      (sb.barrier sb.cur.core 0xFFFF0).phase ≠ (sb.x 3).getLsbD 0 ∧
      ¬(sb.barrier sb.cur.core 0xFFFF0).phase ≠ (sb.x 2).getLsbD 0 := by
  refine ⟨sb_ready, ⟨by decide, by decide, .inl ⟨by decide +kernel, rfl⟩⟩, ?_, ?_, ?_, ?_⟩ <;> decide +kernel

theorem test_premises_barrier_signals :
    (signalSpec (.bardrop (.object 2)) = some (.object 2, true) ∧ BarReady sb ∧ sb.objectAt 2 true 1 0x40 ∧
      (sb.barrier 1 0x40).cnt ≠ 0 ∧ (sb.barrier 1 0x40).drop < 0xFFFF ∧ sb.me.openReqs = []) ∧
    (signalSpec (.bararr (.group 3)) = some (.group 3, false) ∧ sb.me.gslots.at? 3 = some 255 ∧
      ∃ home g, sb.groupBarrier? sb.cur.core sb.me 255 = some (home, g) ∧ g.cnt ≠ 0 ∧
        ∀ h ∈ (sb.ctx home).gbars, h.key = g.key → h = g) := by
  refine ⟨⟨rfl, sb_ready, ⟨by decide, by decide, .inr ⟨rfl, 1, by decide, by decide +kernel, by decide +kernel⟩⟩, ?_, ?_, rfl⟩,
    rfl, by decide +kernel, 0, _, rfl, ?_, ?_⟩ <;> decide +kernel

theorem test_premises_guards : (∃ g v, gresSpec s0 (.gresAll 7 0) = some (g, v)) ∧ s0.Runs ∧ s0.canonical = true ∧
    (s0.ctx s0.cur.core).queue = [] ∧ ∀ c ∈ s0.cmds, c.uid ≠ s0.me.uid :=
  ⟨⟨_, _, rfl⟩, s0_runs, rfl, rfl, by decide +kernel⟩

theorem test_premises_csr_writes : ∃ u, s0.setCsr? 0x242 (s0.x 63) = some u ∧ s0.Runs ∧ s0.canonical = true ∧ s0.me.sup = true ∧
    s0.me.openReqs = [] ∧ csrBits (s0.part s0.me.part).debugLevel 0x242 = some 0x800000003FF80000#64 :=
  ⟨_, rfl, s0_runs, rfl, rfl, rfl, rfl⟩

/-- X1 is a whole L6 tile's shape, X2 and X3 the last images of the shelf, X4 a quantiser's shape. -/
def stl : State := on (withX [(1, 0x54000000000#64 ||| 0xFFFFFFFF#64), (2, 0xFFA00#64), (3, 0xFFF80#64), (4, 0x40FFFFFFFF#64)])
theorem stl_ready (n : TReg) (h : n.val < stl.myWg.ntiles := by decide +kernel) : TileReady stl n :=
  ⟨runs_of rfl, rfl, rfl, by decide +kernel, h⟩
theorem stl_pool : PoolReady stl := ⟨by decide +kernel, 0, by decide, by decide +kernel, by decide +kernel⟩

theorem test_premises_tile_loads :
    (TileReady stl 15 ∧ stl.tileFree 15 ∧ stl.countRoom .lds ∧ Fmt.ofCode (stl.xn 1 / 2 ^ 40 % 16) = some .l6 ∧
      badShape (stl.xn 1) = false ∧ stl.xn 2 % 16 = 0 ∧ stl.xn 2 + packedBytes .l6 ≤ Config.shelfBytes) ∧
    (let t := { stl.me with splits := [(0, { valid := true, pc := 0x104#48, mask := 0xFFFFFFFF#32, fmt := 0x500#32 })] }
     let s := { stl with cores := [(0, { ctx := { strands := [(0, t)], wgs := [wgOne] } })] }
     TileReady s 15 ∧ s.tileFree 15 ∧ PoolReady s ∧ s.countRoom .lds ∧ Fmt.ofCode (fmtB s.fmt) = some .l6 ∧
      s.xn 2 % 16 = 0 ∧ s.xn 2 + packedBytes .l6 ≤ Config.shelfBytes ∧ s.xn 3 % 16 = 0 ∧ s.xn 3 + 128 ≤ Config.shelfBytes) := by
  refine ⟨⟨stl_ready 15, rfl, ?_, ?_, ?_, ?_, ?_⟩, ⟨runs_of rfl, rfl, rfl, by decide +kernel, by decide +kernel⟩, rfl,
    ⟨by decide +kernel, 0, by decide, by decide +kernel, by decide +kernel⟩, ?_, ?_, ?_, ?_, ?_, ?_⟩ <;> decide +kernel

theorem test_premises_tile_stores : TileReady stl 15 ∧ stl.tileFree 15 ∧ stl.countRoom .sts ∧ stl.xn 2 % 16 = 0 ∧
    stl.xn 2 + packedBytes (stl.tile 15).efmt ≤ Config.shelfBytes := by
  refine ⟨stl_ready 15, rfl, ?_, ?_, ?_⟩ <;> decide +kernel

theorem test_premises_tile_conversions :
    (tcvtSpec (.tcvtZb 15 0 .bf16) = some (15, 0, .bf16, true) ∧ TileReady stl 15 ∧ (0 : TReg).val < stl.myWg.ntiles ∧ stl.tileFree 15) ∧
    (tqntSpec (.tqntL6Zb 15 7 31 4) = some (.l6, true, 15, 7, 31, 4) ∧ TileReady stl 15 ∧ stl.tileFree 15 ∧ PoolReady stl ∧
      stl.me.converged = true ∧ 2 * (7 : PReg).val + 1 < stl.me.naccs ∧ stl.xn 4 / 2 ^ 32 % 128 ≤ 64 ∧
      (stl.ctx stl.cur.core).lockedA stl.me.uid 14 = false ∧ (stl.ctx stl.cur.core).lockedA stl.me.uid 15 = false) := by
  refine ⟨⟨rfl, stl_ready 15, ?_, rfl⟩, rfl, stl_ready 15, rfl, stl_pool, ?_, ?_, ?_, ?_, ?_⟩ <;> decide +kernel

/-- S0 names a current entry. -/
def ss : State :=
  let t := { withX [(3, 0xFFF80#64)] with sregs := [(0, 0#16)] }
  { on t with cores := [(0, { ctx := { strands := [(0, t)], wgs := [{ wgOne with free := [1, 2] }],
                                        scales := [(0, { use := .used, refs := 1 })] } })] }
theorem ss_pool : PoolReady ss := ⟨by decide +kernel, 1, by decide, by decide +kernel, by decide +kernel⟩
theorem ss_live : ss.scalesLive 0 := ⟨0#16, by decide +kernel, by decide +kernel⟩

theorem test_premises_scales :
    (∃ x, scaleSpec (.sld 31 3 0) = some x ∧ ss.Runs ∧ ss.canonical = true ∧ (ss.part ss.me.part).dbgctl = [] ∧ PoolReady ss ∧
      x.ok ss ∧ (∀ r ∈ x.vregs, ss.Holds r.1.val r.2) ∧ (∀ r ∈ x.sregs, ss.scalesLive r) ∧ ∀ c ∈ x.cls, ss.countRoom c) ∧
    (∃ x, scaleSpec (.smul 31 0 0) = some x ∧ ∀ r ∈ x.sregs, ss.scalesLive r) ∧
    (∃ x, scaleSpec (.scvtToS 31 126) = some x ∧ ∀ r ∈ x.vregs, ss.Holds r.1.val r.2) ∧
    (ss.Holds 126 2 ∧ ss.Free 126 2 ∧ ss.scalesLive 0) ∧
    (ss.countRoom .sts ∧ (ss.xn 3 + 16 * 0) % 16 = 0 ∧ ss.xn 3 + 16 * 0 + 128 ≤ Config.shelfBytes) := by
  refine ⟨⟨_, rfl, runs_of rfl, by decide +kernel, rfl, ss_pool, ?_, ?_, ?_, ?_⟩, ⟨_, rfl, ?_⟩, ⟨_, rfl, ?_⟩, ⟨?_, ?_, ss_live⟩, ?_⟩
  · simp only []; decide +kernel
  · nofun
  · nofun
  · decide +kernel
  · intro r hr; simp only [List.mem_cons, List.not_mem_nil, or_false, or_self] at hr; subst hr; exact ss_live
  · simp only [State.Holds]; decide +kernel
  · unfold State.Holds; decide +kernel
  · unfold State.Free; decide +kernel
  · decide +kernel

theorem test_premises_bindings :
    (∃ tag, bindSpec ss (.sbindS 15 0) = some (15, some 0, tag)) ∧ TileReady ss 15 ∧ ss.tileFree 15 ∧ ss.scalesLive 0 ∧
      (ss.tile 15).bound = false ∧ (ss.ctx ss.cur.core).current 0 = true ∧ ss.me.sregs.at? 0 = some 0 :=
  ⟨⟨_, rfl⟩, ⟨runs_of rfl, by decide +kernel, rfl, by decide +kernel, by decide +kernel⟩, rfl, ss_live, rfl, by decide +kernel, by decide +kernel⟩

/-- Shelf contents by offset, bytes and number. -/
def shelfOf (fs : List (Nat × Nat × Nat)) : Mem := fs.foldl (fun m f => Mem.store m f.1 f.2.1 f.2.2) []
/-- The package with one strand and shelf contents. -/
def onShelf (t : Strand) (fs : List (Nat × Nat × Nat)) : State :=
  { on t with cores := [(0, { ctx := { strands := [(0, t)], wgs := [wgOne], shelf := shelfOf fs } })] }
/-- A strand's split with an FMT. -/
def withFmt (t : Strand) (f : Word) : Strand :=
  { t with splits := [(0, { valid := true, pc := 0x104#48, mask := 0xFFFFFFFF#32, fmt := f })] }

/-- X2 names the last 4 KiB of the shelf; ACCRD writes 16 registers of FP16. -/
def sa : State := on (withFmt (withX [(2, 0xFF000#64)]) 0x20#32)
theorem sa_ready : AccReady sa 15 := ⟨runs_of rfl, rfl, rfl, rfl, by decide +kernel, rfl⟩
theorem test_premises_accumulators :
    (∃ ok v, accSpec (.accz 15) = some (15, ok, v) ∧ ok sa) ∧ (∃ ok v, accSpec (.accwr 15 96) = some (15, ok, v) ∧ ok sa) ∧
    (∃ ok v, accSpec (.accld 15 2 0) = some (15, ok, v) ∧ ok sa) ∧ AccReady sa 15 ∧
    (sa.Holds 112 sa.outRegs ∧ sa.Free 112 sa.outRegs) ∧
    sa.countRoom .sts ∧ (sa.xn 2 + 128 * 0) % 128 = 0 ∧ sa.xn 2 + 128 * 0 + 4096 ≤ Config.shelfBytes := by
  refine ⟨⟨_, _, rfl, trivial⟩, ⟨_, _, rfl, ?_⟩, ⟨_, _, rfl, ?_⟩, sa_ready, ⟨?_, ?_⟩, ?_⟩
    <;> (try simp only [State.Holds, State.Free]) <;> decide +kernel

/-- FMT asks for L6 by L6; X1 and X2 name stream descriptors of rings of 64 slots, the second with 1,024 steps. -/
def smx (g : Store Guard) : State :=
  onShelf (withFmt { withX [(1, 0x20#64), (2, 0xFFFE0#64)] with guards := g } 0x5500#32)
    [(0x30, 2, 64), (0x20, 4, 0x1000), (0x28, 4, 0xFF000), (0xFFFF0, 2, 64), (0xFFFF2, 2, 63), (0xFFFF4, 2, 1024),
      (0xFFFE0, 4, 0x20000), (0xFFFE8, 4, 0xFF400)]
theorem smx_ready (g : Store Guard) (h1 : (smx g).canonical = true) (h2 : (smx g).countRoom .mat)
    (h3 : (acceptedPair (smx g).fmt).isSome = true) : MatReady (smx g) 15 :=
  ⟨runs_of rfl, h1, rfl, rfl, rfl, Nat.lt_of_sub_eq_succ rfl, h2, Nat.lt_of_sub_eq_succ rfl, rfl, h3⟩
theorem smx_checks (g : Store Guard)
    (h1 : badStreams (smx g).fmt ((smx g).streamAt 0 (smx g).me 1) ((smx g).streamAt 0 (smx g).me 2) = false)
    (h2 : ringTrap (((smx g).streamAt 0 (smx g).me 1).rings .l6 ++ ((smx g).streamAt 0 (smx g).me 2).rings .l6) = none)
    (h3 : ∀ e ∈ (smx g).parts, e.2.trctl.getLsbD 0 = false) (h4 : (smx g).xn 1 = 0x20 ∧ (smx g).xn 2 = 0xFFFE0)
    (h5 : (Fmt.ofCode (fmtA (smx g).fmt)).getD .fp32 = .l6 ∧ (Fmt.ofCode (fmtB (smx g).fmt)).getD .fp32 = .l6) :
    MmxChecks (smx g) 1 2 :=
  ⟨⟨by rw [show (1 : XReg).val = 1 from rfl, h4.1], by rw [show (2 : XReg).val = 2 from rfl, h4.2],
    by rw [show (1 : XReg).val = 1 from rfl, h4.1]; decide, by rw [show (2 : XReg).val = 2 from rfl, h4.2]; decide⟩, h1,
    by rw [h5.1, h5.2]; exact h2, rfl, h3⟩

theorem test_premises_matrix :
    (MatReady (smx []) 15 ∧ (smx []).Holds 112 16 ∧ (15 : TReg).val < (smx []).myWg.ntiles ∧
      (∀ fa fb, acceptedPair (smx []).fmt = some (fa, fb) → fb = ((smx []).tile 15).efmt) ∧
      (smx []).staleA (smx []).cur = none ∧ (smx []).staleB (smx []).fmt 15 = none) ∧
    (mmxSpec (.mmx 15 1 2) = some (15, 1, 2, none, false) ∧ MmxChecks (smx []) 1 2 ∧ (smx []).guardNow none = .isTrue) ∧
    (mmxSpec (.mmxGuard 15 1 1 2) = some (15, 1, 2, some 1, false) ∧ MatReady (smx [(1, .isFalse)]) 15 ∧
      MmxChecks (smx [(1, .isFalse)]) 1 2 ∧ (smx [(1, .isFalse)]).guardNow (some 1) = .isFalse) ∧
    (mmxSpec (.mmxSpec 15 1 1 2) = some (15, 1, 2, some 1, true) ∧ MatReady (smx [(1, .unresolved)]) 15 ∧
      MmxChecks (smx [(1, .unresolved)]) 1 2 ∧ (smx [(1, .unresolved)]).guardNow (some 1) = .unresolved ∧
      ((smx [(1, .unresolved)]).ctx 0).shadowsFree ≠ []) := by
  refine ⟨⟨smx_ready _ ?_ ?_ ?_, ?_, ?_, ?_, rfl, rfl⟩, ⟨rfl, smx_checks _ ?_ ?_ ?_ ?_ ?_, rfl⟩,
    ⟨rfl, smx_ready _ ?_ ?_ ?_, smx_checks _ ?_ ?_ ?_ ?_ ?_, ?_⟩, rfl, smx_ready _ ?_ ?_ ?_, smx_checks _ ?_ ?_ ?_ ?_ ?_, ?_, ?_⟩
  case refine_6 => intro fa fb h; cases h; rfl
  all_goals (try unfold State.Holds) <;> decide +kernel

/-- X1 names a word of this package's own harbour through the peer space, within PEERWIN. -/
def sp : State := { on (withX [(1, 0xD000000000010000#64)]) with peerwin := 0x0003FFFF00000000#64 }
theorem peer_ready {s : State} {x : PeerSpec} (hr : s.Runs) (hc : s.canonical = true) (hn : s.countRoom x.cls)
    (hq : s.requests = [] ∧ s.me.peers = [] ∧ s.me.entering = none) (hs : s.slotOf s.cur.core s.me.uid = some s.cur.slot)
    (h1 : ∀ r ∈ x.dest.toList ++ x.srcs, s.Holds r.val x.regs) (h2 : ∀ r ∈ offReg x.lit.off, s.Holds r.val 1)
    (h3 : s.Free x.writes.1 x.writes.2)
    (h4 : ((List.range 32).all fun k => !s.cur.act.getLsbD k || decide (s.offAddr x.lit.xa x.lit.off k / 2 ^ 60 = 0xD ∧
      s.offAddr x.lit.xa x.lit.off k % x.lit.w.bytes = 0 ∧ s.offAddr x.lit.xa x.lit.off k / 2 ^ 30 % 2 ^ 18 = 0)) = true) :
    x.Ready s :=
  ⟨hr, hc, hn, hq, hs, h1, h2, h3, fun k hk ha => by
    simp only [List.all_eq_true, List.mem_range, Bool.or_eq_true, Bool.not_eq_true', decide_eq_true_eq] at h4
    exact (h4 k hk).resolve_left (by simp [ha])⟩
theorem sp_home {x : PeerSpec}
    (h4 : ((List.range 32).all fun k => decide (sp.offAddr x.lit.xa x.lit.off k / 2 ^ 48 % 2 ^ 12 = sp.nodeId.toNat ∧
      sp.peerwin.toNat % 2 ^ 18 * 4096 ≤ sp.peerPlace x.lit k ∧
      sp.peerPlace x.lit k + x.lit.w.bytes ≤ sp.peerwin.toNat / 2 ^ 32 % 2 ^ 18 * 4096)) = true) : x.AtHome sp := fun k hk _ => by
  simp only [List.all_eq_true, List.mem_range, decide_eq_true_eq] at h4; exact h4 k hk

/-- A strand with a PLD of node 5 that has vector registers 2 and 3 still to write, in supervisor and in user mode. -/
def wait5 : PeerWait := { cur := {}, lanes := 1#32, flight := 7, reqs := [3], dest := some (2, 8) }
def sq : State := on { strand with peers := [wait5] }
def swait : State := { on { strand with sup := false, peers := [wait5] } with parts := su.parts }
theorem test_premises_trap_waits :
    trapSpec swait .brk = some (0x58, 0, 0, swait.cur.pc) ∧ swait.MayEnter ∧ (swait.ctx swait.cur.core).latches = [] ∧
      swait.cur.act ≠ 0 ∧ swait.me.loading ≠ [] :=
  ⟨rfl, ⟨rfl, by decide +kernel, rfl, rfl, by decide +kernel, by decide +kernel⟩, rfl, by decide +kernel, by decide +kernel⟩
/-- X1 names the harbour of node 5, to which there is a route. -/
def saway : State := { on (withX [(1, 0xD005000000000100#64)]) with routes := [(5, 0x8000000000000001#64)] }
theorem away_of {x : PeerSpec} (h : ((List.range 32).all fun k => decide (saway.offAddr x.lit.xa x.lit.off k / 2 ^ 48 % 2 ^ 12 ≠ saway.nodeId.toNat ∧
    (saway.route (saway.offAddr x.lit.xa x.lit.off k / 2 ^ 48 % 2 ^ 12)).testBit 63 = true)) = true) : x.Away saway := fun k hk _ => by
  simp only [List.all_eq_true, List.mem_range, decide_eq_true_eq] at h; exact h k hk
theorem test_premises_peers :
    (∃ x, peerSpec (.pld 127 peerPlain) = some x ∧ (Instr.pld 127 peerPlain).wf = true ∧ x.Ready sp ∧ x.AtHome sp) ∧
    (∃ x, peerSpec (.patom 120 122 124 { peerPlain with op := .cas, w := .b64, acq := true, rel := true }) = some x ∧
      (Instr.patom 120 122 124 { peerPlain with op := .cas, w := .b64, acq := true, rel := true }).wf = true ∧
      x.Ready sp ∧ x.AtHome sp) ∧
    (∃ x, peerSpec (.pld 127 peerPlain) = some x ∧ x.Ready saway ∧ x.Away saway ∧ x.dest ≠ none) ∧
    ∃ x, peerSpec (.pst 127 peerPlain) = some x ∧ x.Ready saway ∧ x.Away saway ∧ x.dest = none := by
  refine ⟨⟨_, rfl, by decide, peer_ready (runs_of rfl) rfl ?_ ?_ ?_ ?_ ?_ ?_ ?_, sp_home ?_⟩,
    ⟨_, rfl, by decide, peer_ready (runs_of rfl) rfl ?_ ?_ ?_ ?_ ?_ ?_ ?_, sp_home ?_⟩,
    ⟨_, rfl, peer_ready (runs_of rfl) rfl ?_ ?_ ?_ ?_ ?_ ?_ ?_, away_of ?_, ?_⟩,
    _, rfl, peer_ready (runs_of rfl) rfl ?_ ?_ ?_ ?_ ?_ ?_ ?_, away_of ?_, rfl⟩
    <;> (try simp only [State.Holds, State.Free]) <;> decide +kernel
/-- The second register of a lane's 64 bits is a source. -/
theorem test_premises_named_registers :
    ∃ x, laneSpec (.iadd 0 1 3) = some x ∧ sq.Runs ∧ sq.cur.done = false ∧ (∀ r ∈ x.dest :: x.srcs, sq.me.wb + r.val < sq.me.allot) ∧
      ∃ r ∈ x.dest :: x.srcs, ∃ w ∈ sq.me.peers, w.writes (sq.me.wb + r.val) = true :=
  ⟨_, rfl, runs_of rfl, rfl, by decide +kernel, by decide +kernel⟩
/-- Descriptors: of COPY at 0x20, of a tensor of 16 BF16 numbers at 0x100, of MCOPY at 0x200, MFILL at 0x260, MREDUCE at
0x2C0; the far page at 0 is translated. -/
def sc (g : Store Guard) : State :=
  let t := { withX [(1, 0x20#64), (2, 0x100#64), (3, 0x200#64), (4, 0x260#64), (5, 0x2C0#64), (6, 0x10000000FFF80#64)] with guards := g }
  { on t with
    parts := [(0, { partZero with fptroot := 0x8000000000000000#64 })]
    cores := [(0, { tlb := [{ part := 0, base := 0, size := 0x10000, leaf := 0xF#64 }]
                    ctx := { strands := [(0, t)], wgs := [{ wgOne with cohort := [0] }]
                             shelf := shelfOf [(0x24, 4, 0xF0000), (0x28, 4, 0x10000), (0x2C, 4, 0x8000),
                               (0x118, 4, 0x8000), (0x11C, 2, 1), (0x120, 1, 1), (0x121, 1, 1), (0x140, 4, 16), (0x148, 2, 16),
                               (0x200, 8, 0x1000), (0x210, 8, 0x2000), (0x218, 4, 0x8000), (0x220, 8, 0x4000),
                               (0x260, 8, 0x1000), (0x268, 8, 0xAB), (0x270, 8, 16), (0x278, 4, 0x8000),
                               (0x2C0, 8, 0x1000), (0x2D0, 8, 4), (0x2D8, 4, 0x8000), (0x2DD, 1, 1), (0x2E0, 8, 0x2000)] } })] }
theorem sc_ready (g : Store Guard) (cls : CClass) (h1 : (sc g).canonical = true) (h2 : (sc g).countRoom cls)
    (h3 : (sc g).me.flights = []) : CmdReady (sc g) cls :=
  ⟨runs_of rfl, h1, rfl, h2, rfl, fun c h => (by cases h), fun c h => (by cases h), fun f h => by rw [h3] at h; cases h⟩
theorem probe_ok {s : State} {rs : List FarRange}
    (h : (match (s.probe s.cur.core s.me.part s.probeRun rs).1 with | .ok _ => true | _ => false) = true) :
    ∃ ps, (s.probe s.cur.core s.me.part s.probeRun rs).1 = .ok ps := by
  cases hp : (s.probe s.cur.core s.me.part s.probeRun rs).1 with
  | ok ps => exact ⟨ps, rfl⟩
  | error _ => rw [hp] at h; cases h

theorem test_premises_copies :
    (∃ x, cmdSpec (.copy 1 none) = some x ∧ CmdReady (sc []) x.cls ∧ x.ready (sc []) ∧ (sc []).guardNow x.guard = .isTrue ∧
      x.now (sc [])) ∧
    (∃ x, cmdSpec (.puts 6 (some 3) 127) = some x ∧ CmdReady (sc [(3, .isFalse)]) x.cls ∧ x.ready (sc [(3, .isFalse)]) ∧
      (sc [(3, .isFalse)]).guardNow x.guard = .isFalse) ∧
    (∃ x, cmdSpec (.copy 1 (some 3)) = some x ∧ CmdReady (sc [(3, .unresolved)]) x.cls ∧ x.ready (sc [(3, .unresolved)]) ∧
      (sc [(3, .unresolved)]).guardNow x.guard = .unresolved) := by
  refine ⟨⟨_, rfl, sc_ready _ _ ?_ ?_ rfl, ?_, rfl, trivial⟩, ⟨_, rfl, sc_ready _ _ ?_ ?_ rfl, ?_, ?_⟩,
    ⟨_, rfl, sc_ready _ _ ?_ ?_ rfl, ?_, ?_⟩⟩ <;> (try simp only [copySpec, putsSpec, State.descOk, State.Holds]) <;> decide +kernel

theorem test_premises_fetches :
    (∃ x, cmdSpec (.tfetch 2 none) = some x ∧ CmdReady (sc []) x.cls ∧ x.ready (sc []) ∧ (sc []).guardNow x.guard = .isTrue ∧
      x.now (sc []) ∧ x.expects (sc []) = some (0x8000, 32)) ∧
    (∃ x, cmdSpec (.tstore 2 (some 0)) = some x ∧ x.ready (sc [(0, .unresolved)])) := by
  refine ⟨⟨_, rfl, sc_ready _ _ ?_ ?_ rfl, ?_, rfl, ?_, ?_⟩, ⟨_, rfl, ?_⟩⟩
  · decide +kernel
  · decide +kernel
  · refine ⟨⟨?_, ?_⟩, ?_, ?_, ?_, ?_, ?_, ?_, rfl, probe_ok ?_⟩ <;> decide +kernel
  · constructor <;> decide +kernel
  · decide +kernel
  · refine ⟨⟨?_, ?_⟩, ?_, ?_, ?_, ?_, ?_, ?_, rfl, probe_ok ?_⟩ <;> decide +kernel

theorem test_premises_module_commands :
    (∃ x, cmdSpec (.mcopy 3 none) = some x ∧ CmdReady (sc []) x.cls ∧ x.ready (sc []) ∧ (sc []).guardNow x.guard = .isTrue ∧
      x.now (sc []) ∧ x.expects (sc []) = some (0x8000, 0x2000)) ∧
    (∃ x, cmdSpec (.mfill 4 (some 0)) = some x ∧ x.ready (sc [(0, .unresolved)])) ∧
    (∃ x, cmdSpec (.mreduce 5 none) = some x ∧ x.ready (sc []) ∧ x.expects (sc []) = some (0x8000, 16)) := by
  refine ⟨⟨_, rfl, sc_ready _ _ ?_ ?_ rfl, ⟨⟨?_, ?_⟩, ?_, ?_, ?_, probe_ok ?_⟩, rfl, trivial, ?_⟩,
    ⟨_, rfl, ⟨⟨?_, ?_⟩, ?_, ?_, ?_, probe_ok ?_⟩⟩, ⟨_, rfl, ⟨⟨?_, ?_⟩, ?_, ?_, ?_, probe_ok ?_⟩, ?_⟩⟩ <;> decide +kernel

/-- A communicator of two ranks is record 1 at 0x10000; X1 names an all-gather of one FP32 number on it, from 0x20000 to
0x20100 in harbour. -/
def sl (g : Store Guard) : State :=
  let t := { withX [(1, 0x40#64)] with guards := g }
  { on t with
    commbase := 0x10000#64
    harbour := shelfOf [(0x10040, 1, 1), (0x10041, 1, 2)]
    cores := [(0, { ctx := { strands := [(0, t)], wgs := [wgOne]
                             shelf := shelfOf [(0x40, 8, 0xE000000000020000), (0x48, 8, 0xE000000000020100), (0x50, 4, 1), (0x54, 1, 2),
                               (0x55, 1, 1), (0x58, 4, 0x8000)] } })] }
def gather : CollDesc := CollDesc.ofBytes ((sl []).shelfList 0x40 64)
theorem sl_ready (g : Store Guard) (h1 : (sl g).canonical = true) (h2 : (sl g).countRoom .col) (h3 : (sl g).me.flights = [])
    (h4 : gather = CollDesc.ofBytes ((sl g).shelfList ((sl g).xn 1) 64)) (h5 : (sl g).descOk 1 64 64)
    (h6 : ((sl g).seenLoad ((sl g).commAt gather.comm) 1).testBit 0 = true)
    (h7 : 2 = (sl g).seenLoad ((sl g).commAt gather.comm + 1) 1 ∧ 0 = (sl g).seenLoad ((sl g).commAt gather.comm + 2) 1)
    (h8 : (sl g).bufferTrap (gather.buffers 2) = none) (h9 : (sl g).collGap (gather.buffers 2) = none)
    (h10 : (match ((sl g).collProbe gather 2).1 with | .ok [] => true | _ => false) = true) :
    CollReady (sl g) 1 gather 2 0 [] := by
  refine ⟨⟨runs_of rfl, h1, rfl, h2, rfl, fun c h => (by cases h), fun c h => (by cases h), fun f h => by rw [h3] at h; cases h⟩, h5, h4,
    by decide +kernel, by decide +kernel, h6, h7, by decide +kernel, h8, h9, ?_, rfl, fun o h => (by cases h)⟩
  split at h10 <;> first | assumption | cases h10
theorem test_premises_collectives :
    (CollReady (sl []) 1 gather 2 0 [] ∧ (sl []).guardNow none = .isTrue) ∧
    (CollReady (sl [(7, .isFalse)]) 1 gather 2 0 [] ∧ (sl [(7, .isFalse)]).guardNow (some 7) = .isFalse) ∧
    (CollReady (sl [(7, .unresolved)]) 1 gather 2 0 [] ∧ (sl [(7, .unresolved)]).guardNow (some 7) = .unresolved) := by
  refine ⟨⟨sl_ready _ ?_ ?_ rfl ?_ ?_ ?_ ?_ ?_ ?_ ?_, rfl⟩, ⟨sl_ready _ ?_ ?_ rfl ?_ ?_ ?_ ?_ ?_ ?_ ?_, ?_⟩,
    sl_ready _ ?_ ?_ rfl ?_ ?_ ?_ ?_ ?_ ?_ ?_, ?_⟩ <;> (try unfold State.descOk) <;> decide +kernel
/-- No address is in a ring. -/
theorem no_ring {s : State} (h : ∀ n, (s.part n).evbase.toNat + 32 * 2 ^ ((s.part n).evsize.toNat % 32) ≤ 0x8000 ∧
    (s.part n).trbase.toNat + 32 * 2 ^ ((s.part n).trsize.toNat % 32) ≤ 0x8000) {a : Nat} (ha : 0x8000 ≤ a) : ¬s.inRing a := by
  rintro ⟨n, hr⟩
  have := h n
  simp only at hr
  omega
theorem sd_rings {s : State} (h : s.parts = [(0, partZero)]) {a : Nat} (ha : 0x8000 ≤ a) : ¬s.inRing a := by
  refine no_ring (fun n => ?_) ha
  by_cases hn : n = 0
  · subst hn
    rw [show s.part 0 = partZero by unfold State.part; rw [h]; rfl]
    decide +kernel
  · rw [show s.part n = {} by
      unfold State.part Store.read; rw [h]; simp [Store.at?, hn]]
    decide +kernel
/-- A TCB at an address with a count of its own, which the READY check accepts. -/
def tcbAt (a st count : Nat) : List (Nat × Nat × Nat) :=
  [(a, 8, 0x2004), (a + 8, 1, st), (a + 0x0A, 2, count), (a + 0x0E, 2, 0xFFFF), (a + 0x10, 4, 1), (a + 0x14, 1, 5), (a + 0x16, 2, 8),
    (a + 0x18, 4, 1024), (a + 0x1E, 2, 4)]
/-- A graph descriptor at 0x8000, of two tasks at 0x10000, with task 1 as its one root; X1 names task 1, X3 the graph, X2 is
2. Task 1 is in state `st` with `n` events pending. -/
def stk (running st : Nat) (n : Nat := 2) : State :=
  { on (withX [(1, 0xE000000000010100#64), (2, 2#64), (3, 0xE000000000008000#64)]) with
    graphs := if running = 1 then [{ addr := 0x8000, part := 0, tcbs := 0x10000, ntcb := 2 }] else []
    harbour := shelfOf ([(0x8000, 8, 0xE000000000010000), (0x8008, 4, 2), (0x800C, 4, 1), (0x8010, 8, 0xE000000000020000),
      (0x801C, 4, running), (0x20000, 4, 1)] ++ tcbAt 0x10100 st n) }
def gtk : Graph := { addr := 0x8000, part := 0, tcbs := 0x10000, ntcb := 2 }
theorem stk_ready (r st : Nat) (x : XReg) (n : Nat) (h1 : (stk r st).canonical = true) (h2 : (stk r st).xn x.val / 2 ^ 30 = 0xE * 2 ^ 30)
    (h3 : (stk r st).xn x.val % n = 0) (h4 : (stk r st).xn x.val % 2 ^ 30 + n ≤ 0x3FFFF000) : TaskReady (stk r st) x n :=
  ⟨runs_of rfl, h1, ⟨Nat.lt_of_sub_eq_succ rfl, rfl⟩, h2, h3, ⟨Nat.zero_le _, h4⟩, fun e h => by
    cases h with | head => rfl | tail _ h => cases h⟩
theorem stk_belongs {s : State} {m : Nat → Byte} (h1 : s.graphs = [gtk]) (h2 : s.runs = []) (h : (loadOf m 0x801C 4).testBit 0 = true) :
    s.Belongs m gtk 0x10100 := by
  refine ⟨by simp [h1], ⟨h, by decide, by decide, by decide⟩, fun q hq _ => ?_, fun q hq => ?_, fun r hr => by rw [h2] at hr; cases hr⟩
  · rw [h1] at hq; exact List.mem_singleton.1 hq
  · rw [h1] at hq; obtain rfl := List.mem_singleton.1 hq; exact .inl (by decide)

theorem test_premises_task_counts :
    (TaskReady (stk 1 0) 1 256 ∧ (stk 1 0).started ((stk 1 0).seen 0 true) (inHarbourAt ((stk 1 0).xn 1)) = 0 ∧
      loadOf ((stk 1 0).seen 0 true) (0x10100 + 0x0A) 2 + (stk 1 0).xn 2 < 2 ^ 16) ∧
    (TaskReady (stk 1 1) 1 256 ∧ (stk 1 1).started ((stk 1 1).seen 0 true) (inHarbourAt ((stk 1 1).xn 1)) = 1 ∧
      (stk 1 1).Belongs ((stk 1 1).seen 0 true) gtk (inHarbourAt ((stk 1 1).xn 1)) ∧
      loadOf ((stk 1 1).seen 0 true) (0x10100 + 8) 1 % 16 = 1) ∧
    (TaskReady (stk 0 1) 1 256 ∧ (stk 0 1).started ((stk 0 1).seen 0 true) (inHarbourAt ((stk 0 1).xn 1)) = 1 ∧ (stk 0 1).graphs = []) ∧
    (let s : State := { stk 1 1 with opened := [(0x10100, 0)] }; s.started (s.seen 0 true) 0x10100 = 0) := by
  refine ⟨⟨stk_ready _ _ _ _ ?_ ?_ ?_ ?_, ?_, ?_⟩, ⟨stk_ready _ _ _ _ ?_ ?_ ?_ ?_, ?_, stk_belongs rfl rfl ?_, ?_⟩,
    ⟨stk_ready _ _ _ _ ?_ ?_ ?_ ?_, ?_, rfl⟩, ?_⟩ <;> decide +kernel

/-- At the end of a clock that a TASKSIG has reached: the task becomes READY; with ENTRY at a header it faults; or its count
is not 0. -/
def stc (n : Nat) (entry : Nat) : State :=
  let s := stk 1 1 n
  { s with batch := [0x10100], harbour := s.harbour.store 0x10100 8 entry }
theorem test_premises_batch :
    let r := fun s : State => s.readyOk (s.readyRun (readyBytes s.harbour.byte 0x10100 s.clock) gtk 0x10100 s.nextId)
    ((stc 0 0x2004).canonical = true ∧ (∀ e ∈ (stc 0 0x2004).parts, e.2.trctl.getLsbD 0 = false) ∧
      (stc 0 0x2004).Belongs (stc 0 0x2004).harbour.byte gtk 0x10100 ∧ (stc 0 0x2004).harbour.load (0x10100 + 8) 1 % 16 = 1 ∧
      (stc 0 0x2004).harbour.load (0x10100 + 0x0A) 2 = 0 ∧ r (stc 0 0x2004) = true) ∧
    ((stc 0 0x2000).canonical = true ∧ r (stc 0 0x2000) = false ∧ ∀ w, 0x10100 ≤ w → w < 0x10100 + 256 → ¬(stc 0 0x2000).inRing w) ∧
    (stc 1 0x2004).canonical = true ∧ (stc 1 0x2004).harbour.load (0x10100 + 0x0A) 2 ≠ 0 := by
  refine ⟨⟨?_, ?_, stk_belongs rfl rfl ?_, ?_, ?_, ?_⟩, ⟨?_, ?_, fun w h _ => sd_rings rfl (Nat.le_trans (by decide) h)⟩, ?_, ?_⟩ <;> decide +kernel

/-- A graph that runs already; one whose root becomes READY at once. -/
theorem test_premises_launch :
    (TaskReady (stk 1 0) 3 64 ∧ ((stk 1 0).release (stk 1 0).cur.core true).badGraph (stk 1 0).me.part (inHarbourAt ((stk 1 0).xn 3)) = false ∧
      (loadOf ((stk 1 0).seen 0 true) (inHarbourAt ((stk 1 0).xn 3) + 0x1C) 4).testBit 0 = true) ∧
    let s := stk 0 0
    let m := s.seen 0 true
    TaskReady s 3 64 ∧ (s.release s.cur.core true).badGraph s.me.part (inHarbourAt (s.xn 3)) = false ∧
      (loadOf m (inHarbourAt (s.xn 3) + 0x1C) 4).testBit 0 = false ∧ 0x8000 + 64 ≤ 0x10000 ∧
      (List.range (loadOf m (0x8000 + 0x0C) 4)).map (fun k => loadOf m (inHarbourAt (loadOf m (0x8000 + 0x10) 8) + 4 * k) 4) = [1] ∧
      loadOf m (0x10100 + 0x0C) 2 = 0 ∧
      s.readyOk (s.readyRun (readyBytes (unfaulted (storeOf m (0x10100 + 0x0A) 2 0) 0x10100) 0x10100 s.clock) gtk 0x10100 0) = true ∧
      loadOf m (0x10100 + 0x22) 2 = 0 := by
  refine ⟨⟨stk_ready _ _ _ _ ?_ ?_ ?_ ?_, ?_, ?_⟩, stk_ready _ _ _ _ ?_ ?_ ?_ ?_, ?_, ?_, ?_, ?_, ?_, ?_, ?_⟩ <;> decide +kernel

theorem test_premises_retry_and_abort :
    (TaskReady (stk 1 6) 1 256 ∧ (stk 1 6).me.sup = true ∧ (stk 1 6).Belongs ((stk 1 6).seen 0 true) gtk (inHarbourAt ((stk 1 6).xn 1)) ∧
      gtk.part = (stk 1 6).me.part ∧ loadOf ((stk 1 6).seen 0 true) (0x10100 + 8) 1 % 16 = 6 ∧
      (stk 1 6).readyOk ((stk 1 6).readyRun
        (readyBytes (unfaulted ((stk 1 6).seen 0 true) 0x10100) 0x10100 (stk 1 6).clock) gtk 0x10100 0) = true) ∧
    (TaskReady (stk 1 3) 1 256 ∧ (stk 1 3).Belongs ((stk 1 3).seen 0 true) gtk (inHarbourAt ((stk 1 3).xn 1)) ∧
      loadOf ((stk 1 3).seen 0 true) (0x10100 + 8) 1 % 16 ∈ [1, 2, 3, 4, 6, 7] ∧ 0x8000 + 64 ≤ 0x10000 ∧ (stk 1 3).cmds = [] ∧
      ∀ e ∈ (stk 1 3).cores, e.2.ctx.latches = [] ∧ (e.1 ≠ (stk 1 3).cur.core → ∀ l ∈ e.2.l1, l.2.dirty = 0)) := by
  refine ⟨⟨stk_ready _ _ _ _ ?_ ?_ ?_ ?_, rfl, stk_belongs rfl rfl ?_, rfl, ?_, ?_⟩, stk_ready _ _ _ _ ?_ ?_ ?_ ?_, stk_belongs rfl rfl ?_, ?_, ?_, rfl,
    fun e h => ?_⟩
  case refine_15 => cases h with | head => exact ⟨rfl, fun h => absurd rfl h⟩ | tail _ h => cases h
  all_goals decide +kernel

/-- X1 names 4 KiB of harbour with a table that maps every value to itself where the base table does, X2 the last 32 bytes of
the shelf; a record stands in the event queue, whose window begins at 0x40000. -/
def stb : State :=
  { on (withX [(1, 0xE000000000020000#64), (2, 0xFFFE0#64), (4, 0xBFFFFFFFFFFFFF#64)]) with
    parts := [(0, { partZero with evbase := 0x40000#64, evtail := 1#64 })], harbour := shelfOf [(0x20000, 4, 1)] }
theorem stb_ready : SupReady stb := ⟨runs_of rfl, by decide +kernel, rfl, rfl⟩
theorem test_premises_tables :
    SupReady stb ∧ (stb.xn 0 = 0 ∧ stb.countRoom .lds ∧ stb.rangeOk (stb.xn 1) 4096 64 ∧
      (∀ v < 1024, stb.seenLoad (inHarbourAt (stb.xn 1) + 4 * v) 4 < 2 ^ 16 ∧
        (stb.seenLoad (inHarbourAt (stb.xn 1) + 4 * v) 4 = 0 ∨ baseMapped (stb.seenLoad (inHarbourAt (stb.xn 1) + 4 * v) 4 - 1) = true) ∧
        (v = 0 → stb.seenLoad (inHarbourAt (stb.xn 1) + 4 * v) 4 = 1))) ∧
    (stb.xn 4 / 2 ^ 56 = 0 ∧ ((stb.xn 4).testBit 52 = true ∨ stb.xn 4 / 2 ^ 53 % 8 ≤ 5)) ∧
    (stb.xn 2 % 16 = 0 ∧ stb.xn 2 + 32 ≤ Config.shelfBytes ∧ (stb.part stb.me.part).evhead ≠ (stb.part stb.me.part).evtail) ∧
    SupReady stl ∧ stl.xn 0 % 16 = 0 ∧ (stl.part stl.me.part).evhead = (stl.part stl.me.part).evtail := by
  refine ⟨stb_ready, ⟨?_, ?_, ?_, ?_⟩, ⟨?_, ?_⟩, ⟨?_, ?_, ?_⟩, ⟨runs_of rfl, rfl, rfl, rfl⟩, ?_, ?_⟩
    <;> (try unfold State.rangeOk) <;> decide +kernel

/-- X1 names harbour for an image, X2 is 1; 16 L6 tiles. X4 asks for one record and a new map. -/
def si : State :=
  { on (withX [(1, 0xE000000000020000#64), (2, 1#64), (4, 0x10101#64), (5, 0x100#64)]) with
    harbour := shelfOf [(0x20000, 4, 1), (0x20004, 1, 2), (0x20008, 2, 8), (0x2000F, 1, 1), (8, 2, 128), (15, 1, 16)] }
theorem si_ready : SupReady si := ⟨runs_of rfl, by decide +kernel, rfl, rfl⟩
theorem test_premises_images_stored : SupReady si ∧ si.countRoom .sts ∧ si.me.loading = [] ∧
    (si.xn 2 = 1 ∧ si.rangeOk (si.xn 1) (2560 * si.myWg.ntiles) 128 ∧
      ∀ n < si.myWg.ntiles, Store.sorted (si.tile n).data = true ∧ Store.sorted (si.tile n).zbm = true) ∧
    si.xn 0 = 0 ∧ si.noMatrix ∧ si.rangeOk (si.xn 1) (imageSize (fun k => si.area.getD k 0) 0).bytes 128 := by
  refine ⟨si_ready, ?_, rfl, ⟨?_, ?_, ?_⟩, ?_, fun o h => (by cases h), ?_⟩ <;> (try unfold State.rangeOk) <;> decide +kernel

theorem test_premises_images_loaded : SupReady si ∧ si.countRoom .lds ∧ ((si.ctx si.cur.core).wg? si.me.wg).isSome = true ∧
    (si.xn 4 = 1 + flag true * 2 ^ 8 + 1 * 2 ^ 16 ∧ si.rangeOk (si.xn 1) (2560 * 1) 128 ∧
      si.tileCap ((List.range (2560 * 1)).map fun k => si.seen si.cur.core true (inHarbourAt (si.xn 1) + k)) 1 true = none ∧
      ∀ k < 1, (si.ctx si.cur.core).lockedT si.me.wg k = false) ∧
    let z := imageSize (si.seen si.cur.core false) (inHarbourAt (si.xn 1))
    let img := (List.range z.bytes).map fun k => si.seen si.cur.core true (inHarbourAt (si.xn 1) + k)
    si.xn 5 = flag true * 2 ^ 8 ∧ si.rangeOk (si.xn 1) 1024 128 ∧ imageSize (si.seen si.cur.core true) (inHarbourAt (si.xn 1)) = z ∧
      si.rangeOk (si.xn 1) z.bytes 128 ∧ si.strandCap img true = none ∧ (∀ k < si.me.naccs, (si.ctx si.cur.core).lockedA si.me.uid k = false) ∧
      imageActive img = false ∧ z.nsh = 0 := by
  refine ⟨si_ready, ?_, ?_, ⟨?_, ?_, ?_, ?_⟩, ?_, ?_, ?_, ?_, ?_, ?_, ?_, ?_⟩ <;> (try unfold State.rangeOk) <;> decide +kernel

/-- X1 names a request: groups 2 and 3, bonded, a commit to version 5. -/
def sg : State := { onShelf (withX [(1, 0xFFFE0#64)]) [(0xFFFE0, 1, 2), (0xFFFE2, 1, 3), (0xFFFE4, 4, 0x8000), (0xFFFE8, 2, 5)] with
  linkOwner := some 0 }
theorem test_premises_changes : SupReady sg ∧ sg.descOk 1 32 16 ∧ ChangeOk sg (ChangeReq.ofBytes (sg.shelfList (sg.xn 1) 32)) := by
  refine ⟨⟨runs_of rfl, by decide +kernel, rfl, rfl⟩, ?_, ⟨rfl, ?_, ?_, ?_, ?_, ?_, ?_, fun e h => ?_, fun q h => (by cases h)⟩⟩
  case refine_8 => cases h with | head => rfl | tail _ h => cases h
  case refine_5 => exact fun g _ => rfl
  all_goals (try unfold State.descOk) <;> decide +kernel
theorem test_premises_ports :
    let s : State := { State.reset with ports := [(63, { lost := 8#16, spares := [(1, 4)], down := some 7 })] }
    s.harbour.wf = true ∧ (s.port 63).lost.getLsbD 3 = true ∧
    ((s.port 63).lost.getLsbD 8 = false ∧ (s.port 63).spares.at? (8 / 4) = none) ∧
    ((s.port 63).lost.getLsbD 4 = false ∧ (s.port 63).spares.at? (4 / 4) ≠ none) ∧
    (s.port 0).down = none ∧ (s.port 63).down = some 7 := by decide +kernel

/-- Core 3 has sent a notice about line 5; the slice of the line has `n` records, of other lines. -/
def sn (n : Nat) : State :=
  { State.reset with
    notices := [⟨3, 5⟩]
    records := [(sliceOf 5, (List.range n).map fun k => ⟨512 * (k + 1) + 5, k⟩)] }
/-- A request about line 5 of core 3, which has written back its L1; it waits for an acquire, or for a notice. -/
def sw1 (t : Option Nat) (n : Option Notice) : State :=
  { State.reset with
    promotions := [{ id := 1, slice := sliceOf 5, line := 5, core := 3, wrote := true, acked := false, ticket := t, notice := n }]
    records := [(sliceOf 5, [⟨5, 3⟩])] }
/-- A split waits for the acquire's promotion. -/
def sw2 : State :=
  { sw1 (some 1) none with
    cores := [(0, { ctx := { strands := [(0, { strand with splits := [(0, { valid := true, wait := 2, stall := .promotion 1 })] })] } })] }

theorem test_premises_notices :
    (∀ k, k < 2 → let s := sn (k * 128)
      s.canonical = true ∧ (s.notices.filter fun n => n.core == 3 && sliceOf n.line == sliceOf 5) = [⟨3, 5⟩] ∧
      (∀ p ∈ s.promotions, p.slice ≠ sliceOf 5) ∧ (∀ p ∈ s.promotions, p.line ≠ 5)) ∧
    (sn 0).recordsOf (sliceOf 5) = [] ∧ ((sn 0).notices.filter fun n => n.core == 4 && sliceOf n.line == 0) = [] ∧
    ((∀ r ∈ (sn 128).recordsOf (sliceOf 5), r.line ≠ 5) ∧ Config.releaseRecords ≤ ((sn 128).recordsOf (sliceOf 5)).length ∧
      ((sn 128).recordsOf (sliceOf 5)).getLast?.isSome = true) := by
  refine ⟨fun k hk => ?_, ?_⟩
  · match k, hk with
    | 0, _ => decide +kernel
    | 1, _ => decide +kernel
  · decide +kernel

theorem test_premises_promotions :
    (let s : State := { State.reset with
        promotions := [{ id := 1, slice := 0, line := 5, core := 3, wrote := false, acked := false, ticket := none, notice := none }] };
      (s.promotions.find? fun p => p.core == 3 && !p.wrote).isSome = true ∧ s.notices = [] ∧
      (s.promotions.find? fun p => p.core == 4 && !p.wrote) = none) ∧
    ((sw1 (some 1) none).canonical = true ∧ ¬(sw1 (some 1) none).promotionWaited 1 ∧
      ∃ q, (sw1 (some 1) none).promotions.find? (·.id == 1) = some q ∧ q.wrote = true ∧ q.acked = false ∧ q.ticket = some 1) ∧
    (sw2.canonical = true ∧ sw2.promotionWaited 1) ∧
    (let s := sw1 none (some ⟨7, 5⟩);
      s.canonical = true ∧ (∀ p ∈ s.promotions, p.ticket = none) ∧ ⟨5, 3⟩ ∈ s.recordsOf (sliceOf 5) ∧
      (s.recordsOf (sliceOf 5)).length ≤ Config.releaseRecords) := by
  refine ⟨by decide +kernel, ⟨by decide +kernel, ?_, ⟨_, rfl, rfl, rfl, rfl⟩⟩, ⟨by decide +kernel, ?_⟩, by decide +kernel⟩
  · rintro ⟨e, he, -⟩; cases he
  · exact ⟨_, .head _, _, .head _, _, .head _, rfl⟩

/-- One split is passed over, and one waits for a counter that has fallen. -/
theorem test_premises_wakeups :
    let w : Split := { valid := true, wait := 2, stall := .counter .lds 0, pc := 0x104#48 }
    let t : Strand := { strand with splits := [(0, { valid := true, pc := 0x104#48 }), (3, w)] }
    let s : State := { on t with cores := [(0, { cycles := [(0, 768)], ctx := { strands := [(0, t)] } })] }
    s.canonical = true ∧ s.strand? 0 0 = some t ∧
      ((t.split 0).valid = true ∧ (t.split 0).wait = 0 ∧ (t.split 0).promoted = false ∧ (t.split 0).since + 768 ≤ s.cycle 0 0) ∧
      ((t.split 3).valid = true ∧ (t.split 3).wait = 2 ∧ s.runsCore 0 = true ∧ s.stallOver 0 t (t.split 3).stall) ∧
      (t.split 1).valid = false := by
  refine ⟨by decide +kernel, by decide +kernel, by decide +kernel, ⟨by decide +kernel, by decide +kernel, by decide +kernel, ?_⟩,
    by decide +kernel⟩
  show Strand.counter _ _ ≤ 0
  decide +kernel

/-- A run of `nwg` workgroups of 5 strands, in cohorts of `n`: 8 vector registers, 1 KiB of shelf. -/
def runOf (phase : RunPhase) (nwg n : Nat) (more : List (Nat × Nat × Nat)) : TaskRun :=
  { id := 7, part := 0, graph := 0x8000, tcb := 0x10000, index := 0
    snap := Mem.bytes (shelfOf ([(0, 8, 0x2004), (0x0E, 2, 0xFFFF), (0x10, 4, nwg), (0x14, 1, 5), (0x15, 1, n), (0x16, 2, 8),
      (0x18, 4, 1024), (0x1E, 2, 4)] ++ more)) 0 256
    groups := [], rclk := 0, phase, preempted := false, placed := 0, last := none, lastDie := none, waiting := some 0, reserved := []
    cores := [], alive := 0, stage := 0, region := 0, line := 0, nexts := 0, aborted := false }
def sd (r : TaskRun) : State := { State.reset with parts := [(0, partZero)], runs := [r], clock := 100000 }

theorem test_premises_placement :
    (let r := runOf .ready 3 0 [];
      State.canonical (sd r) = true ∧ (sd r).run? r.id = some r ∧ (sd r).open? = true ∧ (sd r).nextPlacement 0 = some (r, [0]) ∧ r.cohort = 0) ∧
    (let r := runOf .running 4 4 [];
      (sd r).run? r.id = some r ∧ (sd r).nextPlacement 0 = some (r, [0, 1, 8, 9]) ∧ r.cohort ≠ 0) ∧
    (let r := runOf .running 4 4 [];
      r.waiting = some 0 ∧ 0 + 100000 ≤ (sd r).clock ∧ r.placed < r.nwg ∧ r.reserved = [] ∧ (sd r).deferred r = false ∧
      r.preempted = false ∧ r.aborted = false ∧ ((sd r).candidates r).head? = some [0, 1, 8, 9]) := by
  refine ⟨?_, ?_, ?_⟩ <;> decide +kernel

theorem sd_has {r : TaskRun} {s : State} (h : s.parts = [(0, partZero)]) (h1 : s.run? r.id = some r) (h2 : s.runs = [r]) (h3 : 0x8000 ≤ r.tcb)
    (h4 : s.canonical = true) : s.HasRun r :=
  ⟨h1, fun q hq _ => by rw [h2] at hq; exact List.mem_singleton.1 hq,
    fun a ha _ => sd_rings h (Nat.le_trans h3 ha), h4⟩

/-- A record of 16 bytes that declares 128·n bytes of harbour at 0x20000 as read and written. -/
def rwRecord (k n : Nat) : List (Nat × Nat × Nat) := [(0x80 + 16 * k, 8, 0xE000000000020000), (0x88 + 16 * k, 8, 3 * 2 ^ 48 + 128 * n)]
/-- One that declares far memory. -/
def farRecord (k : Nat) : List (Nat × Nat × Nat) := [(0x80 + 16 * k, 8, 0x20000), (0x88 + 16 * k, 8, 3 * 2 ^ 48 + 128)]
/-- A run whose strands have ended. -/
def ended (more : List (Nat × Nat × Nat)) : TaskRun := { runOf .running 1 0 more with placed := 1, cores := [0] }
/-- A run in stage 1 at record `k`. -/
def draining (k : Nat) (more : List (Nat × Nat × Nat)) : TaskRun :=
  { runOf .edge 1 0 more with placed := 1, cores := [0], stage := 1, region := k }

theorem edge_end {r : TaskRun} {k nexts : Nat} (hk : k ≤ 8)
    (h : ((List.range 8).all fun i => i < k || (r.regionAt i).stores == false && ((r.regionAt i).access != 4 || (r.regionAt i).isHarbour == false)) = true) :
    r.EdgeAt { r with phase := .edge, stage := 2, region := 7, line := 0, nexts := 0 } k nexts := by
  refine ⟨8, hk, Nat.le_refl _, fun i h1 h2 => ?_, .inl ⟨rfl, rfl⟩⟩
  simp only [List.all_eq_true, List.mem_range, Bool.or_eq_true, decide_eq_true_eq, Bool.and_eq_true, beq_iff_eq, bne_iff_ne, ne_eq] at h
  exact (h i h2).resolve_left (by omega)

theorem test_premises_edges :
    (let r := ended [];
      (sd r).HasRun r ∧ r.preempted = false ∧ r.aborted = false ∧ r.phase = .running ∧ r.placed = r.nwg ∧ r.alive = 0 ∧
      (sd r).busyRun r.id = false ∧ r.EdgeAt { r with phase := .edge, stage := 2, region := 7, line := 0, nexts := 0 } 0 0) ∧
    (let r := ended (rwRecord 2 1);
      (sd r).HasRun r ∧ r.EdgeAt { r with phase := .edge, stage := 1, region := 2, line := 0, nexts := 0 } 0 0) ∧
    (let r := draining 7 (rwRecord 7 1);
      (sd r).HasRun r ∧ r.phase = .edge ∧ r.stage = 1 ∧ r.region < 8 ∧ r.EdgeAt { r with phase := .edge, stage := 2, region := 7, line := 0, nexts := 0 } 8 0 ∧
      (r.regionAt 7).isHarbour = true ∧ r.cores = [0] ∧ (sd r).notices = [] ∧ ((r.regionAt 7).hi - 1) / 128 < (r.regionAt 7).lo / 128 + r.line + 1 ∧
      ∀ a, r.tcb + 0x50 ≤ a ∧ a < r.tcb + 0x58 → a / 128 ≠ (r.regionAt 7).lo / 128 + r.line) ∧
    (let r := draining 0 (rwRecord 0 2);
      (sd r).HasRun r ∧ (r.regionAt 0).isHarbour = true ∧ (r.regionAt 0).lo / 128 + r.line + 1 ≤ ((r.regionAt 0).hi - 1) / 128) ∧
    (let r := draining 7 (farRecord 7);
      (sd r).HasRun r ∧ (r.regionAt 7).isHarbour = false) := by
  have hd : ∀ r : TaskRun, (sd r).parts = [(0, partZero)] := fun _ => rfl
  refine ⟨⟨sd_has (hd _) ?_ rfl ?_ ?_, rfl, rfl, rfl, ?_, rfl, rfl, edge_end (by decide) ?_⟩,
    ⟨sd_has (hd _) ?_ rfl ?_ ?_, 2, by decide, by decide, fun i _ hi => ?_, .inr ⟨by decide, ?_, rfl⟩⟩,
    ⟨sd_has (hd _) ?_ rfl ?_ ?_, rfl, rfl, by decide, edge_end (by decide) ?_, ?_, rfl, rfl, ?_, fun a ha => ?_⟩,
    ⟨sd_has (hd _) ?_ rfl ?_ ?_, ?_, ?_⟩, ⟨sd_has (hd _) ?_ rfl ?_ ?_, ?_⟩⟩
  case refine_9 =>
    have : ∀ i < 2, ((ended (rwRecord 2 1)).regionAt i).stores = false ∧ ((ended (rwRecord 2 1)).regionAt i).access ≠ 4 := by decide +kernel
    exact ⟨(this i hi).1, .inl (this i hi).2⟩
  case refine_17 =>
    have h1 : (draining 7 (rwRecord 7 1)).tcb = 0x10000 := rfl
    have h2 : ((draining 7 (rwRecord 7 1)).regionAt 7).lo / 128 + (draining 7 (rwRecord 7 1)).line = 0x400 := by decide +kernel
    rw [h2]; rw [h1] at ha; omega
  all_goals decide +kernel
/-- A run in stage 2 with `n` successors, in a graph of three tasks. -/
def sev (n : Nat) : State :=
  let r : TaskRun := { runOf .edge 1 0 [(0x24, 2, n), (0x30, 8, 0xE000000000030000)] with placed := 1, stage := 2, region := 7 }
  { sd r with
    graphs := [{ addr := 0x8000, part := 0, tcbs := 0x10000, ntcb := 19 }]
    harbour := (List.range 18).foldl (fun m k => Mem.store m (0x30000 + 4 * k) 4 (k + 1)) [] }
theorem sev_batch {n : Nat} {r : TaskRun} (stop : Nat) (_ : (sev n).runs = [r])
    (h : (r.graph == 0x8000 && r.tcb == 0x10000 && r.index == 0 && r.nexts == 0 && decide (stop = min 16 (r.field 0x24 2)) &&
      (List.range stop).all (fun k => decide ((sev n).homeLoad (harbourOf (r.field 0x30 8) + 4 * k) 4 = k + 1) && decide (k + 1 < 19) &&
        decide ((sev n).homeLoad (0x10000 + 256 * (k + 1) + 8) 1 % 16 ≠ 1))) = true) :
    EdgeBatch (sev n) r { addr := 0x8000, part := 0, tcbs := 0x10000, ntcb := 19 } stop (· + 1) := by
  simp only [Bool.and_eq_true, beq_iff_eq, decide_eq_true_eq, List.all_eq_true, List.mem_range] at h
  obtain ⟨⟨⟨⟨⟨h1, h2⟩, h3⟩, h4⟩, h5⟩, h6⟩ := h
  refine ⟨?_, ?_, ?_, fun k _ hk => (h6 k hk).1.1, fun k _ hk => (h6 k hk).1.2, fun j k _ _ _ _ e => by omega, fun a ha => ?_⟩
  · simp [sev, h1]
  · rw [h2, h3]; decide
  · rw [h4]; omega
  · exact sd_rings (s := sev n) rfl (by simp only at ha; omega)
theorem test_premises_decrements :
    (∃ r, (sev 2).runs = [r] ∧ (sev 2).HasRun r ∧ r.phase = .edge ∧ r.stage = 2 ∧ r.stepped ≠ some (sev 2).clock ∧
      EdgeBatch (sev 2) r { addr := 0x8000, part := 0, tcbs := 0x10000, ntcb := 19 } 2 (· + 1) ∧ 2 = r.field 0x24 2) ∧
    (∃ r, (sev 18).runs = [r] ∧ (sev 18).HasRun r ∧ r.stepped ≠ some (sev 18).clock ∧
      EdgeBatch (sev 18) r { addr := 0x8000, part := 0, tcbs := 0x10000, ntcb := 19 } 16 (· + 1) ∧ 16 < r.field 0x24 2) ∧
    (let r : TaskRun := { runOf .edge 1 0 [(0x24, 2, 18), (0x30, 8, 0xE000000000030000)] with
       placed := 1, stage := 2, region := 7, nexts := 16, stepped := some (sev 18).clock }
     (sd r).HasRun r ∧ r.phase = .edge ∧ r.stage = 2 ∧ r.stepped = some (sd r).clock) := by
  refine ⟨⟨_, rfl, sd_has rfl ?_ rfl ?_ ?_, rfl, rfl, ?_, sev_batch 2 rfl ?_, ?_⟩, ⟨_, rfl, sd_has rfl ?_ rfl ?_ ?_, ?_, sev_batch 16 rfl ?_, ?_⟩,
    sd_has rfl ?_ rfl ?_ ?_, ?_⟩
    <;> decide +kernel

/-- A member of strand 0 with target accumulator 15, and its operation. -/
def mem0 : MatMember :=
  { slot := 0, uid := 1, flight := 5, acc := 15, mask := 0x80000001#32, fmt := 0x5500#32, a := [], abase := 0, sa := [], sentry := none
    stream := none, guard := none, shadow := none, gone := false, flg := 0 }
def op0 : MatOp :=
  { id := 9, run := 1, mmx := false, spec := false, word := 0, gang := 0, members := [mem0], wg := 1, btile := some (0, {})
    bentry := none, sb := [], bstream := none, step := 0, nstep := 1, held := false, stopped := false, holders := [], joining := none
    finished := false }
/-- The strand has the operation in flight; the partition runs, or halts. -/
def smo (o : MatOp) (st : PStat) : State :=
  let t := { strand with flights := [{ id := 5, cls := .mat }] }
  { on t with parts := [(0, { partZero with pstat := st })]
              cores := [(0, { ctx := { strands := [(0, t)], wgs := [wgOne], queue := [o] } })] }
theorem smo_first (o : MatOp) (st : PStat) (h1 : o.members = [mem0]) (h : (smo o st).canonical = true) :
    FirstOp (smo o st) 0 o mem0 { strand with flights := [{ id := 5, cls := .mat }] } [] :=
  ⟨rfl, fun p hp => (by cases hp), ⟨h1, rfl⟩, ⟨rfl, rfl⟩, h⟩
theorem test_premises_matrix_steps :
    (FirstOp (smo op0 .running) 0 op0 mem0 { strand with flights := [{ id := 5, cls := .mat }] } [] ∧
      (smo op0 .running).engineRuns 0 = some false ∧ op0.runnable = true ∧
      (op0.inputsReady fun off => ((smo op0 .running).barrier 0 off).phase) = true) ∧
    (let o := { op0 with step := 1, finished := true }
     FirstOp (smo o .running) 0 o mem0 { strand with flights := [{ id := 5, cls := .mat }] } [] ∧ o.entries = [] ∧
      (smo o .running).noReap o.run ∧ ({ id := 5, cls := .mat } : Flight).id = mem0.flight) ∧
    (let o := { op0 with mmx := true, nstep := 2, step := 1 }
     FirstOp (smo o .halting) 0 o mem0 { strand with flights := [{ id := 5, cls := .mat }] } [] ∧
      (smo o .halting).engineRuns 0 = some true ∧ o.mmx = true ∧ o.finished = false ∧ o.stopped = false ∧ o.holders = [] ∧ o.joining = none) := by
  refine ⟨⟨smo_first _ _ rfl ?_, ?_, ?_, ?_⟩, ⟨smo_first _ _ rfl ?_, ?_, ⟨?_, fun r hr => (by cases hr)⟩, ?_⟩,
    smo_first _ _ rfl ?_, ?_, ?_, ?_, ?_, ?_, ?_⟩ <;> decide +kernel
/-- A command of strand 0 with its descriptor's fields; a tensor of 16 BF16 numbers for 0xFFF00, its barrier at 0x8000. -/
def cmdOf (k : CmdKind) (ph : CmdPhase) (fs : List (Nat × Nat × Nat)) (us : List CmdUnit) : Cmd :=
  { id := 9, kind := k, part := 0, core := 0, slot := 0, uid := 1, run := 1, flight := 5, guard := none, phase := ph
    desc := Mem.bytes (shelfOf fs) 0 256, args := [0], words := [(31, 7), (0, 9)], bcore := 0, bar := some 0x8000
    pages := [{ base := 0, size := 0x10000, module := 0, maddr := 0 }], units := us, charge := 0, limit := 0x1000000, scap := 0, high := true
    frozen := false }
def tensorFields : List (Nat × Nat × Nat) :=
  [(0x10, 4, 0xFFF00), (0x18, 4, 0x8000), (0x1C, 2, 1), (0x20, 1, 1), (0x21, 1, 1), (0x24, 4, 0x9000), (0x40, 4, 16), (0x48, 2, 16)]
/-- Unit 0 is on its way since a moment, unit 1 waits. -/
def unitsFrom (n : Nat) : List CmdUnit := [{ off := 0, len := 16, sent := some n }, { off := 16, len := 16 }]
def twoUnits : List CmdUnit := unitsFrom 0
def sco (c : Cmd) : State :=
  let t := { strand with flights := [{ id := 5, cls := .fet }] }
  { on t with
    cmds := [c]
    time := 2 ^ 40
    ports := [(0, { down := some 0 })]
    cores := [(0, { ctx := { strands := [(0, t)], wgs := [{ wgOne with alive := 1 }]
                             shelf := Mem.store [] 0x8000 16 (BarrierObj.encode { ((sco0).barrier 0 0) with cnt := 2, exp := 2 }) } })] }
where sco0 : State := on strand
theorem sco_at {c : Cmd} (h : (sco c).canonical = true) :
    CmdAt (sco c) c := by
  refine ⟨?_, fun d hd _ => List.mem_singleton.1 hd, fun d hd hn => absurd (List.mem_singleton.1 hd) hn, ⟨fun e he w hw _ => ?_, fun r hr => (by cases hr)⟩, h⟩
  · simp [State.cmd?, sco]
  · obtain rfl := List.mem_singleton.1 he
    obtain rfl := List.mem_singleton.1 hw
    decide

theorem only_unit : ∀ (k : Nat) (y : CmdUnit), k ≠ 1 →
    [({ off := 0, len := 16, landed := true } : CmdUnit), { off := 16, len := 16 }][k]? = some y → y.landed = true
  | 0, _, _, hy => Option.some.inj hy ▸ rfl
  | 1, _, hk, _ => absurd rfl hk
  | k + 2, _, _, hy => by simp at hy

theorem test_premises_commands_go_on :
    (let c := cmdOf .tfetch .admission tensorFields twoUnits
     CmdAt (sco c) c ∧ c.frozen = false ∧ (sco c).admissible 0 = some c ∧ c.kind.fetch = true ∧ c.bar = some 0x8000 ∧
       ((sco c).barrier 0 0x8000).pend + c.bytes < 2 ^ 32) ∧
    (let c := cmdOf .tfetch .release (tensorFields ++ [(0x22, 1, 8)]) twoUnits
     CmdAt (sco c) c ∧ ((sco c).barrier 0 (c.tensor.rbar + 16 * c.tensor.slot)).phase = c.tensor.rph) ∧
    (let c := cmdOf .tfetch .release (tensorFields ++ [(0x22, 1, 12)]) twoUnits
     CmdAt (sco c) c ∧ ((sco c).barrier 0 (c.tensor.rbar + 16 * c.tensor.slot)).phase ≠ c.tensor.rph) ∧
    (let c := cmdOf .copy .active [] [{ off := 0, len := 16, landed := true }, { off := 16, len := 16 }]
     CmdAt (sco c) c ∧ c.args = [0] ∧ c.units[1]? = some { off := 16, len := 16 } ∧
       ∀ k y, k ≠ 1 → c.units[k]? = some y → y.landed = true) ∧
    (let c := cmdOf .puts .active [] []
     CmdAt (sco c) c ∧ c.args = [0] ∧ (c.words.map (·.1)).Nodup ∧ ((sco c).barrier 0 0x8000).cnt ≠ 0) := by
  refine ⟨⟨sco_at ?_, rfl, ?_, rfl, rfl, ?_⟩, ⟨sco_at ?_, ?_⟩,
    ⟨sco_at ?_, ?_⟩, ⟨sco_at ?_, rfl, rfl, only_unit⟩,
    sco_at ?_, rfl, ?_, ?_⟩ <;> decide +kernel

theorem test_premises_units :
    (let x : CmdUnit := { off := 0, len := 16, sent := some (2 ^ 40) }
     let c := cmdOf .tfetch .active tensorFields (unitsFrom (2 ^ 40))
     CmdAt (sco c) c ∧ c.phase = .active ∧ c.units[0]? = some x ∧ x.acked = false ∧ (sco c).farOpen c.core = true ∧
       (sco c).time ≤ (sco c).deadline c x ∧ 0x8000 + 16 ≤ c.tensor.shelfAt 0 ∧ (sco c).holding 0 = false) ∧
    (let x : CmdUnit := { off := 0, len := 16, sent := some 0 }
     let c := cmdOf .tfetch .active tensorFields twoUnits
     CmdAt (sco c) c ∧ c.units[0]? = some x ∧ (sco c).heldUnit c x = true ∧ (sco c).deadline c x ≤ (sco c).time ∧
       (let s : State := { sco c with parts := [(0, { partZero with pstat := .halted })] }
        CmdAt s c ∧ s.heldUnit c x = true ∧ s.holding c.part = true)) ∧
    (let x : CmdUnit := { off := 0, len := 16, sent := some (2 ^ 40) }
     let c := cmdOf .mfill .active [(0x10, 8, 32)] (unitsFrom (2 ^ 40))
     CmdAt (sco c) c ∧ c.kind.module = true ∧
       (let s : State := { sco c with parts := [(0, { partZero with pstat := .halted })] }
        CmdAt s c ∧ s.farOpen c.core = true ∧ s.time ≤ s.deadline c x ∧ s.holding c.part = true)) := by
  refine ⟨⟨sco_at ?_, rfl, rfl, rfl, ?_, ?_, ?_, ?_⟩,
    ⟨sco_at ?_, rfl, ?_, ?_, ⟨(sco_at ?_).found, (sco_at ?_).one, (sco_at ?_).alone, (sco_at ?_).stays, ?_⟩, ?_, ?_⟩, sco_at ?_, rfl,
    ⟨(sco_at ?_).found, (sco_at ?_).one, (sco_at ?_).alone, (sco_at ?_).stays, ?_⟩, ?_, ?_, ?_⟩ <;> decide +kernel
/-- A strand on core 0 of partition 0, which runs a task; its state and power. -/
def sh (st : PStat) (pw : Power) (pre : Bool) : State :=
  { on strand with
    parts := [(0, { partZero with pstat := st, power := pw, resume := st == .parked })]
    runs := [{ runOf .running 1 0 [] with placed := 1, cores := [0], alive := 1, preempted := pre }] }
theorem sh_apart (st : PStat) (pw : Power) (pre : Bool) : (sh st pw pre).RunsApart := by
  refine ⟨by simp [sh], rfl, fun r hr a ha _ => ?_, rfl⟩
  obtain rfl := List.mem_singleton.1 hr
  refine no_ring (fun n => ?_) (Nat.le_trans (by decide : 0x8000 ≤ 0x10000) ha)
  by_cases hn : n = 0
  · subst hn
    show partZero.evbase.toNat + 32 * 2 ^ (partZero.evsize.toNat % 32) ≤ 0x8000 ∧
      partZero.trbase.toNat + 32 * 2 ^ (partZero.trsize.toNat % 32) ≤ 0x8000
    decide +kernel
  · rw [show (sh st pw pre).part n = {} by unfold State.part Store.read; simp [sh, Store.at?, hn]]
    decide +kernel
theorem test_premises_halts :
    ((sh .running .p0 false).RunsApart ∧ ((sh .running .p0 false).part 0).pstat = .running) ∧
    ((sh .halting .p0 true).RunsApart ∧ ((sh .halting .p0 true).part 0).pstat = .halting ∧ (sh .halting .p0 true).stopped 0 = true ∧
      (sh .halting .p0 true).mgmt.wantP3 = false) ∧
    ((sh .halted .p0 true).RunsApart ∧ ((sh .halted .p0 true).part 0).pstat = .halted ∧ ((sh .halted .p0 true).part 0).power ≠ .p2 ∧
      ((sh .halted .p0 true).part 0).wantP2 = false ∧ (sh .halted .p0 true).requests = [] ∧ (sh .halted .p0 true).mgmt.waiting = []) ∧
    ((sh .parked .p0 true).RunsApart ∧ ((sh .parked .p0 true).part 0).pstat = .parked ∧ ((sh .parked .p0 true).part 0).resume = true ∧
      ((sh .parked .p0 true).part 0).debugHalt = false ∧ ((sh .parked .p0 true).part 0).held = [] ∧
      ((sh .parked .p0 true).core 0).parked.strands = []) := by
  refine ⟨⟨sh_apart _ _ _, ?_⟩, ⟨sh_apart _ _ _, ?_⟩, ⟨sh_apart _ _ _, ?_⟩, sh_apart _ _ _, ?_⟩ <;> decide +kernel

theorem test_premises_power :
    (State.reset.mgmt.lifecycle ≠ .retired ∧ State.reset.mgmt.p3 = false ∧ State.reset.mgmt.wantP3 = false) ∧
    ((sh .halted .p0 true).part 0).power ≠ .p2 ∧ ((sh .halted .p2 true).part 0).power = .p2 ∧
    (State.reset.requests = [] ∧ State.reset.colls = [] ∧ State.reset.ebbing = false ∧
      (∀ q, (State.reset.part q).halves ≠ 0 → (State.reset.part q).power = .p2) ∧
      ∀ e ∈ State.reset.parts, State.reset.part e.1 = e.2) ∧
    ((sh .running .p1 false).parts.sorted = true ∧ ((sh .running .p1 false).part 0).halves ≠ 0) := by
  refine ⟨by decide +kernel, by decide +kernel, by decide +kernel, ⟨rfl, rfl, by decide +kernel, fun q h => absurd rfl h, fun e h => (by cases h)⟩,
    by decide +kernel⟩

/-- A change of group 2, or of 2 and 3 bonded, in a phase. -/
def changeOf (bond : Bool) (pers : Nat) (issuer : Bool) : Change :=
  { issuer := if issuer then some (0, 0, 0x8000, 0x100) else none, lead := 2, pers, bond, commit := issuer, newver := 5, start := 0, began := 0 }
def slk (ph : Nat) (c : Change) (rs : List Request) : State :=
  { on strand with
    linkOwner := some 0, time := 50 * 10 ^ 6, requests := rs
    groups := (2, { phase := ph, pers := 0, up := true, change := some c }) ::
      if c.bond then [(3, { phase := ph, pers := 0, up := true, change := some c })] else [] }
def reqAt (st : ReqState) : Request :=
  { id := 3, part := 0, core := 0, uid := 1, node := 5, addr := 0x100, op := .read 4, lanes := [0], tag := some 6, gen := 1, group := some 2, state := st
    waited := 1000 * 10 ^ 6 }
theorem calm_of {s : State} (h1 : s.cores = (on strand).cores) : s.Calm := fun e he t ht => by
  rw [h1] at he
  obtain rfl := List.mem_singleton.1 he
  obtain rfl := List.mem_singleton.1 ht
  exact ⟨rfl, fun w hw => by cases hw⟩
theorem slk_change {ph : Nat} {c : Change} {rs : List Request} (h1 : ((slk ph c rs).group 2).change = some c)
    (h2 : ((slk ph c rs).group 2).phase = ph) (h3 : (slk ph c rs).canonical = true)
    (h4 : ((slk ph c rs).changing c.lead).all (fun k => decide (((slk ph c rs).group k).change = some c)) = true) :
    InChange (slk ph c rs) 2 c ph :=
  ⟨h1, h2, fun k hk => by simp only [List.all_eq_true, decide_eq_true_eq] at h4; exact h4 k hk, h3, calm_of rfl⟩
theorem test_premises_links :
    (InChange (slk 1 (changeOf true 0 true) []) 2 (changeOf true 0 true) 1 ∧ (changeOf true 0 true).pers ≠ 3 ∧
      (changeOf true 0 true).start + 50 * 10 ^ 6 ≤ (slk 1 (changeOf true 0 true) []).time) ∧
    (InChange (slk 1 (changeOf false 1 true) [reqAt .accepted]) 2 (changeOf false 1 true) 1 ∧
      2 ∈ (slk 1 (changeOf false 1 true) [reqAt .accepted]).changing (changeOf false 1 true).lead) ∧
    (InChange (slk 2 (changeOf true 0 true) []) 2 (changeOf true 0 true) 2 ∧ (changeOf true 0 true).bond = true) ∧
    InChange (slk 3 (changeOf false 2 false) []) 2 (changeOf false 2 false) 3 ∧
    InChange (slk 4 (changeOf false 0 true) []) 2 (changeOf false 0 true) 4 ∧
    (let s : State := { on strand with linkOwner := some 0, groups := [(2, { phase := 0, pers := 1, up := true })] };
      (s.group 2).change = none ∧ (s.group 2).phase = 0 ∧ (s.group 2).up = true ∧ (s.group 2).pers = 1 ∧ s.canonical = true ∧ s.Calm ∧
      s.linkOwner = some 0 ∧ (5#16) ≠ s.topover ∧ s.committing = false) := by
  refine ⟨⟨slk_change ?_ ?_ ?_ ?_, ?_, ?_⟩, ⟨slk_change ?_ ?_ ?_ ?_, ?_⟩, ⟨slk_change ?_ ?_ ?_ ?_, ?_⟩, slk_change ?_ ?_ ?_ ?_,
    slk_change ?_ ?_ ?_ ?_, ?_, ?_, ?_, ?_, ?_, calm_of rfl, ?_⟩ <;> decide +kernel

/-- A peer's read of the last bytes of PEERWIN. -/
def inboundRead : PeerReq := { node := 5, tag := 6, gen := 1, ver := 0, addr := 0x3FFFEF80, op := .read 128 }
def spr (rs : List Request) : State :=
  { on { strand with peers := [wait5], flights := [{ id := 7, cls := .lds }] } with
    peerwin := 0x0003FFFF00000000#64, requests := rs, tagGen := [(6, 1)] }
/-- No access of it acquires, and no trap waits. -/
theorem spr_calm (rs : List Request) : (spr rs).Calm := fun e he t ht => by
  obtain rfl := List.mem_singleton.1 he
  obtain rfl := List.mem_singleton.1 ht
  exact ⟨rfl, fun w hw => by obtain rfl := List.mem_singleton.1 hw; rfl⟩
def spacq (rs : List Request) : State := { on { strand with peers := [{ wait5 with acq := true }] } with requests := rs }
theorem spr_awaited {s : State} {q : Request} {t : Strand} {w : PeerWait} (h1 : (s.core q.core).ctx.strands = [(0, t)]) (h2 : t.uid = q.uid)
    (h3 : t.peers = [w]) (h4 : w.failed = false ∧ q.id ∈ w.reqs) : s.AwaitedBy q 0 t w := by
  refine ⟨by simp [State.strand?, State.ctx, h1, Store.at?], ⟨h2, fun n v h _ => ?_⟩, h3, h4⟩
  by_cases hn : n = 0
  · exact hn
  · simp [State.strand?, State.ctx, h1, Store.at?, hn] at h
theorem only_open {q : Request} (h : (spr [q]).awaited q = true) : OnlyOpen (spr [q]) q :=
  ⟨.head _, by simp [spr], fun x hx hn => absurd (congrArg Request.id (List.mem_singleton.1 hx)) hn, h⟩
theorem test_premises_peer_requests :
    (let s := spr []
     s.canonical = true ∧ s.replays.find? (fun x => x.node == 5 && x.tag == 6 && x.gen == 1 &&
        decide (s.time < x.time + 2 * (s.peerto.toNat * 10 ^ 6))) = none ∧
      s.peerwin.toNat % 2 ^ 18 * 4096 ≤ inboundRead.addr ∧
      inboundRead.addr + peerBytes inboundRead.op ≤ s.peerwin.toNat / 2 ^ 32 % 2 ^ 18 * 4096 ∧
      inboundRead.ver.toNat = s.topover.toNat % 2 ^ 8 ∧ (1#8).toNat ≠ s.topover.toNat % 2 ^ 8) ∧
    (let s : State := { spr [] with replays := [{ node := 5, tag := 6, gen := 1, status := 0, data := [], time := 0 }] }
     (s.replays.find? (fun x => x.node == 5 && x.tag == 6 && x.gen == 1 &&
        decide (s.time < x.time + 2 * (s.peerto.toNat * 10 ^ 6)))).isSome = true) ∧
    ((spr [reqAt .sent]).awaited (reqAt .sent) = true → OnlyOpen (spr [reqAt .sent]) (reqAt .sent)) ∧
    ((reqAt .sent).node = 5 ∧ (reqAt .sent).tag = some 6 ∧ (reqAt .sent).gen = 1 ∧ (spr [reqAt .sent]).awaited (reqAt .sent) = true ∧
      (spr []).topover.setWidth 8 = (reqAt .sent).ver) ∧
    ((spr [reqAt .queued]).awaited (reqAt .queued) = true ∧ (spr [reqAt .stale]).awaited (reqAt .stale) = true ∧
      (spr []).peerto.toNat * 10 ^ 6 ≤ (reqAt .queued).waited ∧ (reqAt .queued).since = none) ∧
    (∀ rs, (spr rs).Calm) ∧
    (∀ t, (spr [reqAt .sent]).strand? 0 0 = some t → (spr [reqAt .sent]).AwaitedBy (reqAt .sent) 0 t wait5) ∧
    (OnlyOpen (spacq [reqAt .sent]) (reqAt .sent) ∧ (reqAt .sent).state.closed = false ∧
      ∃ u, (spacq [reqAt .sent]).AwaitedBy (reqAt .sent) 0 u { wait5 with acq := true } ∧ u.entering = none) ∧
    let q := { reqAt .sent with waited := 0 }
    q.state = .sent ∧ q.waited < (spr [q]).peerto.toNat * 10 ^ 6 ∧ q.since = none ∧ ((spr [q]).requests.map (·.id)).Nodup ∧
      ∀ x ∈ (spr [q]).requests, ¬x.id < q.id := by
  refine ⟨?_, ?_, only_open, ?_, ?_, spr_calm, fun t h => (by cases h; exact spr_awaited rfl rfl rfl ⟨rfl, .head _⟩),
    ⟨⟨.head _, by simp [spacq], fun x hx hn => absurd (congrArg Request.id (List.mem_singleton.1 hx)) hn, ?_⟩, ?_, _,
      spr_awaited rfl rfl rfl ⟨rfl, .head _⟩, rfl⟩, ?_⟩ <;> decide +kernel
/-- An all-gather of one FP32 number in a ring of two, of which this package is rank 1; its one chunk, for node 5. -/
def chunk0 : Chunk := { idx := 0, data := [1#8, 2#8, 3#8, 4#8] }
def coll0 (c : Chunk) (got : Nat) : CollOp :=
  { cmd := 9, comm := 1, seq := 7, ring := { high := false, nrank := 2, rank := 1, nodes := [5, 0] }, send := some [1#8, 2#8, 3#8, 4#8]
    received := got, chunks := [c] }
/-- Group 4 carries collective traffic to node 5. -/
def sch (cs : List CollOp) : State :=
  { on strand with
    colls := cs, routes := [(5, 0x8000000000100000#64)], groups := [(4, { phase := 0, up := true, pers := 2 })]
    time := 2000 * 10 ^ 6, uetkey := 3, cmds := [{ cmdOf .coll .active [(0x10, 4, 1), (0x14, 1, 2)] [] with words := [(0, 0x100)] }] }
def comeIn (seq : BitVec 16) : ChunkIn := { comm := 1, key := 3, ver := 0, seq, idx := 0, data := [1#8] }

theorem chunk_of {c : Chunk} (h1 : c.accepted = false) (h2 : c.idx = 0) : ChunkOf (sch [coll0 c 0]) ⟨1, 7, 0⟩ (coll0 c 0) c :=
  ⟨by simp [sch, coll0], by simp [sch], by simp [coll0, h2], by simp [coll0], h1, rfl⟩
theorem test_premises_chunks :
    ((sch [coll0 chunk0 0]).groupFor 5 true = some 4 ∧ (sch [coll0 chunk0 0]).nextChunk 5 = some (coll0 chunk0 0, chunk0)) ∧
    (comeIn 7).key = (sch []).uetkey ∧ (comeIn 7).ver = (sch []).topover.setWidth 8 ∧ (sch []).headColl 1 = none ∧
      ((sch []).channel 1).bufs.length < 2 ∧ (sch []).duplicate (comeIn 0xFFFF) = true ∧ (sch []).duplicate (comeIn 7) = false ∧
    (let c := { chunk0 with sent := true, carried := true, counting := true, waited := 1000 * 10 ^ 6 }
     ChunkOf (sch [coll0 c 0]) ⟨1, 7, 0⟩ (coll0 c 0) c ∧ (sch []).peerto.toNat * 10 ^ 6 ≤ c.waited ∧ c.since = none) ∧
    (let c := { chunk0 with stale := true, resend := some 5 }
     ChunkOf (sch [coll0 c 0]) ⟨1, 7, 0⟩ (coll0 c 0) c ∧ 5 ≤ (sch []).time) := by
  refine ⟨by decide +kernel, by decide, by decide, by decide, by decide, by decide, by decide, ⟨chunk_of rfl rfl, by decide, rfl⟩, chunk_of rfl rfl, by decide⟩
theorem test_premises_collective_ends :
    let o := coll0 { chunk0 with sent := true, carried := true, accepted := true } 1
    let s : State := { sch [o] with
      cores := [(0, { ctx := { strands := [(0, strand)], wgs := [wgOne]
                               shelf := Mem.store [] 0x8000 16 (BarrierObj.encode { ((sch []).barrier 0 0) with cnt := 2, exp := 2 }) } })] }
    o.comm = 1 ∧ s.collDone o = true ∧ o.status = 0 ∧ s.canonical = true ∧ s.holding 0 = false ∧ (s.barrier 0 0x8000).cnt ≠ 0 ∧
      (∃ e, s.cmd? 9 = some e ∧ e.bar = some 0x8000 ∧ (e.words.head?).map (·.2) = some 0x100 ∧ e.bcore = e.core ∧ e.uid = strand.uid) ∧
      s.strand? 0 0 = some strand := by
  refine ⟨rfl, by decide +kernel, rfl, by decide +kernel, by decide +kernel, by decide +kernel, ⟨_, rfl, rfl, rfl, rfl, rfl⟩, rfl⟩

/-- Partition 0 is under a grant of a level; a leaf of 64 GiB maps its far page at 0, which the host reaches through the CXL
group 15 and the aperture. -/
def sho (d : DebugLevel) (st : PStat) : State :=
  { on strand with
    parts := [(0, { partZero with debugLevel := d, pstat := st, fptroot := 0x8000000000000000#64 })], harbour := shelfOf [(0, 8, 0xF)]
    groups := [(15, { pers := 0, up := true, phase := 0 })]
    mgmt := { State.reset.mgmt with aperture := some (0, 0, 0x100000) }
    dieTlb := [(3, [{ part := 0, base := 0x10000, size := 0x10000, leaf := 0xF#64 }])] }
theorem test_premises_host :
    let s := sho .full .running
    s.canonical = true ∧ (s.part 0).debugLevel = .full ∧ s.partOf? 0 = some 0 ∧ ((sho .full .parked).part 0).pstat = .parked ∧
      ((sho .invasive .running).part 0).debugLevel ≠ .full ∧ s.partOf? 511 = none ∧ s.cxlGroup = some 15 ∧ hostDie 15 = 3 ∧
      (s.hostPages 3 0 0 true 2).1.isSome = true ∧ (s.hostPages 3 0 0 false 2).1.isSome = true ∧
      (s.part 0).fptroot.toNat.testBit 63 = true ∧ (tlbFind (s.dieTlb.read [] 3) 0 0x10000).map (·.leaf.getLsbD 2) = some true ∧
      (∃ g < 16, (s.group g).pers = 0 ∧ (s.group g).up = true ∧ (s.group g).phase = 0) ∧ State.reset.mgmt.aperture = none ∧
      (State.reset.part 0).fptroot.toNat.testBit 63 = false ∧ (s.partCsr? 0 0x240).isSome = true ∧
      (s.setPartCsr? 0 0x240 0x5000#64).isSome = true ∧ (s.ctx 0).strands.at? 0 = some strand ∧ (strand.csr? true 0x20C).isSome = true ∧
      (strand.setCsr? true 1#64 0x20D).isSome = true := by decide +kernel

/-- What does not rest on a signature: Config.verifies has no value that a proof can see (log 9). -/
theorem test_premises_management :
    (State.reset.mgmt.mailbox = false ∧ State.reset.mgmt.applied = [] ∧ State.reset.mgmt.waiting = [] ∧ State.reset.parts = [] ∧
      (State.reset.part 0).halves = 0) ∧
    ((sho .full .running).holdsContext 0 = true ∧
      (sho .full .running).recordOk { items := [.partition 0 3 16], message := [], sig := [] } = true) ∧
    (((sho .invasive .running).part 0).debugLevel = .invasive ∧ ((sho .invasive .running).part 0).power ≠ .p2) ∧
    (let s : State := { sho .full .parked with parts := [(0, { partZero with debugLevel := .full, debugHalt := true, pstat := .parked })] }
     (s.part 0).debugHalt = true ∧ (s.part 0).wantP2 = false) ∧
    (mayGrant .open .full false = true ∧ mayGrant .secured .observe true = true ∧ mayGrant .secured .observe false = false) ∧
    ∃ token : Bool, token = true ↔ ∃ x, (none : Option DebugToken) = some x ∧ tokenHolds State.reset 0 1 x := by
  refine ⟨by decide +kernel, by decide +kernel, by decide +kernel, by decide +kernel, by decide, false, ?_⟩
  exact ⟨nofun, fun ⟨_, h, _⟩ => nomatch h⟩

/-- A group at 0x100 with IADD #1 to lane registers V0 in slot 1; the cache holds it, or does not. -/
def sst (cached : Bool) : State :=
  let ws := [0#32, 0x08400001#32, 0, 0, 0, 0, 0, 0]
  { on strand with
    inputs := [.cycle 0 0]
    harbour := shelfOf [(0x104, 4, 0x08400001)]
    cores := [(0, { icache := if cached then [(8, ws)] else [], ctx := { strands := [(0, strand)], wgs := [wgOne] } })] }
theorem test_premises_step :
    let ws := [0#32, 0x08400001#32, 0, 0, 0, 0, 0, 0]
    (sst true).mgmt.p4 = false ∧ (sst true).mgmt.mailbox = false ∧ (sst true).select 0 0 = some (0, 0) ∧
      AtWord (sst true) 0 0 0 strand ws 1 ∧ Fetched (sst true) 0 8 ws (sst true) ∧
      AtWord (sst false) 0 0 0 strand ws 1 ∧ Fetched (sst false) 0 8 ws ((sst false).modCore 0 fun k => { k with icache := k.icache.put 8 ws }) ∧
      decodeTableWord 64 (0x08400001 + 0 * 2 ^ 32) = some (.iaddImm 0 0 1) ∧ isFormE (0x08400001 / 2 ^ 22) = false := by
  refine ⟨rfl, rfl, by decide +kernel, ⟨rfl, rfl, nofun, rfl, by decide, by decide +kernel, by decide, .inl rfl, by decide⟩,
    .inl ⟨rfl, rfl⟩, ⟨rfl, rfl, nofun, rfl, by decide, by decide +kernel, by decide, .inl rfl, by decide⟩, .inr ⟨rfl, by decide, ?_, rfl⟩,
    by decide +kernel, by decide⟩
  decide +kernel

theorem test_premises_inactive :
    let s : State := { s0 with cur := { s0.cur with act := 0 } }
    shapeRegs (.imad 127 1 2 3) [(127, 1), (1, 1), (2, 1), (3, 1)] ∧ s.Holds 127 1 ∧
      (s.strand? s.cur.core s.cur.slot).isSome = true ∧ s.cur.act = 0 ∧ s.me.sup = true := by
  refine ⟨.inl ⟨_, rfl, rfl⟩, ?_, rfl, rfl, rfl⟩
  unfold State.Holds
  decide +kernel

theorem test_premises_encode :
    (Instr.ldHFull 127 atEnd).wf = true ∧ (encode (.ldHFull 127 atEnd)).isSome = true ∧ (encode (.mma true 15 127 15)).isSome = true := by
  decide +kernel

theorem test_premises_canonical : (sst false).canonical = true ∧ (match step (sst false) with | .next t => t.canonical | _ => false) = true := by
  decide +kernel

/-! ## For the clauses about full tables, waits in gangs, held work and other nodes -/

/-- Four splits at PCs of their own, entry 0 issuing with four of its lanes, in user mode; a stack of some depth. -/
def fourSplits (deep : Nat) : State :=
  let at_ := fun e : Nat => (e, ({ valid := true, pc := BitVec.ofNat 48 (0x104 + 0x40 * e), mask := BitVec.ofNat 32 (0xFF * 256 ^ e) } : Split))
  let s := on { strand with sup := false, splits := (List.range 4).map at_, stack := List.replicate deep { pc := 0x404#48, mask := 0, fmt := 0 } }
  { s with parts := su.parts, cur := { s.cur with act := 0xF#32 } }
theorem fourSplits_full (n : Nat) (h : ∀ e < 4, ((fourSplits n).me.split e).valid = true ∧ ((fourSplits n).me.split e).pc.toNat = 0x104 + 0x40 * e) :
    (fourSplits n).FullTable := by
  refine ⟨Nat.zero_lt_succ 3, fun e he => (h e he).1, fun e f h1 h2 he => ?_⟩
  have := congrArg BitVec.toNat he
  rw [(h e (Nat.lt_trans h1 h2)).2, (h f h2).2] at this
  omega
theorem test_premises_full_tables :
    (let s := fourSplits 0
     s.Runs ∧ s.canonical = true ∧ s.FullTable ∧ s.me.stack.length < (s.part s.me.part).depth ∧
       ∃ x, branchSpec (.bra 1) = some x ∧ x.taken s ∧ s.mySplit.mask &&& ~~~s.cur.act ≠ 0 ∧ placeOk (x.target s) ∧ x.target s = s.cur.npc ∧
         ∀ e < 4, e ≠ s.cur.entry → (s.me.split e).pc ≠ x.target s ∧ (s.me.split e).pc ≠ s.cur.npc) ∧
    (let s := fourSplits 16
     s.MayTrap ∧ s.cur.act ≠ 0 ∧ s.FullTable ∧ (s.part s.me.part).depth ≤ s.me.stack.length ∧
       ∃ x, branchSpec (.bra 3) = some x ∧ x.taken s ∧ placeOk (x.target s) ∧ s.mySplit.mask &&& ~~~s.cur.act ≠ 0) ∧
    su.MayTrap ∧ su.cur.act ≠ 0 ∧ ∃ x, branchSpec (.bra 7) = some x ∧ x.taken su ∧ ¬placeOk (x.target su) := by
  refine ⟨⟨⟨rfl, ?_, .inr rfl⟩, ?_, fourSplits_full 0 ?_, ?_, _, rfl, trivial, ?_, ?_, ?_, ?_⟩,
    ⟨⟨⟨⟨rfl, ?_, rfl, ?_, ?_, ?_⟩, rfl⟩, rfl⟩, ?_, fourSplits_full 16 ?_, ?_, _, rfl, trivial, ?_, ?_⟩, su_may_trap, ?_, _, rfl, trivial, ?_⟩
    <;> (try unfold placeOk) <;> decide +kernel

/-- The other split waits at a SYNCS at a lower PC. -/
theorem test_premises_syncs_lower :
    let s := on { strand with splits := [(0, { valid := true, pc := 0x104#48, mask := 0xFFFF#32 }),
      (3, { valid := true, pc := 0x84#48, mask := 0xFFFF0000#32, wait := 1 })] }
    s.Runs ∧ s.canonical = true ∧ s.mySplit.valid = true ∧ s.me.twins = none ∧ (s.me.split 3).valid = true ∧
      (s.me.split 3).pc < s.mySplit.pc ∧ ∀ e < 4, e ≠ s.cur.entry → (s.me.split e).valid = true → (s.me.split e).wait = 1 ∧
        (s.me.split 3).pc ≤ (s.me.split e).pc := by
  refine ⟨runs_of rfl, ?_, ?_, ?_, ?_, ?_, ?_⟩ <;> decide +kernel

theorem test_premises_group_barriers :
    BarReady sb ∧ sb.me.gslots.at? 3 = some 255 ∧ ∃ home g, sb.groupBarrier? sb.cur.core sb.me 255 = some (home, g) ∧
      (∀ h ∈ (sb.ctx home).gbars, h.key = g.key → h = g) ∧ g.phase ≠ (sb.x 3).getLsbD 0 ∧ ¬g.phase ≠ (sb.x 2).getLsbD 0 := by
  refine ⟨sb_ready, by decide +kernel, 0, _, rfl, ?_, ?_, ?_⟩ <;> decide +kernel

/-- The gang of strands 0 and 1. -/
def pair : DWord := 0x2000000040#64
/-- Strand 0 of the gang issues an MMA; strand 1, if there is one, is in slot 1; latches. -/
def sgang (two sup : Bool) (ls : List Latch) : State :=
  let t := withFmt { strand with gang := pair, sup } 0x5500#32
  { on t with
    parts := su.parts
    cores := [(0, { ctx := { strands := if two then [(0, t), (1, { t with uid := 2, index := 1 })] else [(0, t)], wgs := [wgOne], latches := ls } })] }
def waiter : Cur := { slot := 1, pc := 0x104#48, npc := 0x108#48, act := 0xFFFFFFFF#32 }
/-- A latch in which strand 1 waits with an MMA on a tile. -/
def latchOf (n : Nat) : Latch :=
  { wg := 1, word := 0, fields := fmtFields 0x5500#32, gang := pair, bkey := [n], waiting := [waiter], mismatch := none }
def planOf : MatPlan := ⟨false, false, none, false, 15, 112, 15⟩
/-- What `MatReady` and `MatChecks` ask of such a state, as a test. -/
def matReady (s : State) : Bool :=
  s.canonical && s.me.converged && decide (s.me.counter .mat < 63 ∧ s.me.peers = []) && decide ((s.part s.me.part).dbgctl = []) &&
    ((s.ctx s.cur.core).wg? s.me.wg).isSome && decide (15 < s.me.naccs) && decide ((s.ctx s.cur.core).queue.length < 16) && !s.specLock 15 &&
    decide (acceptedPair s.fmt = some (.l6, .l6)) && decide (s.me.wb + 112 + 16 ≤ s.me.allot) && decide (15 < s.myWg.ntiles) &&
    decide ((s.tile 15).efmt = .l6)
theorem sgang_ready {s : State} (hr : s.Runs) (h : matReady s = true) : MatReady s 15 ∧ MatChecks s (.mma false 15 112 15) := by
  simp only [matReady, Bool.and_eq_true, decide_eq_true_eq, Bool.not_eq_true'] at h
  obtain ⟨⟨⟨⟨⟨⟨⟨⟨⟨⟨⟨h1, h2⟩, h3⟩, h4⟩, h5⟩, h6⟩, h7⟩, h8⟩, h9⟩, h10⟩, h11⟩, h12⟩ := h
  refine ⟨⟨hr, h1, h2, h4, h5, h6, ⟨h3.1, by simp [Strand.acquiring, h3.2]⟩, h7, h8, by rw [h9]; rfl⟩,
    ⟨by decide, h10, fun k _ w hw => by rw [h3.2] at hw; cases hw⟩, h11, fun fa fb h => ?_⟩
  rw [h9] at h
  cases h
  exact h12.symm
/-- What `MayTrapBut` asks, as a test. -/
theorem sgang_traps {s : State} (h : ((s.strand? s.cur.core s.cur.slot).isSome && decide (s.cur.entry < 4) && !s.me.sup && s.canonical &&
    s.trapReady s.cur.core s.me.part (s.part s.me.part).tvec && !(s.part s.me.part).trctl.getLsbD 0 && decide (s.me.loading = [])) = true) : s.MayTrapBut := by
  simp only [Bool.and_eq_true, decide_eq_true_eq, Bool.not_eq_true'] at h
  obtain ⟨⟨⟨⟨⟨⟨h1, h2⟩, h3⟩, h4⟩, h5⟩, h6⟩, h7⟩ := h
  exact ⟨⟨h1, h2, h3, h4, h5, h6⟩, h7⟩
theorem pair_lists : gangList pair = [0, 1] := by decide +kernel
theorem sgang_joint (sup : Bool) (ls : List Latch) (h1 : ∀ l ∈ ls, l.mismatch = none ∧ (∀ c ∈ l.waiting, c.slot ≠ 0) ∧ l.waiting ≠ [])
    (h2 : ((ls.flatMap (·.waiting)).map (·.slot)).Nodup) : Joint (sgang true sup ls) := by
  refine ⟨show 0 ∈ gangList pair by rw [pair_lists]; exact .head _, fun k hk => ?_, fun l hl _ ks h => ?_, fun l hl => ?_, h2⟩
  · rw [show gangList (sgang true sup ls).me.gang = gangList pair from rfl, pair_lists] at hk
    simp only [List.mem_cons, List.not_mem_nil, or_false] at hk
    obtain rfl | rfl := hk
    · exact ⟨_, .head _, rfl, rfl⟩
    · exact ⟨_, .tail _ (.head _), rfl, rfl⟩
  · rw [(h1 l hl).1] at h; cases h
  · exact ⟨(h1 l hl).2.1, .inl (h1 l hl).2.2⟩
theorem sgang_meets (sup : Bool) (n : Nat) : (sgang true sup [latchOf n]).meets (latchOf n) :=
  have h : 0 ∈ gangList pair := by rw [pair_lists]; exact .head _
  ⟨rfl, rfl, 0, h, h⟩
theorem test_premises_gangs :
    matSpec (.mma false 15 112 15) = some (15, planOf) ∧
    (MatReady (sgang true true []) 15 ∧ Joint (sgang true true [])) ∧
    (let l := latchOf 15
     let s := sgang true true [l]
     MatReady s 15 ∧ MatChecks s (.mma false 15 112 15) ∧ Joint s ∧ s.meets l ∧ s.sameAs planOf l ∧ Gathered s l [s.cur, waiter] ∧
       s.stale planOf [s.cur, waiter] = []) ∧
    (let l := latchOf 14
     let s := sgang true false [l]
     MatReady s 15 ∧ Joint s ∧ s.MayTrapBut ∧ s.meets l ∧ ¬s.sameAs planOf l ∧
       ∀ k ∈ (s.ctx s.cur.core).latches, s.meets k → ∀ c ∈ k.waiting, c.core = s.cur.core ∧ s.canTrap c.slot) ∧
    (let l := { latchOf 14 with waiting := [], mismatch := some [0] }
     let s := sgang true false [l]
     MatReady s 15 ∧ s.MayTrapBut ∧ l ∈ (s.ctx s.cur.core).latches ∧ l.wg = s.me.wg ∧ s.me.index ∈ [0]) ∧
    (let s := sgang false false []
     MatReady s 15 ∧ s.MayTrap ∧ 1 ∈ gangList s.me.gang ∧ ¬s.hasMember 1 ∧ ∀ j ∈ gangList s.me.gang, j ≠ 1 → s.hasMember j) := by
  have clean : ∀ n, ∀ l ∈ [latchOf n], l.mismatch = none ∧ (∀ c ∈ l.waiting, c.slot ≠ 0) ∧ l.waiting ≠ [] := fun n l hl => by
    obtain rfl := List.mem_singleton.1 hl
    exact ⟨rfl, fun c hc => by obtain rfl := List.mem_singleton.1 hc; decide, nofun⟩
  refine ⟨rfl, ⟨(sgang_ready (runs_of rfl) (by decide +kernel)).1, sgang_joint _ _ nofun (by decide)⟩,
    ⟨(sgang_ready (runs_of rfl) (by decide +kernel)).1, (sgang_ready (runs_of rfl) (by decide +kernel)).2,
      sgang_joint _ _ (clean 15) (by decide), sgang_meets _ _, ⟨rfl, rfl, rfl, rfl⟩, ⟨?_, ?_, ?_, ?_, ?_⟩, rfl⟩,
    ⟨(sgang_ready ⟨rfl, by decide +kernel, .inr rfl⟩ (by decide +kernel)).1, sgang_joint _ _ (clean 14) (by decide),
      sgang_traps (by decide +kernel), sgang_meets _ _, ?_, ?_⟩,
    ⟨(sgang_ready ⟨rfl, by decide +kernel, .inr rfl⟩ (by decide +kernel)).1, sgang_traps (by decide +kernel), .head _, rfl, .head _⟩,
    (sgang_ready ⟨rfl, by decide +kernel, .inr rfl⟩ (by decide +kernel)).1, ⟨sgang_traps (by decide +kernel), rfl⟩,
    show 1 ∈ gangList pair by rw [pair_lists]; decide, ?_, ?_⟩
  · exact show _ = gangList pair by rw [pair_lists]; rfl
  · intro c; simp [latchOf, or_comm]
  · intro c hc d hd h
    obtain rfl := List.mem_singleton.1 hc
    simp only [latchOf, List.cons_append, List.nil_append, List.mem_cons, List.not_mem_nil, or_false] at hd
    obtain rfl | rfl := hd
    · rfl
    · exact absurd h (by decide +kernel)
  · exact ⟨by decide +kernel, by decide +kernel⟩
  · intro c hc
    obtain rfl := List.mem_singleton.1 hc
    exact ⟨_, rfl, by decide, by decide, rfl, .inl rfl⟩
  · intro h; exact absurd h.2.2.2 (by decide +kernel)
  · intro k hk _ c hc
    obtain rfl := List.mem_singleton.1 hk
    obtain rfl := List.mem_singleton.1 hc
    exact ⟨rfl, _, rfl, rfl, rfl, rfl⟩
  · rintro ⟨e, he, -, h⟩
    obtain rfl := List.mem_singleton.1 he
    exact absurd h (by decide)
  · intro j hj hn
    rw [show gangList (sgang false false []).me.gang = gangList pair from rfl, pair_lists] at hj
    simp only [List.mem_cons, List.not_mem_nil, or_false] at hj
    obtain rfl | rfl := hj
    · exact ⟨_, .head _, rfl, rfl⟩
    · exact absurd rfl hn

/-- EXIT of the last lanes of strand 0, for which strand 1 waits. -/
theorem test_premises_exit_of_a_gang :
    let s := sgang true false [latchOf 15]
    s.Runs ∧ s.canonical = true ∧ s.me.sup = false ∧ s.me.live &&& ~~~s.cur.act = 0 ∧ s.me.guards = [] ∧
      ∀ l ∈ (s.ctx s.cur.core).latches, l.wg = s.me.wg ∧ l.mismatch = none ∧ s.me.index ∈ gangList l.gang ∧
        ∀ c ∈ l.waiting, c.slot ≠ s.cur.slot ∧ (s.strand? s.cur.core c.slot).isSome = true := by
  refine ⟨⟨rfl, by decide +kernel, .inr rfl⟩, ?_, rfl, ?_, rfl, ?_⟩ <;> decide +kernel

/-- Commands held on guard 3, and operations of the engine under it. -/
def heldCmd (k : CmdKind) : Cmd := { cmdOf k .held tensorFields [{ off := 0, len := 16 }] with guard := some 3 }
def sheld (cs : List Cmd) (os : List MatOp) : State :=
  let t := { withX [(1, 1#64)] with guards := [(3, .unresolved)], flights := [{ id := 5, cls := .fet }] }
  { on t with cmds := cs, cores := [(0, { ctx := { strands := [(0, t)], wgs := [wgOne], queue := os, shadowsUsed := [2] } })] }
def guarded (n : Option Nat) : MatMember := { mem0 with guard := some 3, shadow := n }
def heldOp : MatOp := { op0 with mmx := true, held := true, members := [guarded none] }
def runningOp : MatOp := { op0 with mmx := true, spec := true, members := [guarded (some 2)] }
theorem test_premises_held :
    ((sheld [heldCmd .tfetch] []).Runs ∧ (sheld [heldCmd .tfetch] []).canonical = true ∧
      HeldAlone (sheld [heldCmd .tfetch] []) (heldCmd .tfetch) 3 ∧ Oldest (sheld [heldCmd .tfetch] []).me.flights (heldCmd .tfetch).flight ∧
      (sheld [heldCmd .tfetch] []).tickets 0 = [] ∧
      (sheld [heldCmd .tfetch] []).fits 0 1 1 (heldCmd .tfetch).bytes 0x1000000 0 true = true ∧
      ((sheld [heldCmd .tfetch] []).barrier 0 0x8000).pend + (heldCmd .tfetch).bytes < 2 ^ 32) ∧
    HeldAlone (sheld [heldCmd .coll] []) (heldCmd .coll) 3 ∧
    (gresSpec (sheld [] []) (.gresX 3 1) = some (3, .isTrue) ∧ gresSpec (sheld [] []) (.gresX 3 2) = some (3, .isFalse)) ∧
    (GuardedAlone (sheld [] [heldOp]) heldOp (guarded none) 3 ∧ heldOp.held = true ∧ (guarded none).shadow = none) ∧
    (GuardedAlone (sheld [] [runningOp]) runningOp (guarded (some 2)) 3 ∧ runningOp.held = false ∧
      2 ∈ ((sheld [] [runningOp]).ctx 0).shadowsUsed ∧ (guarded (some 2)).acc < 16) := by
  have held : ∀ {c : Cmd}, c.guard = some 3 → c.uid = 1 ∧ c.core = 0 ∧ c.phase = .held ∧ c.frozen = false →
      c.units = [{ off := 0, len := 16 }] → c.bar = some 0x8000 → HeldAlone (sheld [c] []) c 3 := fun h1 h2 h3 h4 =>
    ⟨.head _, fun d hd _ => List.mem_singleton.1 hd, fun d hd _ => List.mem_singleton.1 hd,
      ⟨h2.1, h2.2.1, h1, h2.2.2.1, h2.2.2.2⟩, fun u hu => (by rw [h3] at hu; obtain rfl := List.mem_singleton.1 hu; exact ⟨rfl, rfl⟩), rfl,
      fun _ => by rw [h4]; rfl⟩
  have old : Oldest [({ id := 5, cls := .fet } : Flight)] 5 := ⟨_, _, rfl, rfl, nofun⟩
  refine ⟨⟨runs_of rfl, ?_, held rfl ⟨rfl, rfl, rfl, rfl⟩ rfl rfl, old, ?_, ?_, ?_⟩, held rfl ⟨rfl, rfl, rfl, rfl⟩ rfl rfl,
    ⟨?_, ?_⟩, ⟨⟨rfl, ⟨rfl, rfl, rfl, rfl, rfl⟩, ⟨?_, rfl⟩, old⟩, rfl, rfl⟩,
    ⟨rfl, ⟨rfl, rfl, rfl, rfl, rfl⟩, ⟨?_, rfl⟩, old⟩, rfl, ?_, ?_⟩ <;> decide +kernel

/-- A step of a member that runs into a shadow; one that a later operation's shadow follows. -/
def shadowMem : MatMember := { mem0 with shadow := some 2 }
def shadowOp : MatOp := { op0 with mmx := true, spec := true, nstep := 2, members := [shadowMem] }
theorem test_premises_shadow_steps :
    (FirstOp (smo shadowOp .running) 0 shadowOp shadowMem { strand with flights := [{ id := 5, cls := .mat }] } [] ∧
      (smo shadowOp .running).engineRuns 0 = some false ∧ shadowOp.runnable = true) ∧
    followed [{ shadowOp with id := 10 }] mem0 2 ∧ ¬followed [{ shadowOp with id := 10, step := 1 }] mem0 2 := by
  refine ⟨⟨⟨rfl, fun p hp => (by cases hp), ⟨rfl, rfl⟩, ⟨rfl, rfl⟩, ?_⟩, ?_, ?_⟩,
    ⟨{ shadowOp with id := 10 }, .head _, rfl, shadowMem, .head _, rfl, rfl, rfl, rfl⟩, ?_⟩
  · decide +kernel
  · decide +kernel
  · decide +kernel
  · rintro ⟨p, hp, h, -⟩
    obtain rfl := List.mem_singleton.1 hp
    cases h

/-- Tile 0 is bound to entry 0, of which a register holds a reference, too. -/
def sent : State :=
  let t := { withX [(1, 0xE000000000020000#64)] with sregs := [(0, 0#16)] }
  let w := { wgOne with free := [1, 2], tiles := [(0, { bound := true })] }
  { on t with
    harbour := shelfOf [(0x20000, 4, 1), (0x20004, 1, 2), (0x20008, 2, 8), (0x2000F, 1, 1), (0x20446, 1, 1), (0x20480, 4, 0x80000005)]
    cores := [(0, { ctx := { strands := [(0, t)], wgs := [w], scales := [(0, { use := .used, refs := 1 })] } })] }
theorem sent_counted : ∀ e, ([0#16] : List (BitVec 16)).countP
    (fun g => (sent.ctx sent.cur.core).current g && tagEntry g == e) ≤ ((sent.ctx sent.cur.core).entry e).refs := fun e => by
  by_cases h : e = 0
  · subst h; decide +kernel
  · have : ((sent.ctx sent.cur.core).current 0#16 && tagEntry 0#16 == e) = false := by
      rw [show tagEntry 0#16 = 0 from rfl]; simp; omega
    rw [List.countP_cons, if_neg (by rw [this]; decide)]
    exact Nat.zero_le _
theorem sent_current : (sent.ctx sent.cur.core).current 0#16 = true := by decide +kernel
theorem sent_sound : EntriesSound sent [0#16] :=
  ⟨by decide +kernel, by decide +kernel, sent_counted, fun g h => .inl (by obtain rfl := List.mem_singleton.1 h; exact sent_current)⟩
theorem si_free : si.myWg.free = List.range 8 := by decide +kernel
theorem si_unused : ∀ e ∈ List.range 8, e < 1024 ∧ ((si.ctx si.cur.core).entry e).use ≠ .used := by decide +kernel
theorem si_sound : EntriesSound si [] :=
  ⟨by rw [si_free]; exact List.nodup_range, by rw [si_free]; exact si_unused, fun _ => Nat.zero_le _,
    fun _ h => (List.not_mem_nil h).elim⟩
theorem sent_tags : (((List.range 1).filter fun k => (sent.tile k).bound).map fun k => (sent.tile k).tag) = [0#16] := by decide +kernel
theorem sent_sregs : sent.me.sregs.map (·.2) = [0#16] := by decide +kernel
theorem si_sregs : si.me.sregs.map (·.2) = [] := by decide +kernel
theorem test_premises_entries :
    (sent.tile 0).bound = true ∧ EntriesSound sent (((List.range 1).filter fun k => (sent.tile k).bound).map fun k => (sent.tile k).tag) ∧
      EntriesSound sent (sent.me.sregs.map (·.2)) ∧ EntriesSound si (si.me.sregs.map (·.2)) ∧
      (loadOf (sent.seen 0 true) (0x20000 + 0x446) 1).testBit 0 = true ∧
      sent.strandCap ((List.range (imageSize (sent.seen 0 true) 0x20000).bytes).map fun k => sent.seen 0 true (0x20000 + k)) true = none := by
  rw [sent_tags, sent_sregs, si_sregs]
  exact ⟨by decide +kernel, sent_sound, sent_sound, si_sound, by decide +kernel, by decide +kernel⟩

/-- P3, and a change that waits for an answer, which may also come too late. -/
theorem test_premises_idle_ports :
    (let s : State := { State.reset with mgmt := { State.reset.mgmt with p3 := true }, time := 5 };
      s.mgmt.p3 = true ∧ State.reset.mgmt.p3 = false) ∧
    (slk 2 (changeOf true 0 true) []).time ≤ (changeOf true 0 true).start + 100 * 10 ^ 6 ∧
    (slk 3 (changeOf false 2 false) []).time < (changeOf false 2 false).start + 200 * 10 ^ 6 ∧
    (let s : State := { slk 3 (changeOf false 2 false) [] with time := 10 ^ 9 };
      (changeOf false 2 false).start + 200 * 10 ^ 6 < s.time ∧ ((s.group 2).change = some (changeOf false 2 false)) ∧
        (s.group 2).phase = 3) := by decide +kernel

/-- A run of a cohort has waited for long, and keeps cores, of which some are full; another run's workgroup goes elsewhere. A record that would give
two partitions one half-die cannot stand. -/
theorem test_premises_reserved :
    (let late : TaskRun := { runOf .running 4 4 [] with reserved := [0, 1, 8, 9] }
     let r : TaskRun := { runOf .ready 3 0 [] with id := 8, tcb := 0x10100, index := 1, waiting := some 100000 }
     let s : State := { sd r with runs := [late, r], cores := ((List.range 32).filter (· % 2 = 1)).map fun c => (c, { ctx := { wgs := [wgOne] } }) }
     let u := s.reserveLate 0
     s.canonical = true ∧ s.open? = true ∧ u.run? 8 = some r ∧ u.nextPlacement 0 = some (r, [2]) ∧ r.reserved = [] ∧
       late ∈ u.runs ∧ late.id ≠ r.id) ∧
    (let s : State := { on strand with parts := [(0, partZero), (1, { partZero with halves := 2#16 })] }
     let r : ConfigRecord := { items := [.partition 2 3 16], message := [], sig := [] }
     (∀ i ∈ r.items, s.itemFree i = true) ∧ s.recordOk r = false) ∧
    State.reset.batch = [] := by decide +kernel

end Sys2Proof.Tests
end

section
/-!
SUPPORT. Vector instructions without flags: what the model computes in a lane is the number that the entry names, and the
encoder's words are those of the entries.
-/

namespace Sys2Proof.Machine

/-! ## Masks -/

theorem getLsbD_foldl_or_bit (ls : List Nat) (m : Mask) (k : Nat) (hk : k < 32) :
    (ls.foldl (fun m l => m ||| (1#32 <<< l)) m).getLsbD k = (m.getLsbD k || decide (k ∈ ls)) := by
  induction ls generalizing m with
  | nil => simp
  | cons a ls ih =>
    rw [List.foldl_cons, ih, BitVec.getLsbD_or, BitVec.getLsbD_shiftLeft]
    rcases lt_trichotomy k a with h | h | h
    · simp [h, h.ne]
    · subst h; simp [hk]
    · have : k - a ≠ 0 := by omega
      simp [hk, h.ne', this, show ¬ k < a by omega]

/-- A bit of the mask of some lanes. -/
theorem getLsbD_maskOf (ls : List Nat) (k : Nat) (hk : k < 32) : (maskOf ls).getLsbD k = decide (k ∈ ls) := by
  rw [maskOf, getLsbD_foldl_or_bit ls 0 k hk]; simp

/-! ## Arithmetic as numbers modulo 2^32 -/

theorem word_add (x y : Word) : x + y = wordOf (x.toNat + y.toNat) := by simp [wordOf, BitVec.ofNat_add]
theorem word_mul (x y : Word) : x * y = wordOf (x.toNat * y.toNat) := by simp [wordOf, BitVec.ofNat_mul]
theorem word_mul_add (x y z : Word) : x * y + z = wordOf (x.toNat * y.toNat + z.toNat) := by
  simp [wordOf, BitVec.ofNat_add, BitVec.ofNat_mul]
theorem word_add_imm (x : Word) (k : Nat) : x + BitVec.ofNat 32 k = wordOf (x.toNat + k) := by
  simp [wordOf, BitVec.ofNat_add]
theorem word_sub (x y : Word) : x - y = intWord (x.toNat - y.toNat) := by
  rw [intWord, Int.sub_eq_add_neg, BitVec.ofInt_add, BitVec.ofInt_neg, BitVec.sub_eq_add_neg]; simp

theorem intWord_toInt (x : Word) : intWord x.toInt = x := BitVec.ofInt_toInt
theorem absolute_eq (x : Word) : absolute x = intWord x.toInt.natAbs := by
  unfold absolute
  have h := BitVec.toInt_eq_msb_cond x
  split_ifs at h ⊢ with hm
  · have hx := x.isLt
    rw [show (x.toInt.natAbs : Int) = -x.toInt by omega, intWord, BitVec.ofInt_neg, BitVec.ofInt_toInt]
  · rw [show (x.toInt.natAbs : Int) = x.toInt by omega, intWord_toInt]

theorem min_signed (x y : Word) : (if y.slt x then y else x) = intWord (min x.toInt y.toInt) := by
  rw [BitVec.slt_eq_decide]
  rcases lt_or_ge y.toInt x.toInt with h | h
  · simp [h, min_eq_right h.le, intWord_toInt]
  · simp [not_lt.2 h, min_eq_left h, intWord_toInt]
theorem max_signed (x y : Word) : (if x.slt y then y else x) = intWord (max x.toInt y.toInt) := by
  rw [BitVec.slt_eq_decide]
  rcases lt_or_ge x.toInt y.toInt with h | h
  · simp [h, max_eq_right h.le, intWord_toInt]
  · simp [not_lt.2 h, max_eq_left h, intWord_toInt]
theorem min_unsigned (x y : Word) : (if y.ult x then y else x) = wordOf (min x.toNat y.toNat) := by
  rw [BitVec.ult_eq_decide]
  rcases lt_or_ge y.toNat x.toNat with h | h
  · simp [h, min_eq_right h.le, wordOf]
  · simp [not_lt.2 h, min_eq_left h, wordOf]
theorem max_unsigned (x y : Word) : (if x.ult y then y else x) = wordOf (max x.toNat y.toNat) := by
  rw [BitVec.ult_eq_decide]
  rcases lt_or_ge x.toNat y.toNat with h | h
  · simp [h, max_eq_right h.le, wordOf]
  · simp [not_lt.2 h, max_eq_left h, wordOf]

/-! ## Shifts as products and quotients by a power of two -/

theorem shiftLeft_eq (x : Word) (n : Nat) : shiftLeft x n = wordOf (x.toNat * 2 ^ n) := by
  apply BitVec.eq_of_toNat_eq
  unfold shiftLeft wordOf
  split_ifs with h
  · obtain ⟨k, rfl⟩ := Nat.exists_eq_add_of_le h
    rw [BitVec.toNat_ofNat, pow_add, mul_left_comm]
    simp
  · simp [Nat.shiftLeft_eq]
theorem shiftRight_eq (x : Word) (n : Nat) : x >>> n = wordOf (x.toNat / 2 ^ n) := by
  apply BitVec.eq_of_toNat_eq
  rw [BitVec.toNat_ushiftRight, Nat.shiftRight_eq_div_pow, wordOf, BitVec.toNat_ofNat, Nat.mod_eq_of_lt]
  exact (Nat.div_le_self _ _).trans_lt x.isLt

/-- Past the word's width, an arithmetic shift gives the sign alone. -/
theorem toInt_div_pow_min (x : Word) (n : Nat) : x.toInt / 2 ^ min n 32 = x.toInt / 2 ^ n := by
  rcases le_total n 32 with h | h
  · rw [min_eq_left h]
  · have hp : (2 : Int) ^ 32 ≤ 2 ^ n := pow_le_pow_right₀ (by norm_num) h
    have hlo := BitVec.le_toInt x
    have hhi := BitVec.toInt_lt (x := x)
    rw [min_eq_right h]
    norm_num at hlo hhi hp
    rcases lt_or_ge x.toInt 0 with h0 | h0
    · have e : ∀ d : Int, 2 ^ 32 ≤ d → x.toInt / d = -1 := fun d hd => by
        norm_num at hd
        rw [Int.ediv_eq_iff_of_pos (by omega)]; omega
      rw [e _ le_rfl, e _ (by norm_num; exact hp)]
    · rw [Int.ediv_eq_zero_of_lt h0 (by omega), Int.ediv_eq_zero_of_lt h0 (by omega)]
theorem sshiftRight_eq (x : Word) (n : Nat) : x.sshiftRight (min n 32) = intWord (x.toInt / 2 ^ n) := by
  rw [BitVec.sshiftRight, Int.shiftRight_eq_div_pow, ← toInt_div_pow_min]
  simp [intWord]

/-! ## Bit fields, bit counts, tables of bits -/

theorem bits_low_byte (n : Nat) : bits n 7 0 = n % 256 := rfl
theorem bits_next_byte (n : Nat) : bits n 15 8 = n / 256 % 256 := by simp [bits, Nat.shiftRight_eq_div_pow]

/-- A number of `n` bits, with its top bit as the sign. -/
theorem signed_of_lt {n f : Nat} (hn : n ≠ 0) (hf : f < 2 ^ n) :
    signed n f = if f.testBit (n - 1) then (f : Int) - 2 ^ n else f := by
  obtain ⟨k, rfl⟩ := Nat.exists_eq_succ_of_ne_zero hn
  have ht : f.testBit k = decide (2 ^ k ≤ f) := by
    rw [Nat.testBit_eq_decide_div_mod_eq]
    have : f / 2 ^ k < 2 := by rw [Nat.div_lt_iff_lt_mul (by positivity)]; rw [pow_succ] at hf; omega
    rcases Nat.lt_or_ge f (2 ^ k) with h | h
    · simp [Nat.div_eq_of_lt h, not_le.2 h]
    · have : f / 2 ^ k = 1 := by have := Nat.div_pos h (by positivity : 0 < 2 ^ k); omega
      simp [this, h]
  simp only [signed, Nat.mod_eq_of_lt hf, Nat.succ_eq_add_one, Nat.add_sub_cancel, ht, decide_eq_true_eq]
  split_ifs <;> first | omega | simp

/-- A word as a double word, with its sign or with zeros. -/
theorem toNat_extend (sg : Bool) (x : Word) : (if sg then x.signExtend 64 else x.setWidth 64 : DWord).toNat =
    if sg && x.msb then 0xFFFFFFFF00000000 + x.toNat else x.toNat := by
  have := x.isLt
  cases sg
  · simp [BitVec.toNat_setWidth]; omega
  · simp only [if_true, BitVec.toNat_signExtend, BitVec.toNat_setWidth, Bool.true_and]
    split_ifs <;> omega

theorem extract_eq (sg : Bool) (x y : Word) : extract sg x y = bitField sg x y := by
  simp only [extract, bitField, bits_low_byte, bits_next_byte, toNat_extend]
  generalize min (y.toNat / 256 % 256) 32 = n
  generalize (if sg && x.msb then 0xFFFFFFFF00000000 + x.toNat else x.toNat) / 2 ^ min (y.toNat % 256) 32 = e
  by_cases hn : n = 0
  · simp [hn]
  · cases sg
    · simp [hn, wordOf]
    · rw [if_neg hn, if_neg hn, if_pos rfl, signed_of_lt hn (Nat.mod_lt _ (by positivity))]
      cases (e % 2 ^ n).testBit (n - 1)
      · exact BitVec.ofInt_natCast _ _
      · rfl

theorem insert_eq (x y z : Word) : insert x y z = bitInsert x y z := by
  simp only [insert, Bool.or_eq_true, decide_eq_true_eq]
  simp only [bitInsert, bits_low_byte, bits_next_byte, shiftLeft_eq, wordOf]

theorem ones_length (x : Word) : (ones x).length = (List.range 32).countP fun k => x.getLsbD k :=
  List.countP_eq_length_filter.symm

theorem reversed_eq (x : Word) : reversed x = x.reverse := by
  apply BitVec.eq_of_getLsbD_eq
  intro k hk
  have hmem : k ∈ (ones x).map (31 - ·) ↔ x.getLsbD (31 - k) = true := by
    simp only [List.mem_map, ones, List.mem_filter, List.mem_range]
    constructor
    · rintro ⟨j, ⟨hj, hb⟩, rfl⟩
      rwa [show 31 - (31 - j) = j by omega]
    · exact fun hb => ⟨31 - k, ⟨by omega, hb⟩, by omega⟩
  rw [reversed, getLsbD_maskOf _ k hk, BitVec.getLsbD_reverse, BitVec.getMsbD_eq_getLsbD, decide_eq_true hk,
    Bool.true_and, Bool.eq_iff_iff, decide_eq_true_iff, hmem]

/-- In the bits of a word from bit 31 down, the first one set is the logarithm's. -/
theorem leadingZeros_eq (x : Word) : leadingZeros x = if x = 0 then 32 else 31 - x.toNat.log2 := by
  unfold leadingZeros
  split_ifs with h
  · subst h; rfl
  · have hx : x.toNat ≠ 0 := fun e => h (BitVec.eq_of_toNat_eq (by simpa using e))
    have hlog : x.toNat.log2 < 32 := (Nat.log2_lt hx).2 x.isLt
    have htop : x.getLsbD x.toNat.log2 = true := Nat.testBit_log2 hx
    have hfind : (List.range 32).find? (fun k => x.getLsbD (31 - k)) = some (31 - x.toNat.log2) := by
      rw [List.find?_range_eq_some]
      refine ⟨?_, by rw [List.mem_range]; omega, fun j hj => ?_⟩
      · rwa [show 31 - (31 - x.toNat.log2) = x.toNat.log2 by omega]
      · rw [Bool.not_eq_true', BitVec.getLsbD]
        exact Nat.testBit_lt_two_pow ((Nat.log2_lt hx).1 (by omega))
    rw [hfind, Option.getD_some]

/-- A bit of one term of LUT3's sum: the entry of the table that the operands' bits name. -/
theorem getLsbD_lut3 (t : BitVec 8) (x y z : Word) (k : Nat) (hk : k < 32) : (lut3 t x y z).getLsbD k =
    t.getLsbD (flag (x.getLsbD k) + 2 * flag (y.getLsbD k) + 4 * flag (z.getLsbD k)) := by
  have step : ∀ (c : Bool) (r a : Word), (if c then r ||| a else r).getLsbD k = (r.getLsbD k || (c && a.getLsbD k)) := by
    intro c r a; cases c <;> simp
  have pick : ∀ (c : Bool) (a : Word), (if c then a else ~~~a).getLsbD k = (a.getLsbD k == c) := by
    intro c a; cases c <;> simp [hk]
  simp only [lut3, show List.range 8 = [0, 1, 2, 3, 4, 5, 6, 7] from rfl, List.foldl_cons, List.foldl_nil, step,
    BitVec.getLsbD_and, pick]
  cases x.getLsbD k <;> cases y.getLsbD k <;> cases z.getLsbD k <;> simp [flag, Nat.testBit]

theorem lut3_eq (t : BitVec 8) (x y z : Word) : lut3 t x y z = maskOf ((List.range 32).filter fun i =>
    t.getLsbD (flag (x.getLsbD i) + 2 * flag (y.getLsbD i) + 4 * flag (z.getLsbD i))) := by
  apply BitVec.eq_of_getLsbD_eq
  intro k hk
  rw [getLsbD_lut3 t x y z k hk, getLsbD_maskOf _ k hk]
  simp [hk]

/-! ## Classes of FP32 encodings -/

/-- The value that an FP32 encoding has by its exponent and fraction fields. -/
theorem decode_fp32 (x : Word) : (Fmt.fp32.decode x.toNat).1 =
    if x.toNat / 2 ^ 23 % 256 = 255 then
      if x.toNat % 2 ^ 23 = 0 then .inf x.msb else .nan (!(x.toNat % 2 ^ 23).testBit 22)
    else if x.toNat / 2 ^ 23 % 256 = 0 then .fin x.msb (x.toNat % 2 ^ 23) (-149)
    else .fin x.msb (x.toNat % 2 ^ 23 + 2 ^ 23) (-149 + (x.toNat / 2 ^ 23 % 256 - 1 : Nat)) := by
  have hsign : x.toNat.testBit 31 = x.msb := by rw [BitVec.msb_eq_getLsbD_last]; rfl
  have hdiv : x.toNat % 2 ^ 31 / 2 ^ 23 = x.toNat / 2 ^ 23 % 256 := by omega
  have hmod : x.toNat % 2 ^ 31 % 2 ^ 23 = x.toNat % 2 ^ 23 := by omega
  have htop : 0x7F800000 ≤ x.toNat % 2 ^ 31 ↔ x.toNat / 2 ^ 23 % 256 = 255 := by omega
  have hinf : x.toNat / 2 ^ 23 % 256 = 255 → (x.toNat % 2 ^ 31 = 0x7F800000 ↔ x.toNat % 2 ^ 23 = 0) := by omega
  have e : (Fmt.fp32.decode x.toNat).1 = Layout.decode ⟨8, 23, -149, 0x7F800000⟩ false (x.toNat % 2 ^ 32) := rfl
  rw [e, Nat.mod_eq_of_lt x.isLt]
  simp only [Layout.decode, Nat.reduceAdd, hsign, hdiv, hmod, htop, Bool.not_false, Bool.and_true, decide_eq_true_eq,
    Bool.true_and, Nat.reduceSub]
  by_cases h : x.toNat / 2 ^ 23 % 256 = 255
  · rw [if_pos h, if_pos h]; simp only [hinf h]
  · rw [if_neg h, if_neg h]

theorem classify_eq (x : Word) : classify x.toNat = 2 ^ classBit x := by
  have hsign : x.toNat.testBit 31 = x.msb := by rw [BitVec.msb_eq_getLsbD_last]; rfl
  have hzero : x.toNat % 2 ^ 31 = 0 ↔ x.toNat / 2 ^ 23 % 256 = 0 ∧ x.toNat % 2 ^ 23 = 0 := by omega
  have hsub : Fmt.fp32.isSubnormal x.toNat = decide (x.toNat / 2 ^ 23 % 256 = 0 ∧ x.toNat % 2 ^ 23 ≠ 0) := by
    have e : Fmt.fp32.isSubnormal x.toNat = decide (x.toNat % 2 ^ 31 ≠ 0 ∧ x.toNat % 2 ^ 31 < 2 ^ 23) := by
      rw [Bool.decide_and, decide_not]; rfl
    rw [e, decide_eq_decide]; omega
  have hquiet : (x.toNat % 2 ^ 23).testBit 22 = decide (¬ x.toNat % 2 ^ 23 < 2 ^ 22) := by
    rw [Nat.testBit_eq_decide_div_mod_eq, decide_eq_decide]; omega
  simp only [classify, classBit, decode_fp32, hsign, hzero, hsub, hquiet]
  generalize x.toNat / 2 ^ 23 % 256 = e
  generalize x.toNat % 2 ^ 23 = m
  by_cases h255 : e = 255
  · by_cases hm : m = 0
    · cases x.msb <;> simp [h255, hm]
    · rcases lt_or_ge m 4194304 with hq | hq
      · simp [h255, hm, hq]
      · simp [h255, hm, not_lt.2 hq]
  · by_cases h0 : e = 0
    · by_cases hm : m = 0 <;> cases x.msb <;> simp [h0, hm]
    · cases x.msb <;> simp [h255, h0]
theorem word_flag (b : Bool) : (if b then 1 else 0 : Word) = wordOf (flag b) := by cases b <;> rfl


/-! ## What a lane instruction writes -/

/-- Each active lane of a vector register takes a value, and nothing else changes. -/
def WritesLanes (s : State) (d : VReg) (val : Nat → Word) (t : State) : Prop :=
  t.cur.done = true ∧ (∀ l < 32, s.cur.act.getLsbD l = true → t.v d.val l = val l) ∧
    OtherV d.val 1 s t ∧ Same butV s t ∧ SameBytes s t

theorem State.vector_writesLanes {s : State} (hs : s.Runs) (hc : s.canonical = true) {d : VReg} {regs : List VReg}
    (hr : ∀ r ∈ regs, s.Holds r.val 1) (hf : s.Free d.val 1) (f : State → Nat → Word) :
    WritesLanes s d (f s) (s.vector (regs.map vr) d f) :=
  State.vector_spec hs (State.canonical_tidy hc) (State.regs_held s regs hr) hf f

/-- An instruction of the table computes its lanes from the registers it names. -/
theorem exec_of_laneSpec {i : Instr} {x : LaneSpec} (h : laneSpec i = some x) (s : State) :
    ∃ f : State → Nat → Word,
      exec i s = .next (s.vector ((x.dest :: x.srcs).map vr) x.dest f) ∧ f s = x.val s := by
  cases i with
  | iadd d a b => cases h; exact ⟨_, rfl, funext fun l => word_add _ _⟩
  | iaddImm d a k => cases h; exact ⟨_, rfl, funext fun l => word_add_imm _ _⟩
  | isub d a b => cases h; exact ⟨_, rfl, funext fun l => word_sub _ _⟩
  | imul d a b => cases h; exact ⟨_, rfl, funext fun l => word_mul _ _⟩
  | imulhS32 d a b => cases h; exact ⟨_, rfl, rfl⟩
  | imulhU32 d a b => cases h; exact ⟨_, rfl, rfl⟩
  | imad d a b c => cases h; exact ⟨_, rfl, funext fun l => word_mul_add _ _ _⟩
  | iabs d a => cases h; exact ⟨_, rfl, funext fun l => absolute_eq _⟩
  | iminS32 d a b => cases h; exact ⟨_, rfl, funext fun l => min_signed _ _⟩
  | iminU32 d a b => cases h; exact ⟨_, rfl, funext fun l => min_unsigned _ _⟩
  | imaxS32 d a b => cases h; exact ⟨_, rfl, funext fun l => max_signed _ _⟩
  | imaxU32 d a b => cases h; exact ⟨_, rfl, funext fun l => max_unsigned _ _⟩
  | select d a b p => cases h; exact ⟨_, rfl, rfl⟩
  | mov d a => cases h; exact ⟨_, rfl, rfl⟩
  | movi d w => cases h; exact ⟨_, rfl, rfl⟩
  | and d a b => cases h; exact ⟨_, rfl, rfl⟩
  | andImm d a k => cases h; exact ⟨_, rfl, rfl⟩
  | or d a b => cases h; exact ⟨_, rfl, rfl⟩
  | orImm d a k => cases h; exact ⟨_, rfl, rfl⟩
  | xor d a b => cases h; exact ⟨_, rfl, rfl⟩
  | xorImm d a k => cases h; exact ⟨_, rfl, rfl⟩
  | lut3 d a b c t => cases h; exact ⟨_, rfl, funext fun l => lut3_eq t _ _ _⟩
  | shl d a b => cases h; exact ⟨_, rfl, funext fun l => shiftLeft_eq _ _⟩
  | shlImm d a k => cases h; exact ⟨_, rfl, funext fun l => shiftLeft_eq _ _⟩
  | shr d a b => cases h; exact ⟨_, rfl, funext fun l => shiftRight_eq _ _⟩
  | shrImm d a k => cases h; exact ⟨_, rfl, funext fun l => shiftRight_eq _ _⟩
  | shra d a b => cases h; exact ⟨_, rfl, funext fun l => sshiftRight_eq _ _⟩
  | shraImm d a k => cases h; exact ⟨_, rfl, funext fun l => sshiftRight_eq _ _⟩
  | funs d a b c => cases h; exact ⟨_, rfl, rfl⟩
  | bfxU d a b => cases h; exact ⟨_, rfl, funext fun l => extract_eq false _ _⟩
  | bfxS d a b => cases h; exact ⟨_, rfl, funext fun l => extract_eq true _ _⟩
  | bfi d a b c => cases h; exact ⟨_, rfl, funext fun l => insert_eq _ _ _⟩
  | popc d a => cases h; exact ⟨_, rfl, funext fun l => congrArg wordOf (ones_length _)⟩
  | clz d a => cases h; exact ⟨_, rfl, funext fun l => congrArg wordOf (leadingZeros_eq _)⟩
  | brev d a => cases h; exact ⟨_, rfl, funext fun l => reversed_eq _⟩
  | ptov d p => cases h; exact ⟨_, rfl, funext fun l => word_flag _⟩
  | fclass d a => cases h; exact ⟨_, rfl, funext fun l => congrArg wordOf (classify_eq _)⟩
  | _ => cases h

/-- An issue depends on what the instruction's body does in the state at hand. -/
theorem State.issue_congr (s : State) (priv : Bool) (regs : List Reg) {body body' : State → State}
    (h : body s = body' s) : s.issue priv regs body = s.issue priv regs body' := by
  simp only [State.issue, h]

/-- MOVS to a vector register, once no flags are outstanding for FLG, is a lane instruction. -/
theorem exec_movsV (d : VReg) (k : Fin 26) (s : State) (h : k.val = 0x12 → s.flagsOpen = false) :
    exec (.movsV d k) s = .next (s.vector ([d].map vr) d fun s l => (s.special k.val l).setWidth 32) := by
  have hgo : (k.val = 0x12 && s.flagsOpen) = false := by
    by_cases hk : k.val = 0x12 <;> simp [hk, h]
  refine congrArg Host.Outcome.next (State.issue_congr s false [vr d] ?_)
  simp only [State.unlocked, State.afterFlags, hgo, Bool.false_eq_true, if_false]

/-! ## Words of lane instructions -/

/-- The encoder builds a word from the opcode and three fields, with K clear, and adds a literal for form E alone. -/
theorem encode_abc {i : Instr} {op a b c n w : Nat} {lit l : Option Nat}
    (hf : encodeFields i = some { op := op, k := 0, a := a, b := b, c := c, lit := n })
    (hl : lit = if isFormE op then some n else none) (h : abc (op * 0x400000) a b c lit = some (w, l)) :
    encode i = some (BitVec.ofNat 32 w, l.map (BitVec.ofNat 32)) := by
  cases h
  simp only [encode, hf, Option.map_some, Fields.toWord, hl]
  cases isFormE op <;> simp

theorem encodedBy_laneWord : EncodedBy laneWord := by
  intro i w l h
  cases i with
  | imul d a b => exact encode_abc (op := 0x023) rfl rfl h
  | imulhS32 d a b => exact encode_abc (op := 0x024) rfl rfl h
  | imulhU32 d a b => exact encode_abc (op := 0x025) rfl rfl h
  | imad d a b c => exact encode_abc (op := 0x026) rfl rfl h
  | iabs d a => exact encode_abc (op := 0x027) rfl rfl h
  | iminS32 d a b => exact encode_abc (op := 0x028) rfl rfl h
  | iminU32 d a b => exact encode_abc (op := 0x029) rfl rfl h
  | imaxS32 d a b => exact encode_abc (op := 0x02A) rfl rfl h
  | imaxU32 d a b => exact encode_abc (op := 0x02B) rfl rfl h
  | select d a b p => exact encode_abc (op := 0x02D) rfl rfl h
  | funs d a b c => exact encode_abc (op := 0x03E) rfl rfl h
  | bfxU d a b => exact encode_abc (op := 0x040) rfl rfl h
  | bfxS d a b => exact encode_abc (op := 0x041) rfl rfl h
  | bfi d a b c => exact encode_abc (op := 0x042) rfl rfl h
  | popc d a => exact encode_abc (op := 0x043) rfl rfl h
  | clz d a => exact encode_abc (op := 0x044) rfl rfl h
  | brev d a => exact encode_abc (op := 0x045) rfl rfl h
  | ptov d p => exact encode_abc (op := 0x061) rfl rfl h
  | fclass d a => exact encode_abc (op := 0x07B) rfl rfl h
  | _ => cases h

/-- Settles O1: an instruction of the table runs as a lane instruction whose values are those of the entry, and so does MOVS
once no flags are outstanding; `State.vector_spec` says what a lane instruction leaves. -/
theorem laneValuesAreWritten : Obligations.LaneValuesAreWritten := by
  refine ⟨encodedBy_laneWord, fun s i x hx hs hc hr hf => ?_, fun s d k hs hc hr hf hk => ?_⟩
  · obtain ⟨f, he, hv⟩ := exec_of_laneSpec hx s
    exact ⟨_, he, hv ▸ State.vector_writesLanes hs hc hr hf f⟩
  · exact ⟨_, exec_movsV d k s hk, State.vector_writesLanes hs hc (regs := [d]) (by simpa using hr) hf _⟩

end Sys2Proof.Machine
end

section
/-!
SUPPORT. Release notices, the L1 and harbour: what the write-back of lines and a store at home leave as they were.
-/

namespace Sys2Proof.Machine

/-! ## Updates that change nothing -/

theorem Store.at?_map {α β : Type} (m : Store α) (h : α → β) (k : Nat) :
    Store.at? (m.map fun e => (e.1, h e.2)) k = (m.at? k).map h := by
  induction m with
  | nil => rfl
  | cons e m ih =>
    obtain ⟨j, v⟩ := e
    simp only [List.map_cons, Store.at?, ih]
    split_ifs <;> rfl

theorem Store.read_map {α β : Type} (m : Store α) (h : α → β) (d : α) (k : Nat) :
    Store.read (h d) (m.map fun e => (e.1, h e.2)) k = h (m.read d k) := by
  rw [Store.read, Store.read, Store.at?_map]
  cases m.at? k <;> rfl

theorem Store.put_of_at? {α : Type} {m : Store α} {k : Nat} {v : α} (h : m.at? k = some v) : m.put k v = m := by
  induction m with
  | nil => simp at h
  | cons e m ih =>
    obtain ⟨j, u⟩ := e
    simp only [Store.at?] at h
    simp only [Store.put]
    split_ifs at h ⊢ with h1 h2
    · rw [Option.some.inj h, h2]
    · rw [ih h]

/-- A core whose strand is in place is listed. -/
theorem State.core_listed {s : State} {c k : Nat} (h : (s.strand? c k).isSome = true) :
    s.cores.at? c = some (s.core c) := by
  unfold State.strand? State.ctx State.core Store.read at h
  unfold State.core Store.read
  cases hc : s.cores.at? c with
  | none => rw [hc] at h; simp at h
  | some v => rfl

theorem State.modCtx_of_eq {s : State} {c k : Nat} (h : (s.strand? c k).isSome = true) {f : Context → Context}
    (hf : f (s.ctx c) = s.ctx c) : s.modCtx c f = s := by
  have : ({ s.core c with ctx := f (s.core c).ctx } : Core) = s.core c := by
    rw [show f (s.core c).ctx = (s.core c).ctx from hf]
  simp only [State.modCtx, State.modCore, this, Store.put_of_at? (State.core_listed h)]

theorem Context.leaveLatch_of_nil {x : Context} (h : x.latches = []) (slot : Nat) : x.leaveLatch slot = x := by
  cases x; subst h; rfl

/-- With no latch on its core a strand has none to leave. -/
theorem State.leaveLatch_of_nil {s : State} (hs : (s.strand? s.cur.core s.cur.slot).isSome = true)
    (hl : (s.ctx s.cur.core).latches = []) : (s.modCtx s.cur.core fun x => x.leaveLatch s.cur.slot) = s :=
  State.modCtx_of_eq hs (Context.leaveLatch_of_nil hl _)

/-! ## Counting an event -/

/-- Only the event counters move. -/
theorem State.count_eq (s : State) (c e n : Nat) : s.count c e n = { s with parts := (s.count c e n).parts } := by
  unfold State.count
  split
  · split_ifs <;> rfl
  · rfl

theorem State.ctx_count (s : State) (c e n d : Nat) : (s.count c e n).ctx d = s.ctx d := by rw [State.count_eq]; rfl
theorem State.core_count (s : State) (c e n d : Nat) : (s.count c e n).core d = s.core d := by rw [State.count_eq]; rfl
theorem State.me_count (s : State) (c e n : Nat) : (s.count c e n).me = s.me := by rw [State.count_eq]; rfl
theorem State.harbour_count (s : State) (c e n : Nat) : (s.count c e n).harbour = s.harbour := by rw [State.count_eq]
theorem State.far_count (s : State) (c e n : Nat) : (s.count c e n).far = s.far := by rw [State.count_eq]

theorem State.countIssue_eq (s : State) (again : Bool) :
    s.countIssue again = s ∨ s.countIssue again = s.count s.cur.core 0x02 1 := by
  cases again
  · exact .inr rfl
  · exact .inl rfl

/-! ## Partitions and half-dies through `Same` -/

/-- A partition without its event counters. -/
def Partition.uncounted (p : Partition) : Partition := { p with pmc := [] }

/-- A partition, apart from its event counters, is as it was. -/
theorem Same.part {f : Strand → Strand} {s t : State} (h : Same f s t) (p : Nat) :
    (t.part p).uncounted = (s.part p).uncounted := by
  have e : t.parts.map (fun e => (e.1, e.2.uncounted)) = s.parts.map fun e => (e.1, e.2.uncounted) :=
    congrArg State.parts (show State.rest f t = State.rest f s from h)
  have key : ∀ u : State, (u.part p).uncounted =
      Store.read (Partition.uncounted {}) (u.parts.map fun e => (e.1, e.2.uncounted)) p :=
    fun u => (Store.read_map u.parts Partition.uncounted {} p).symm
  rw [key, key, e]

theorem Same.ctlbase {f : Strand → Strand} {s t : State} (h : Same f s t) : t.ctlbase = s.ctlbase :=
  (congrArg State.ctlbase (show State.rest f t = State.rest f s from h) :)

theorem Same.ctlArea {f : Strand → Strand} {s t : State} (h : Same f s t) (c k : Nat) : t.ctlArea c k = s.ctlArea c k := by
  unfold State.ctlArea; rw [h.ctlbase]

theorem Same.tvec {f : Strand → Strand} {s t : State} (h : Same f s t) (p : Nat) : (t.part p).tvec = (s.part p).tvec :=
  (congrArg Partition.tvec (h.part p) :)
theorem Same.svec {f : Strand → Strand} {s t : State} (h : Same f s t) (p : Nat) : (t.part p).svec = (s.part p).svec :=
  (congrArg Partition.svec (h.part p) :)
theorem Same.trctl {f : Strand → Strand} {s t : State} (h : Same f s t) (p : Nat) : (t.part p).trctl = (s.part p).trctl :=
  (congrArg Partition.trctl (h.part p) :)

theorem Same.trapReady {f : Strand → Strand} {s t : State} (h : Same f s t) (c p : Nat) (v : DWord) :
    t.trapReady c p v = s.trapReady c p v := by
  have e := h.part p
  have h1 : (t.part p).hwbase = (s.part p).hwbase := (congrArg Partition.hwbase e :)
  have h2 : (t.part p).hwlimit = (s.part p).hwlimit := (congrArg Partition.hwlimit e :)
  have h3 : (t.part p).halves = (s.part p).halves := (congrArg Partition.halves e :)
  simp only [State.trapReady, Partition.inWindow, h.ctlbase, h1, h2, h3]

/-- Without trace control nothing is traced. -/
theorem State.trace_of_quiet {s : State} {p : Nat} (h : (s.part p).trctl.getLsbD 0 = false) (kind core arg q1 q2 : Nat) :
    s.trace p kind core arg q1 q2 = s := by
  unfold State.trace
  simp only [h, Bool.not_false, Bool.true_or, if_true]

/-! ## Notices -/

/-- Only release notices, records, promotions and names differ. -/
def NoticesMoved (s t : State) : Prop :=
  ∃ n r p i, t = { s with notices := n, records := r, promotions := p, nextId := i }

theorem NoticesMoved.refl (s : State) : NoticesMoved s s := ⟨_, _, _, _, rfl⟩
theorem NoticesMoved.trans {s t u : State} (h : NoticesMoved s t) (k : NoticesMoved t u) : NoticesMoved s u := by
  obtain ⟨_, _, _, _, rfl⟩ := h
  obtain ⟨_, _, _, _, rfl⟩ := k
  exact ⟨_, _, _, _, rfl⟩

theorem NoticesMoved.foldl {α : Type} {f : State → α → State} (hf : ∀ s a, NoticesMoved s (f s a)) (l : List α)
    (s : State) : NoticesMoved s (l.foldl f s) := by
  induction l generalizing s with
  | nil => exact .refl s
  | cons a l ih => exact (hf s a).trans (ih _)

theorem NoticesMoved.record (s : State) (n : Notice) : NoticesMoved s (s.record n) := by
  simp only [State.record]
  split_ifs
  · exact ⟨_, _, _, _, rfl⟩
  · exact ⟨_, _, _, _, rfl⟩
  · split
    · exact .refl s
    · exact ⟨_, _, _, _, rfl⟩

theorem NoticesMoved.askAgain (s : State) (n : Notice) (ticket asker : Nat) :
    NoticesMoved s (s.askAgain n ticket asker) := by
  simp only [State.askAgain]
  split_ifs
  · exact .refl s
  · exact ⟨_, _, _, _, rfl⟩
  · exact ⟨_, _, _, _, rfl⟩

theorem NoticesMoved.takeNotice (s : State) (n : Notice) : NoticesMoved s (s.takeNotice n) := by
  simp only [State.takeNotice]
  refine NoticesMoved.trans ?_ (NoticesMoved.foldl NoticesMoved.record _ _)
  refine NoticesMoved.trans ?_ (NoticesMoved.foldl (fun s (k : Nat × Nat) => NoticesMoved.askAgain s n k.1 k.2) _ _)
  exact NoticesMoved.trans ⟨_, _, _, _, rfl⟩ (NoticesMoved.record _ n)

theorem NoticesMoved.flushNotices (s : State) (core slice : Nat) : NoticesMoved s (s.flushNotices core slice) := by
  simp only [State.flushNotices]
  split_ifs
  · exact .refl s
  · exact NoticesMoved.trans ⟨_, _, _, _, rfl⟩ (NoticesMoved.foldl NoticesMoved.takeNotice _ _)

theorem NoticesMoved.cur {s t : State} (h : NoticesMoved s t) : t.cur = s.cur := by
  obtain ⟨_, _, _, _, rfl⟩ := h; rfl
theorem NoticesMoved.core {s t : State} (h : NoticesMoved s t) (c : Nat) : t.core c = s.core c := by
  obtain ⟨_, _, _, _, rfl⟩ := h; rfl
theorem NoticesMoved.harbour {s t : State} (h : NoticesMoved s t) : t.harbour = s.harbour := by
  obtain ⟨_, _, _, _, rfl⟩ := h; rfl
theorem NoticesMoved.far {s t : State} (h : NoticesMoved s t) : t.far = s.far := by
  obtain ⟨_, _, _, _, rfl⟩ := h; rfl
theorem NoticesMoved.uncached {s t : State} (h : NoticesMoved s t) : t.uncached = s.uncached := by
  obtain ⟨_, _, _, _, rfl⟩ := h; rfl

/-! ## `State.uncached` -/

theorem State.uncached_count (s : State) (c e n : Nat) : (s.count c e n).uncached = s.uncached.count c e n := by
  have h1 : s.uncached.partOf? c = s.partOf? c := rfl
  have h2 : ∀ p, s.uncached.part p = s.part p := fun _ => rfl
  unfold State.count
  rw [h1]
  cases s.partOf? c with
  | none => rfl
  | some p =>
    simp only [h2]
    split_ifs <;> rfl

theorem State.uncached_modCore_l1 (s : State) (f : Core → Store Line) :
    (s.modCore s.cur.core fun k => { k with l1 := f k }).uncached = s.uncached := by
  have : (s.modCore s.cur.core fun k => { k with l1 := f k }).modCore s.cur.core (fun k => { k with l1 := [] }) =
      s.modCore s.cur.core fun k => { k with l1 := [] } := State.modCore_modCore s _ _ _
  exact congrArg (fun u : State => { u with
    harbour := [], notices := [], records := [], promotions := [], nextId := 0, free := 0 }) this

theorem State.uncached_modMe (s : State) (f : Strand → Strand) : (s.modMe f).uncached = s.uncached.modMe f := by
  have : (s.modMe f).modCore s.cur.core (fun k => { k with l1 := [] }) =
      (s.modCore s.cur.core fun k => { k with l1 := [] }).modMe f := by
    simp only [State.modMe, State.modStrand, State.modCtx, State.modCore_cur, State.modCore_modCore]; rfl
  exact congrArg (fun u : State => { u with
    harbour := [], notices := [], records := [], promotions := [], nextId := 0, free := 0 }) this

/-! ## Lines that leave an L1 -/

/-- The lines of a core's L1 ascend and hold 128 bytes each, and harbour is in its canonical form. -/
structure State.Lined (s : State) (core : Nat) : Prop where
  harbour : s.harbour.wf = true
  sorted : (s.core core).l1.sorted = true
  length : ∀ k l, (s.core core).l1.at? k = some l → l.data.length = 128

/-- Lines of the issuing core's L1 may have gone home; what the core sees is as it was, and nothing else has changed but event
counters. -/
structure LinesLeft (s t : State) : Prop where
  cur : t.cur = s.cur
  ctx : ∀ c, t.ctx c = s.ctx c
  far : t.far = s.far
  same : Same whole s.uncached t.uncached
  seen : ∀ a, t.seen s.cur.core true a = s.seen s.cur.core true a
  lined : t.Lined s.cur.core

theorem LinesLeft.refl {s : State} (h : s.Lined s.cur.core) : LinesLeft s s :=
  ⟨rfl, fun _ => rfl, rfl, Same.refl _ _, fun _ => rfl, h⟩

theorem LinesLeft.trans {s t u : State} (h : LinesLeft s t) (k : LinesLeft t u) : LinesLeft s u :=
  ⟨k.cur.trans h.cur, fun c => (k.ctx c).trans (h.ctx c), k.far.trans h.far, h.same.trans k.same,
    fun a => by rw [← h.seen, ← h.cur, k.seen], h.cur ▸ k.lined⟩

theorem LinesLeft.lined_cur {s t : State} (h : LinesLeft s t) : t.Lined t.cur.core := by rw [h.cur]; exact h.lined

/-- A line that the core's L1 has not, or has clean, is seen at home. -/
theorem State.seen_clean {s : State} {c a : Nat} (h : ∀ l, (s.core c).l1.at? (a / 128) = some l → l.dirty = 0) :
    s.seen c true a = s.harbour.byte a := by
  unfold State.seen
  split
  · next l hl => simp [h l hl]
  · rfl

/-- The write-back of a dirty line: its notices arrive, it is counted, its dirty bytes go home, it stays clean. -/
theorem State.writeBack_dirty {s : State} {c line : Nat} {l : Line} (hl : (s.core c).l1.at? line = some l)
    (hd : l.dirty ≠ 0) : ∃ u, NoticesMoved s u ∧ s.writeBack c line =
      ({ u.count c 0x0E 1 with harbour := mergeBytes s.harbour (line * 128) l.dirty l.data 0 } : State).modCore c
        fun k => { k with l1 := k.l1.put line { l with dirty := 0 } } := by
  have hn := NoticesMoved.flushNotices s c (sliceOf line)
  have hh : ((s.flushNotices c (sliceOf line)).count c 0x0E 1).harbour = s.harbour := by
    rw [State.harbour_count, hn.harbour]
  refine ⟨_, hn, ?_⟩
  unfold State.writeBack
  rw [hl]
  simp only [if_neg hd, hh]

/-- The dirty bytes of one line go home and the line is clean: every byte is seen as before. -/
theorem State.seen_merged {s t : State} {c line : Nat} {l : Line} (h : s.Lined c)
    (hl : (s.core c).l1.at? line = some l) (hh : t.harbour = mergeBytes s.harbour (line * 128) l.dirty l.data 0)
    (ht : ∀ k, (t.core c).l1.at? k = if k = line then some { l with dirty := 0 } else (s.core c).l1.at? k) (a : Nat) :
    t.seen c true a = s.seen c true a := by
  have hb : t.harbour.byte a =
      if a / 128 = line ∧ l.dirty.getLsbD (a % 128) = true then l.data.getD (a % 128) 0 else s.harbour.byte a := by
    rw [hh, byte_mergeBytes h.harbour, h.length line l hl]
    by_cases ha : a / 128 = line
    · rw [show a - line * 128 = a % 128 by omega]
      simp [ha, show line * 128 ≤ a by omega, show a < line * 128 + 128 by omega]
    · rw [if_neg (by omega), if_neg (by tauto)]
  by_cases ha : a / 128 = line
  · rw [State.seen_clean fun v hv => ?_, hb]
    · unfold State.seen
      rw [ha, hl]
      simp
    · rw [ht, if_pos ha] at hv
      cases hv; rfl
  · unfold State.seen
    rw [ht, if_neg ha, hb, if_neg (by tauto)]

theorem LinesLeft.writeBack {s : State} (h : s.Lined s.cur.core) (line : Nat) :
    LinesLeft s (s.writeBack s.cur.core line) := by
  cases hl : (s.core s.cur.core).l1.at? line with
  | none => simpa [State.writeBack, hl] using LinesLeft.refl h
  | some l =>
    by_cases hd : l.dirty = 0
    · simpa [State.writeBack, hl, hd] using LinesLeft.refl h
    obtain ⟨u, hn, e⟩ := State.writeBack_dirty hl hd
    set v : State := { u.count s.cur.core 0x0E 1 with harbour := mergeBytes s.harbour (line * 128) l.dirty l.data 0 } with hv
    have hcur : v.cur = s.cur := (State.cur_count u _ _ _).trans hn.cur
    have hcore : ∀ d, v.core d = s.core d := fun d => (State.core_count u _ _ _ d).trans (hn.core d)
    have hl1 : ∀ k, ((s.writeBack s.cur.core line).core s.cur.core).l1.at? k =
        if k = line then some { l with dirty := 0 } else (s.core s.cur.core).l1.at? k := fun k => by
      rw [e, State.core_modCore, if_pos rfl, hcore]; exact Store.at?_put _ _ _ _
    have hh : (s.writeBack s.cur.core line).harbour = mergeBytes s.harbour (line * 128) l.dirty l.data 0 := by rw [e]; rfl
    refine ⟨by rw [e]; exact hcur, fun d => ?_, ?_, ?_, State.seen_merged h hl hh hl1, ?_⟩
    · rw [e, State.ctx, State.core_modCore, hcore, hcore]
      split_ifs with hc
      · rw [hc]; rfl
      · rfl
    · rw [e]; exact (State.far_count u _ _ _).trans hn.far
    · have hvu : v.uncached = s.uncached.count s.cur.core 0x0E 1 := by
        rw [← hn.uncached, ← State.uncached_count]; rfl
      rw [e, ← hcur, State.uncached_modCore_l1, hvu]
      exact Same.count whole _ _ _ _
    · refine ⟨hh ▸ wf_mergeBytes h.harbour _ _ _ _, ?_, fun k x hx => ?_⟩
      · rw [e, State.core_modCore, if_pos rfl, hcore]; exact Store.sorted_put h.sorted _ _
      · rw [hl1] at hx
        split_ifs at hx
        · cases hx; exact h.length line l hl
        · exact h.length k x hx

theorem LinesLeft.dropLine {s : State} (h : s.Lined s.cur.core) (line : Nat)
    (hd : ∀ l, (s.core s.cur.core).l1.at? line = some l → l.dirty = 0) : LinesLeft s (s.dropLine s.cur.core line) := by
  have hl1 : ∀ k, ((s.dropLine s.cur.core line).core s.cur.core).l1.at? k =
      if k = line then none else (s.core s.cur.core).l1.at? k := fun k => by
    rw [State.dropLine, State.core_modCore, if_pos rfl]; exact Store.at?_del h.sorted _ _
  refine ⟨rfl, fun d => ?_, rfl, ?_, fun a => ?_, h.harbour, ?_, fun k x hx => ?_⟩
  · rw [State.dropLine, State.ctx, State.core_modCore]
    split_ifs with hc
    · rw [hc]; rfl
    · rfl
  · rw [State.dropLine, State.uncached_modCore_l1]; exact Same.refl _ _
  · by_cases ha : a / 128 = line
    · rw [State.seen_clean fun v hv => ?_, State.seen_clean fun v hv => hd v (ha ▸ hv)]
      · rfl
      · rw [hl1, if_pos ha] at hv; cases hv
    · unfold State.seen
      rw [hl1, if_neg ha]; rfl
  · rw [State.dropLine, State.core_modCore, if_pos rfl]; exact Store.sorted_del h.sorted _
  · rw [hl1] at hx
    split_ifs at hx
    exact h.length k x hx

/-- After a write-back the line is clean. -/
theorem State.writeBack_clean (s : State) (c line : Nat) (l : Line)
    (h : ((s.writeBack c line).core c).l1.at? line = some l) : l.dirty = 0 := by
  cases hl : (s.core c).l1.at? line with
  | none => simp [State.writeBack, hl] at h
  | some v =>
    by_cases hd : v.dirty = 0
    · simp only [State.writeBack, hl, if_pos hd, Option.some.injEq] at h
      exact h ▸ hd
    obtain ⟨u, hn, e⟩ := State.writeBack_dirty hl hd
    rw [e, State.core_modCore, if_pos rfl] at h
    simp only [Store.at?_put_self, Option.some.injEq] at h
    exact h ▸ rfl

theorem LinesLeft.flushLine {s : State} (h : s.Lined s.cur.core) (line : Nat) :
    LinesLeft s (s.flushLine s.cur.core line) := by
  have hw := LinesLeft.writeBack h line
  refine hw.trans ?_
  have hd := LinesLeft.dropLine hw.lined_cur line
  rw [hw.cur] at hd
  exact hd fun l => State.writeBack_clean s _ line l

theorem LinesLeft.flushRange {s : State} (h : s.Lined s.cur.core) (lo hi : Nat) :
    LinesLeft s (s.flushRange s.cur.core lo hi) := by
  unfold State.flushRange
  have key : ∀ (es : List (Nat × Line)) (t : State), LinesLeft s t →
      LinesLeft s (es.foldl (fun s' e => s'.flushLine s.cur.core e.1) t) := by
    intro es
    induction es with
    | nil => exact fun _ ht => ht
    | cons e es ih =>
      intro t ht
      refine ih _ (ht.trans ?_)
      have := LinesLeft.flushLine ht.lined_cur e.1
      rwa [ht.cur] at this
  exact key _ s (.refl h)

end Sys2Proof.Machine
end

section
/-!
SUPPORT. The frame of a trap as a record of fields, and the way of a strand into a trap out of user mode (R241, R242).
-/

namespace Sys2Proof.Machine

/-! ## Numbers packed in bytes -/

/-- Numbers packed one after the other, each in so many bytes: a record as its table lists it. -/
def fieldBytes (fs : List (Nat × Nat)) : List Byte := fs.flatMap fun e => bytesOf e.1 e.2

/-- The bytes of a record's fields together. -/
def widths (fs : List (Nat × Nat)) : Nat := (fs.map (·.1)).sum

@[simp] theorem fieldBytes_nil : fieldBytes [] = [] := rfl
@[simp] theorem fieldBytes_cons (n v : Nat) (fs : List (Nat × Nat)) : fieldBytes ((n, v) :: fs) = bytesOf n v ++ fieldBytes fs := rfl
@[simp] theorem fieldBytes_length (fs : List (Nat × Nat)) : (fieldBytes fs).length = widths fs := by
  induction fs with
  | nil => rfl
  | cons e fs ih => simp [fieldBytes, widths, List.length_flatMap]
theorem fieldBytes_append (fs gs : List (Nat × Nat)) : fieldBytes (fs ++ gs) = fieldBytes fs ++ fieldBytes gs := by simp [fieldBytes]

/-- A number loaded from among bytes that have been put. -/
theorem Mem.load_putBytes {m : Mem} (h : m.wf = true) (a : Nat) (pre mid post : List Byte) :
    (m.putBytes a (pre ++ (mid ++ post))).load (a + pre.length) mid.length = ofBytes mid := by
  rw [Mem.load, Mem.bytes_eq (Mem.wf_putBytes h _ _)]
  congr 1
  refine List.ext_getElem (by simp) fun i hi hi' => ?_
  rw [List.getElem_map, List.getElem_range, Mem.byte_putBytes h, if_pos (by simp; omega),
    List.getD_eq_getElem _ _ (by simp; omega)]
  rw [List.getElem_append_right (by omega), List.getElem_append_left (by omega)]
  congr 1; omega

/-- A field of a record among bytes that have been put. -/
theorem Mem.load_fieldBytes {m : Mem} (h : m.wf = true) (a : Nat) (pre post : List Byte) {fs : List (Nat × Nat)} {k n v : Nat}
    {off : Nat} (hk : fs[k]? = some (n, v)) (ho : pre.length + widths (fs.take k) = off) (hv : v < 256 ^ n) :
    (m.putBytes a (pre ++ (fieldBytes fs ++ post))).load (a + off) n = v := by
  obtain ⟨hlt, hget⟩ := List.getElem?_eq_some_iff.1 hk
  have hfs : fieldBytes fs = fieldBytes (fs.take k) ++ (bytesOf n v ++ fieldBytes (fs.drop (k + 1))) := by
    conv_lhs => rw [← List.take_append_drop k fs, List.drop_eq_getElem_cons hlt, hget, fieldBytes_append, fieldBytes_cons]
  have := Mem.load_putBytes h a (pre ++ fieldBytes (fs.take k)) (bytesOf n v) (fieldBytes (fs.drop (k + 1)) ++ post)
  rw [ofBytes_bytesOf, bytesOf_length, List.length_append, fieldBytes_length, ho, Nat.mod_eq_of_lt hv] at this
  simpa only [hfs, List.append_assoc] using this

/-! ## The control area (Tables 3-7 and 10-2) -/

/-- The fields of a trap frame (Table 10-2). -/
def State.frameFields (s : State) (t : Strand) (mask : Mask) (tr : Trap) (npc : PC) : List (Nat × Nat) :=
  [(2, tr.code.num), (1, s.cur.entry), (1, flag tr.code.kindT + flag tr.code.kindP * 2), (4, mask.toNat),
    (8, s.cur.pc.toNat), (8, npc.toNat), (4, tr.lanes.toNat), (4, s.cur.word.toNat), (4, s.cur.lit.toNat),
    (4, s.cur.hdr.toNat), (8, tr.addr), (8, tr.d0), (8, tr.d1), (8, s.clock), (2, s.cur.core), (2, 0),
    (4, (s.wgOf s.cur.core t).index), (4, ((s.run? t.run).map (·.index)).getD 0), (12, 0)]

theorem State.widths_frameFields (s : State) (t : Strand) (mask : Mask) (tr : Trap) (npc : PC) :
    widths (s.frameFields t mask tr npc) = 0x60 := by
  simp only [widths, State.frameFields, List.map_cons, List.map_nil, List.sum_cons, List.sum_nil, Nat.reduceAdd]

theorem State.frame_eq (s : State) (t : Strand) (mask : Mask) (tr : Trap) (npc : PC) :
    s.frame t mask tr npc = fieldBytes (s.frameFields t mask tr npc) := by
  unfold State.frame State.frameFields
  simp only [fieldBytes_cons, fieldBytes_nil, List.append_assoc, List.append_nil]

/-- The uniform registers as fields. -/
def Strand.xFields (t : Strand) : List (Nat × Nat) := (List.range 64).map fun k => (8, (t.x k).toNat)

theorem Strand.imageX_eq (t : Strand) : t.imageX = fieldBytes t.xFields := by
  rw [Strand.imageX, fieldBytes, Strand.xFields, List.flatMap_map]

theorem Strand.widths_xFields (t : Strand) (k : Nat) (hk : k ≤ 64) : widths (t.xFields.take k) = 8 * k := by
  simp [widths, Strand.xFields, ← List.map_take, List.take_range, hk, Function.comp_def, mul_comm]

/-- The fields of a strand image before its flags (Table 3-7). -/
def State.headFields (s : State) (core : Nat) (t : Strand) (full : Bool) : List (Nat × Nat) :=
  [(4, 1), (4, 1 + flag full * 2), (2, t.allot), (2, t.wb), (1, t.slices.toNat), (1, t.stack.length),
    (1, (s.part t.part).depth), (1, t.naccs), (1, ((s.ctx core).pendingShadows t.uid).length), (1, 0), (2, t.flg.toNat)]

theorem State.headFields_prefix (s : State) (core : Nat) (t : Strand) (full : Bool) :
    fieldBytes (s.headFields core t full) <+: s.imageHead core t full := by
  unfold State.imageHead State.headFields
  simp only [fieldBytes_cons, fieldBytes_nil, List.append_assoc, List.prefix_append_right_inj, List.nil_prefix]

theorem length_flatMap_of_length {α : Type} {n : Nat} (l : List α) {f : α → List Byte} (h : ∀ a, (f a).length = n) :
    (l.flatMap f).length = l.length * n := by
  simp [List.length_flatMap, h]

theorem recordOf_length (pc : PC) (wait : Nat) (valid : Bool) (mask : Mask) (fmt : Word) :
    (recordOf pc wait valid mask fmt).length = 16 := by simp [recordOf]

theorem Split.record_length (p : Split) : p.record.length = 16 := by
  unfold Split.record
  split_ifs
  · exact recordOf_length _ _ _ _ _
  · simp

theorem padTo_length (n : Nat) (bs : List Byte) : (padTo n bs).length = n := by
  simp only [padTo, List.length_take, List.length_append, List.length_replicate]; omega

theorem State.imageHead_length (s : State) (core : Nat) (t : Strand) (full : Bool) :
    (s.imageHead core t full).length = 0x1A0 := by
  unfold State.imageHead
  simp only [List.length_append, bytesOf_length, padTo_length, length_flatMap_of_length _ fun _ => bytesOf_length _ _,
    length_flatMap_of_length _ fun e => (t.split e).record_length, List.length_range]

/-- The bytes that a trap writes to the control area (R242). -/
def State.trapBytes (s : State) (mask : Mask) (tr : Trap) (npc : PC) : List Byte :=
  s.imageHead s.cur.core s.me false ++ s.frame s.me mask tr npc ++ s.me.imageX

theorem State.trapBytes_length (s : State) (mask : Mask) (tr : Trap) (npc : PC) :
    (s.trapBytes mask tr npc).length = 1024 := by
  have hx := s.me.widths_xFields 64 le_rfl
  rw [List.take_of_length_le (by simp [Strand.xFields])] at hx
  simp only [State.trapBytes, List.length_append, State.imageHead_length, State.frame_eq, Strand.imageX_eq,
    fieldBytes_length, State.widths_frameFields, hx]

/-- Field `k` of the frame, once the bytes of a trap stand at `a`. -/
theorem State.load_frame (s : State) (mask : Mask) (tr : Trap) (npc : PC) {m : Mem} (h : m.wf = true) (a : Nat)
    {k n v off : Nat} (hk : (s.frameFields s.me mask tr npc)[k]? = some (n, v))
    (ho : widths ((s.frameFields s.me mask tr npc).take k) = off) (hv : v < 256 ^ n) :
    (m.putBytes a (s.trapBytes mask tr npc)).load (a + (0x1A0 + off)) n = v := by
  have := Mem.load_fieldBytes h a (s.imageHead s.cur.core s.me false) s.me.imageX hk
    (by rw [State.imageHead_length, ho]) hv
  rwa [← State.frame_eq, ← List.append_assoc] at this

theorem State.load_frame_xreg (s : State) (mask : Mask) (tr : Trap) (npc : PC) {m : Mem} (h : m.wf = true) (a : Nat) {k : Nat}
    (hk : k < 64) : (m.putBytes a (s.trapBytes mask tr npc)).load (a + 0x200 + 8 * k) 8 = (s.me.x k).toNat := by
  have hlen : (s.imageHead s.cur.core s.me false ++ s.frame s.me mask tr npc).length + widths (s.me.xFields.take k) =
      0x200 + 8 * k := by
    rw [List.length_append, State.imageHead_length, State.frame_eq, fieldBytes_length, State.widths_frameFields,
      Strand.widths_xFields _ _ hk.le]
  have := Mem.load_fieldBytes h a _ [] (show s.me.xFields[k]? = some (8, (s.me.x k).toNat) by simp [Strand.xFields, hk])
    hlen (s.me.x k).isLt
  rwa [List.append_nil, ← Strand.imageX_eq, ← Nat.add_assoc] at this

theorem State.load_frame_flags (s : State) (mask : Mask) (tr : Trap) (npc : PC) {m : Mem} (h : m.wf = true) (a : Nat) :
    (m.putBytes a (s.trapBytes mask tr npc)).load (a + 0x12) 2 = s.me.flg.toNat := by
  obtain ⟨rest, hr⟩ := s.headFields_prefix s.cur.core s.me false
  have := Mem.load_fieldBytes h a [] (rest ++ (s.frame s.me mask tr npc ++ s.me.imageX)) (off := 0x12)
    (show (s.headFields s.cur.core s.me false)[10]? = some (2, s.me.flg.toNat) from rfl) rfl s.me.flg.isLt
  rwa [List.nil_append, ← List.append_assoc, hr, ← List.append_assoc] at this

/-- A trap's bytes at the control area are its frame (Table 10-2). -/
theorem State.frameAt_trapBytes (s : State) (tr : Trap) (npc : PC) {m : Mem} (h : m.wf = true) (a : Nat)
    {t : State} (ht : t.harbour = m.putBytes a (s.trapBytes s.mySplit.mask tr npc))
    (he : s.cur.entry < 4) (h0 : tr.d0 < 2 ^ 64) (h1 : tr.d1 = 0) :
    FrameAt t a tr.code.num (flag tr.code.kindT + flag tr.code.kindP * 2) tr.d0 s npc := by
  have field := fun {k n v off : Nat} => s.load_frame s.mySplit.mask tr npc h a (k := k) (n := n) (v := v) (off := off)
  rw [← ht] at field
  exact {
    code := field (k := 0) (off := 0) rfl rfl (by cases tr.code <;> decide)
    entry := field (k := 1) (off := 2) rfl rfl (by omega)
    kind := field (k := 2) (off := 3) rfl rfl (by cases tr.code <;> decide)
    mask := field (k := 3) (off := 4) rfl rfl (by omega)
    pc := field (k := 4) (off := 8) rfl rfl (by omega)
    npc := field (k := 5) (off := 16) rfl rfl (by omega)
    word := field (k := 7) (off := 28) rfl rfl (by omega)
    detail := field (k := 11) (off := 48) rfl rfl (by omega)
    detail1 := h1 ▸ field (k := 12) (off := 56) rfl rfl (by omega)
    xregs := fun k hk => ht ▸ s.load_frame_xreg _ tr npc h a hk
    flg := ht ▸ s.load_frame_flags _ tr npc h a }

/-! ## The way into a trap (R242, R246) -/

/-- The instruction is not marked as completed. -/
def State.undone (s : State) : State := { s with cur := { s.cur with done := false } }

/-- A trap is counted, and its instruction is not marked as completed. -/
def State.trapped (s : State) : State := (s.count s.cur.core 0x13 1).undone

theorem Same.undone (f : Strand → Strand) (s : State) : Same f s s.undone := rfl
theorem Same.trapped (f : Strand → Strand) (s : State) : Same f s s.trapped :=
  (Same.count f s s.cur.core 0x13 1).trans (Same.undone f _)

theorem State.cur_trapped (s : State) : s.trapped.cur = { s.cur with done := false } :=
  congrArg (fun c : Cur => { c with done := false }) (State.cur_count s s.cur.core 0x13 1)
theorem State.ctx_trapped (s : State) (c : Nat) : s.trapped.ctx c = s.ctx c := State.ctx_count s _ _ _ c
theorem State.core_trapped (s : State) (c : Nat) : s.trapped.core c = s.core c := State.core_count s _ _ _ c
theorem State.me_trapped (s : State) : s.trapped.me = s.me := State.me_count s _ _ _
theorem State.harbour_trapped (s : State) : s.trapped.harbour = s.harbour := State.harbour_count s _ _ _

/-- A trap from user mode, when its half-die is ready and nothing is traced. -/
theorem State.enterNow_user {s : State} (hu : s.me.sup = false)
    (hr : s.trapReady s.cur.core s.me.part (s.part s.me.part).tvec = true)
    (hq : (s.part s.me.part).trctl.getLsbD 0 = false) (mask : Mask) (tr : Trap) (npc : PC) :
    s.enterNow mask tr npc = s.trapped.enterTrap mask tr npc := by
  have hs := Same.trapped whole s
  have hr' : s.trapped.trapReady s.trapped.cur.core s.me.part (s.trapped.part s.me.part).tvec = true := by
    rw [hs.trapReady, hs.tvec, hs.core, hr]
  have e : s.enterNow mask tr npc = if s.me.sup then _
      else if s.trapped.trapReady s.trapped.cur.core s.me.part (s.trapped.part s.me.part).tvec then
        (s.trapped.trace s.me.part 1 s.trapped.cur.core tr.code.num s.trapped.cur.pc.toNat tr.d0).enterTrap mask tr npc
      else _ := rfl
  rw [e, if_neg (by simp [hu]), if_pos hr', State.trace_of_quiet (by rw [hs.trctl, hq])]

/-- A trap in supervisor mode, when its half-die is ready and nothing is traced. -/
theorem State.enterNow_svec {s : State} (hu : s.me.sup = true) (h0 : s.me.stcode = 0)
    (hr : s.trapReady s.cur.core s.me.part (s.part s.me.part).svec = true)
    (hq : (s.part s.me.part).trctl.getLsbD 0 = false) (mask : Mask) (tr : Trap) (npc : PC) :
    s.enterNow mask tr npc = s.trapped.enterSvec tr := by
  have hs := Same.trapped whole s
  have hr' : s.trapped.trapReady s.trapped.cur.core s.me.part (s.trapped.part s.me.part).svec = true := by
    rw [hs.trapReady, hs.svec, hs.core, hr]
  have e : s.enterNow mask tr npc = if s.me.sup then if s.me.stcode ≠ 0 then _
      else if s.trapped.trapReady s.trapped.cur.core s.me.part (s.trapped.part s.me.part).svec then
        (s.trapped.trace s.me.part 1 s.trapped.cur.core tr.code.num s.trapped.cur.pc.toNat tr.d0).enterSvec tr
      else _ else _ := rfl
  rw [e, if_pos hu, if_neg (by simp [h0]), if_pos hr', State.trace_of_quiet (by rw [hs.trctl, hq])]

/-- A trap inside a nested trap. -/
theorem State.enterNow_nested {s : State} (hu : s.me.sup = true) (h0 : s.me.stcode ≠ 0) (mask : Mask) (tr : Trap) (npc : PC) :
    s.enterNow mask tr npc =
      (s.trapped.post s.me.part 0x09 s.trapped.cur.core 0xFFFF s.trapped.cur.pc.toNat tr.code.num).faultFromFrame
        (some tr.code.num) := by
  have e : s.enterNow mask tr npc = if s.me.sup then if s.me.stcode ≠ 0 then
        (s.trapped.post s.me.part 0x09 s.trapped.cur.core 0xFFFF s.trapped.cur.pc.toNat tr.code.num).faultFromFrame
          (some tr.code.num) else _ else _ := rfl
  rw [e, if_pos hu, if_pos h0]

/-- The state in which a trap finds the strand: for kinds T and P the split has gone on (R241). -/
def State.past (s : State) (tr : Trap) : State :=
  if tr.code.kindT || tr.code.kindP then s.modMySplit fun p => p.go s.cur.npc (s.readyAt s.cur.npc) else s

/-- The next PC that its frame holds. -/
def State.savedNpc (s : State) (tr : Trap) : PC := if tr.code.kindT || tr.code.kindP then s.cur.npc else s.cur.pc

/-- A trap other than a comparator's. -/
theorem State.takeTrap_eq {s : State} {tr : Trap} (h : tr.code = .brkpt → tr.d0 = 0) :
    s.takeTrap tr = (s.past tr).enter tr (s.savedNpc tr) := by
  have hf : (tr.code == .brkpt && tr.d0 != 0) = false := by
    by_cases hb : tr.code = .brkpt <;> simp [hb, h]
  unfold State.takeTrap State.past State.savedNpc
  simp only [hf, Bool.false_eq_true, if_false]
  split_ifs <;> rfl

theorem Same.past (f : Strand → Strand) (s : State) (tr : Trap) : Same f s (s.past tr) := by
  unfold State.past
  split_ifs
  · exact Same.modMySplit f s _
  · exact Same.refl f s

/-! ## What a state apart from its L1 keeps -/

theorem Same.uncached_modMe (f : Strand → Strand) (s : State) (g : Strand → Strand) (h : ∀ t, f (g t).still = f t.still) :
    Same f s.uncached (s.modMe g).uncached := by
  rw [State.uncached_modMe]; exact Same.modMe f s.uncached g h

theorem Same.uncached_count (f : Strand → Strand) (s : State) (c e n : Nat) : Same f s.uncached (s.count c e n).uncached := by
  rw [State.uncached_count]; exact Same.count f s.uncached c e n

theorem Same.uncached_trapped (f : Strand → Strand) (s : State) : Same f s.uncached s.trapped.uncached :=
  (Same.uncached_count f s s.cur.core 0x13 1).trans (Same.undone f (s.count s.cur.core 0x13 1).uncached)

theorem Same.uncached_past (f : Strand → Strand) (s : State) (tr : Trap) : Same f s.uncached (s.past tr).uncached := by
  unfold State.past
  split_ifs
  · exact Same.uncached_modMe f s _ fun t => by rw [Strand.still_modSplit]
  · exact Same.refl f _

theorem Same.uncached_countIssue (f : Strand → Strand) (s : State) (again : Bool) :
    Same f s.uncached (s.countIssue again).uncached := by
  cases again
  · exact Same.uncached_count f s _ _ _
  · exact Same.refl f _

theorem State.l1_modMe (s : State) (f : Strand → Strand) (c : Nat) : ((s.modMe f).core c).l1 = (s.core c).l1 := by
  simp only [State.modMe, State.modStrand, State.modCtx, State.core_modCore]
  split_ifs with h
  · rw [h]
  · rfl

/-- What a core sees depends on its L1 and on harbour. -/
theorem State.seen_congr {s t : State} {c : Nat} (hl : (t.core c).l1 = (s.core c).l1) (hh : t.harbour = s.harbour) (a : Nat) :
    t.seen c true a = s.seen c true a := by
  unfold State.seen; rw [hl, hh]

theorem State.Lined.congr {s t : State} {c : Nat} (h : s.Lined c) (hl : (t.core c).l1 = (s.core c).l1)
    (hh : t.harbour = s.harbour) : t.Lined c :=
  ⟨hh ▸ h.harbour, hl ▸ h.sorted, hl ▸ h.length⟩

theorem State.lined_of_canonical {s : State} (h : s.canonical = true) (c : Nat) : s.Lined c := by
  have hc := State.canonical_core h c
  simp only [State.canonical, Core.canonical, Bool.and_eq_true, List.all_eq_true, beq_iff_eq] at h hc
  exact ⟨h.1.1.1, hc.1.2, fun k l hl => hc.2 (k, l) (Store.mem_of_at? hl)⟩

theorem State.me_congr {s t : State} (hc : t.cur.core = s.cur.core) (hs : t.cur.slot = s.cur.slot)
    (hx : t.ctx s.cur.core = s.ctx s.cur.core) : t.me = s.me := by
  simp only [State.me, State.strand, State.strand?, hc, hs, hx]

/-! ## Storing at home -/

/-- Bytes have been stored at home: outside them the issuing core sees what it saw, and beside harbour, L1 and event counters
nothing has changed. -/
structure HomeStored (s t : State) (a : Nat) (bs : List Byte) : Prop where
  cur : t.cur = s.cur
  ctx : ∀ c, t.ctx c = s.ctx c
  far : t.far = s.far
  same : Same whole s.uncached t.uncached
  harbour : ∃ m : Mem, m.wf = true ∧ t.harbour = m.putBytes a bs
  seen : ∀ b, ¬(a ≤ b ∧ b < a + bs.length) → t.seen s.cur.core true b = s.seen s.cur.core true b

theorem State.storeHome_spec {s : State} (h : s.Lined s.cur.core) (a : Nat) (bs : List Byte) :
    HomeStored s (s.storeHome s.cur.core a bs) a bs := by
  have hf := LinesLeft.flushRange h a (a + bs.length)
  refine ⟨hf.cur, hf.ctx, hf.far, hf.same, ⟨_, hf.lined.harbour, rfl⟩, fun b hb => ?_⟩
  have hbyte : (s.storeHome s.cur.core a bs).harbour.byte b =
      (s.flushRange s.cur.core a (a + bs.length)).harbour.byte b :=
    (Mem.byte_putBytes hf.lined.harbour a b bs).trans (if_neg hb)
  rw [← hf.seen b]
  unfold State.seen
  rw [hbyte]
  rfl

/-! ## Into supervisor mode at TVEC (R242) -/

/-- All live lanes are one split in supervisor mode. -/
def Strand.enterAt (pc : PC) (since : Nat) (t : Strand) : Strand :=
  { t with
    sup := true, keep := none, stack := []
    splits := [(0, { valid := true, pc, mask := t.live, since })] }

theorem State.enterTrap_eq {s : State} (hs : (s.strand? s.cur.core s.cur.slot).isSome = true)
    (hl : (s.ctx s.cur.core).latches = []) (mask : Mask) (tr : Trap) (npc : PC) {u : State}
    (hu : u = s.storeHome s.cur.core (s.ctlArea s.cur.core s.cur.slot) (s.trapBytes mask tr npc)) :
    s.enterTrap mask tr npc = u.modMe (Strand.enterAt ((u.part s.me.part).tvec.setWidth 48)
      (u.readyAt ((u.part s.me.part).tvec.setWidth 48))) := by
  unfold State.enterTrap
  simp only [State.leaveLatch_of_nil hs hl]
  rw [hu]
  rfl

/-- A frame reads the cursor, the mask, the uniform registers and FLG of the state that it was taken in. -/
theorem FrameAt.congr {t s u : State} {a code kind d0 : Nat} {npc : PC} (h : FrameAt t a code kind d0 u npc)
    (hcur : u.cur = { s.cur with done := false }) (hmask : u.mySplit.mask = s.mySplit.mask) (hx : ∀ k, u.x k = s.x k)
    (hflg : u.me.flg = s.me.flg) : FrameAt t a code kind d0 s npc where
  code := h.code
  entry := by rw [h.entry, hcur]
  kind := h.kind
  mask := by rw [h.mask, hmask]
  pc := by rw [h.pc, hcur]
  npc := h.npc
  word := by rw [h.word, hcur]
  detail := h.detail
  detail1 := h.detail1
  xregs k hk := by rw [h.xregs k hk, State.xn, State.xn, hx]
  flg := by rw [h.flg, hflg]

/-! ## The split that a trap finds -/

theorem Strand.split_setSplit (t : Strand) (e k : Nat) (p : Split) :
    (t.setSplit e p).split k = if k = e then p else t.split k := by
  simp only [Strand.split, Strand.setSplit, Store.read, Store.at?_put]
  split_ifs <;> rfl

theorem State.mySplit_modMySplit {s : State} (hs : (s.strand? s.cur.core s.cur.slot).isSome = true) (f : Split → Split) :
    (s.modMySplit f).mySplit = f s.mySplit := by
  rw [State.mySplit, State.modMySplit, State.me_modMe _ _ hs, Strand.modSplit, State.modMe_cur, Strand.split_setSplit,
    if_pos rfl, State.mySplit]

theorem State.cur_past (s : State) (tr : Trap) : (s.past tr).cur = s.cur := by
  unfold State.past; split_ifs <;> rfl
theorem State.harbour_past (s : State) (tr : Trap) : (s.past tr).harbour = s.harbour := by
  unfold State.past; split_ifs <;> rfl
theorem State.l1_past (s : State) (tr : Trap) (c : Nat) : ((s.past tr).core c).l1 = (s.core c).l1 := by
  unfold State.past
  split_ifs
  · exact State.l1_modMe _ _ _
  · rfl

theorem State.latches_modMe (s : State) (f : Strand → Strand) (c : Nat) : ((s.modMe f).ctx c).latches = (s.ctx c).latches := by
  simp only [State.modMe, State.modStrand, State.ctx_modCtx]
  split_ifs with h
  · rw [h]
  · rfl

theorem State.latches_past (s : State) (tr : Trap) (c : Nat) : ((s.past tr).ctx c).latches = (s.ctx c).latches := by
  unfold State.past
  split_ifs
  · exact State.latches_modMe _ _ _
  · rfl

/-- Of the strand only its flow has moved. -/
theorem State.still_past {s : State} (hs : (s.strand? s.cur.core s.cur.slot).isSome = true) (tr : Trap) :
    (s.past tr).me.still = s.me.still := ((Same.past whole s tr).me hs).1

theorem State.slot_past {s : State} (hs : (s.strand? s.cur.core s.cur.slot).isSome = true) (tr : Trap) :
    ((s.past tr).strand? (s.past tr).cur.core (s.past tr).cur.slot).isSome = true := ((Same.past whole s tr).me hs).2

/-- The split keeps its entry, lanes and FMT (R241). -/
theorem State.mySplit_past {s : State} (hs : (s.strand? s.cur.core s.cur.slot).isSome = true) (tr : Trap) :
    (s.past tr).mySplit.valid = s.mySplit.valid ∧ (s.past tr).mySplit.mask = s.mySplit.mask ∧
      (s.past tr).mySplit.fmt = s.mySplit.fmt := by
  unfold State.past
  split_ifs
  · rw [State.mySplit_modMySplit hs]; exact ⟨rfl, rfl, rfl⟩
  · exact ⟨rfl, rfl, rfl⟩

theorem State.finish_undone {s : State} (h : s.cur.done = false) (user : Bool) : s.finish user = s := by
  simp [State.finish, h]

/-! ## A trap out of user mode (R242) -/

/-- A trap of a strand that may take one at once is entered at TVEC. -/
theorem State.takeTrap_user {s : State} (h : s.MayTrap) {tr : Trap} (hb : tr.code = .brkpt → tr.d0 = 0) :
    s.takeTrap tr = (s.past tr).trapped.enterTrap s.mySplit.mask tr (s.savedNpc tr) := by
  have hst := State.still_past h.slot tr
  have hsup : (s.past tr).me.sup = s.me.sup := (congrArg Strand.sup hst :)
  have hpart : (s.past tr).me.part = s.me.part := (congrArg Strand.part hst :)
  have hload : (s.past tr).me.loading = s.me.loading := (congrArg Strand.loading hst :)
  have hsame := Same.past whole s tr
  rw [State.takeTrap_eq hb, State.enter_now _ _ _ (hload.trans h.loading), (State.mySplit_past h.slot tr).2.1,
    State.enterNow_user (hsup.trans h.user)]
  · rw [hpart, hsame.tvec, hsame.trapReady, State.cur_past, h.ready]
  · rw [hpart, hsame.trctl, h.quiet]

/-- A state in which a trap finds the issuing strand: beside its flow, event counters and the mark of completion it is the
state in which the instruction issued. -/
structure FoundBy (s u : State) : Prop where
  cur : u.cur = { s.cur with done := false }
  slot : (u.strand? u.cur.core u.cur.slot).isSome = true
  still : u.me.still = s.me.still
  split : u.mySplit.valid = s.mySplit.valid ∧ u.mySplit.mask = s.mySplit.mask ∧ u.mySplit.fmt = s.mySplit.fmt
  same : Same whole s u
  uncached : Same whole s.uncached u.uncached
  l1 : (u.core s.cur.core).l1 = (s.core s.cur.core).l1
  harbour : u.harbour = s.harbour
  latches : (u.ctx s.cur.core).latches = (s.ctx s.cur.core).latches

theorem State.foundBy_trapped {s : State} (hs : (s.strand? s.cur.core s.cur.slot).isSome = true) (tr : Trap) :
    FoundBy s (s.past tr).trapped where
  cur := by rw [State.cur_trapped, State.cur_past]
  slot := ((Same.trapped whole _).me (State.slot_past hs tr)).2
  still := by rw [State.me_trapped, State.still_past hs]
  split := by
    rw [State.mySplit, State.cur_trapped, State.me_trapped]; exact State.mySplit_past hs tr
  same := (Same.past whole s tr).trans (Same.trapped whole _)
  uncached := (Same.uncached_past whole s tr).trans (Same.uncached_trapped whole _)
  l1 := by rw [State.core_trapped, State.l1_past]
  harbour := by rw [State.harbour_trapped, State.harbour_past]
  latches := by rw [State.ctx_trapped, State.latches_past]

/-- The frame is stored at home and the strand enters at TVEC (R242). -/
theorem FoundBy.entered {s u : State} (h : FoundBy s u) (hc : s.canonical = true) (he : s.cur.entry < 4)
    (hl : (s.ctx s.cur.core).latches = []) {tr : Trap} (npc : PC) (h0 : tr.d0 < 2 ^ 64) (h1 : tr.d1 = 0)
    (hs : (s.strand? s.cur.core s.cur.slot).isSome = true) :
    (u.enterTrap s.mySplit.mask tr npc).cur.done = false ∧
      Entered s (u.enterTrap s.mySplit.mask tr npc) tr.code.num (flag tr.code.kindT + flag tr.code.kindP * 2) tr.d0 npc := by
  have hcore : u.cur.core = s.cur.core := by rw [h.cur]
  have harea : u.ctlArea u.cur.core u.cur.slot = s.ctlArea s.cur.core s.cur.slot := by rw [h.same.ctlArea, h.cur]
  have hlined : u.Lined u.cur.core := hcore ▸ (State.lined_of_canonical hc _).congr h.l1 h.harbour
  obtain ⟨v, hv⟩ : ∃ v, v = u.storeHome u.cur.core (u.ctlArea u.cur.core u.cur.slot) (u.trapBytes s.mySplit.mask tr npc) :=
    ⟨_, rfl⟩
  have hst := hv ▸ State.storeHome_spec hlined (u.ctlArea u.cur.core u.cur.slot) (u.trapBytes s.mySplit.mask tr npc)
  have hvme : v.me = u.me := State.me_congr (by rw [hst.cur]) (by rw [hst.cur]) (hst.ctx _)
  have hvslot : (v.strand? v.cur.core v.cur.slot).isSome = true := by
    rw [hst.cur, State.strand?, hst.ctx]; exact h.slot
  have htvec : (v.part u.me.part).tvec = (s.part s.me.part).tvec := by
    rw [show u.me.part = s.me.part from (congrArg Strand.part h.still :), ← h.same.tvec]
    exact hst.same.tvec _
  rw [State.enterTrap_eq h.slot (by rw [hcore, h.latches, hl]) _ _ _ hv, htvec]
  generalize v.readyAt _ = since
  have hme := State.me_modMe v (Strand.enterAt ((s.part s.me.part).tvec.setWidth 48) since) hvslot
  have hhide : ∀ t, butMode (Strand.enterAt ((s.part s.me.part).tvec.setWidth 48) since t).still = butMode t.still := fun _ => rfl
  obtain ⟨m, hm, hput⟩ := hst.harbour
  refine ⟨by rw [State.modMe_cur, hst.cur, h.cur], ?_⟩
  exact {
    sup := by rw [hme]; rfl
    stack := by rw [hme]; rfl
    entries := by rw [hme]; rfl
    pc := by rw [hme]; rfl
    mask := by rw [hme, hvme]; exact (congrArg Strand.live h.still :)
    frame := by
      rw [← harea]
      refine (State.frameAt_trapBytes u tr npc hm _ (by rw [h.split.2.1]; exact hput) (by rw [h.cur]; exact he) h0 h1).congr
        h.cur h.split.2.1 (fun k => Same.x (fun _ => rfl) h.same hs k) (Same.flg (fun _ => rfl) h.same hs)
    rest := by
      refine ⟨((h.uncached.trans hst.same).weaken butMode).trans (Same.uncached_modMe butMode v _ hhide), fun a => ⟨?_, fun c => ?_⟩⟩
      · rw [State.modMe_far, hst.far, h.same.far]
      · rw [(Same.modMe butMode v _ hhide).shelf, State.shelf, hst.ctx]
        exact congrArg (fun m : Mem => m.byte a) (h.same.shelf c)
    bytes := fun a ha => by
      rw [State.seen_congr (State.l1_modMe v _ _) (State.modMe_harbour v _), ← State.seen_congr h.l1 h.harbour, ← hcore]
      refine hst.seen a ?_
      rwa [State.trapBytes_length, harea] }

theorem FrameAt.of_harbour {t u s : State} {a code kind d0 : Nat} {npc : PC} (h : FrameAt t a code kind d0 s npc)
    (hh : u.harbour = t.harbour) : FrameAt u a code kind d0 s npc := by
  constructor <;> rw [hh]
  exacts [h.code, h.entry, h.kind, h.mask, h.pc, h.npc, h.word, h.detail, h.detail1, h.xregs, h.flg]

theorem Entered.countIssue {s t : State} {code kind d0 : Nat} {npc : PC} (h : Entered s t code kind d0 npc) (again : Bool) :
    Entered s (t.countIssue again) code kind d0 npc := by
  have hu := Same.uncached_countIssue butMode t again
  rcases State.countIssue_eq t again with e | e
  · rwa [e]
  rw [e] at hu ⊢
  have hme := State.me_count t t.cur.core 0x02 1
  exact {
    sup := by rw [hme, h.sup]
    stack := by rw [hme, h.stack]
    entries := by rw [hme, h.entries]
    pc := by rw [hme, h.pc]
    mask := by rw [hme, h.mask]
    frame := h.frame.of_harbour (State.harbour_count _ _ _ _)
    rest := ⟨h.rest.1.trans hu, fun a => ⟨by rw [State.far_count]; exact (h.rest.2 a).1, fun c => by
      rw [(Same.count whole t _ _ _).shelf]; exact (h.rest.2 a).2 c⟩⟩
    bytes := fun a ha => by
      rw [State.seen_congr (by rw [State.core_count]) (State.harbour_count _ _ _ _), h.bytes a ha] }

/-- An instruction that takes a trap out of user mode: its issue leaves the strand in supervisor mode. -/
theorem State.entered_issue {s : State} (h : s.MayTrap) (ha : s.cur.act ≠ 0) {tr : Trap} (hb : tr.code = .brkpt → tr.d0 = 0)
    (h0 : tr.d0 < 2 ^ 64) (h1 : tr.d1 = 0) {regs : List Reg} (hr : s.Named regs) {body : State → State} (hbody : body s = s.takeTrap tr) :
    Entered s (s.issue false regs body) tr.code.num (flag tr.code.kindT + flag tr.code.kindP * 2) tr.d0 (s.savedNpc tr) := by
  obtain ⟨hd, he⟩ := (State.foundBy_trapped h.slot tr).entered h.canonical h.range h.latches (s.savedNpc tr) h0 h1 h.slot
  rw [← State.takeTrap_user h hb] at hd he
  rw [State.issue_body s false regs body hr (.inl rfl) ha, hbody, State.finish_undone hd]
  exact he.countIssue _

end Sys2Proof.Machine
end

section
/-!
SUPPORT. The slots in use: every step on the way of a strand's end keeps them, and the end itself frees one slot (R29, R234).
-/

namespace Sys2Proof.Machine

/-! ## The slots in use -/

/-- The slots that hold a strand. -/
def Context.slots (x : Context) : List Nat := x.strands.map Prod.fst
/-- The slots of a core that hold a strand. -/
def State.slots (s : State) (c : Nat) : List Nat := (s.ctx c).slots

theorem Store.keys_modify {α : Type} (m : Store α) (k : Nat) (f : α → α) : (m.modify k f).map Prod.fst = m.map Prod.fst := by
  rw [Store.modify, List.map_map]
  refine List.map_congr_left fun e _ => ?_
  simp only [Function.comp]
  split_ifs <;> rfl

theorem Store.sorted_iff_keys {α : Type} (m : Store α) : m.sorted = true ↔ (m.map Prod.fst).Pairwise (· < ·) := by
  induction m with
  | nil => simp [Store.sorted]
  | cons e m ih =>
    rw [Store.sorted_cons, ih, List.map_cons, List.pairwise_cons]
    simp only [List.forall_mem_map]

theorem Store.at?_eq_none_iff {α : Type} {m : Store α} (h : m.sorted = true) (k : Nat) :
    m.at? k = none ↔ k ∉ m.map Prod.fst := by
  simp [Option.eq_none_iff_forall_ne_some, Store.at?_eq_some h]

theorem foldl_kept {α β γ : Type} {f : β → α → β} (g : β → γ) (h : ∀ b a, g (f b a) = g b) (l : List α) (b : β) :
    g (l.foldl f b) = g b := by
  induction l generalizing b with
  | nil => rfl
  | cons a l ih => rw [List.foldl_cons, ih, h]

/-! ### What a context's matrix engine does to its slots -/

theorem Context.slots_modify (x : Context) (k : Nat) (f : Strand → Strand) :
    ({ x with strands := Store.modify x.strands k f } : Context).slots = x.slots := Store.keys_modify _ _ _

@[simp] theorem Context.slots_modOp (x : Context) (id : Nat) (f : MatOp → MatOp) : (x.modOp id f).slots = x.slots := rfl
@[simp] theorem Context.slots_setEntry (x : Context) (e : Nat) (v : ScaleEntry) : (x.setEntry e v).slots = x.slots := rfl
@[simp] theorem Context.slots_toFreeList (x : Context) (e : Nat) : (x.toFreeList e).slots = x.slots := rfl
@[simp] theorem Context.slots_freeShadows (x : Context) (ns : List Nat) : (x.freeShadows ns).slots = x.slots := rfl
@[simp] theorem Context.slots_leaveLatch (x : Context) (slot : Nat) : (x.leaveLatch slot).slots = x.slots := rfl

@[simp] theorem Context.slots_freeEntry (x : Context) (e : Nat) : (x.freeEntry e).slots = x.slots := by
  unfold Context.freeEntry
  split_ifs <;> rfl

@[simp] theorem Context.slots_dropRef (x : Context) (tag : BitVec 16) : (x.dropRef tag).slots = x.slots := by
  unfold Context.dropRef
  dsimp only
  split_ifs <;> simp

@[simp] theorem Context.slots_releaseEntries (x : Context) (es : List Nat) : (x.releaseEntries es).slots = x.slots := by
  refine foldl_kept Context.slots (fun y e => ?_) es x
  dsimp only
  split_ifs <;> simp

@[simp] theorem Context.slots_arriveMat (x : Context) (ms : List MatMember) : (x.arriveMat ms).slots = x.slots :=
  foldl_kept Context.slots (fun y _ => y.slots_modify _ _) ms x

@[simp] theorem Context.slots_postFlags (x : Context) (o : MatOp) : (x.postFlags o).slots = x.slots :=
  foldl_kept Context.slots (fun y _ => y.slots_modify _ _) o.members x

@[simp] theorem Context.slots_endOp (x : Context) (o : MatOp) : (x.endOp o).slots = x.slots := by
  rw [Context.endOp, Context.slots_releaseEntries]
  change ((x.postFlags o).arriveMat o.members).slots = _
  simp

@[simp] theorem Context.slots_endGang (x : Context) (o : MatOp) (index uid : Nat) (all : Bool) :
    (x.endGang o index uid all).slots = x.slots := by
  refine (foldl_kept Context.slots (fun y m => ?_) o.members (x.endOp o)).trans (x.slots_endOp o)
  split_ifs
  · rfl
  · exact y.slots_modify _ _

@[simp] theorem Context.slots_endStopped (x : Context) (wg index uid : Nat) : (x.endStopped wg index uid).slots = x.slots := by
  refine foldl_kept Context.slots (fun y o => ?_) x.queue x
  dsimp only
  split_ifs <;> simp

@[simp] theorem Context.slots_giveShadow (x : Context) : x.giveShadow.slots = x.slots := by
  unfold Context.giveShadow
  split
  · split <;> rfl
  · rfl

@[simp] theorem Context.slots_renameShadow (x : Context) (m : MatMember) (n : Nat) : (x.renameShadow m n).slots = x.slots :=
  (Context.slots_freeShadows _ _).trans (x.slots_modify _ _)

@[simp] theorem Context.slots_resolveShadow (x : Context) (id : Nat) (m : MatMember) (v : Guard) :
    (x.resolveShadow id m v).slots = x.slots := by
  unfold Context.resolveShadow
  split <;> simp

@[simp] theorem Context.slots_resolveHeld (x : Context) (o : MatOp) (m : MatMember) (v : Guard) (g : Nat → Nat → Guard) :
    (x.resolveHeld o m v g).slots = x.slots := by
  unfold Context.resolveHeld
  dsimp only
  split_ifs
  · exact x.slots_arriveMat _
  · simp
  · simp

@[simp] theorem Context.slots_resolveMatrix (x : Context) (uid g : Nat) (v : Guard) :
    (x.resolveMatrix uid g v).slots = x.slots := by
  rw [Context.resolveMatrix, Context.slots_giveShadow]
  refine foldl_kept Context.slots (fun y o => ?_) x.queue x
  split
  · rfl
  · split_ifs <;> simp

@[simp] theorem Context.slots_returnEntries (x : Context) (w : Workgroup) : (x.returnEntries w).slots = x.slots := by
  unfold Context.returnEntries
  refine (foldl_kept Context.slots (fun y e => ?_) w.pool _).trans (foldl_kept Context.slots (fun y t => ?_) w.tiles x)
  · split_ifs <;> simp
  · split_ifs <;> simp

/-! ### Steps of the state that keep every slot -/

theorem State.slots_congr {s t : State} (h : t.cores = s.cores) : t.slots = s.slots := by
  funext c; unfold State.slots State.ctx State.core; rw [h]

theorem State.slots_modCore {s : State} {k : Nat} {f : Core → Core} (h : (f (s.core k)).ctx.slots = (s.core k).ctx.slots) :
    (s.modCore k f).slots = s.slots := by
  funext c
  unfold State.slots State.ctx
  rw [State.core_modCore]
  split_ifs with hc
  · rw [hc, h]
  · rfl

theorem State.slots_modCtx {s : State} {k : Nat} {f : Context → Context} (h : (f (s.ctx k)).slots = (s.ctx k).slots) :
    (s.modCtx k f).slots = s.slots := State.slots_modCore h

@[simp] theorem State.slots_modStrand (s : State) (c k : Nat) (f : Strand → Strand) : (s.modStrand c k f).slots = s.slots :=
  State.slots_modCtx (Context.slots_modify _ _ _)
@[simp] theorem State.slots_modMe (s : State) (f : Strand → Strand) : (s.modMe f).slots = s.slots := s.slots_modStrand _ _ f
@[simp] theorem State.slots_modUid (s : State) (c uid : Nat) (f : Strand → Strand) : (s.modUid c uid f).slots = s.slots := by
  unfold State.modUid
  split
  · exact s.slots_modStrand _ _ f
  · rfl
@[simp] theorem State.slots_modShelf (s : State) (c : Nat) (f : Mem → Mem) : (s.modShelf c f).slots = s.slots :=
  State.slots_modCtx rfl
@[simp] theorem State.slots_modWg (s : State) (c id : Nat) (f : Workgroup → Workgroup) : (s.modWg c id f).slots = s.slots :=
  State.slots_modCtx rfl
@[simp] theorem State.slots_modRun (s : State) (id : Nat) (f : TaskRun → TaskRun) : (s.modRun id f).slots = s.slots := rfl
@[simp] theorem State.slots_modPart (s : State) (p : Nat) (f : Partition → Partition) : (s.modPart p f).slots = s.slots := rfl
@[simp] theorem State.slots_modCmd (s : State) (id : Nat) (f : Cmd → Cmd) : (s.modCmd id f).slots = s.slots := rfl
@[simp] theorem State.slots_dropCmd (s : State) (id : Nat) : (s.dropCmd id).slots = s.slots := rfl
@[simp] theorem State.slots_modColl (s : State) (cmd : Nat) (f : CollOp → CollOp) : (s.modColl cmd f).slots = s.slots := rfl
@[simp] theorem State.slots_modChannel (s : State) (c : Nat) (f : Channel → Channel) : (s.modChannel c f).slots = s.slots := rfl
@[simp] theorem State.slots_homeWrite (s : State) (a : Nat) (bs : List Byte) : (s.homeWrite a bs).slots = s.slots := rfl
@[simp] theorem State.slots_report (s : State) (code core port d0 d1 : Nat) : (s.report code core port d0 d1).slots = s.slots :=
  rfl

@[simp] theorem State.slots_count (s : State) (c e n : Nat) : (s.count c e n).slots = s.slots := by
  rw [State.count_eq]; rfl

@[simp] theorem State.slots_trace (s : State) (part kind core arg q1 q2 : Nat) :
    (s.trace part kind core arg q1 q2).slots = s.slots := by
  unfold State.trace
  dsimp only
  split
  · rfl
  · split
    · rfl
    · split
      all_goals exact (State.slots_modPart _ _ _).trans (foldl_kept State.slots (fun t r => t.slots_homeWrite _ _) _ s)

@[simp] theorem State.slots_post (s : State) (part code core port d0 d1 : Nat) :
    (s.post part code core port d0 d1).slots = s.slots := by
  unfold State.post
  dsimp only
  split_ifs <;> simp

/-! #### Lines of an L1 -/

@[simp] theorem State.slots_flushNotices (s : State) (c k : Nat) : (s.flushNotices c k).slots = s.slots := by
  obtain ⟨_, _, _, _, h⟩ := NoticesMoved.flushNotices s c k
  rw [h]; rfl

@[simp] theorem State.slots_flushLine (s : State) (c line : Nat) : (s.flushLine c line).slots = s.slots := by
  have hw : (s.writeBack c line).slots = s.slots := by
    unfold State.writeBack
    split
    · rfl
    · split_ifs
      · rfl
      · refine (State.slots_modCore rfl).trans ?_
        change ((s.flushNotices c (sliceOf line)).count c 0x0E 1).slots = _
        simp
  exact (State.slots_modCore rfl).trans hw

@[simp] theorem State.slots_flushRange (s : State) (c lo hi : Nat) : (s.flushRange c lo hi).slots = s.slots :=
  foldl_kept State.slots (fun t _ => t.slots_flushLine c _) _ s

@[simp] theorem State.slots_cleanBytes (s : State) (c : Nat) (rs : List (Nat × Nat)) : (s.cleanBytes c rs).slots = s.slots := by
  refine foldl_kept State.slots (fun t e => ?_) _ s
  dsimp only
  split_ifs
  · rfl
  · refine (State.slots_modCore rfl).trans ?_
    change ((t.flushNotices c (sliceOf e.1)).count c 0x0E 1).slots = _
    simp

/-! #### Commands -/

@[simp] theorem State.slots_farWrite (s : State) (ps : List Page) (va : Nat) (bs : List Byte) :
    (s.farWrite ps va bs).slots = s.slots := by
  refine foldl_kept State.slots (fun t b => ?_) _ s
  unfold State.setFarByte
  dsimp only
  split <;> rfl

@[simp] theorem State.slots_bufWrite (s : State) (c : Cmd) (a : Nat) (bs : List Byte) : (s.bufWrite c a bs).slots = s.slots := by
  unfold State.bufWrite
  split_ifs <;> simp

@[simp] theorem State.slots_takeReduce (s : State) (c : Cmd) (d : CollDesc) (o : CollOp) (k i : Nat) (data : List Byte) :
    (s.takeReduce c d o k i data).1.slots = s.slots := by
  unfold State.takeReduce
  dsimp only
  split_ifs <;> simp

@[simp] theorem State.slots_takeGather (s : State) (c : Cmd) (d : CollDesc) (o : CollOp) (k i : Nat) (data : List Byte) :
    (s.takeGather c d o k i data).1.slots = s.slots := s.slots_bufWrite _ _ _

@[simp] theorem State.slots_applyChunk (s : State) (o : CollOp) (data : List Byte) : (s.applyChunk o data).slots = s.slots := by
  unfold State.applyChunk
  split
  · rfl
  · dsimp only
    split
    · rfl
    · split_ifs <;> simp

@[simp] theorem State.slots_drainBufs (s : State) (comm cmd n : Nat) : (s.drainBufs comm cmd n).slots = s.slots := by
  induction n generalizing s with
  | zero => rfl
  | succ n ih =>
    unfold State.drainBufs
    split
    · rfl
    · dsimp only
      split_ifs
      · rfl
      · split
        · rfl
        · rw [ih]; simp

@[simp] theorem State.slots_beginColl (s : State) (comm : Nat) : (s.beginColl comm).slots = s.slots := by
  unfold State.beginColl
  split
  · rfl
  · split_ifs
    · rfl
    · split
      · rfl
      · dsimp only
        split_ifs <;> simp

@[simp] theorem State.slots_postColl (s : State) (c : Cmd) : (s.postColl c).slots = s.slots :=
  (State.slots_beginColl _ _).trans rfl

@[simp] theorem State.slots_endCmd (s : State) (c : Cmd) : (s.endCmd c).slots = s.slots := s.slots_modUid _ _ _

@[simp] theorem State.slots_setBarrier (s : State) (c off : Nat) (b : BarrierObj) : (s.setBarrier c off b).slots = s.slots :=
  s.slots_modShelf _ _

theorem State.slots_expectOn? {s t : State} {c off n : Nat} (h : s.expectOn? c off n = some t) : t.slots = s.slots := by
  obtain ⟨b, -, rfl⟩ := Option.map_eq_some_iff.1 h
  exact s.slots_setBarrier _ _ _

@[simp] theorem State.slots_countDrops (s : State) (p c n : Nat) : (s.countDrops p c n).slots = s.slots :=
  State.slots_modCore rfl

@[simp] theorem State.slots_overflowCmd (s : State) (c : Cmd) (bar : Nat) : (s.overflowCmd c bar).slots = s.slots := by
  simp [State.overflowCmd]

@[simp] theorem State.slots_admitCmd (s : State) (c : Cmd) : (s.admitCmd c).slots = s.slots := by
  unfold State.admitCmd
  dsimp only
  split
  · simp
  · next t h => exact (State.slots_modCmd _ _ _).trans (State.slots_expectOn? h)

@[simp] theorem State.slots_start (s : State) (c : Cmd) : (s.start c).slots = s.slots := by
  unfold State.start
  split_ifs
  · simp
  · simp
  · split
    · simp
    · next t h => exact (State.slots_modCmd _ _ _).trans (State.slots_expectOn? h)
  · simp
  · simp

@[simp] theorem State.slots_advanceBy (s : State) (uid eng n : Nat) : (s.advanceBy uid eng n).slots = s.slots := by
  induction n generalizing s with
  | zero => rfl
  | succ n ih =>
    unfold State.advanceBy
    split
    · rfl
    · split_ifs
      · rfl
      · split
        · rfl
        · rw [ih]; simp
        · dsimp only
          split_ifs
          · simp
          · rw [ih]; simp

@[simp] theorem State.slots_advanceAll (s : State) (uid : Nat) : (s.advanceAll uid).slots = s.slots :=
  foldl_kept State.slots (fun t e => t.slots_advanceBy uid e _) _ s

@[simp] theorem State.slots_discardHeld (s : State) (uid g : Nat) : (s.discardHeld uid g).slots = s.slots :=
  foldl_kept State.slots State.slots_endCmd _ s

/-! #### The parts of a strand's end -/

@[simp] theorem State.slots_traceGone (s : State) (c : Nat) (before : List MatOp) : (s.traceGone c before).slots = s.slots := by
  refine foldl_kept State.slots (fun t o => ?_) _ s
  unfold State.traceMmx
  split_ifs
  · rfl
  · split <;> simp

@[simp] theorem State.slots_setGuard (s : State) (c k g : Nat) (v : Guard) : (s.setGuard c k g v).slots = s.slots := by
  unfold State.setGuard
  split
  · rfl
  · split
    · rfl
    · dsimp only
      rw [State.slots_advanceAll, State.slots_traceGone, State.slots_modCtx (Context.slots_resolveMatrix _ _ _ _)]
      split <;> simp

@[simp] theorem State.slots_leaveGroups (s : State) (c : Nat) (t : Strand) : (s.leaveGroups c t).slots = s.slots := by
  refine foldl_kept State.slots (fun u e => ?_) _ s
  split
  · rfl
  · split
    · rfl
    · exact State.slots_modCtx rfl

@[simp] theorem State.slots_latchExit (s : State) (c wg index : Nat) : (s.latchExit c wg index).slots = s.slots := by
  unfold State.latchExit State.wake
  dsimp only
  exact (foldl_kept State.slots (fun t w => by simp) _ _).trans (State.slots_modCtx rfl)

@[simp] theorem State.slots_releaseWg (s : State) (c id : Nat) : (s.releaseWg c id).slots = s.slots := by
  unfold State.releaseWg
  split
  · rfl
  · dsimp only
    split_ifs
    · exact (State.slots_modCtx rfl).trans (State.slots_modCtx (Context.slots_returnEntries _ _))
    · exact State.slots_modCtx (Context.slots_returnEntries _ _)

@[simp] theorem State.slots_reap (s : State) (run : Nat) : (s.reap run).slots = s.slots := by
  unfold State.reap
  dsimp only
  split_ifs
  · rfl
  · exact foldl_kept State.slots (fun t e => t.slots_releaseWg _ _) _ s

@[simp] theorem State.slots_setTask (s : State) (part tcb new : Nat) : (s.setTask part tcb new).slots = s.slots :=
  (State.slots_trace _ _ _ _ _ _ _).trans rfl

@[simp] theorem State.slots_setFault (s : State) (tcb fpc fcode fcore fwg : Nat) :
    (s.setFault tcb fpc fcode fcore fwg).slots = s.slots := rfl

@[simp] theorem State.slots_announceFault (s : State) (r : TaskRun) (fcode fcore : Nat) :
    (s.announceFault r fcode fcore).slots = s.slots := State.slots_post _ _ _ _ _ _ _

/-! ## The end of a strand (R29) -/

/-- On every core the strands are listed by ascending slot. -/
def State.SlotsAscend (s : State) : Prop := ∀ c, (s.slots c).Pairwise (· < ·)

theorem State.slotsAscend_of_canonical {s : State} (h : s.canonical = true) : s.SlotsAscend := fun c => by
  have hc := State.canonical_core h c
  simp only [Core.canonical, Context.canonical, Bool.and_eq_true] at hc
  exact (Store.sorted_iff_keys _).1 hc.1.1.1.1.1.1.1.2

theorem State.SlotsAscend.congr {s t : State} (h : s.SlotsAscend) (e : t.slots = s.slots) : t.SlotsAscend :=
  fun c => e ▸ h c

/-- Whether a slot is free depends on the slots in use. -/
theorem State.strand?_eq_none_iff {s : State} (h : s.SlotsAscend) (c k : Nat) : s.strand? c k = none ↔ k ∉ s.slots c :=
  Store.at?_eq_none_iff ((Store.sorted_iff_keys _).2 (h c)) k

theorem State.strand?_eq_none_congr {s t : State} (h : s.SlotsAscend) (e : t.slots = s.slots) {c k : Nat}
    (hn : s.strand? c k = none) : t.strand? c k = none := by
  rw [State.strand?_eq_none_iff (h.congr e), e, ← State.strand?_eq_none_iff h]
  exact hn

theorem Store.keys_del {α : Type} {m : Store α} (h : m.sorted = true) (k : Nat) :
    (m.del k).map Prod.fst = (m.map Prod.fst).erase k := by
  induction m with
  | nil => rfl
  | cons e m ih =>
    obtain ⟨j, u⟩ := e
    obtain ⟨hlt, hm⟩ := (Store.sorted_cons j u m).1 h
    rw [Store.del, List.map_cons]
    split_ifs with hk hj
    · refine (List.erase_of_not_mem fun hmem => ?_).symm
      rcases List.mem_cons.1 hmem with rfl | hin
      · omega
      · obtain ⟨e, he, rfl⟩ := List.mem_map.1 hin
        have := hlt e he
        omega
    · rw [hj, List.erase_cons_head]
    · rw [List.erase_cons_tail (by simpa using Ne.symm hj), List.map_cons, ih hm]

/-- The strand leaves its slot, and every other slot is in use as before. -/
theorem State.slots_endStrand {s : State} (h : s.SlotsAscend) (core slot c : Nat) :
    (s.endStrand core slot).slots c = if c = core then (s.slots core).erase slot else s.slots c := by
  unfold State.endStrand
  split
  · next hn =>
    rw [List.erase_of_not_mem ((State.strand?_eq_none_iff h core slot).1 hn)]
    split_ifs with hc
    · rw [hc]
    · rfl
  next t _ =>
  dsimp only
  rw [State.slots_reap, State.slots_modRun, State.slots_modWg]
  set u := State.latchExit _ core t.wg t.index with hu
  have hguard : ∀ (v : State) (g : Nat),
      (if t.guard g = .unresolved then v.setGuard core slot g .isFalse else v).slots = v.slots := fun v g => by
    split
    · exact v.slots_setGuard _ _ _ _
    · rfl
  have hslots : u.slots = s.slots := by
    rw [hu, State.slots_latchExit, State.slots_modCtx (by simp), State.slots_leaveGroups]
    exact foldl_kept State.slots hguard _ s
  have hrefs : ∀ x : Context, (t.sregs.foldl (fun x e => x.dropRef e.2) x).slots = x.slots := fun x =>
    foldl_kept Context.slots (fun (y : Context) (e : Nat × BitVec 16) => y.slots_dropRef e.2) t.sregs x
  rw [← hslots, State.slots, State.ctx_modCtx]
  split_ifs with hc
  · have hs : (t.sregs.foldl (fun x e => x.dropRef e.2) (u.ctx core)).strands.sorted = true := by
      rw [Store.sorted_iff_keys]
      have := h core
      rwa [← hslots, State.slots, ← hrefs] at this
    refine (Store.keys_del hs slot).trans ?_
    exact congrArg (List.erase · slot) (hrefs (u.ctx core))
  · rfl

theorem State.SlotsAscend.endStrand {s : State} (h : s.SlotsAscend) (core slot : Nat) : (s.endStrand core slot).SlotsAscend :=
  fun c => by
    rw [State.slots_endStrand h]
    split_ifs
    · exact (h core).sublist List.erase_sublist
    · exact h c

theorem State.strand?_endStrand {s : State} (h : s.SlotsAscend) (core slot : Nat) :
    (s.endStrand core slot).strand? core slot = none := by
  rw [State.strand?_eq_none_iff (h.endStrand core slot), State.slots_endStrand h, if_pos rfl]
  exact List.Nodup.not_mem_erase ((h core).imp ne_of_lt)

theorem State.SlotsAscend.endStrands {s : State} (h : s.SlotsAscend) (run : Nat) : (s.endStrands run).SlotsAscend := by
  unfold State.endStrands
  induction (s.cores.flatMap fun e => (e.2.ctx.strands.filter fun t => t.2.run == run).map fun t => (e.1, t.1))
    generalizing s with
  | nil => exact h
  | cons a l ih => exact ih (h.endStrand a.1 a.2)

theorem State.SlotsAscend.faultTask {s : State} (h : s.SlotsAscend) (run fpc fcode fcore fwg : Nat) :
    (s.faultTask run fpc fcode fcore fwg).SlotsAscend := by
  unfold State.faultTask
  split
  · exact h
  next r _ =>
  split_ifs
  · exact h
  · dsimp only
    have hends := (h.congr (State.slots_modRun s run fun r => { r with phase := .faulted, reserved := [] })).endStrands r.id
    refine hends.congr ?_
    rw [State.slots_reap, State.slots_announceFault, State.slots_setFault, State.slots_setTask]
    exact foldl_kept State.slots (fun t c => t.slots_cleanBytes c _) r.cores _

/-- A strand that faults its task is gone. -/
theorem State.strand?_faultFromFrame {s : State} (h : s.SlotsAscend) (code : Option Nat) :
    (s.faultFromFrame code).strand? s.cur.core s.cur.slot = none :=
  State.strand?_endStrand (h.faultTask _ _ _ _ _) _ _

/-! ## A trap inside a nested trap (R246, R391) -/

theorem State.cur_homeWrite (s : State) (a : Nat) (bs : List Byte) : (s.homeWrite a bs).cur = s.cur := rfl

theorem State.cur_trace (s : State) (part kind core arg q1 q2 : Nat) : (s.trace part kind core arg q1 q2).cur = s.cur := by
  unfold State.trace
  dsimp only
  split
  · rfl
  · split
    · rfl
    · split
      all_goals exact (State.modPart_cur _ _ _).trans (foldl_kept State.cur (fun t r => t.cur_homeWrite _ _) _ s)

theorem State.cur_post (s : State) (part code core port d0 d1 : Nat) : (s.post part code core port d0 d1).cur = s.cur := by
  unfold State.post
  dsimp only
  split_ifs <;> exact State.cur_trace _ _ _ _ _ _ _

/-- A trap of a strand in supervisor mode goes in at once. -/
theorem State.takeTrap_sup {s : State} (hs : (s.strand? s.cur.core s.cur.slot).isSome = true) (hu : s.me.sup = true)
    {tr : Trap} (hb : tr.code = .brkpt → tr.d0 = 0) :
    s.takeTrap tr = (s.past tr).enterNow (s.past tr).mySplit.mask tr (s.savedNpc tr) := by
  have hsup : (s.past tr).me.sup = true := (congrArg Strand.sup (State.still_past hs tr) :).trans hu
  rw [State.takeTrap_eq hb]
  simp [State.enter, hsup]

@[simp] theorem State.slots_past (s : State) (tr : Trap) : (s.past tr).slots = s.slots := by
  unfold State.past
  split_ifs
  · exact s.slots_modMe _
  · rfl

theorem State.slots_finish_sup (s : State) : (s.finish false).slots = s.slots := by
  rw [State.finish, Bool.false_and, Bool.false_and, Bool.false_and, if_neg Bool.false_ne_true]
  split
  · rfl
  · exact s.slots_modMe _

@[simp] theorem State.slots_countIssue (s : State) (again : Bool) : (s.countIssue again).slots = s.slots := by
  rcases State.countIssue_eq s again with e | e
  · rw [e]
  · rw [e, State.slots_count]

/-- An instruction that traps inside a nested trap: its issue ends the strand. -/
theorem State.nested_issue {s : State} (h : s.Runs) (hc : s.canonical = true) (hu : s.me.sup = true) (hst : s.me.stcode ≠ 0)
    {tr : Trap} (hb : tr.code = .brkpt → tr.d0 = 0) {regs : List Reg} (hr : s.Named regs) {body : State → State}
    (hbody : body s = s.takeTrap tr) : (s.issue false regs body).strand? s.cur.core s.cur.slot = none := by
  have hf := State.foundBy_trapped h.slot tr
  have hstill := State.still_past h.slot tr
  have hasc := State.slotsAscend_of_canonical hc
  set u := (s.past tr).trapped.post (s.past tr).me.part 0x09 (s.past tr).trapped.cur.core 0xFFFF
    (s.past tr).trapped.cur.pc.toNat tr.code.num with hudef
  have huasc : u.SlotsAscend := hasc.congr (by
    rw [hudef, State.slots_post]; exact (State.slots_count _ _ _ _).trans (State.slots_past s tr))
  have hucur : u.cur = { s.cur with done := false } := by rw [hudef, State.cur_post, hf.cur]
  have hend : (u.faultFromFrame (some tr.code.num)).strand? s.cur.core s.cur.slot = none := by
    have := State.strand?_faultFromFrame huasc (some tr.code.num)
    rwa [hucur] at this
  have hendasc : (u.faultFromFrame (some tr.code.num)).SlotsAscend := (huasc.faultTask _ _ _ _ _).endStrand _ _
  rw [State.issue_body s false regs body hr (.inl rfl) h.lane, hbody, State.takeTrap_sup h.slot hu hb,
    State.enterNow_nested ((congrArg Strand.sup hstill :).trans hu)
      (ne_of_eq_of_ne (congrArg Strand.stcode hstill :) hst), hu]
  refine State.strand?_eq_none_congr hendasc ?_ hend
  rw [State.slots_countIssue, Bool.not_true, State.slots_finish_sup]

end Sys2Proof.Machine
end

section
/-!
SUPPORT. TRAP and BRK, in supervisor mode and with no active lane; the statement about them.
-/

namespace Sys2Proof.Machine

/-! ## A strand with one split -/

theorem Strand.validEntries_modSplit (t : Strand) (e : Nat) {f : Split → Split} (h : (f (t.split e)).valid = (t.split e).valid) :
    (t.modSplit e f).validEntries = t.validEntries := by
  refine List.filter_congr fun k _ => ?_
  rw [Strand.modSplit, Strand.split_setSplit]
  split_ifs with hk
  · rw [hk, h]
  · rfl

theorem Strand.converged_modSplit (t : Strand) (e : Nat) {f : Split → Split} (h : (f (t.split e)).valid = (t.split e).valid) :
    (t.modSplit e f).converged = t.converged := by
  rw [Strand.converged, Strand.validEntries_modSplit t e h]; rfl

/-- The one split of a converged strand is all that its table holds. -/
theorem Strand.validEntries_of_converged {t : Strand} (hc : t.converged = true) {e : Nat} (he : e < 4)
    (hv : (t.split e).valid = true) : t.validEntries = [e] := by
  simp only [Strand.converged, Bool.and_eq_true, beq_iff_eq] at hc
  obtain ⟨a, ha⟩ := List.length_eq_one_iff.1 hc.1
  have hmem : e ∈ t.validEntries := List.mem_filter.2 ⟨List.mem_range.2 he, hv⟩
  rw [ha, List.mem_singleton] at hmem
  rw [ha, hmem]

/-- A table with one split that does not wait at a SYNCS is in order. -/
theorem Strand.settle_of_converged {t : Strand} (hc : t.converged = true) {e : Nat} (he : e < 4)
    (hv : (t.split e).valid = true) (hw : (t.split e).wait ≠ 1) (since : PC → Nat) (n : Nat) : t.settle since n = t := by
  have hes := Strand.validEntries_of_converged hc he hv
  have htwins : t.twins = none := by simp [Strand.twins, hes]
  have hstack : t.stack.isEmpty = true := by
    simp only [Strand.converged, Bool.and_eq_true] at hc; exact hc.2
  have hall : (t.validEntries.all fun e => (t.split e).wait == 1) = false := by rw [hes]; simpa using hw
  cases n with
  | zero => rfl
  | succ n =>
    simp only [Strand.settle, htwins, hstack, hall, Bool.not_true, Bool.false_and, Bool.and_false, Bool.false_eq_true,
      if_false]

/-! ## A trap in supervisor mode (R246) -/

/-- The trap's code, PC, address and detail go to the supervisor trap registers. -/
def Strand.noteTrap (tr : Trap) (pc : PC) (t : Strand) : Strand :=
  { t with
    stcode := BitVec.ofNat 16 tr.code.num, stpc := pc
    staddr := BitVec.ofNat 64 tr.addr, stdetail := BitVec.ofNat 64 tr.d0 }

theorem State.enterSvec_eq {s : State} (hs : (s.strand? s.cur.core s.cur.slot).isSome = true)
    (hl : (s.ctx s.cur.core).latches = []) (tr : Trap) {u : State} (hu : u = s.modMe (Strand.noteTrap tr s.cur.pc)) :
    s.enterSvec tr = (u.modMySplit fun q => q.go ((s.part s.me.part).svec.setWidth 48)
      (u.readyAt ((s.part s.me.part).svec.setWidth 48))).settleMe := by
  unfold State.enterSvec
  simp only [State.leaveLatch_of_nil hs hl]
  rw [hu]
  rfl

theorem State.converged_past {s : State} (hs : (s.strand? s.cur.core s.cur.slot).isSome = true) (tr : Trap) :
    (s.past tr).me.converged = s.me.converged := by
  unfold State.past
  split_ifs
  · rw [State.modMySplit, State.me_modMe _ _ hs, Strand.converged_modSplit]; rfl
  · rfl

/-- The effect of a trap in supervisor mode on a strand with one split. -/
structure AtSvec (s t : State) (tr : Trap) : Prop where
  stcode : t.me.stcode = BitVec.ofNat 16 tr.code.num
  stpc : t.me.stpc = s.cur.pc
  stdetail : t.me.stdetail = BitVec.ofNat 64 tr.d0
  stands : t.StandsAt ((s.part s.me.part).svec.setWidth 48) s.mySplit.mask s.fmt
  same : Same butSt s t

theorem FoundBy.atSvec {s u : State} (h : FoundBy s u) (ha : s.Alone) (hconv : u.me.converged = true)
    (hl : (s.ctx s.cur.core).latches = []) (tr : Trap) : (u.enterSvec tr).cur.done = false ∧ AtSvec s (u.enterSvec tr) tr := by
  have hentry : u.cur.entry = s.cur.entry := by rw [h.cur]
  have hpart : u.me.part = s.me.part := (congrArg Strand.part h.still :)
  obtain ⟨v, hv⟩ : ∃ v, v = u.modMe (Strand.noteTrap tr u.cur.pc) := ⟨_, rfl⟩
  have hvsame : Same butSt u v := hv ▸ Same.modMe butSt u _ fun _ => rfl
  have hvslot := (hvsame.me h.slot).2
  have hvme : v.me = Strand.noteTrap tr u.cur.pc u.me := hv ▸ State.me_modMe _ _ h.slot
  have hvcur : v.cur = u.cur := by rw [hv, State.modMe_cur]
  rw [State.enterSvec_eq h.slot (by rw [h.cur]; exact h.latches.trans hl) tr hv, hpart, h.same.svec]
  set svec : PC := (s.part s.me.part).svec.setWidth 48
  generalize v.readyAt svec = since
  obtain ⟨w, hw⟩ : ∃ w, w = v.modMySplit fun q => q.go svec since := ⟨_, rfl⟩
  rw [← hw]
  have hwcur : w.cur = u.cur := by rw [hw, State.modMySplit, State.modMe_cur, hvcur]
  have hwsame : Same butSt v w := hw ▸ Same.modMySplit butSt v _
  have hwslot := (hwsame.me hvslot).2
  have hwme : w.me = (u.me.noteTrap tr u.cur.pc).modSplit u.cur.entry fun q => q.go svec since := by
    rw [hw, State.modMySplit, State.me_modMe _ _ hvslot, hvme, hvcur]
  have hwsplit : w.mySplit = u.mySplit.go svec since := by
    rw [hw, State.mySplit_modMySplit hvslot, State.mySplit, hvme, hvcur]; rfl
  have hsettle : w.settleMe.me = w.me := by
    rw [State.settleMe, State.me_modMe _ _ hwslot]
    refine Strand.settle_of_converged (e := u.cur.entry) ?_ (hentry ▸ ha.entry) ?_ ?_ _ _
    · rw [hwme, Strand.converged_modSplit _ _ rfl]; exact hconv
    · rw [← hwcur]; exact (congrArg Split.valid hwsplit).trans (h.split.1.trans ha.valid)
    · rw [← hwcur, show w.me.split w.cur.entry = w.mySplit from rfl, hwsplit]; exact (by decide : (0 : BitVec 2) ≠ 1)
  have hcur : w.settleMe.cur = u.cur := by rw [State.settleMe, State.modMe_cur, hwcur]
  have hsplit : w.settleMe.mySplit = u.mySplit.go svec since := by
    rw [State.mySplit, hsettle, hcur, ← hwcur]; exact hwsplit
  refine ⟨by rw [hcur, h.cur], ?_⟩
  exact {
    stcode := by rw [hsettle, hwme]; rfl
    stpc := by rw [hsettle, hwme]; exact (congrArg Cur.pc h.cur :)
    stdetail := by rw [hsettle, hwme]; rfl
    stands := {
      valid := by rw [hsplit]; exact h.split.1.trans ha.valid
      wait := by rw [hsplit]; rfl
      pc := by rw [hsplit]; rfl
      mask := by rw [hsplit]; exact h.split.2.1
      fmt := by rw [hsplit]; exact h.split.2.2 }
    same := (((h.same.weaken butSt).trans hvsame).trans hwsame).trans (Same.settleMe butSt w) }

theorem AtSvec.countIssue {s t : State} {tr : Trap} (h : AtSvec s t tr) (again : Bool) : AtSvec s (t.countIssue again) tr := by
  have hs := h.same.trans (Same.countIssue butSt t again)
  rcases State.countIssue_eq t again with e | e
  · rwa [e]
  rw [e] at hs ⊢
  have hme := State.me_count t t.cur.core 0x02 1
  have hsplit : (t.count t.cur.core 0x02 1).mySplit = t.mySplit := by
    rw [State.mySplit, hme, State.cur_count]; rfl
  exact {
    stcode := by rw [hme, h.stcode]
    stpc := by rw [hme, h.stpc]
    stdetail := by rw [hme, h.stdetail]
    stands := {
      valid := by rw [hsplit, h.stands.valid]
      wait := by rw [hsplit, h.stands.wait]
      pc := by rw [hsplit, h.stands.pc]
      mask := by rw [hsplit, h.stands.mask]
      fmt := by rw [hsplit, h.stands.fmt] }
    same := hs }

/-- An instruction that traps in supervisor mode with STCODE 0: its issue leaves the strand at SVEC. -/
theorem State.atSvec_issue {s : State} (h : s.Runs) (hu : s.me.sup = true) (ha : s.Alone) (h0 : s.me.stcode = 0)
    (hready : s.trapReady s.cur.core s.me.part (s.part s.me.part).svec = true)
    (hquiet : (s.part s.me.part).trctl.getLsbD 0 = false) (hl : (s.ctx s.cur.core).latches = [])
    {tr : Trap} (hb : tr.code = .brkpt → tr.d0 = 0) {regs : List Reg} (hr : s.Named regs) {body : State → State}
    (hbody : body s = s.takeTrap tr) : AtSvec s (s.issue false regs body) tr := by
  have hstill := State.still_past h.slot tr
  have hpart : (s.past tr).me.part = s.me.part := (congrArg Strand.part hstill :)
  have hsame := Same.past whole s tr
  obtain ⟨hd, hat⟩ := (State.foundBy_trapped h.slot tr).atSvec ha
    (by rw [State.me_trapped, State.converged_past h.slot]; exact ha.converged) hl tr
  rw [State.issue_body s false regs body hr (.inl rfl) h.lane, hbody, State.takeTrap_sup h.slot hu hb,
    State.enterNow_svec ((congrArg Strand.sup hstill :).trans hu) ((congrArg Strand.stcode hstill :).trans h0)
      (by rw [hpart, hsame.svec, hsame.trapReady, State.cur_past, hready]) (by rw [hpart, hsame.trctl, hquiet]),
    State.finish_undone hd]
  exact hat.countIssue _

/-! ## TRAP and BRK (R371, R488) -/

/-- With no active lane an instruction that needs no privilege is a no-op (R239). -/
theorem State.inactive_issue {s : State} (hs : (s.strand? s.cur.core s.cur.slot).isSome = true) (ha : s.cur.act = 0)
    (hstep : s.me.sup = true ∨ s.me.dbgstep = false) {regs : List Reg} (hr : s.Named regs) (body : State → State) :
    (s.issue false regs body).cur.done = true ∧ Same whole s (s.issue false regs body) := by
  have hgo : s.issue false regs body = (s.retire.finish (!s.me.sup)).countIssue (s.mySplit.stall != .none) := by
    simp only [State.issue, hr.1, Bool.false_and, Bool.false_eq_true, if_false, ha, if_true]
  obtain ⟨hdone, hsame⟩ := State.finish_retire s (!s.me.sup) hs (hstep.imp_left fun h => by rw [h]; rfl)
  rw [hgo, State.cur_countIssue]
  exact ⟨hdone, hsame.trans (Same.countIssue whole _ _)⟩

/-- The trap of TRAP and of BRK. -/
def trapOf : Instr → Trap
  | .trap n => { code := .swtrap, d0 := n.val }
  | _ => { code := .brkpt }

theorem exec_of_trapWord {i : Instr} (h : (trapWord i).isSome = true) (s : State) :
    exec i s = .next (s.issue false [] fun s => s.takeTrap (trapOf i)) := by
  cases i with
  | trap n => rfl
  | brk => rfl
  | _ => cases h

/-- What the table says of an instruction is what its trap says. -/
theorem trapOf_of_trapSpec {s : State} {i : Instr} {code kind d0 : Nat} {npc : PC} (h : trapSpec s i = some (code, kind, d0, npc)) :
    (trapWord i).isSome = true ∧ (trapOf i).code.num = code ∧
      flag (trapOf i).code.kindT + flag (trapOf i).code.kindP * 2 = kind ∧ (trapOf i).d0 = d0 ∧ s.savedNpc (trapOf i) = npc := by
  cases i with
  | trap n => cases h; exact ⟨rfl, rfl, rfl, rfl, rfl⟩
  | brk => cases h; exact ⟨rfl, rfl, rfl, rfl, rfl⟩
  | _ => cases h

/-- BRK is no comparator's BRKPT. -/
theorem d0_trapOf (i : Instr) : (trapOf i).code = .brkpt → (trapOf i).d0 = 0 := by
  cases i with
  | trap n => intro h; cases h
  | _ => exact fun _ => rfl

theorem d0_trapOf_lt (i : Instr) : (trapOf i).d0 < 2 ^ 64 := by
  cases i with
  | trap n => exact n.isLt.trans (by decide)
  | _ => exact Nat.two_pow_pos 64

theorem d1_trapOf (i : Instr) : (trapOf i).d1 = 0 := by
  cases i <;> rfl

theorem encodedBy_trapWord : EncodedBy trapWord := by
  intro i w l h
  cases i with
  | trap n =>
    cases h
    have hw : ({ op := 0x00C, k := 0, a := 0, b := n.val / 128, c := n.val % 128, lit := 0 } : Fields).toWord =
        0x03000000 + n.val := by
      simp only [Fields.toWord]; omega
    exact congrArg (fun w => some (BitVec.ofNat 32 w, (none : Option Word))) hw
  | brk => cases h; decide
  | _ => cases h

/-- Settles O17: TRAP and BRK issue as an instruction that takes its trap, so each clause is what the issue of such an
instruction leaves: nothing with no active lane, the frame and TVEC out of user mode, SVEC or the strand's end in supervisor
mode. -/
theorem trapsAreTaken : Obligations.TrapsAreTaken := by
  refine ⟨encodedBy_trapWord, fun s i hi hs ha hstep => ?_, fun s i code kind d0 npc hi hs ha => ?_,
    fun s i code kind d0 npc hi hs hc hu => ?_⟩
  · obtain ⟨hdone, hsame⟩ := State.inactive_issue hs ha hstep (regs := []) ⟨rfl, rfl⟩ fun s => s.takeTrap (trapOf i)
    exact ⟨_, exec_of_trapWord hi s, hdone, hsame, hsame.bytes⟩
  · obtain ⟨hw, rfl, rfl, rfl, rfl⟩ := trapOf_of_trapSpec hi
    exact ⟨_, exec_of_trapWord hw s,
      State.entered_issue hs ha (d0_trapOf i) (d0_trapOf_lt i) (d1_trapOf i) ⟨rfl, rfl⟩ rfl⟩
  · obtain ⟨hw, rfl, rfl, rfl, rfl⟩ := trapOf_of_trapSpec hi
    refine ⟨fun hst => ⟨_, exec_of_trapWord hw s, State.nested_issue hs hc hu hst (d0_trapOf i) ⟨rfl, rfl⟩ rfl⟩,
      fun ha h0 hready hquiet hl => ?_⟩
    have h := State.atSvec_issue hs hu ha h0 hready hquiet hl (d0_trapOf i) (regs := []) ⟨rfl, rfl⟩
      (body := fun s => s.takeTrap (trapOf i)) rfl
    exact ⟨_, exec_of_trapWord hw s, h.stcode, h.stpc, h.stdetail, h.stands, h.same, h.same.bytes⟩

end Sys2Proof.Machine
end

section
/-!
SUPPORT. Floating-point vector instructions: the model's lanes are those of the table, and their flags join FLG; the
statement about them.
-/

namespace Sys2Proof.Machine

/-! ## Flags that join FLG -/

/-- FLG takes the flags of the active lanes by OR (R76, R105). -/
theorem FlagsJoined.of_flg {s t : State} {fl : Nat → Flags} (h : t.me.flg = s.me.flg ||| (s.laneFlags fl &&& 0x3F#16)) :
    FlagsJoined s t fl := fun k hk => by
  rw [h, getLsbD_joined _ _ k hk, State.getLsbD_laneFlags]

/-! ## Paired halves (R413) -/

/-- The model cuts half `k` of a word at bit `16 * k`: the low half is the remainder by 2^16, the high half the quotient. -/
theorem low_half (x : Word) : x.toNat / 2 ^ (16 * 0) % 2 ^ 16 = x.toNat % 65536 := by omega
theorem high_half (x : Word) : x.toNat / 2 ^ (16 * 1) % 2 ^ 16 = x.toNat / 65536 := by
  have := x.isLt; omega

theorem halves_eq_pairOf (f : Nat → Nat → Nat → Nat × Flags) (x y z : Word) :
    halves f x y z = pairOf f x.toNat y.toNat z.toNat :=
  congrArg₂ (fun lo hi : Nat × Flags => (lo.1 + hi.1 * 65536, lo.2 ||| hi.2))
    (congr (congrArg₂ f (low_half x) (low_half y)) (low_half z))
    (congr (congrArg₂ f (high_half x) (high_half y)) (high_half z))

/-! ## What a floating-point vector instruction runs as -/

/-- The outcome is that of a vector instruction with flags which names registers of the entry only and computes the
entry's values. -/
def FlagSpec.RunsAs (x : FlagSpec) (s : State) (r : Result) : Prop :=
  ∃ (regs : List VReg) (f : State → Nat → Nat × Flags), r = .next (s.vectorF (regs.map vr) x.dest f) ∧
    f s = x.val s ∧ ∀ g ∈ regs, g ∈ x.dest :: x.srcs

/-- An instruction that names the entry's registers in their order. -/
theorem FlagSpec.RunsAs.own {x : FlagSpec} {s : State} {r : Result} {f : State → Nat → Nat × Flags}
    (hr : r = .next (s.vectorF ((x.dest :: x.srcs).map vr) x.dest f)) (hf : f s = x.val s) : x.RunsAs s r :=
  ⟨_, f, hr, hf, fun _ h => h⟩

/-- HADD2 and HMUL2 name their first source in the place of the third, which they do not read. -/
theorem State.hop_runsAs (s : State) {op : ArithOp} (hop : op ≠ .fma) (md : FpMod) (d a b : VReg) :
    (halfTwo op md.bf md.rm md.ftz d a b).RunsAs s (.next (s.hop op { md with vc := a } d a b)) := by
  refine ⟨[d, a, b, a], _, rfl, funext fun l => ?_, fun g hg => ?_⟩
  · simp only [if_neg hop]
    exact halves_eq_pairOf _ _ _ _
  · simpa [halfTwo, or_comm, or_left_comm] using hg

/-- The effect of the special functions: the entry's function under FMT.FZ. -/
theorem State.special1_runsAs (s : State) (d a : VReg) (f : Bool → Nat → Nat × Flags) :
    (fpOne d a fun s x => f (fmtFz s.fmt) x).RunsAs s (.next (s.special1 d a f)) := .own rfl rfl

/-- FADD, FSUB and FMUL of two registers. -/
theorem State.fop_runsAs (s : State) (op : ArithOp) (rm : Option Rm) (ftz : Bool) (d a b : VReg) :
    (fpTwo op rm ftz d a b).RunsAs s (.next (s.fop op rm ftz d a b)) := .own rfl rfl

theorem runsAs_of_flagSpec {i : Instr} {x : FlagSpec} (h : flagSpec i = some x) (s : State) : x.RunsAs s (exec i s) := by
  cases i with
  | fadd d a b => cases h; exact s.fop_runsAs ..
  | faddM d a b m => cases h; exact s.fop_runsAs ..
  | fsub d a b => cases h; exact s.fop_runsAs ..
  | fsubM d a b m => cases h; exact s.fop_runsAs ..
  | fmul d a b => cases h; exact s.fop_runsAs ..
  | fmulM d a b m => cases h; exact s.fop_runsAs ..
  | ffma d a b m => cases h; exact .own rfl rfl
  | fmin d a b => cases h; exact .own rfl rfl
  | fmax d a b => cases h; exact .own rfl rfl
  | fcvt d a c => cases h; exact .own rfl rfl
  | frnd d a rm => cases h; exact .own rfl rfl
  | frcp d a => cases h; exact s.special1_runsAs ..
  | frsq d a => cases h; exact s.special1_runsAs ..
  | fex2 d a => cases h; exact s.special1_runsAs ..
  | flg2 d a => cases h; exact s.special1_runsAs ..
  | fsin d a => cases h; exact s.special1_runsAs ..
  | fcos d a => cases h; exact s.special1_runsAs ..
  | hadd2 d a bf b => cases h; exact s.hop_runsAs (by decide) (plainMod bf a) d a (lowReg b)
  | hadd2M d a b m => cases h; exact s.hop_runsAs (by decide) m d a b
  | hmul2 d a bf b => cases h; exact s.hop_runsAs (by decide) (plainMod bf a) d a (lowReg b)
  | hmul2M d a b m => cases h; exact s.hop_runsAs (by decide) m d a b
  | hfma2 d a b m => cases h; exact .own rfl (funext fun l => halves_eq_pairOf _ _ _ _)
  | _ => cases h

/-- Settles O2: each instruction of the table runs as a vector instruction with flags that computes the entry's values;
`State.vectorF_spec` says what such an instruction leaves. -/
theorem laneValuesAndFlagsAreWritten : Obligations.LaneValuesAndFlagsAreWritten := by
  intro s i x hx hs hc hr hf
  obtain ⟨regs, f, he, hv, hregs⟩ := runsAs_of_flagSpec hx s
  obtain ⟨hdone, hval, hflg, hother, hsame, hbytes⟩ :=
    State.vectorF_spec hs (State.canonical_tidy hc) (State.regs_held s regs fun g hg => hr g (hregs g hg)) hf f
  rw [hv] at hval hflg
  exact ⟨_, he, hdone, hval, .of_flg hflg, hother, hsame, hbytes⟩

end Sys2Proof.Machine
end

section
/-!
SUPPORT. Predicate-producing instructions: comparisons and logic as the table gives them, the lanes they write, their
words, and the comparison codes that are no instruction; the statement about them.
-/

namespace Sys2Proof.Machine

/-! ## Comparisons and logic on bits -/

/-- Less and equal decide every comparison of two numbers. -/
theorem holds_eq_compares (c : Cmp) (x y : Int) : c.holds (decide (x < y)) (decide (x = y)) = compares c x y := by
  cases c with
  | eq => rfl
  | ne => simp [Cmp.holds, compares]
  | lt => rfl
  | le => simp [Cmp.holds, compares, le_iff_lt_or_eq]
  | gt => rw [Cmp.holds, compares, ← Bool.decide_or, ← decide_not, decide_eq_decide, ← le_iff_lt_or_eq, not_le]
  | ge => rw [Cmp.holds, compares, ← decide_not, decide_eq_decide, not_lt]

theorem int_eq_compares (c : Cmp) (sg : Bool) {w : Nat} (x y : BitVec w) :
    Cmp.int c sg x y = compares c (asInt sg x) (asInt sg y) := by
  have hlt : (if sg then x.slt y else x.ult y) = decide (asInt sg x < asInt sg y) := by
    cases sg
    · simp [asInt, BitVec.ult_eq_decide]
    · simp [asInt, BitVec.slt_eq_decide]
  have heq : (x == y) = decide (asInt sg x = asInt sg y) := by
    rw [beq_eq_decide, decide_eq_decide]
    cases sg
    · simp [asInt, BitVec.toNat_inj]
    · simp [asInt, BitVec.toInt_inj]
  rw [Cmp.int, hlt, heq, holds_eq_compares]

theorem bne_zero_eq_toNat_ne (x : Word) : (x != 0) = decide (x.toNat ≠ 0) := by
  rw [bne, beq_eq_decide, ← decide_not, decide_eq_decide]
  exact not_congr (BitVec.toNat_inj (y := 0)).symm

theorem getLsbD_logic (op : LogOp) (x y : Mask) {l : Nat} (hl : l < 32) :
    (logic op x y).getLsbD l = bitLogic op (x.getLsbD l) (y.getLsbD l) := by
  cases op with
  | and => exact BitVec.getLsbD_and
  | or => exact BitVec.getLsbD_or
  | xor => exact BitVec.getLsbD_xor
  | andn => simp [logic, bitLogic, hl]

/-! ## Masks of lanes -/

/-- A bit of an active lane in the mask of the active lanes where a test holds. -/
theorem State.getLsbD_laneMask (s : State) (f : Nat → Bool) {l : Nat} (hl : l < 32) (ha : s.cur.act.getLsbD l = true) :
    (s.laneMask f).getLsbD l = f l := by
  have hmem : l ∈ s.actLanes.filter f ↔ f l = true := by
    rw [List.mem_filter, State.actLanes, mem_lanes]
    exact and_iff_right ⟨hl, ha⟩
  rw [State.laneMask, getLsbD_maskOf _ l hl, Bool.eq_iff_iff, decide_eq_true_iff, hmem]

/-- The mask of one bit in every lane. -/
theorem getLsbD_spread (b : Bool) {l : Nat} (hl : l < 32) : (if b then 0xFFFFFFFF#32 else 0 : Mask).getLsbD l = b := by
  cases b
  · exact BitVec.getLsbD_zero
  · exact (BitVec.getLsbD_allOnes (v := 32)).trans (decide_eq_true hl)

/-- Bits of a mask replaced in some lanes. -/
theorem getLsbD_merge (old new m : Mask) {l : Nat} (hl : l < 32) :
    ((old &&& ~~~m) ||| (new &&& m)).getLsbD l = if m.getLsbD l then new.getLsbD l else old.getLsbD l := by
  simp only [BitVec.getLsbD_or, BitVec.getLsbD_and, BitVec.getLsbD_not, decide_eq_true hl]
  cases m.getLsbD l <;> simp

/-! ## No flags -/

/-- Lanes without flags leave none. -/
theorem State.laneFlags_zero (s : State) : s.laneFlags (fun _ => 0) = 0 := by
  rw [State.laneFlags]
  induction s.actLanes with
  | nil => rfl
  | cons l ls ih => exact ih

theorem Strand.orFlags_zero (t : Strand) : t.orFlags 0 = t := by simp [Strand.orFlags]

theorem State.modMe_flags_zero (s : State) (f : Strand → Strand) : (s.modMe f).flags 0 = s.modMe f := by
  rw [State.flags, State.modMe_modMe]
  exact congrArg s.modMe (funext fun t => (f t).orFlags_zero)

/-! ## What a predicate-producing instruction runs as -/

/-- The outcome is that of an issue which names the entry's registers, writes the entry's lanes of its predicate with the
entry's bits, and joins the entry's flags. -/
def PredSpec.RunsAs (x : PredSpec) (s : State) (r : Result) : Prop :=
  ∃ (body : State → State) (v : Mask), r = .next (s.issue false (x.srcs.map vr) body) ∧
    body s = ((s.modMe fun t => t.setP x.dest.val (x.lanes s) v).flags (s.laneFlags (x.fl s))).retire ∧
    ∀ l < 32, (x.lanes s).getLsbD l = true → v.getLsbD l = x.val s l

/-- A test of each active lane. -/
theorem State.predicate_runsAs (s : State) {x : PredSpec} (hx : x.lanes s = s.cur.act) {f : State → Nat → Bool × Flags}
    (hv : ∀ l, (f s l).1 = x.val s l) (hfl : ∀ l, (f s l).2 = x.fl s l) :
    x.RunsAs s (.next (s.predicate (x.srcs.map vr) x.dest f)) := by
  have hflags : s.laneFlags (x.fl s) = s.laneFlags fun l => (f s l).2 := congrArg s.laneFlags (funext hfl).symm
  refine ⟨fun s => ((s.putP x.dest.val (s.laneMask fun l => (f s l).1)).flags (s.laneFlags fun l => (f s l).2)).retire,
    s.laneMask fun l => (f s l).1, rfl, ?_, fun l hl ha => ?_⟩
  · simp only [hx, hflags, State.putP]
  · rw [hx] at ha
    rw [State.getLsbD_laneMask s _ hl ha, hv l]

/-- A write of a predicate without registers to name and without flags. -/
theorem State.setP_runsAs (s : State) {x : PredSpec} (hsrcs : x.srcs = []) (hfl : x.fl s = fun _ => 0)
    {body : State → State} {v : Mask} (hbody : body s = (s.modMe fun t => t.setP x.dest.val (x.lanes s) v).retire)
    (hv : ∀ l < 32, v.getLsbD l = x.val s l) : x.RunsAs s (.next (s.issue false [] body)) := by
  have hregs : x.srcs.map vr = [] := by rw [hsrcs, List.map_nil]
  refine ⟨body, v, by rw [hregs], ?_, fun l hl _ => hv l hl⟩
  rw [hbody, hfl, State.laneFlags_zero, State.modMe_flags_zero]

theorem runsAs_of_predSpec {i : Instr} {x : PredSpec} (h : predSpec i = some x) (s : State) : x.RunsAs s (exec i s) := by
  cases i with
  | iscmp sg c p a b => cases h; exact s.predicate_runsAs rfl (fun l => int_eq_compares c sg _ _) fun _ => rfl
  | fscmp c p a b => cases h; exact s.predicate_runsAs rfl (fun _ => rfl) fun _ => rfl
  | vtop p a =>
    cases h
    exact s.predicate_runsAs rfl (fun l => bne_zero_eq_toNat_ne (s.v a.val l)) fun _ => rfl
  | plop op p a b => cases h; exact s.setP_runsAs rfl rfl rfl fun l hl => getLsbD_logic op _ _ hl
  | xscmp sg c p a b =>
    cases h
    exact s.setP_runsAs rfl rfl rfl fun l hl => (getLsbD_spread _ hl).trans (int_eq_compares c sg _ _)
  | _ => cases h

/-! ## Words of predicate-producing instructions -/

theorem encCmp_eq (sg : Bool) (c : Cmp) (p : PReg) : encCmp sg c p = p.val + 8 * cmpNum c + 64 * flag sg := by
  have hcode : c.code = cmpNum c := by cases c <;> rfl
  rw [encCmp, hcode]; omega

theorem encPlop_eq (op : LogOp) (p : PReg) : encPlop op p = p.val + 8 * logNum op := by
  have hcode : op.code = logNum op := by cases op <;> rfl
  rw [encPlop, hcode]; omega

theorem encodedBy_predWord : EncodedBy predWord := by
  intro i w l h
  cases i with
  | iscmp sg c p a b =>
    rw [predWord, ← encCmp_eq] at h
    exact encode_abc (op := 0x02C) rfl rfl h
  | plop op p a b =>
    rw [predWord, ← encPlop_eq] at h
    exact encode_abc (op := 0x060) rfl rfl h
  | vtop p a => exact encode_abc (op := 0x062) rfl rfl h
  | xscmp sg c p a b =>
    rw [predWord, ← encCmp_eq] at h
    exact encode_abc (op := 0x05B) rfl rfl h
  | _ => cases h

/-! ## Comparison codes without a comparison (R419, R500) -/

/-- The fields of a word of an opcode with K clear. -/
theorem ofWord_abc {op a b c : Nat} (hop : op < 1024) (ha : a < 128) (hb : b < 128) (hc : c < 128) (lit : Nat) :
    Fields.ofWord (op * 0x400000 + a * 2 ^ 14 + b * 2 ^ 7 + c) lit =
      { op := op, k := 0, a := a, b := b, c := c, lit := lit } := by
  simp only [Fields.ofWord, Fields.mk.injEq, and_true]
  omega

/-- Codes 6 and 7 name no comparison. -/
theorem decCmp?_eq_none {p k sg : Nat} (hp : p < 8) (hk : k = 6 ∨ k = 7) : decCmp? (p + 8 * k + 64 * sg) = none := by
  have hcode : (p + 8 * k + 64 * sg) / 8 % 8 = k := by omega
  rw [decCmp?, hcode]
  rcases hk with rfl | rfl <;> rfl

/-- A comparison of the base table whose code names none raises ILLENC. -/
theorem decode_eq_illenc {op a b c : Nat} (hop : op = 0x02C ∨ op = 0x05B) (ha : a < 128) (hb : b < 128) (hc : c < 128)
    (hnone : decCmp? a = none) : decode (op * 0x400000 + a * 2 ^ 14 + b * 2 ^ 7 + c) 0 = .error .illenc := by
  have hlt : op < 1024 := by omega
  have hdiv : (op * 0x400000 + a * 2 ^ 14 + b * 2 ^ 7 + c) / 0x400000 % 1024 = op := by omega
  have hparse : ∀ lit, parseFields { op := op, k := 0, a := a, b := b, c := c, lit := lit } = none := fun lit => by
    rcases hop with rfl | rfl
    · simp [parseFields, parse02, hnone]
    · simp [parseFields, parse05, hnone]
  have hmap : baseMapped op = true := by rcases hop with rfl | rfl <;> rfl
  rw [decode, hdiv, decodeAs, ofWord_abc hlt ha hb hc]
  simp [decodeFields, hmap, hparse]

/-- Settles O3: each instruction of the table issues with a write of its predicate in its lanes and a join of its flags;
`State.pred_spec` says what such an issue leaves. -/
theorem predicatesAreWritten : Obligations.PredicatesAreWritten := by
  refine ⟨encodedBy_predWord, fun base p k sg b c hbase hp hk hsg hb hc => ?_, fun s l hl => ?_,
    fun s i x hx hs hc hr => ?_⟩
  · have hnone := decCmp?_eq_none (sg := sg) hp hk
    have ha : p + 8 * k + 64 * sg < 128 := by omega
    rcases hbase with rfl | rfl
    · exact decode_eq_illenc (op := 0x02C) (.inl rfl) ha hb hc hnone
    · exact decode_eq_illenc (op := 0x05B) (.inr rfl) ha hb hc hnone
  · exact getLsbD_spread true hl
  · obtain ⟨body, v, he, hbody, hv⟩ := runsAs_of_predSpec hx s
    obtain ⟨hdone, hp, hflg, hsame, hbytes⟩ :=
      State.pred_spec hs (State.canonical_tidy hc) (State.regs_held s x.srcs hr) x.dest.val (x.lanes s) v _ hbody
    refine ⟨_, he, hdone, fun h0 l hl => ?_, .of_flg hflg, ⟨fun q hq => ?_, rfl⟩, hsame, hbytes⟩
    · rw [hp, if_pos ⟨rfl, h0⟩, getLsbD_merge _ _ _ hl]
      split_ifs with hm
      · exact hv l hl hm
      · rfl
    · rw [hp, if_neg fun h => hq h.1]

end Sys2Proof.Machine
end

section
/-!
SUPPORT. Uniform instructions: what the model computes from the 64-bit registers is the number that the entry names, the
words of Table 21-8, and the numbers of XGET that name no value; the statement about them.
-/

namespace Sys2Proof.Machine

/-! ## Registers as numbers modulo a power of two (R499) -/

theorem bitVec_sub {w : Nat} (x y : BitVec w) : x - y = BitVec.ofInt w (x.toNat - y.toNat) := by
  rw [Int.sub_eq_add_neg, BitVec.ofInt_add, BitVec.ofInt_neg, BitVec.sub_eq_add_neg]; simp

theorem bitVec_mul {w : Nat} (x y : BitVec w) : x * y = BitVec.ofNat w (x.toNat * y.toNat) := by
  simp [BitVec.ofNat_mul]

/-- The shift by the width or more, which the model cuts off, moves every bit out. -/
theorem bitVec_shiftLeft {w : Nat} (x : BitVec w) (n : Nat) : shiftLeft x n = BitVec.ofNat w (x.toNat * 2 ^ n) := by
  have hcut : shiftLeft x n = x <<< n := by
    unfold shiftLeft
    split_ifs with h
    · exact (BitVec.shiftLeft_eq_zero h).symm
    · rfl
  rw [hcut, ← Nat.shiftLeft_eq]; rfl

theorem bitVec_shiftRight {w : Nat} (x : BitVec w) (n : Nat) : x >>> n = BitVec.ofNat w (x.toNat / 2 ^ n) := by
  apply BitVec.eq_of_toNat_eq
  rw [BitVec.toNat_ushiftRight, Nat.shiftRight_eq_div_pow, BitVec.toNat_ofNat, Nat.mod_eq_of_lt]
  exact (Nat.div_le_self _ _).trans_lt x.isLt

/-- An immediate of seven bits fits a double word. -/
theorem toNat_imm (k : Fin 128) : (BitVec.ofNat 64 k.val).toNat = k.val :=
  Nat.mod_eq_of_lt (k.isLt.trans (by decide))

theorem logic_eq_wordLogic (op : LogOp) (x y : DWord) : logic op x y = wordLogic op x y := by cases op <;> rfl

/-! ## What a uniform instruction runs as -/

/-- The outcome is that of an issue which names registers that the strand may name, and writes the entry's value to its
uniform register. -/
def UniSpec.RunsAs (x : UniSpec) (s : State) (r : Result) : Prop :=
  ∃ (regs : List Reg) (body : State → State), r = .next (s.issue false regs body) ∧ s.Named regs ∧
    body s = (s.putX x.dest.val (x.val s)).retire

/-- In supervisor mode a privileged instruction issues as any other (R237). -/
theorem State.issue_sup {s : State} (h : s.me.sup = true) (regs : List Reg) (body : State → State) :
    s.issue true regs body = s.issue false regs body := by
  simp only [State.issue, h, Bool.not_true, Bool.and_false]

/-- A tile of the workgroup may be named. -/
theorem State.named_tile {s : State} {n : Nat} (h : n < s.myWg.ntiles) : s.Named [.tile n] := by
  have hrange : s.regRange (.tile n) = none := if_pos h
  exact ⟨by simp [hrange], rfl⟩

/-- A function of uniform registers and immediates. -/
theorem State.uniform_runsAs (s : State) {d : XReg} {f g : State → DWord} (h : f s = g s) :
    (uni d g).RunsAs s (.next (s.uniform d f)) :=
  ⟨[], _, rfl, ⟨rfl, rfl⟩, congrArg (fun v => (s.putX d.val v).retire) h⟩

theorem runsAs_of_uniSpec {i : Instr} {x : UniSpec} (h : uniSpec i = some x) {s : State} (hok : x.ok s) :
    x.RunsAs s (exec i s) := by
  cases i with
  | xadd d a b => cases h; exact s.uniform_runsAs (BitVec.add_def _ _)
  | xaddImm d a k =>
    cases h
    exact s.uniform_runsAs ((BitVec.add_def _ _).trans (by rw [toNat_imm]; rfl))
  | xsub d a b => cases h; exact s.uniform_runsAs (bitVec_sub _ _)
  | xmul d a b => cases h; exact s.uniform_runsAs (bitVec_mul _ _)
  | xlop op d a b => cases h; exact s.uniform_runsAs (logic_eq_wordLogic op _ _)
  | xshl d a b => cases h; exact s.uniform_runsAs (bitVec_shiftLeft _ _)
  | xshlImm d a k =>
    cases h
    exact s.uniform_runsAs ((bitVec_shiftLeft _ _).trans (by rw [toNat_imm]; rfl))
  | xshr d a b => cases h; exact s.uniform_runsAs (bitVec_shiftRight _ _)
  | xshrImm d a k =>
    cases h
    exact s.uniform_runsAs ((bitVec_shiftRight _ _).trans (by rw [toNat_imm]; rfl))
  | xmov d a => cases h; exact s.uniform_runsAs rfl
  | xmovi d w => cases h; exact s.uniform_runsAs rfl
  | xget d k => cases h; exact s.uniform_runsAs rfl
  | movsX d c =>
    cases h
    have hgo : (c.val = 0x12 && s.flagsOpen) = false := by
      by_cases hc : c.val = 0x12
      · rw [hok hc, Bool.and_false]
      · rw [decide_eq_false hc, Bool.false_and]
    refine ⟨[], _, rfl, ⟨rfl, rfl⟩, ?_⟩
    simp only [State.afterFlags, hgo, Bool.false_eq_true, if_false]
  | csrr d n =>
    cases h
    obtain ⟨hsup, hreqs, hcsr⟩ := hok
    obtain ⟨v, hv⟩ := Option.isSome_iff_exists.1 hcsr
    refine ⟨[], _, congrArg Host.Outcome.next (State.issue_sup hsup [] _), ⟨rfl, rfl⟩, ?_⟩
    simp only [State.serial, State.afterReqs, hreqs, List.isEmpty_nil, if_true, hv, Option.getD_some]
  | sqry d t => cases h; exact ⟨[.tile t.val], _, rfl, State.named_tile hok, rfl⟩
  | _ => cases h

/-! ## Words of uniform instructions (Table 21-8) -/

theorem logOp_code_eq (op : LogOp) : op.code = logNum op := by cases op <;> rfl

theorem encXlopA_eq (op : LogOp) (d : XReg) : encXlopA op d = d.val + 64 * (logNum op / 2) := by
  rw [encXlopA, logOp_code_eq]; omega

theorem encXlopB_eq (op : LogOp) (a : XReg) : encXlopB op a = a.val + 64 * (logNum op % 2) := by
  rw [encXlopB, logOp_code_eq]; omega

theorem encodedBy_uniWord : EncodedBy uniWord := by
  intro i w l h
  cases i with
  | xadd d a b => exact encode_abc (op := 0x050) rfl rfl h
  | xaddImm d a k => exact encode_abc (op := 0x051) rfl rfl h
  | xsub d a b => exact encode_abc (op := 0x052) rfl rfl h
  | xmul d a b => exact encode_abc (op := 0x053) rfl rfl h
  | xlop op d a b =>
    rw [uniWord, ← encXlopA_eq, ← encXlopB_eq] at h
    exact encode_abc (op := 0x054) rfl rfl h
  | xshl d a b => exact encode_abc (op := 0x055) rfl rfl h
  | xshlImm d a k => exact encode_abc (op := 0x056) rfl rfl h
  | xshr d a b => exact encode_abc (op := 0x057) rfl rfl h
  | xshrImm d a k => exact encode_abc (op := 0x058) rfl rfl h
  | xmov d a => exact encode_abc (op := 0x059) rfl rfl h
  | xmovi d v => exact encode_abc (op := 0x05A) rfl rfl h
  | xscmp sg c p a b => exact encodedBy_predWord (.xscmp sg c p a b) w l h
  | xld d a k => exact encode_abc (op := 0x05C) rfl rfl h
  | xst b a k => exact encode_abc (op := 0x05D) rfl rfl h
  | xget d k => exact encode_abc (op := 0x05E) rfl rfl h
  | _ => cases h

/-! ## Numbers of XGET without a value (R502) -/

/-- A number above 33 is in no entry of Table 9-2: whatever the destination, the operands do not parse. -/
theorem parseFields_xget_eq_none {d k : Nat} (hk : 33 < k) :
    parseFields { op := 0x05E, k := 0, a := d, b := 0, c := k, lit := 0 } = none := by
  have hfin : fin? 34 k = none := dif_neg (by omega)
  simp [parseFields, parse05, hfin]

theorem decode_xget_eq_illenc {d k : Nat} (hd : d < 128) (hk : 33 < k) (hk' : k < 128) :
    decode (0x17800000 + d * 2 ^ 14 + k) 0 = .error .illenc := by
  have hdiv : (0x17800000 + d * 2 ^ 14 + k) / 0x400000 % 1024 = 0x05E := by omega
  have hword : Fields.ofWord (0x17800000 + d * 2 ^ 14 + k) 0 = { op := 0x05E, k := 0, a := d, b := 0, c := k, lit := 0 } :=
    ofWord_abc (op := 0x05E) (b := 0) (by decide) hd (by decide) hk' 0
  have hmap : baseMapped 0x05E = true := rfl
  rw [decode, hdiv, decodeAs, ite_self, hword]
  simp [decodeFields, hmap, parseFields_xget_eq_none hk]

/-- Settles O4: each instruction of the table issues with a write of its entry's value to its uniform register;
`State.putX_spec` says what such an issue leaves. -/
theorem uniformValuesAreWritten : Obligations.UniformValuesAreWritten := by
  refine ⟨encodedBy_uniWord, fun d k hd hk hk' => decode_xget_eq_illenc hd hk hk', fun s i x hx hs hc hok => ?_⟩
  obtain ⟨regs, body, he, hnamed, hbody⟩ := runsAs_of_uniSpec hx hok
  exact ⟨_, he, State.putX_spec hs (State.canonical_tidy hc) hnamed x.dest.val (x.val s) hbody⟩

end Sys2Proof.Machine
end
